-- ==== Sys2Proof/Word.lean ====
section
/-! DEFINITION. The block's word types (00_scope.md rule R9): GPU ports move 32 bits, DMA and CDROM ports 8,
a VRAM pixel is 16. -/
namespace Sys2Proof

/-- A byte of a DMA register, a CDROM port or main RAM (rule R9). -/
abbrev Byte := BitVec 8

/-- A 16-bit field: palette and page references, sizes and positions (rules R148, R149). -/
abbrev Half := BitVec 16

/-- A GP0 or GP1 word, GPUREAD, GPUSTAT, a DMA register (rule R9). -/
abbrev Word := BitVec 32

/-- A VRAM pixel: 4:0 red, 9:5 green, 14:10 blue, 15 mask (rule R31). -/
abbrev Pixel := BitVec 16

end Sys2Proof
end

