-- ==== Sys2Proof/Config.lean ====
section
/-! DEFINITION. The parameters of 00_scope.md rule R8 as one record of plain data with the defaults of that rule,
the types of the renderer's contract (rule R253), and the FREE VALUES: constants with no body, so that nothing can
be proved of them beyond their being functions. The record stands in State (assumption 1): exec and step have no
other argument that could carry a parameter. -/
namespace Sys2Proof

/-! ### Register records shared by the State, the instructions and the draw-state snapshot -/

/-- The texture window: four 5-bit fields (rule R42). -/
structure TexWindow where
  maskX   : BitVec 5
  maskY   : BitVec 5
  offsetX : BitVec 5
  offsetY : BitVec 5
  deriving DecidableEq, Repr

/-- A drawing-area corner (rules R43, R44). -/
structure Corner where
  x : BitVec 10
  y : BitVec 10
  deriving DecidableEq, Repr

/-- The drawing offset: two 11-bit two's-complement numbers, so each lies in [-1024, 1023] (rule R45). Its
integer value is `BitVec.toInt`. -/
structure DrawOffset where
  x : BitVec 11
  y : BitVec 11
  deriving DecidableEq, Repr

/-- The two mask settings (rule R46). -/
structure MaskSetting where
  setMaskWhileDrawing : Bool
  checkMaskBeforeDraw : Bool
  deriving DecidableEq, Repr

/-! ### The draw batch handed to the renderer (rule R253) -/

/-- A triangle has three vertices, a segment two (rule R253). -/
inductive Shape where
  | triangle
  | segment
  deriving DecidableEq, Repr

/-- A vertex of a batch: the position as decoded, an 8-bit colour, texture coordinates as integers (rule R253). -/
structure Vertex where
  x : Int
  y : Int
  r : Byte
  g : Byte
  b : Byte
  u : Nat
  v : Nat
  deriving DecidableEq, Repr

/-- The draw-state snapshot a batch carries (rule R253, D62). -/
structure Snapshot where
  drawMode          : BitVec 14
  texWindow         : TexWindow
  drawAreaTL        : Corner
  drawAreaBR        : Corner
  drawOffset        : DrawOffset
  mask              : MaskSetting
  texDisableAllowed : Bool
  deriving DecidableEq, Repr

/-- A draw batch (rule R253). -/
structure DrawBatch where
  shape           : Shape
  vertices        : List Vertex
  gouraud         : Bool
  textured        : Bool
  semiTransparent : Bool
  rawTexture      : Bool
  palette         : Half
  page            : Half
  state           : Snapshot
  deriving DecidableEq, Repr

/-- VRAM as the list of the pixels written so far, by pixel number `y * VRAM_WIDTH + x` (rules R31, R101). -/
abbrev Vram := List (Nat × Pixel)

/-- One pixel the rasterizer writes. -/
structure PixelWrite where
  x : Nat
  y : Nat
  p : Pixel
  deriving DecidableEq, Repr

/-! ### The disc-image provider (rule R8 `Disc`, D64) -/

/-- What `Disc.position` answers: eight BCD bytes, in the order GetlocP sends them (rule R527, D64). -/
structure DiscPosition where
  track     : Byte
  index     : Byte
  relMinute : Byte
  relSecond : Byte
  relFrame  : Byte
  absMinute : Byte
  absSecond : Byte
  absFrame  : Byte
  deriving DecidableEq, Repr, Inhabited

/-- The disc-image provider as plain data: what it holds is listed; what is not listed is answered by the free
values below (assumption 2). -/
structure Disc where
  present     : Bool
  firstTrack  : Nat
  lastTrack   : Nat
  /-- start sector of each listed track; track 0 is the lead-out -/
  trackStarts : List (Nat × Int)
  positions   : List (Int × DiscPosition)
  /-- the 2352 bytes of each sector the disc holds; it holds none below 0 (rule R515) -/
  sectors     : List (Int × List Byte)
  deriving DecidableEq, Repr, Inhabited

/-! ### The parameters -/

/-- The parameters of rule R8. `Rasterize` is `Config.rasterize` below. -/
structure Config where
  vramWidth            : Nat
  vramHeight           : Nat
  fifoCap              : Nat
  argBufferWords       : Nat
  polylineMaxVertices  : Nat
  lineSentinel         : Word
  linesPerFrame        : Nat
  gpuCyclesPerLine     : Nat
  gpuIrqSignals        : Bool
  gp107SourceQuirk     : Bool
  /-- rule R602's alternative, not a parameter of rule R8: an unrecognized GP1 command is logged instead of faulting
  (assumption 16) -/
  gp1UnknownDegrades   : Bool
  /-- how many DMA channels there are; the address map of rule R104 has room for seven (assumption 3) -/
  dmaChannels          : Nat
  ramSize              : Nat
  dmaRequireDpcrEnable : Bool
  dmaLlMaxNodes        : Nat
  cdSectorData         : Nat
  cdSectorRaw          : Nat
  cdStepsPerSector1x   : Nat
  cdStepsPerSector2x   : Nat
  cdPoweronStat        : Byte
  /-- the last four bytes of the GetID reply -/
  cdRegion             : List Byte
  disc                 : Disc
  deriving DecidableEq, Repr

/-- FREE VALUE. The disc of the default parameters: rule R8 gives `Disc` no default (assumption 2). -/
opaque Config.anyDisc : Disc

/-- FREE VALUE. `Rasterize` (rules R8, R252; D12): the pixels the renderer writes for a batch, in order. The model
assumes nothing of it except that it is a function of the VRAM and the batch; the VRAM is given as its size and the
pixel at each column and row, so how VRAM is stored has no part in it (assumption 4). -/
opaque Config.rasterize (width height : Nat) (pixels : Nat → Nat → Pixel) (b : DrawBatch) : List PixelWrite

/-- FREE VALUE. The pixel of that number at power-on: a draw per pixel (rule R31, D7; assumption 5). -/
opaque Config.vramAtPowerOn : Nat → Pixel

/-- FREE VALUE. The byte of main RAM at that address before anything has written it (assumption 6). -/
opaque Config.ramAtPowerOn : Nat → Byte

/-- FREE VALUE. `gpuReadLatch` at power-on: a draw (rule R36, D17; assumption 7). -/
opaque Config.gpuReadLatchAtPowerOn : Word

/-- FREE VALUE. Byte `i` of `lastHeader` at power-on: a draw (rule R68, D50; assumption 8). -/
opaque Config.lastHeaderAtPowerOn : Nat → Byte

/-- FREE VALUE. `ANY8`: the `n`-th draw of a run, read as 8 bits (rule R14; assumption 9). -/
opaque Config.any8 : Nat → Byte

/-- FREE VALUE. `ANY16`: the `n`-th draw of a run, read as 16 bits (rule R14; assumption 9). -/
opaque Config.any16 : Nat → Half

/-- FREE VALUE. `Disc.trackStart` of a track the disc does not list (rule R516, D64; assumption 2). -/
opaque Config.trackStartUnlisted : Nat → Int

/-- FREE VALUE. `Disc.position` of a sector the disc does not list (rule R527, D64; assumption 2). -/
opaque Config.positionUnlisted : Int → DiscPosition

/-- The defaults of rule R8, and of rule R602 ("the spec's default is the fault"). -/
def Config.default : Config where
  vramWidth            := 1024
  vramHeight           := 512
  fifoCap              := 16
  argBufferWords       := 32
  polylineMaxVertices  := 16
  lineSentinel         := 0x55555555#32
  linesPerFrame        := 263
  gpuCyclesPerLine     := 3413
  gpuIrqSignals        := true
  gp107SourceQuirk     := false
  gp1UnknownDegrades   := false
  dmaChannels          := 7
  ramSize              := 0x200000
  dmaRequireDpcrEnable := false
  dmaLlMaxNodes        := 65536
  cdSectorData         := 0x800
  cdSectorRaw          := 0x924
  cdStepsPerSector1x   := 1000
  cdStepsPerSector2x   := 500
  cdPoweronStat        := 0x00#8
  cdRegion             := [0x53#8, 0x43#8, 0x45#8, 0x41#8]
  disc                 := Config.anyDisc

/-- The parameters the model takes. The two polyline bounds are rule R204's ("A model given parameters that break
it refuses them at configuration"); the others are what the rules that use a parameter presuppose of it: a modulus
is not 0 (R12, R370), every channel has its addresses, its enables and its flag (R55, R56, R104), RAM is whole words and
holds one at least (R107, R421), the slices of rule R482 lie inside the
2352-byte sector, the power-on stat byte has at most one mode flag (R62), the region is four bytes (R8)
(assumption 10). -/
def Config.accepts (c : Config) : Bool :=
  decide (1 + c.polylineMaxVertices * 2 - 1 ≤ c.argBufferWords) && decide (2 ≤ c.polylineMaxVertices)
  && decide (12 ≤ c.argBufferWords)
  && decide (0 < c.vramWidth) && decide (0 < c.vramHeight)
  && decide (0 < c.linesPerFrame) && decide (0 < c.gpuCyclesPerLine)
  && decide (c.dmaChannels ≤ 7)
  && decide (4 ≤ c.ramSize) && decide (c.ramSize % 4 = 0)
  && decide (24 + c.cdSectorData ≤ 2352) && decide (12 + c.cdSectorRaw ≤ 2352)
  && decide (c.cdSectorData ≤ c.cdSectorRaw)
  && (c.cdPoweronStat &&& 0xE0#8 == 0#8 || c.cdPoweronStat &&& 0xE0#8 == 0x20#8
      || c.cdPoweronStat &&& 0xE0#8 == 0x40#8 || c.cdPoweronStat &&& 0xE0#8 == 0x80#8)
  && decide (c.cdRegion.length = 4)

end Sys2Proof
end

