-- ==== Sys2Proof/Syntax.lean ====
section
/-! DEFINITION. The instructions: one constructor per row of spec/opcode_table.json (30_encoding.md). By D1 the
instructions are the commands the block decodes: whole GP0 commands (command word and arguments), GP1 words, DMA
byte accesses, CDROM port accesses and CDROM command bytes. Operands are the decoded fields; ignored bits are dropped.
Beside them: the encoded form an instruction is decoded from (`Raw`) and the host transactions (`Txn`). -/
namespace Sys2Proof

/-! ### Operand records -/

/-- Colour word, bits 23:0 (rule R146). -/
structure Rgb where
  r : Byte
  g : Byte
  b : Byte
  deriving DecidableEq, Repr

/-- Vertex word: two 11-bit signed coordinates (rule R147); the integer value is `BitVec.toInt`. -/
structure Pos where
  x : BitVec 11
  y : BitVec 11
  deriving DecidableEq, Repr

/-- UV word, bits 15:0 (rule R148). -/
structure Uv where
  u : Byte
  v : Byte
  deriving DecidableEq, Repr

/-- Position or size word of the fill and copy commands and of the explicit-size rectangles (rule R149). -/
structure Xy where
  x : Half
  y : Half
  deriving DecidableEq, Repr

/-- A vertex of a Gouraud polyline after the first: its colour word and its position word (rule R150). -/
structure ColoredPos where
  color : Rgb
  pos   : Pos
  deriving DecidableEq, Repr

/-- The kinds of a collecting GP0 command (rule R32). -/
inductive Kind where
  | fillRectangle
  | polygon
  | line
  | rectangle
  | copyCpuToVram
  | copyVramToCpu
  | copyVramToVram
  deriving DecidableEq, Repr

/-! ### Instructions -/

/-- One constructor per row of the opcode table, in the table's order. In the drawing commands `semi` is opcode bit
25 and `raw` opcode bit 24 (rules R143 to R145). -/
inductive Instr where
  -- GP0, rules R220 to R229, R250 to R282, R300 to R311
  | gp0Nop
  | gp0ClearCache
  | gp0Fill (c : Rgb) (pos size : Xy)
  | gp0Irq
  | gp0PolyF3 (semi raw : Bool) (c : Rgb) (v0 v1 v2 : Pos)
  | gp0PolyFT3 (semi raw : Bool) (c : Rgb) (v0 : Pos) (t0 : Uv) (palette : Half) (v1 : Pos) (t1 : Uv) (page : Half)
      (v2 : Pos) (t2 : Uv)
  | gp0PolyF4 (semi raw : Bool) (c : Rgb) (v0 v1 v2 v3 : Pos)
  | gp0PolyFT4 (semi raw : Bool) (c : Rgb) (v0 : Pos) (t0 : Uv) (palette : Half) (v1 : Pos) (t1 : Uv) (page : Half)
      (v2 : Pos) (t2 : Uv) (v3 : Pos) (t3 : Uv)
  | gp0PolyG3 (semi raw : Bool) (c0 : Rgb) (v0 : Pos) (c1 : Rgb) (v1 : Pos) (c2 : Rgb) (v2 : Pos)
  | gp0PolyGT3 (semi raw : Bool) (c0 : Rgb) (v0 : Pos) (t0 : Uv) (palette : Half) (c1 : Rgb) (v1 : Pos) (t1 : Uv)
      (page : Half) (c2 : Rgb) (v2 : Pos) (t2 : Uv)
  | gp0PolyG4 (semi raw : Bool) (c0 : Rgb) (v0 : Pos) (c1 : Rgb) (v1 : Pos) (c2 : Rgb) (v2 : Pos) (c3 : Rgb) (v3 : Pos)
  | gp0PolyGT4 (semi raw : Bool) (c0 : Rgb) (v0 : Pos) (t0 : Uv) (palette : Half) (c1 : Rgb) (v1 : Pos) (t1 : Uv)
      (page : Half) (c2 : Rgb) (v2 : Pos) (t2 : Uv) (c3 : Rgb) (v3 : Pos) (t3 : Uv)
  | gp0LineF2 (semi : Bool) (c : Rgb) (v0 v1 : Pos)
  | gp0LineFP (semi : Bool) (c : Rgb) (vs : List Pos)
  | gp0LineG2 (semi : Bool) (c0 : Rgb) (v0 : Pos) (c1 : Rgb) (v1 : Pos)
  | gp0LineGP (semi : Bool) (c0 : Rgb) (v0 : Option Pos) (rest : List ColoredPos)
  | gp0RectVar (semi raw : Bool) (c : Rgb) (anchor : Pos) (size : Xy)
  | gp0RectTVar (semi raw : Bool) (c : Rgb) (anchor : Pos) (t : Uv) (palette : Half) (size : Xy)
  | gp0Rect1 (semi raw : Bool) (c : Rgb) (anchor : Pos)
  | gp0RectT1 (semi raw : Bool) (c : Rgb) (anchor : Pos) (t : Uv) (palette : Half)
  | gp0Rect8 (semi raw : Bool) (c : Rgb) (anchor : Pos)
  | gp0RectT8 (semi raw : Bool) (c : Rgb) (anchor : Pos) (t : Uv) (palette : Half)
  | gp0Rect16 (semi raw : Bool) (c : Rgb) (anchor : Pos)
  | gp0RectT16 (semi raw : Bool) (c : Rgb) (anchor : Pos) (t : Uv) (palette : Half)
  | gp0CopyVramVram (src dst size : Xy)
  | gp0CopyCpuVram (dst size : Xy)
  | gp0CopyVramCpu (src size : Xy)
  | gp0DrawMode (mode : BitVec 14)
  | gp0TexWindow (w : TexWindow)
  | gp0DrawAreaTl (c : Corner)
  | gp0DrawAreaBr (c : Corner)
  | gp0DrawOffset (o : DrawOffset)
  | gp0Mask (m : MaskSetting)
  | gp0Unrecognized (w : Word)
  | gp0Data (pixel0 pixel1 : Pixel)
  -- GP1, rules R341 to R352
  | gp1Reset
  | gp1ResetCmdBuffer
  | gp1AckIrq
  | gp1DisplayEnable (off : Bool)
  | gp1DmaDirection (dir : BitVec 2)
  | gp1DisplayArea (x : BitVec 10) (y : BitVec 9)
  | gp1HRange (x1 x2 : BitVec 12)
  | gp1VRange (y1 y2 : BitVec 10)
  | gp1DisplayMode (mode : Byte)
  | gp1TexDisableAllow (allow : Bool)
  | gp1GpuInfo (index : BitVec 4)
  | gp1Unrecognized (w : Word)
  -- GPU reads, rules R320, R360
  | gpuGpuread
  | gpuGpustat
  -- DMA byte accesses, rules R401 to R412; `n` a channel, `b` a byte number, `d` the data
  | dmaMadrWrite (n : Fin 7) (b : Fin 4) (d : Byte)
  | dmaBcrWrite (n : Fin 7) (b : Fin 4) (d : Byte)
  | dmaChcrWrite (n : Fin 7) (b : Fin 4) (d : Byte)
  | dmaReservedWrite (n : Fin 7) (b : Fin 4) (d : Byte)
  | dmaDpcrWrite (b : Fin 4) (d : Byte)
  | dmaDicrWriteLow (b : Fin 3) (d : Byte)
  | dmaDicrAck (d : Byte)
  /-- `a` the relative address; `data` is the byte written, or none for a read -/
  | dmaUnmapped (a : BitVec 7) (data : Option Byte)
  | dmaRead (a : BitVec 7)
  -- CDROM port accesses, rules R461 to R478
  | cdIndexWrite (index : BitVec 2)
  | cdCommand (d : Byte)
  | cdSoundmapData (d : Byte)
  | cdSoundmapCoding (d : Byte)
  | cdVolRr (d : Byte)
  | cdParam (d : Byte)
  | cdIntEnable (codes : BitVec 5)
  | cdVolLl (d : Byte)
  | cdVolRl (d : Byte)
  | cdRequest (d : Byte)
  | cdIntAck (clearParams : Bool) (codes : BitVec 5)
  | cdVolLr (d : Byte)
  | cdVolApply (d : Byte)
  | cdStatusRead
  | cdResponseRead
  | cdDataRead
  | cdIntRead
  -- the shell toggle, rule R480
  | shell
  -- CDROM command bytes, rules R511 to R537; run inside CD.COMMAND (rule R512)
  | cdGetstat
  | cdSetloc
  | cdPlay
  | cdReadn
  | cdMotoron
  | cdStop
  | cdPause
  | cdInit
  | cdMute
  | cdDemute
  | cdSetfilter
  | cdSetmode
  | cdGetlocl
  | cdGetlocp
  | cdSetsession
  | cdGettn
  | cdGettd
  | cdSeekl
  | cdSeekp
  | cdTest
  | cdGetid
  | cdReads
  | cdReadtoc
  | cdUnlock (variant : BitVec 3)
  | cdUnrecognized (d : Byte)
  deriving DecidableEq, Repr

/-! ### Encoded forms -/

/-- What an instruction is decoded from, one constructor per format of the opcode table. -/
inductive Raw where
  /-- the words of one GP0 command in the order received, command word first; a polyline's sentinel is not among
  them (rules R142, R150, R207) -/
  | gp0 (words : List Word)
  /-- a GP0 word of the CPU->VRAM data phase (rule R302) -/
  | gp0Data (w : Word)
  /-- a GP1 word (rule R151) -/
  | gp1 (w : Word)
  /-- a 32-bit read of GPU offset 0 (false) or 4 (true) (rule R102) -/
  | gpuRead (stat : Bool)
  /-- a byte write at a relative DMA address (rule R104) -/
  | dmaWrite (a : BitVec 7) (d : Byte)
  /-- a byte read at a relative DMA address (rule R104) -/
  | dmaRead (a : BitVec 7)
  /-- a byte write to CDROM port `p` with the bank index `i` (rule R460) -/
  | cdWrite (p i : BitVec 2) (d : Byte)
  /-- a byte read of CDROM port `p` with the bank index `i` (rule R460) -/
  | cdRead (p i : BitVec 2)
  /-- a CDROM command byte (rule R510) -/
  | cdCommand (d : Byte)
  /-- the shell toggle (rule R480) -/
  | shell
  deriving DecidableEq, Repr

/-! ### Host transactions (rule R140) -/

/-- The three components (rule R2). -/
inductive Comp where
  | gpu
  | dma
  | cdrom
  deriving DecidableEq, Repr

/-- Access widths (rule R140). -/
inductive Width where
  | w8
  | w16
  | w32
  deriving DecidableEq, Repr

/-- The width in bits, as faults record it (rule R103). -/
def Width.bits : Width → Nat
  | .w8 => 8
  | .w16 => 16
  | .w32 => 32

/-- The width in bytes. -/
def Width.bytes : Width → Nat
  | .w8 => 1
  | .w16 => 2
  | .w32 => 4

/-- What the host can do to the block in one atomic act: rule R140's four transactions, and the host CPU's own
store of a byte to main RAM, which rule R116 says a later DMA transfer sees (assumption 11). -/
inductive Txn where
  | write (c : Comp) (off : Nat) (width : Width) (data : Word)
  | read (c : Comp) (off : Nat) (width : Width)
  | tick (c : Comp) (cycles : Nat)
  | shell
  | ramStore (addr : Nat) (data : Byte)
  deriving DecidableEq, Repr

end Sys2Proof
end

