-- ==== Sys2Proof/Machine/State.lean ====
section
/-! DEFINITION. The state of the block (10_state.md), as plain data: the three components under the spec's names, the
external main RAM that DMA reads and writes, the parameters, and what the model itself needs: the draw counter, the
output events, the bytes a read returns, and the host transactions still to come. Then the faults of rule R601, the
refusals, and the power-on state (rules R701 to R703). -/
namespace Sys2Proof.Machine

/-! ### GPU -/

/-- The GP0 decoder state (rule R32). -/
inductive CmdState where
  | idle
  | collect (kind : Kind)
  | cpuToVramData
  deriving DecidableEq, Repr

/-- What GPUREAD returns (rule R35). -/
inductive ReadMode where
  | normal
  | vramRead
  deriving DecidableEq, Repr

/-- The one transfer cursor of CPU->VRAM and VRAM->CPU (rule R34). -/
structure Cursor where
  startX : Nat
  startY : Nat
  endX   : Nat
  endY   : Nat
  currX  : Nat
  currY  : Nat
  deriving DecidableEq, Repr

/-- The GPU state (rules R30 to R48). -/
structure Gpu where
  vram              : Vram
  cmdState          : CmdState
  args              : List Word
  argCount          : Nat
  currArg           : Nat
  cursor            : Cursor
  readMode          : ReadMode
  gpuReadLatch      : Word
  irq               : Bool
  irqSignalled      : Bool
  displayDisable    : Bool
  dmaDirection      : BitVec 2
  displayAreaX      : BitVec 10
  displayAreaY      : BitVec 9
  hRangeX1          : BitVec 12
  hRangeX2          : BitVec 12
  vRangeY1          : BitVec 10
  vRangeY2          : BitVec 10
  dispMode          : Byte
  drawMode          : BitVec 14
  texWindow         : TexWindow
  drawAreaTL        : Corner
  drawAreaBR        : Corner
  drawOffset        : DrawOffset
  mask              : MaskSetting
  texDisableAllowed : Bool
  dotAccum          : Nat
  line              : Nat
  frame             : Nat
  odd               : Bool
  deriving DecidableEq, Repr

/-! ### DMA -/

/-- A channel's registers (rules R51 to R53); the fourth word holds no state (rule R54). -/
structure DmaChannel where
  madr : Word
  bcr  : Word
  chcr : Word
  deriving DecidableEq, Repr

/-- The DMA state (rule R50). Of the seven channels the first `DMA_CHANNELS` exist (rule R8); no address names another
(assumption 3). -/
structure Dma where
  channels : Vector DmaChannel 7
  dpcr     : Word
  dicr     : Word
  deriving DecidableEq, Repr

/-! ### CDROM -/

/-- The CDROM state (rules R60 to R69). -/
structure Cd where
  index          : BitVec 2
  stat           : Byte
  paramFifo      : List Byte
  responseFifo   : List Byte
  intFifo        : List Byte
  frontSignalled : Bool
  dataFifo       : List Byte
  busy           : Bool
  ie             : BitVec 5
  modeReg        : Byte
  currentSector  : Int
  seekTarget     : Int
  seekPending    : Bool
  sectorTimer    : Nat
  lastHeader     : Vector Byte 8
  request        : Byte
  soundMapCoding : Byte
  volLL          : Byte
  volLR          : Byte
  volRL          : Byte
  volRR          : Byte
  volApply       : Byte
  filterFile     : Byte
  filterChannel  : Byte
  muted          : Bool
  session        : Byte
  deriving DecidableEq, Repr

/-! ### Outputs -/

/-- The diagnostics of rules R602 and R604. -/
inductive LogEvent where
  | unknownGP0 (w : Word)
  | copyTooLarge (w h : Nat)
  | dmaUnmappedWrite (a : Nat) (d : Byte)
  | dmaUnmappedRead (a : Nat)
  | unknownCdCommand (d : Byte)
  /-- rule R602's alternative to fault 1 -/
  | unknownGP1 (w : Word)
  deriving DecidableEq, Repr

/-- What the block sends out (rule R14; the last two are the value of a read and the result of `gpu.step`, rules R140
and R370). -/
inductive Event where
  /-- one call of the interrupt controller's `trigger` (D54) -/
  | trigger (id : Comp)
  /-- one batch handed to the renderer (D12) -/
  | batch (b : DrawBatch)
  /-- a diagnostic (D55) -/
  | log (l : LogEvent)
  /-- the value a host read returns, in its low bits -/
  | returned (width : Width) (value : Word)
  /-- the Boolean `gpu.step` returns -/
  | vblank (frameEnded : Bool)
  deriving DecidableEq, Repr

/-! ### The whole -/

/-- Main RAM as the list of the bytes written so far, by address (rule R107; assumption 6). -/
abbrev Memory := List Host.Cell

/-- The state. `cfg`, `ram`, `draws`, `out`, `readBuf` and `script` are the model's own (assumptions 1, 6, 9, 11,
13); the rest is 10_state.md's. -/
structure State where
  gpu     : Gpu
  dma     : Dma
  cd      : Cd
  /-- the parameters of rule R8; no step changes them -/
  cfg     : Config
  /-- the external main RAM (rules R70, R107) -/
  ram     : Memory
  /-- how many draws have been taken (rule R14) -/
  draws   : Nat
  /-- the events sent out so far, oldest first -/
  out     : List Event
  /-- the bytes the read now in progress has returned, lowest address first -/
  readBuf : List Byte
  /-- the host transactions still to come, next first (rule R113) -/
  script  : List Txn
  deriving DecidableEq, Repr

/-! ### Stops -/

/-- The faults of rule R601 (D56), each with the information the rule records and the state it leaves: "the
transaction that raises it has the effects performed before the raise and no others". All are safe: the model stops
where the source calls the condition fatal or gives no behaviour. -/
inductive Fault where
  /-- code 1: raised by an unrecognized GP1 command, GP1.UNRECOGNIZED, unless the parameters take rule R602's
  alternative (rule R352) -/
  | unknownGP1 (w : Word) (left : State)
  /-- code 2: raised by a GPU access that is not 32 bits wide at offset 0 or 4, or a CDROM access wider than 8 bits
  (rules R103, R106) -/
  | hostAccessWidth (off width : Nat) (left : State)
  /-- code 3: raised by a write of CHCR byte 3 that starts channel `n` in sync mode 3 (rule R420) -/
  | dmaReservedSyncMode (n : Nat) (left : State)
  /-- code 4: raised by a write of CHCR byte 3 that starts a combination rule R427 refuses -/
  | dmaUnsupportedTransfer (n dir sync : Nat) (left : State)
  /-- code 5: raised by a linked list of more than `DMA_LL_MAX_NODES` headers (rule R428) -/
  | dmaLinkedListBound (addr : Nat) (left : State)
  deriving DecidableEq, Repr

/-- What the model gives no meaning to. Safe: nothing follows. -/
inductive Refusal where
  /-- an instruction without a meaning, by its mnemonic; raised only by exec's arms -/
  | notModelled (mnemonic : String)
  /-- a transaction that names an address outside the component's port window or outside main RAM, which rule R140
  does not count among the transactions; raised by step (assumption 14) -/
  | outsideWindow (c : Comp) (off width : Nat)
  /-- a store of the host CPU outside main RAM; raised by step (assumption 14) -/
  | outsideRam (addr : Nat)
  deriving DecidableEq, Repr

/-! ### Power-on -/

/-- The GPU at power-on (rule R701). The cursor and `args` are "unspecified, never read before written" (assumption
15); VRAM has no pixel written (assumption 5). -/
def Gpu.powerOn (c : Config) : Gpu where
  vram              := []
  cmdState          := .idle
  args              := List.replicate c.argBufferWords 0#32
  argCount          := 0
  currArg           := 0
  cursor            := ⟨0, 0, 0, 0, 0, 0⟩
  readMode          := .normal
  gpuReadLatch      := Config.gpuReadLatchAtPowerOn
  irq               := false
  irqSignalled      := false
  displayDisable    := true
  dmaDirection      := 0#2
  displayAreaX      := 0#10
  displayAreaY      := 0#9
  hRangeX1          := 0x200#12
  hRangeX2          := 0xC00#12
  vRangeY1          := 0x010#10
  vRangeY2          := 0x100#10
  dispMode          := 0#8
  drawMode          := 0#14
  texWindow         := ⟨0#5, 0#5, 0#5, 0#5⟩
  drawAreaTL        := ⟨0#10, 0#10⟩
  drawAreaBR        := ⟨0#10, 0#10⟩
  drawOffset        := ⟨0#11, 0#11⟩
  mask              := ⟨false, false⟩
  texDisableAllowed := false
  dotAccum          := 0
  line              := 0
  frame             := 0
  odd               := false

/-- The DMA engine at power-on (rule R702). -/
def Dma.powerOn : Dma where
  channels := Vector.replicate 7 ⟨0#32, 0#32, 0#32⟩
  dpcr     := 0x07654321#32
  dicr     := 0#32

/-- The CDROM controller at power-on (rule R703). -/
def Cd.powerOn (c : Config) : Cd where
  index          := 0#2
  stat           := c.cdPoweronStat
  paramFifo      := []
  responseFifo   := []
  intFifo        := []
  frontSignalled := false
  dataFifo       := []
  busy           := false
  ie             := 0#5
  modeReg        := 0#8
  currentSector  := 0
  seekTarget     := 0
  seekPending    := false
  sectorTimer    := 0
  lastHeader     := Vector.ofFn fun i => Config.lastHeaderAtPowerOn i.val
  request        := 0#8
  soundMapCoding := 0#8
  volLL          := 0#8
  volLR          := 0#8
  volRL          := 0#8
  volRR          := 0#8
  volApply       := 0#8
  filterFile     := 0#8
  filterChannel  := 0#8
  muted          := false
  session        := 0#8

/-- The block at power-on under the parameters `c` (rules R700 to R704): no draw taken, nothing sent out, no
transaction pending, no byte of RAM written. -/
def State.powerOn (c : Config) : State where
  gpu     := Gpu.powerOn c
  dma     := Dma.powerOn
  cd      := Cd.powerOn c
  cfg     := c
  ram     := []
  draws   := 0
  out     := []
  readBuf := []
  script  := []

/-- "A model given parameters that break it refuses them at configuration" (rule R204). -/
def State.configure (c : Config) : Option State := if c.accepts then some (State.powerOn c) else none

/-- The machine right after reset: power-on with the default parameters (rules R8, R700). -/
def State.reset : State := State.powerOn Config.default

end Sys2Proof.Machine
end

