-- ==== Sys2Proof/Machine/Ops.lean ====
section
/-! DEFINITION. The named operations over memory, VRAM, registers, FIFOs, draws and output events (00_scope.md rules
R12 to R14, 20_memory.md). The block takes no exceptions and has no trap entry or return (rules R620, R621): what
stands in that place is the one output event of an interrupt, `emit (.trigger _)`, and the fault outcome. -/
namespace Sys2Proof.Machine

/-- What a meaning answers. -/
abbrev Out := Host.Outcome State Fault Refusal

/-- First `o`, then `f` from the state it leaves; a stop stays a stop. -/
def andThen (o : Out) (f : State → Out) : Out :=
  match o with
  | .next s => f s
  | .fault r => .fault r
  | .refused r => .refused r

/-- `for i in [0, n)`: `f 0`, then `f 1`, … (rule R15). -/
def repeatFor {σ : Type} (n : Nat) (f : Nat → σ → σ) (s : σ) : σ :=
  match n with
  | 0 => s
  | k + 1 => f k (repeatFor k f s)

/-! ### Sparse storage: a list of (address, contents), addresses strictly rising -/

/-- What is listed at `a`; none where nothing has been written. -/
def cellsGet {α : Type} (m : List (Nat × α)) (a : Nat) : Option α :=
  match m with
  | [] => none
  | (b, v) :: m => if a = b then some v else cellsGet m a

/-- Write `v` at `a`, keeping the addresses strictly rising. -/
def cellsSet {α : Type} (m : List (Nat × α)) (a : Nat) (v : α) : List (Nat × α) :=
  match m with
  | [] => [(a, v)]
  | (b, u) :: m =>
    if a < b then (a, v) :: (b, u) :: m
    else if a = b then (a, v) :: m
    else (b, u) :: cellsSet m a v

/-- Every listed address lies in `[lo, bound)` and they rise strictly. -/
def cellsWf {α : Type} (lo bound : Nat) (m : List (Nat × α)) : Bool :=
  match m with
  | [] => true
  | (b, _) :: m => decide (lo ≤ b) && decide (b < bound) && cellsWf (b + 1) bound m

/-! ### VRAM (rules R12, R31, R101) -/

/-- The number of the pixel `(x mod VRAM_WIDTH, y mod VRAM_HEIGHT)`. -/
def pixelNumber (c : Config) (x y : Nat) : Nat := (y % c.vramHeight) * c.vramWidth + x % c.vramWidth

/-- The pixel of that number: as last written, else its power-on draw (D7; assumption 5). -/
def pixelAt (v : Vram) (n : Nat) : Pixel := (cellsGet v n).getD (Config.vramAtPowerOn n)

/-- `VramRead(x, y)`. -/
def vramRead (c : Config) (v : Vram) (x y : Nat) : Pixel := pixelAt v (pixelNumber c x y)

/-- `VramWrite(x, y, p)`. -/
def vramWrite (c : Config) (v : Vram) (x y : Nat) (p : Pixel) : Vram := cellsSet v (pixelNumber c x y) p

/-- The canonical form of VRAM: strictly rising pixel numbers inside the grid. -/
def Vram.wf (c : Config) (v : Vram) : Bool := cellsWf 0 (c.vramWidth * c.vramHeight) v

/-- The pixel writes `ps`, in order, each modulo the grid (rule R252; assumption 4). -/
def applyPixels (c : Config) (ps : List PixelWrite) (v : Vram) : Vram :=
  match ps with
  | [] => v
  | p :: ps => applyPixels c ps (vramWrite c v p.x p.y p.p)

/-! ### Main RAM (rules R12, R107, R108) -/

/-- The byte at `a`: as last written, else what RAM held at power-on (assumption 6). -/
def memByte (m : Memory) (a : Nat) : Byte := (cellsGet m a).getD (Config.ramAtPowerOn a)

/-- Write one byte. -/
def memSetByte (m : Memory) (a : Nat) (d : Byte) : Memory := cellsSet m a d

/-- The canonical form of main RAM: strictly rising addresses below `RAM_SIZE`. -/
def Memory.wf (c : Config) (m : Memory) : Bool := cellsWf 0 c.ramSize m

/-- The word whose byte 0 is `b0` (rule R108). -/
def wordOfLE (b0 b1 b2 b3 : Byte) : Word := ((b3 ++ b2) ++ (b1 ++ b0) : BitVec ((8 + 8) + (8 + 8)))

/-- Byte `b` of a register, bits `8b+7 : 8b` (rule R108). -/
def wordByte (w : Word) (b : Nat) : Byte := w.extractLsb' (8 * b) 8

/-- `R[b] <- d`: byte `b` replaced (44_dma.md). -/
def setWordByte (w : Word) (b : Nat) (d : Byte) : Word :=
  (w &&& ~~~(0xFF#32 <<< (8 * b))) ||| (d.setWidth 32 <<< (8 * b))

/-- `MemRead(addr, 4)`. -/
def memRead (m : Memory) (a : Nat) : Word :=
  wordOfLE (memByte m a) (memByte m (a + 1)) (memByte m (a + 2)) (memByte m (a + 3))

/-- `MemWrite(addr, 4, v)`. -/
def memWrite (m : Memory) (a : Nat) (v : Word) : Memory :=
  memSetByte (memSetByte (memSetByte (memSetByte m a (wordByte v 0)) (a + 1) (wordByte v 1)) (a + 2) (wordByte v 2))
    (a + 3) (wordByte v 3)

/-! ### DMA addresses (rules R107, R421) -/

/-- `ramAddr(v) = (v[23:0] mod RAM_SIZE) & ~3`. -/
def ramAddr (c : Config) (v : Word) : Nat :=
  let a := (v.extractLsb' 0 24).toNat % c.ramSize
  a - a % 4

/-- `(addr + delta) mod RAM_SIZE`, the remainder never negative (rules R10, R421). -/
def stepAddr (c : Config) (addr : Nat) (delta : Int) : Nat := (((addr : Int) + delta) % (c.ramSize : Int)).toNat

/-! ### Draws and events (rule R14) -/

/-- `emit`. -/
def emit (e : Event) (s : State) : State := { s with out := s.out ++ [e] }

/-- `ANY8`: the next draw. -/
def draw8 (s : State) : Byte × State := (Config.any8 s.draws, { s with draws := s.draws + 1 })

/-- `ANY16`: the next draw. -/
def draw16 (s : State) : Half × State := (Config.any16 s.draws, { s with draws := s.draws + 1 })

/-! ### FIFOs (rule R13) -/

/-- `push(F, b)`: dropped when `F` holds `FIFO_CAP` entries. -/
def fifoPush (c : Config) (f : List Byte) (b : Byte) : List Byte := if f.length < c.fifoCap then f ++ [b] else f

/-! ### The bytes a read returns -/

/-- Put bytes on the host bus, the lowest address first. -/
def returnBytes (bs : List Byte) (s : State) : State := { s with readBuf := s.readBuf ++ bs }

/-- The four bytes of a word, byte 0 first (rule R108). -/
def bytesOfWord (w : Word) : List Byte := [wordByte w 0, wordByte w 1, wordByte w 2, wordByte w 3]

/-- "The bytes assembled little-endian" (rule R105). -/
def wordOfBytesLE (bs : List Byte) : Word :=
  match bs with
  | [] => 0#32
  | b :: bs => (wordOfBytesLE bs <<< 8) ||| b.setWidth 32

/-! ### Channel registers -/

/-- The registers of channel `n`. -/
def channel (s : State) (n : Fin 7) : DmaChannel := s.dma.channels[n]

/-- Replace the registers of channel `n`. -/
def setChannel (s : State) (n : Fin 7) (ch : DmaChannel) : State :=
  { s with dma.channels := s.dma.channels.set n ch }

end Sys2Proof.Machine
end

