-- ==== Sys2Proof/Machine/Flags.lean ====
section
/-! DEFINITION. The computed status words: GPUSTAT (rule R360), the CDROM status register (rule R461), the DMA master
flag (rule R440), and the stat byte's mode flags (rules R62, R480, R513). None is stored. -/
namespace Sys2Proof.Machine

/-! ### Display-mode fields (rule R40) -/

/-- `dispMode.hres1`. -/
def hres1 (g : Gpu) : BitVec 2 := g.dispMode.extractLsb' 0 2

/-- `dispMode.vres`. -/
def vres (g : Gpu) : Bool := g.dispMode.getLsbD 2

/-- `dispMode.videoMode`. -/
def videoMode (g : Gpu) : Bool := g.dispMode.getLsbD 3

/-- `dispMode.colorDepth`. -/
def colorDepth (g : Gpu) : Bool := g.dispMode.getLsbD 4

/-- `dispMode.interlace`. -/
def interlace (g : Gpu) : Bool := g.dispMode.getLsbD 5

/-- `dispMode.hres2`. -/
def hres2 (g : Gpu) : Bool := g.dispMode.getLsbD 6

/-- `dispMode.reverse`. -/
def reverse (g : Gpu) : Bool := g.dispMode.getLsbD 7

/-! ### GPUSTAT (rule R360) -/

/-- Bit 27: a VRAM->CPU read is pending. -/
def vramReadReady (g : Gpu) : Bool := g.readMode == .vramRead

/-- Bit 25, by DMA direction: 0, 1, bit 28 (always 1), bit 27. -/
def dataRequest (g : Gpu) : Bool :=
  match g.dmaDirection.toNat with
  | 0 => false
  | 1 => true
  | 2 => true
  | _ => vramReadReady g

/-- GPUSTAT, from bit 31 down. -/
def gpustat (g : Gpu) : Word :=
  (BitVec.ofBool g.odd ++ (g.dmaDirection ++ (1#1 ++ (BitVec.ofBool (vramReadReady g) ++ (1#1
    ++ (BitVec.ofBool (dataRequest g) ++ (BitVec.ofBool g.irq ++ (BitVec.ofBool g.displayDisable
    ++ (BitVec.ofBool (interlace g) ++ (BitVec.ofBool (colorDepth g) ++ (BitVec.ofBool (videoMode g)
    ++ (BitVec.ofBool (vres g) ++ (hres1 g ++ (BitVec.ofBool (hres2 g)
    ++ (BitVec.ofBool (g.drawMode.getLsbD 11 && g.texDisableAllowed) ++ (BitVec.ofBool (reverse g)
    ++ (BitVec.ofBool (if interlace g then g.odd else true)
    ++ (BitVec.ofBool g.mask.checkMaskBeforeDraw ++ (BitVec.ofBool g.mask.setMaskWhileDrawing
    ++ (g.drawMode.extractLsb' 0 11)))))))))))))))))))
    : BitVec (1 + (2 + (1 + (1 + (1 + (1 + (1 + (1 + (1 + (1 + (1 + (1 + (2 + (1 + (1 + (1 + (1 + (1 + (1
        + 11))))))))))))))))))))

/-! ### CDROM status register (rule R461) -/

/-- The CDROM status register, from bit 7 down. -/
def cdStatus (c : Config) (d : Cd) : Byte :=
  (BitVec.ofBool d.busy ++ (BitVec.ofBool (decide (0 < d.dataFifo.length))
    ++ (BitVec.ofBool (decide (0 < d.responseFifo.length))
    ++ (BitVec.ofBool (decide (d.paramFifo.length < c.fifoCap))
    ++ (BitVec.ofBool (decide (d.paramFifo.length = 0)) ++ (0#1 ++ d.index)))))
    : BitVec (1 + (1 + (1 + (1 + (1 + (1 + 2)))))))

/-- The interrupt-flag view of port 3 (rule R470). -/
def cdIntFlag (d : Cd) : Byte :=
  match d.intFifo with
  | [] => 0xE0#8
  | code :: _ => 0xE0#8 ||| (code &&& 7#8)

/-- The interrupt-enable view of port 3 (rule R470). -/
def cdIntEnableView (d : Cd) : Byte := 0xE0#8 ||| d.ie.setWidth 8

/-! ### The stat byte (rules R62, R480, R513) -/

/-- The mode of rule R62. -/
inductive DriveMode where
  | none
  | reading
  | seeking
  | playing
  deriving DecidableEq, Repr

/-- `setMode(m)`: bits 5, 6, 7 one-hot (rule R513). -/
def setMode (m : DriveMode) (stat : Byte) : Byte :=
  (stat &&& 0x1F#8) ||| (match m with
    | .none => 0x00#8
    | .reading => 0x20#8
    | .seeking => 0x40#8
    | .playing => 0x80#8)

/-- `stat[1] <- 1`. -/
def motorOn (stat : Byte) : Byte := stat ||| 0x02#8

/-- `stat[1] <- 0`. -/
def motorOff (stat : Byte) : Byte := stat &&& 0xFD#8

/-- The shell toggle of the stat byte (rule R480): opening sets bit 4 and clears bits 0, 2, 5, 6, 7; closing clears
bit 4 only. -/
def toggleShell (stat : Byte) : Byte :=
  if stat.getLsbD 4 then stat &&& 0xEF#8 else (stat &&& 0x0A#8) ||| 0x10#8

/-! ### DICR (rules R56, R412, R440) -/

/-- `enabledChannelsMask`. -/
def dicrEnabled (dicr : Word) : BitVec 7 := dicr.extractLsb' 16 7

/-- `completedChannelsMask`. -/
def dicrCompleted (dicr : Word) : BitVec 7 := dicr.extractLsb' 24 7

/-- The master flag's condition: `forceIRQ`, or `masterEnable` and an enabled completed channel (rule R440). -/
def masterCondition (dicr : Word) : Bool :=
  dicr.getLsbD 15 || (dicr.getLsbD 23 && (dicrEnabled dicr &&& dicrCompleted dicr) != 0#7)

/-- `dicr[31] <- mf`. -/
def setMasterFlag (dicr : Word) (mf : Bool) : Word :=
  (BitVec.ofBool mf ++ dicr.extractLsb' 0 31 : BitVec (1 + 31))

/-- The clear-on-write-1 of byte 3 (rule R412): `dicr[31]` and bits 23:0 stay. -/
def dicrAck (dicr : Word) (d : Byte) : Word :=
  (dicr.extractLsb' 31 1 ++ ((dicrCompleted dicr &&& ~~~(d.extractLsb' 0 7)) ++ dicr.extractLsb' 0 24)
    : BitVec (1 + (7 + 24)))

/-- The completion flag of channel `n`, if its DICR enable is set (rule R430, C1). -/
def dicrComplete (dicr : Word) (n : Nat) : Word :=
  if dicr.getLsbD (16 + n) then dicr ||| (1#32 <<< (24 + n)) else dicr

end Sys2Proof.Machine
end

