-- ==== Sys2Proof/Machine/Operands.lean ====
section
/-! DEFINITION. Operand assembly shared by the meanings: colours, vertices and batches (41_gp0_draw.md), FIFO pops and
responses (rules R13, R479), BCD and disc positions (rule R513), the disc oracle (D64). -/
namespace Sys2Proof.Machine

/-! ### Drawing operands -/

/-- `to15(r, g, b)`: the low three bits of each channel dropped, bit 15 = 0 (rule R251). -/
def to15 (c : Rgb) : Pixel :=
  (0#1 ++ (c.b.extractLsb' 3 5 ++ (c.g.extractLsb' 3 5 ++ c.r.extractLsb' 3 5)) : BitVec (1 + (5 + (5 + 5))))

/-- An untextured vertex (rule R253): `u = v = 0`. -/
def flatVertex (p : Pos) (c : Rgb) : Vertex := ⟨p.x.toInt, p.y.toInt, c.r, c.g, c.b, 0, 0⟩

/-- A textured vertex (rule R253). -/
def texVertex (p : Pos) (c : Rgb) (t : Uv) : Vertex := ⟨p.x.toInt, p.y.toInt, c.r, c.g, c.b, t.u.toNat, t.v.toNat⟩

/-- The draw-state snapshot (rule R253, D62). -/
def snapshot (g : Gpu) : Snapshot :=
  ⟨g.drawMode, g.texWindow, g.drawAreaTL, g.drawAreaBR, g.drawOffset, g.mask, g.texDisableAllowed⟩

/-- An untextured batch: `palette = page = 0` (rule R253). -/
def plainBatch (shape : Shape) (gouraud semi raw : Bool) (g : Gpu) (vs : List Vertex) : DrawBatch :=
  ⟨shape, vs, gouraud, false, semi, raw, 0#16, 0#16, snapshot g⟩

/-- A textured triangle batch (rule R253). -/
def texBatch (gouraud semi raw : Bool) (palette page : Half) (g : Gpu) (vs : List Vertex) : DrawBatch :=
  ⟨.triangle, vs, gouraud, true, semi, raw, palette, page, snapshot g⟩

/-- The two triangles of a quad: {0,1,2}, then {1,2,3} (rules R280, R282). -/
def quadTriangles (v0 v1 v2 v3 : Vertex) : List (List Vertex) := [[v0, v1, v2], [v1, v2, v3]]

/-- The segments of a line: each after the first starts at the previous one's end (rule R281). -/
def segments : List Vertex → List (List Vertex)
  | v :: w :: vs => [v, w] :: segments (w :: vs)
  | _ => []

/-- The corners of a rectangle in quad order (rule R282, D11): UV sums are not truncated. -/
def rectCorner (p : Pos) (c : Rgb) (u v w h : Nat) : Vertex :=
  ⟨p.x.toInt + w, p.y.toInt + h, c.r, c.g, c.b, u, v⟩

/-- The two triangles of an untextured rectangle (rule R282). -/
def rectTriangles (p : Pos) (c : Rgb) (w h : Nat) : List (List Vertex) :=
  quadTriangles (rectCorner p c 0 0 0 0) (rectCorner p c 0 0 w 0) (rectCorner p c 0 0 0 h) (rectCorner p c 0 0 w h)

/-- The two triangles of a textured rectangle (rule R282). -/
def texRectTriangles (p : Pos) (c : Rgb) (t : Uv) (w h : Nat) : List (List Vertex) :=
  quadTriangles (rectCorner p c t.u.toNat t.v.toNat 0 0) (rectCorner p c (t.u.toNat + w) t.v.toNat w 0)
    (rectCorner p c t.u.toNat (t.v.toNat + h) 0 h) (rectCorner p c (t.u.toNat + w) (t.v.toNat + h) w h)

/-- `Rasterize(v, b)` (rule R252, D12): the pixels written depend on the pixels of `v` only (assumption 4). -/
def rasterized (c : Config) (b : DrawBatch) (v : Vram) : Vram :=
  applyPixels c (Config.rasterize c.vramWidth c.vramHeight (vramRead c v) b) v

/-- `emit Batch(b)` then `vram <- Rasterize(vram, b)` (rule R252). -/
def drawBatch (b : DrawBatch) (s : State) : State :=
  let s := emit (.batch b) s
  { s with gpu.vram := rasterized s.cfg b s.gpu.vram }

/-- The batches of a command, in order (rules R252, R280, D73). -/
def drawBatches (bs : List DrawBatch) (s : State) : State :=
  match bs with
  | [] => s
  | b :: bs => drawBatches bs (drawBatch b s)

/-- The texture page of a textured rectangle: `zext(drawMode[8:0])` (rule R282). -/
def rectPage (g : Gpu) : Half := (g.drawMode.extractLsb' 0 9).setWidth 16

/-! ### CDROM operands -/

/-- `readParam()`: the front of the parameter FIFO, or a draw if it is empty (rules R13, R479). -/
def readParam (s : State) : Byte × State :=
  match s.cd.paramFifo with
  | [] => draw8 s
  | b :: bs => (b, { s with cd.paramFifo := bs })

/-- The front of the response FIFO, or a draw if it is empty (rule R465). -/
def popResponse (s : State) : Byte × State :=
  match s.cd.responseFifo with
  | [] => draw8 s
  | b :: bs => (b, { s with cd.responseFifo := bs })

/-- The front of the data FIFO, or a draw if it is empty (rule R466). -/
def popData (s : State) : Byte × State :=
  match s.cd.dataFifo with
  | [] => draw8 s
  | b :: bs => (b, { s with cd.dataFifo := bs })

/-- `writeResponse(b)` (rule R479). -/
def writeResponse (b : Byte) (s : State) : State :=
  { s with cd.responseFifo := fifoPush s.cfg s.cd.responseFifo b }

/-- The response bytes of one answer, in order. -/
def writeResponses (bs : List Byte) (s : State) : State :=
  match bs with
  | [] => s
  | b :: bs => writeResponses bs (writeResponse b s)

/-- `respond(code, bs)` (rule R479). -/
def respond (code : Byte) (bs : List Byte) (s : State) : State :=
  let s := writeResponses bs s
  { s with cd.intFifo := fifoPush s.cfg s.cd.intFifo code }

/-- `INT1`, data ready (rule R16). -/
def int1 : Byte := 1#8

/-- `INT2`, second response. -/
def int2 : Byte := 2#8

/-- `INT3`, first response. -/
def int3 : Byte := 3#8

/-- `INT5`, error. -/
def int5 : Byte := 5#8

/-- `bcd(b)`, no check of the nibbles (rule R513, D76). -/
def bcd (b : Byte) : Nat := 10 * (b.extractLsb' 4 4).toNat + (b.extractLsb' 0 4).toNat

/-- `toBcd(n)` (rule R513, D76). -/
def toBcd (n : Nat) : Byte := (BitVec.ofNat 4 (n % 100 / 10) ++ BitVec.ofNat 4 (n % 10) : BitVec (4 + 4))

/-- `msfToSector(m, s, f)` (rule R513). -/
def msfToSector (m s f : Nat) : Int := ((m * 60 + s) * 75 + f : Nat) - 150

/-- `sectorToMsf(x)`, negative positions taken as 0 (rule R513, D76). -/
def sectorToMsf (x : Int) : Nat × Nat × Nat :=
  let t := (x + 150).toNat
  (t / 4500, t / 75 % 60, t % 75)

/-- `applySeek()` (rule R513). -/
def applySeek (s : State) : State :=
  if s.cd.seekPending then { s with cd.currentSector := s.cd.seekTarget, cd.seekPending := false } else s

/-! ### The disc oracle (D64; assumption 2) -/

/-- `Disc.trackStart(t)`. -/
def trackStart (s : State) (t : Nat) : Int :=
  (s.cfg.disc.trackStarts.lookup t).getD (Config.trackStartUnlisted t)

/-- `Disc.position(x)`. -/
def discPosition (s : State) (x : Int) : DiscPosition :=
  (s.cfg.disc.positions.lookup x).getD (Config.positionUnlisted x)

/-- The bytes of sector `x` if the disc holds it; it holds none below 0, whatever its data lists (rule R515, D64). -/
def heldSector (d : Disc) (x : Int) : Option (List Byte) := if x < 0 then none else d.sectors.lookup x

/-- Byte `i` of `Disc.readSector(x)`: the disc's, or, for a sector it does not hold, the `i`-th of the 2352 draws this
read takes (rule R515, D64; assumption 2). -/
def sectorByte (s : State) (x : Int) (i : Nat) : Byte :=
  match heldSector s.cfg.disc x with
  | some bs => bs.getD i (Config.any8 (s.draws + i))
  | none => Config.any8 (s.draws + i)

/-- The bytes `lo .. lo + n - 1` of `Disc.readSector(x)`. -/
def sectorBytes (s : State) (x : Int) (lo n : Nat) : List Byte := (List.range n).map fun i => sectorByte s x (lo + i)

/-- The draws one `Disc.readSector` takes. -/
def sectorSize : Nat := 2352

end Sys2Proof.Machine
end

