-- ==== Sys2Proof/Machine/CdCommands.lean ====
section
/-! DEFINITION. The CDROM commands (46_cdrom_commands.md), each the rule of its row without the dispatch around it:
busy and the parameter-FIFO clear are rule R512's and stand in `execCdCommand`. -/
namespace Sys2Proof.Machine

/-- `respond(INT3, [stat])`, `stat` as it is at this moment (D75). -/
def respondStat (s : State) : State := respond int3 [s.cd.stat] s

/-- `respond(INT2, [stat])`. -/
def respondStat2 (s : State) : State := respond int2 [s.cd.stat] s

/-- `stat[1] <- 1`. -/
def startMotor (s : State) : State := { s with cd.stat := motorOn s.cd.stat }

/-- `setMode(m)`. -/
def enterMode (m : DriveMode) (s : State) : State := { s with cd.stat := setMode m s.cd.stat }

/-- An unrecognized command byte (rule R511): logged, no response, no interrupt code. -/
def cdLogUnknown (d : Byte) (s : State) : State := emit (.log (.unknownCdCommand d)) s

/-- The start of a read (rule R517): the pending seek, the motor, the mode, the timer, the response. -/
def startRead (s : State) : State :=
  let s := enterMode .reading (startMotor (applySeek s))
  respondStat { s with cd.sectorTimer := 0 }

/-- A seek (rule R531): complete within the command (D43). -/
def seekNow (s : State) : State :=
  let s := respondStat (enterMode .seeking (startMotor (applySeek s)))
  respondStat2 (enterMode .none s)

/-- CD.GETSTAT (rule R514). -/
def execCdGetstat (s : State) : Out := .next (respondStat s)

/-- CD.SETLOC (rule R515). -/
def execCdSetloc (s : State) : Out :=
  let (m, s) := readParam s
  let (sec, s) := readParam s
  let (f, s) := readParam s
  .next (respondStat { s with cd.seekTarget := msfToSector (bcd m) (bcd sec) (bcd f), cd.seekPending := true })

/-- The track a Play names: none of its own where the parameter FIFO is empty, which the rule writes 0 (rule R516). -/
def playTrack (s : State) : Nat × State :=
  match s.cd.paramFifo with
  | [] => (0, s)
  | _ :: _ =>
    let (b, s) := readParam s
    (bcd b, s)

/-- CD.PLAY (rule R516). -/
def execCdPlay (s : State) : Out :=
  let (t, s) := playTrack s
  let s := if t = 0 then applySeek s else { s with cd.currentSector := trackStart s t, cd.seekPending := false }
  let s := enterMode .playing (startMotor s)
  .next (respondStat { s with cd.sectorTimer := 0 })

/-- CD.READN (rule R517). -/
def execCdReadn (s : State) : Out := .next (startRead s)

/-- CD.MOTORON (rule R518). -/
def execCdMotoron (s : State) : Out := .next (respondStat2 (respondStat (startMotor s)))

/-- CD.STOP (rule R519). -/
def execCdStop (s : State) : Out :=
  let s := enterMode .none (respondStat s)
  .next (respondStat2 { s with cd.stat := motorOff s.cd.stat })

/-- CD.PAUSE (rule R520). -/
def execCdPause (s : State) : Out := .next (respondStat2 (enterMode .none (respondStat s)))

/-- CD.INIT (rule R521). -/
def execCdInit (s : State) : Out :=
  let s := enterMode .none (startMotor s)
  .next (respondStat2 (respondStat { s with cd.modeReg := 0x20#8 }))

/-- CD.MUTE (rule R522). -/
def execCdMute (s : State) : Out := .next (respondStat { s with cd.muted := true })

/-- CD.DEMUTE (rule R523). -/
def execCdDemute (s : State) : Out := .next (respondStat { s with cd.muted := false })

/-- CD.SETFILTER (rule R524). -/
def execCdSetfilter (s : State) : Out :=
  let (file, s) := readParam s
  let (chan, s) := readParam s
  .next (respondStat { s with cd.filterFile := file, cd.filterChannel := chan })

/-- CD.SETMODE (rule R525). -/
def execCdSetmode (s : State) : Out :=
  let (m, s) := readParam s
  .next (respondStat { s with cd.modeReg := m })

/-- CD.GETLOCL (rule R526). -/
def execCdGetlocl (s : State) : Out := .next (respond int3 s.cd.lastHeader.toList s)

/-- The eight bytes of a disc position, in the order of rule R527. -/
def positionBytes (p : DiscPosition) : List Byte :=
  [p.track, p.index, p.relMinute, p.relSecond, p.relFrame, p.absMinute, p.absSecond, p.absFrame]

/-- CD.GETLOCP (rule R527). -/
def execCdGetlocp (s : State) : Out :=
  .next (respond int3 (positionBytes (discPosition s s.cd.currentSector)) s)

/-- CD.SETSESSION (rule R528). -/
def execCdSetsession (s : State) : Out :=
  let (n, s) := readParam s
  .next (respondStat2 (respondStat { s with cd.session := n }))

/-- CD.GETTN (rule R529). -/
def execCdGettn (s : State) : Out :=
  .next (respond int3 [s.cd.stat, toBcd s.cfg.disc.firstTrack, toBcd s.cfg.disc.lastTrack] s)

/-- CD.GETTD (rule R530). -/
def execCdGettd (s : State) : Out :=
  let (b, s) := readParam s
  let (m, sec, _) := sectorToMsf (trackStart s (bcd b))
  .next (respond int3 [s.cd.stat, toBcd m, toBcd sec] s)

/-- CD.SEEKL (rule R531). -/
def execCdSeekl (s : State) : Out := .next (seekNow s)

/-- CD.SEEKP (rule R532): identical to SeekL. -/
def execCdSeekp (s : State) : Out := .next (seekNow s)

/-- CD.TEST (rule R533): sub-function 0x20 answers the version, any other is rule R511's. -/
def execCdTest (s : State) : Out :=
  let (sub, s) := readParam s
  .next (if sub = 0x20#8 then respond int3 [0x94#8, 0x09#8, 0x19#8, 0xC0#8] s else cdLogUnknown 0x19#8 s)

/-- CD.GETID (rule R534): with the shell open as with no disc. -/
def execCdGetid (s : State) : Out :=
  let s := respondStat s
  .next (if s.cfg.disc.present && !s.cd.stat.getLsbD 4 then
      respond int2 ([0x02#8, 0x00#8, 0x20#8, 0x00#8] ++ s.cfg.cdRegion) s
    else respond int5 [0x08#8, 0x40#8, 0x00#8, 0x00#8, 0x00#8, 0x00#8, 0x00#8, 0x00#8] s)

/-- CD.READS (rule R535): as ReadN. -/
def execCdReads (s : State) : Out := .next (startRead s)

/-- CD.READTOC (rule R536). -/
def execCdReadtoc (s : State) : Out := .next (respondStat2 (respondStat s))

/-- CD.UNLOCK (rule R537): refused; the error bit stands in the reply only (D68). -/
def execCdUnlock (_variant : BitVec 3) (s : State) : Out :=
  .next (respond int5 [s.cd.stat ||| 0x01#8, 0x40#8] s)

/-- An unrecognized command byte (rule R511). -/
def execCdUnrecognized (d : Byte) (s : State) : Out := .next (cdLogUnknown d s)

end Sys2Proof.Machine
end

