-- ==== Sys2Proof/Decode.lean ====
section
/-! DEFINITION. Decoding: from the encoded form of 30_encoding.md and the port maps of rules R104, R460 and R510 to an
instruction, total, rejecting by name; then the encoder, written from the same tables; then the table-word decoder.
A GP0 command is decoded from all its words at once: rule R208 runs a routine only when the last has come. -/
namespace Sys2Proof

/-! ### Fields of a word -/

/-- Bit `i` of a word (rule R10). -/
def bitOf (w : Word) (i : Nat) : Bool := w.getLsbD i

/-- `w[7:0]` (rule R10). -/
def byte0 (w : Word) : Byte := w.extractLsb' 0 8

/-- `w[15:8]`. -/
def byte1 (w : Word) : Byte := w.extractLsb' 8 8

/-- `w[23:16]`. -/
def byte2 (w : Word) : Byte := w.extractLsb' 16 8

/-- `w[31:24]`: the opcode of a GP0 word, the command of a GP1 word (rules R141, R151). -/
def byte3 (w : Word) : Byte := w.extractLsb' 24 8

/-- `w[15:0]`. -/
def lowHalf (w : Word) : Half := w.extractLsb' 0 16

/-- `w[31:16]`; in a UV word the reference (rule R148). -/
def highHalf (w : Word) : Half := w.extractLsb' 16 16

/-- Colour word (rule R146). -/
def rgbOf (w : Word) : Rgb := ⟨byte0 w, byte1 w, byte2 w⟩

/-- Vertex word (rule R147). -/
def posOf (w : Word) : Pos := ⟨w.extractLsb' 0 11, w.extractLsb' 16 11⟩

/-- UV word, bits 15:0 (rule R148). -/
def uvOf (w : Word) : Uv := ⟨byte0 w, byte1 w⟩

/-- Position or size word (rule R149). -/
def xyOf (w : Word) : Xy := ⟨lowHalf w, highHalf w⟩

/-- Argument `i` of a packet; 0 past its end, which no packet of the right length reaches. -/
def argAt (ws : List Word) (i : Nat) : Word := ws.getD i 0#32

/-! ### GP0: classes, counts, packets -/

/-- What a GP0 word received in `Idle` is (rules R142, R201). -/
inductive Gp0Class where
  | immediate
  | unrecognized
  | multiword (k : Kind)
  deriving DecidableEq, Repr

/-- The opcode map of rule R142. -/
def gp0Class (op : Byte) : Gp0Class :=
  let n := op.toNat
  if n = 0x00 ∨ n = 0x01 ∨ n = 0x1F then .immediate
  else if n = 0x02 then .multiword .fillRectangle
  else if n < 0x20 then .unrecognized
  else if n < 0x40 then .multiword .polygon
  else if n < 0x60 then .multiword .line
  else if n < 0x80 then .multiword .rectangle
  else if n < 0xA0 then .multiword .copyVramToVram
  else if n < 0xC0 then .multiword .copyCpuToVram
  else if n < 0xE0 then .multiword .copyVramToCpu
  else if 0xE1 ≤ n ∧ n ≤ 0xE6 then .immediate
  else .unrecognized

/-- 1 for a set bit: the sub-fields of an opcode enter the counts of rule R205 as numbers. -/
def bitNat (b : Bool) : Nat := if b then 1 else 0

/-- `wordCount(w)` for a command word of kind `k` (rule R205). For a polyline the count is nominal. -/
def wordCount (c : Config) (k : Kind) (w : Word) : Nat :=
  let g := bitNat (bitOf w 28)
  let t := bitNat (bitOf w 26)
  match k with
  | .fillRectangle => 3
  | .polygon => 1 + (3 + bitNat (bitOf w 27)) * (1 + t + g) - g
  | .line => if bitOf w 27 then 1 + c.polylineMaxVertices * (1 + g) - g else 1 + 2 * (1 + g) - g
  | .rectangle => 2 + t + (if w.extractLsb' 27 2 = 0#2 then 1 else 0)
  | .copyVramToVram => 4
  | .copyCpuToVram => 3
  | .copyVramToCpu => 3

/-- The colour and position words of a Gouraud polyline after its first vertex, in pairs; a trailing colour word
without its position is dropped (rule R207). -/
def coloredPosOf : List Word → List ColoredPos
  | c :: p :: ws => ⟨rgbOf c, posOf p⟩ :: coloredPosOf ws
  | _ => []

/-- A polygon packet (rules R143, R150, R254 to R261). -/
def polygonOf (ws : List Word) : Instr :=
  let w := argAt ws 0
  let s := bitOf w 25
  let r := bitOf w 24
  let c := rgbOf w
  match bitOf w 28, bitOf w 27, bitOf w 26 with
  | false, false, false => .gp0PolyF3 s r c (posOf (argAt ws 1)) (posOf (argAt ws 2)) (posOf (argAt ws 3))
  | false, false, true =>
      .gp0PolyFT3 s r c (posOf (argAt ws 1)) (uvOf (argAt ws 2)) (highHalf (argAt ws 2))
        (posOf (argAt ws 3)) (uvOf (argAt ws 4)) (highHalf (argAt ws 4)) (posOf (argAt ws 5)) (uvOf (argAt ws 6))
  | false, true, false =>
      .gp0PolyF4 s r c (posOf (argAt ws 1)) (posOf (argAt ws 2)) (posOf (argAt ws 3)) (posOf (argAt ws 4))
  | false, true, true =>
      .gp0PolyFT4 s r c (posOf (argAt ws 1)) (uvOf (argAt ws 2)) (highHalf (argAt ws 2))
        (posOf (argAt ws 3)) (uvOf (argAt ws 4)) (highHalf (argAt ws 4)) (posOf (argAt ws 5)) (uvOf (argAt ws 6))
        (posOf (argAt ws 7)) (uvOf (argAt ws 8))
  | true, false, false =>
      .gp0PolyG3 s r c (posOf (argAt ws 1)) (rgbOf (argAt ws 2)) (posOf (argAt ws 3)) (rgbOf (argAt ws 4))
        (posOf (argAt ws 5))
  | true, false, true =>
      .gp0PolyGT3 s r c (posOf (argAt ws 1)) (uvOf (argAt ws 2)) (highHalf (argAt ws 2)) (rgbOf (argAt ws 3))
        (posOf (argAt ws 4)) (uvOf (argAt ws 5)) (highHalf (argAt ws 5)) (rgbOf (argAt ws 6)) (posOf (argAt ws 7))
        (uvOf (argAt ws 8))
  | true, true, false =>
      .gp0PolyG4 s r c (posOf (argAt ws 1)) (rgbOf (argAt ws 2)) (posOf (argAt ws 3)) (rgbOf (argAt ws 4))
        (posOf (argAt ws 5)) (rgbOf (argAt ws 6)) (posOf (argAt ws 7))
  | true, true, true =>
      .gp0PolyGT4 s r c (posOf (argAt ws 1)) (uvOf (argAt ws 2)) (highHalf (argAt ws 2)) (rgbOf (argAt ws 3))
        (posOf (argAt ws 4)) (uvOf (argAt ws 5)) (highHalf (argAt ws 5)) (rgbOf (argAt ws 6)) (posOf (argAt ws 7))
        (uvOf (argAt ws 8)) (rgbOf (argAt ws 9)) (posOf (argAt ws 10)) (uvOf (argAt ws 11))

/-- A line or polyline packet, the sentinel not among its words (rules R144, R150, R207, R262 to R265). -/
def lineOf (ws : List Word) : Instr :=
  let w := argAt ws 0
  let s := bitOf w 25
  let c := rgbOf w
  match bitOf w 28, bitOf w 27 with
  | false, false => .gp0LineF2 s c (posOf (argAt ws 1)) (posOf (argAt ws 2))
  | false, true => .gp0LineFP s c ((ws.drop 1).map posOf)
  | true, false => .gp0LineG2 s c (posOf (argAt ws 1)) (rgbOf (argAt ws 2)) (posOf (argAt ws 3))
  | true, true => .gp0LineGP s c (ws[1]?.map posOf) (coloredPosOf (ws.drop 2))

/-- A rectangle packet (rules R145, R150, R266 to R273). -/
def rectangleOf (ws : List Word) : Instr :=
  let w := argAt ws 0
  let s := bitOf w 25
  let r := bitOf w 24
  let c := rgbOf w
  let a := posOf (argAt ws 1)
  let t := uvOf (argAt ws 2)
  let pal := highHalf (argAt ws 2)
  match bitOf w 28, bitOf w 27, bitOf w 26 with
  | false, false, false => .gp0RectVar s r c a (xyOf (argAt ws 2))
  | false, false, true => .gp0RectTVar s r c a t pal (xyOf (argAt ws 3))
  | false, true, false => .gp0Rect1 s r c a
  | false, true, true => .gp0RectT1 s r c a t pal
  | true, false, false => .gp0Rect8 s r c a
  | true, false, true => .gp0RectT8 s r c a t pal
  | true, true, false => .gp0Rect16 s r c a
  | true, true, true => .gp0RectT16 s r c a t pal

/-- The instruction a complete packet of kind `k` stands for (rule R208). -/
def packetOf (k : Kind) (ws : List Word) : Instr :=
  match k with
  | .fillRectangle => .gp0Fill (rgbOf (argAt ws 0)) (xyOf (argAt ws 1)) (xyOf (argAt ws 2))
  | .polygon => polygonOf ws
  | .line => lineOf ws
  | .rectangle => rectangleOf ws
  | .copyVramToVram => .gp0CopyVramVram (xyOf (argAt ws 1)) (xyOf (argAt ws 2)) (xyOf (argAt ws 3))
  | .copyCpuToVram => .gp0CopyCpuVram (xyOf (argAt ws 1)) (xyOf (argAt ws 2))
  | .copyVramToCpu => .gp0CopyVramCpu (xyOf (argAt ws 1)) (xyOf (argAt ws 2))

/-- A one-word GP0 command (rules R152, R220 to R229). -/
def immediateOf (w : Word) : Instr :=
  match (byte3 w).toNat with
  | 0x00 => .gp0Nop
  | 0x01 => .gp0ClearCache
  | 0x1F => .gp0Irq
  | 0xE1 => .gp0DrawMode (w.extractLsb' 0 14)
  | 0xE2 => .gp0TexWindow ⟨w.extractLsb' 0 5, w.extractLsb' 5 5, w.extractLsb' 10 5, w.extractLsb' 15 5⟩
  | 0xE3 => .gp0DrawAreaTl ⟨w.extractLsb' 0 10, w.extractLsb' 10 10⟩
  | 0xE4 => .gp0DrawAreaBr ⟨w.extractLsb' 0 10, w.extractLsb' 10 10⟩
  | 0xE5 => .gp0DrawOffset ⟨w.extractLsb' 0 11, w.extractLsb' 11 11⟩
  | 0xE6 => .gp0Mask ⟨bitOf w 0, bitOf w 1⟩
  | _ => .gp0Unrecognized w

/-- Is the packet a polyline (rule R144)? -/
def isPolyline (k : Kind) (w : Word) : Bool := k == .line && bitOf w 27

/-! ### GP1, DMA, CDROM -/

/-- A GP1 word (rules R151, R340 to R352). -/
def gp1Of (w : Word) : Instr :=
  let n := (byte3 w).toNat
  if n = 0x00 then .gp1Reset
  else if n = 0x01 then .gp1ResetCmdBuffer
  else if n = 0x02 then .gp1AckIrq
  else if n = 0x03 then .gp1DisplayEnable (bitOf w 0)
  else if n = 0x04 then .gp1DmaDirection (w.extractLsb' 0 2)
  else if n = 0x05 then .gp1DisplayArea (w.extractLsb' 0 10) (w.extractLsb' 10 9)
  else if n = 0x06 then .gp1HRange (w.extractLsb' 0 12) (w.extractLsb' 12 12)
  else if n = 0x07 then .gp1VRange (w.extractLsb' 0 10) (w.extractLsb' 10 10)
  else if n = 0x08 then .gp1DisplayMode (byte0 w)
  else if n = 0x09 then .gp1TexDisableAllow (bitOf w 0)
  else if 0x10 ≤ n ∧ n < 0x20 then .gp1GpuInfo (w.extractLsb' 0 4)
  else .gp1Unrecognized w

/-- Is the command byte outside rule R151's map (rule R352)? -/
def gp1Unknown (w : Word) : Bool :=
  let n := (byte3 w).toNat
  (decide (0x0A ≤ n) && decide (n < 0x10)) || decide (0x20 ≤ n)

/-- The byte number of a DMA address (rule R104). -/
def dmaByteOf (a : BitVec 7) : Fin 4 := ⟨a.toNat % 4, Nat.mod_lt _ (by decide)⟩

/-- Does a register stand at the DMA address `a` (rule R104)? Below 0x70 one does where its channel is one of the
`DMA_CHANNELS` (rule R8; assumption 3). -/
def dmaMapped (c : Config) (a : BitVec 7) : Bool :=
  if a.toNat < 0x70 then decide (a.toNat / 0x10 < c.dmaChannels) else decide (a.toNat < 0x78)

/-- A byte write to the DMA window (rules R104, R400, R404). -/
def dmaWriteOf (c : Config) (a : BitVec 7) (d : Byte) : Instr :=
  let n := a.toNat
  if dmaMapped c a = false then .dmaUnmapped a (some d)
  else if h : n / 0x10 < 7 then
    let ch : Fin 7 := ⟨n / 0x10, h⟩
    match n % 0x10 / 4 with
    | 0 => .dmaMadrWrite ch (dmaByteOf a) d
    | 1 => .dmaBcrWrite ch (dmaByteOf a) d
    | 2 => .dmaChcrWrite ch (dmaByteOf a) d
    | _ => .dmaReservedWrite ch (dmaByteOf a) d
  else if n < 0x74 then .dmaDpcrWrite (dmaByteOf a) d
  else if n = 0x74 then .dmaDicrWriteLow 0 d
  else if n = 0x75 then .dmaDicrWriteLow 1 d
  else if n = 0x76 then .dmaDicrWriteLow 2 d
  else .dmaDicrAck d

/-- A byte read of the DMA window (rules R404, R405). -/
def dmaReadOf (c : Config) (a : BitVec 7) : Instr :=
  if dmaMapped c a then .dmaRead a else .dmaUnmapped a none

/-- A byte write to a CDROM port, by port and bank index (rule R460). -/
def cdWriteOf (p i : BitVec 2) (d : Byte) : Instr :=
  match p.toNat, i.toNat with
  | 0, _ => .cdIndexWrite (d.extractLsb' 0 2)
  | 1, 0 => .cdCommand d
  | 1, 1 => .cdSoundmapData d
  | 1, 2 => .cdSoundmapCoding d
  | 1, _ => .cdVolRr d
  | 2, 0 => .cdParam d
  | 2, 1 => .cdIntEnable (d.extractLsb' 0 5)
  | 2, 2 => .cdVolLl d
  | 2, _ => .cdVolRl d
  | _, 0 => .cdRequest d
  | _, 1 => .cdIntAck (d.getLsbD 6) (d.extractLsb' 0 5)
  | _, 2 => .cdVolLr d
  | _, _ => .cdVolApply d

/-- A byte read of a CDROM port (rule R460). -/
def cdReadOf (p : BitVec 2) : Instr :=
  match p.toNat with
  | 0 => .cdStatusRead
  | 1 => .cdResponseRead
  | 2 => .cdDataRead
  | _ => .cdIntRead

/-- A CDROM command byte (rules R510, R511). -/
def cdCommandOf (d : Byte) : Instr :=
  match d.toNat with
  | 0x01 => .cdGetstat
  | 0x02 => .cdSetloc
  | 0x03 => .cdPlay
  | 0x06 => .cdReadn
  | 0x07 => .cdMotoron
  | 0x08 => .cdStop
  | 0x09 => .cdPause
  | 0x0A => .cdInit
  | 0x0B => .cdMute
  | 0x0C => .cdDemute
  | 0x0D => .cdSetfilter
  | 0x0E => .cdSetmode
  | 0x10 => .cdGetlocl
  | 0x11 => .cdGetlocp
  | 0x12 => .cdSetsession
  | 0x13 => .cdGettn
  | 0x14 => .cdGettd
  | 0x15 => .cdSeekl
  | 0x16 => .cdSeekp
  | 0x19 => .cdTest
  | 0x1A => .cdGetid
  | 0x1B => .cdReads
  | 0x1E => .cdReadtoc
  | 0x50 => .cdUnlock 0
  | 0x51 => .cdUnlock 1
  | 0x52 => .cdUnlock 2
  | 0x53 => .cdUnlock 3
  | 0x54 => .cdUnlock 4
  | 0x55 => .cdUnlock 5
  | 0x56 => .cdUnlock 6
  | 0x57 => .cdUnlock 7
  | _ => .cdUnrecognized d

/-- Is the command byte outside the closed set (rule R511)? -/
def cdUnknown (d : Byte) : Bool :=
  let n := d.toNat
  n == 0x00 || n == 0x04 || n == 0x05 || n == 0x0F || n == 0x17 || n == 0x18 || n == 0x1C || n == 0x1D
    || (decide (0x1F ≤ n) && decide (n < 0x50)) || decide (0x58 ≤ n)

/-! ### The decoder -/

/-- Why a form is rejected. -/
inductive Reject where
  /-- a GP0 packet without its command word -/
  | emptyPacket
  /-- the words are not as many as the command word says (rules R205, R207) -/
  | wrongWordCount (needed got : Nat)
  deriving DecidableEq, Repr

/-- What the decoder answers. -/
inductive Decoded where
  | instr (i : Instr)
  | reject (r : Reject)
  deriving DecidableEq, Repr

/-- A whole GP0 packet (rules R201, R205, R207): a polyline may have fewer words than its nominal count, every other
command has exactly its count. -/
def gp0Of (c : Config) (ws : List Word) : Decoded :=
  match ws with
  | [] => .reject .emptyPacket
  | w :: rest =>
    match gp0Class (byte3 w) with
    | .immediate => if rest.length = 0 then .instr (immediateOf w) else .reject (.wrongWordCount 1 ws.length)
    | .unrecognized => if rest.length = 0 then .instr (.gp0Unrecognized w) else .reject (.wrongWordCount 1 ws.length)
    | .multiword k =>
      if ws.length = wordCount c k w ∨ (isPolyline k w = true ∧ ws.length ≤ wordCount c k w)
      then .instr (packetOf k ws) else .reject (.wrongWordCount (wordCount c k w) ws.length)

/-- The decoder: total, one instruction or a rejection by name. -/
def decode (c : Config) (r : Raw) : Decoded :=
  match r with
  | .gp0 ws => gp0Of c ws
  | .gp0Data w => .instr (.gp0Data (lowHalf w) (highHalf w))
  | .gp1 w => .instr (gp1Of w)
  | .gpuRead stat => .instr (if stat then .gpuGpustat else .gpuGpuread)
  | .dmaWrite a d => .instr (dmaWriteOf c a d)
  | .dmaRead a => .instr (dmaReadOf c a)
  | .cdWrite p i d => .instr (cdWriteOf p i d)
  | .cdRead p _ => .instr (cdReadOf p)
  | .cdCommand d => .instr (cdCommandOf d)
  | .shell => .instr .shell

/-! ### The encoder -/

/-- A word from its four bytes, the most significant first. -/
def wordOfBytes (b3 b2 b1 b0 : Byte) : Word := ((b3 ++ b2) ++ (b1 ++ b0) : BitVec ((8 + 8) + (8 + 8)))

/-- Colour word under an opcode or command byte (rules R141, R146). -/
def opRgb (op : Byte) (c : Rgb) : Word := wordOfBytes op c.b c.g c.r

/-- Vertex word with its ignored bits 0 (rule R147). -/
def posWord (p : Pos) : Word := ((0#5 ++ p.y) ++ (0#5 ++ p.x) : BitVec ((5 + 11) + (5 + 11)))

/-- UV word with its reference (rule R148). -/
def uvWord (ref : Half) (t : Uv) : Word := (ref ++ (t.v ++ t.u) : BitVec (16 + (8 + 8)))

/-- Position or size word (rule R149). -/
def xyWord (p : Xy) : Word := (p.y ++ p.x : BitVec (16 + 16))

/-- A drawing opcode: the family's top three bits, then bits 28 to 24 (rules R143 to R145). -/
def drawOp (family : BitVec 3) (b28 b27 b26 b25 b24 : Bool) : Byte :=
  ((family ++ (BitVec.ofBool b28 ++ BitVec.ofBool b27))
    ++ (BitVec.ofBool b26 ++ (BitVec.ofBool b25 ++ BitVec.ofBool b24)) : BitVec ((3 + (1 + 1)) + (1 + (1 + 1))))

/-- The opcode of a polygon (rule R143): `g`, `q`, `t`, `s`, `r`. -/
def polyOp (g q t s r : Bool) : Byte := drawOp 1#3 g q t s r

/-- The opcode of a line (rule R144): `g`, `p`, `s`; the ignored bits 26 and 24 are 0. -/
def lineOp (g p s : Bool) : Byte := drawOp 2#3 g p false s false

/-- The opcode of a rectangle (rule R145): the size field's two bits, `t`, `s`, `r`. -/
def rectOp (s1 s0 t s r : Bool) : Byte := drawOp 3#3 s1 s0 t s r

/-- The words of a Gouraud polyline after its first vertex (rule R150). -/
def coloredPosWords : List ColoredPos → List Word
  | [] => []
  | v :: vs => opRgb 0#8 v.color :: posWord v.pos :: coloredPosWords vs

/-- A word with a command byte and a 24-bit parameter (rules R141, R151). -/
def opParam (op : Byte) (p : BitVec 24) : Word := (op ++ p : BitVec (8 + 24))

/-- The two 10-bit fields of E3, E4 and GP1 0x07 (rules R43, R151). -/
def param10 (x y : BitVec 10) : BitVec 24 := (0#4 ++ (y ++ x) : BitVec (4 + (10 + 10)))

/-- The relative address of byte `b` of register word `r` of channel `n` (rule R104). -/
def dmaAddr (n : Fin 7) (r : Nat) (b : Fin 4) : BitVec 7 := BitVec.ofNat 7 (0x10 * n.val + 4 * r + b.val)

/-- The words of a GP0 command, a polyline's sentinel not among them (rule R150); none for other instructions. -/
def gp0Words : Instr → List Word
  | .gp0Nop => [opParam 0x00#8 0]
  | .gp0ClearCache => [opParam 0x01#8 0]
  | .gp0Fill c p z => [opRgb 0x02#8 c, xyWord p, xyWord z]
  | .gp0Irq => [opParam 0x1F#8 0]
  | .gp0PolyF3 s r c v0 v1 v2 => [opRgb (polyOp false false false s r) c, posWord v0, posWord v1, posWord v2]
  | .gp0PolyFT3 s r c v0 t0 pal v1 t1 page v2 t2 =>
      [opRgb (polyOp false false true s r) c, posWord v0, uvWord pal t0, posWord v1, uvWord page t1, posWord v2,
        uvWord 0 t2]
  | .gp0PolyF4 s r c v0 v1 v2 v3 =>
      [opRgb (polyOp false true false s r) c, posWord v0, posWord v1, posWord v2, posWord v3]
  | .gp0PolyFT4 s r c v0 t0 pal v1 t1 page v2 t2 v3 t3 =>
      [opRgb (polyOp false true true s r) c, posWord v0, uvWord pal t0, posWord v1, uvWord page t1, posWord v2,
        uvWord 0 t2, posWord v3, uvWord 0 t3]
  | .gp0PolyG3 s r c0 v0 c1 v1 c2 v2 =>
      [opRgb (polyOp true false false s r) c0, posWord v0, opRgb 0 c1, posWord v1, opRgb 0 c2, posWord v2]
  | .gp0PolyGT3 s r c0 v0 t0 pal c1 v1 t1 page c2 v2 t2 =>
      [opRgb (polyOp true false true s r) c0, posWord v0, uvWord pal t0, opRgb 0 c1, posWord v1, uvWord page t1,
        opRgb 0 c2, posWord v2, uvWord 0 t2]
  | .gp0PolyG4 s r c0 v0 c1 v1 c2 v2 c3 v3 =>
      [opRgb (polyOp true true false s r) c0, posWord v0, opRgb 0 c1, posWord v1, opRgb 0 c2, posWord v2,
        opRgb 0 c3, posWord v3]
  | .gp0PolyGT4 s r c0 v0 t0 pal c1 v1 t1 page c2 v2 t2 c3 v3 t3 =>
      [opRgb (polyOp true true true s r) c0, posWord v0, uvWord pal t0, opRgb 0 c1, posWord v1, uvWord page t1,
        opRgb 0 c2, posWord v2, uvWord 0 t2, opRgb 0 c3, posWord v3, uvWord 0 t3]
  | .gp0LineF2 s c v0 v1 => [opRgb (lineOp false false s) c, posWord v0, posWord v1]
  | .gp0LineFP s c vs => opRgb (lineOp false true s) c :: vs.map posWord
  | .gp0LineG2 s c0 v0 c1 v1 => [opRgb (lineOp true false s) c0, posWord v0, opRgb 0 c1, posWord v1]
  | .gp0LineGP s c0 v0 rest => opRgb (lineOp true true s) c0 :: (v0.toList.map posWord ++ coloredPosWords rest)
  | .gp0RectVar s r c a z => [opRgb (rectOp false false false s r) c, posWord a, xyWord z]
  | .gp0RectTVar s r c a t pal z => [opRgb (rectOp false false true s r) c, posWord a, uvWord pal t, xyWord z]
  | .gp0Rect1 s r c a => [opRgb (rectOp false true false s r) c, posWord a]
  | .gp0RectT1 s r c a t pal => [opRgb (rectOp false true true s r) c, posWord a, uvWord pal t]
  | .gp0Rect8 s r c a => [opRgb (rectOp true false false s r) c, posWord a]
  | .gp0RectT8 s r c a t pal => [opRgb (rectOp true false true s r) c, posWord a, uvWord pal t]
  | .gp0Rect16 s r c a => [opRgb (rectOp true true false s r) c, posWord a]
  | .gp0RectT16 s r c a t pal => [opRgb (rectOp true true true s r) c, posWord a, uvWord pal t]
  | .gp0CopyVramVram p q z => [opParam 0x80#8 0, xyWord p, xyWord q, xyWord z]
  | .gp0CopyCpuVram p z => [opParam 0xA0#8 0, xyWord p, xyWord z]
  | .gp0CopyVramCpu p z => [opParam 0xC0#8 0, xyWord p, xyWord z]
  | .gp0DrawMode m => [opParam 0xE1#8 (0#10 ++ m : BitVec (10 + 14))]
  | .gp0TexWindow t =>
      [opParam 0xE2#8 (0#4 ++ ((t.offsetY ++ t.offsetX) ++ (t.maskY ++ t.maskX)) : BitVec (4 + ((5 + 5) + (5 + 5))))]
  | .gp0DrawAreaTl k => [opParam 0xE3#8 (param10 k.x k.y)]
  | .gp0DrawAreaBr k => [opParam 0xE4#8 (param10 k.x k.y)]
  | .gp0DrawOffset o => [opParam 0xE5#8 (0#2 ++ (o.y ++ o.x) : BitVec (2 + (11 + 11)))]
  | .gp0Mask m =>
      [opParam 0xE6#8 (0#22 ++ (BitVec.ofBool m.checkMaskBeforeDraw ++ BitVec.ofBool m.setMaskWhileDrawing)
        : BitVec (22 + (1 + 1)))]
  | .gp0Unrecognized w => [w]
  | _ => []

/-- The encoder (rules R104, R142, R150 to R152, R460, R510): an encoded form of a well-formed instruction, ignored
bits 0. -/
def encode (i : Instr) : Raw :=
  match i with
  | .gp0Data p0 p1 => .gp0Data (p1 ++ p0 : BitVec (16 + 16))
  | .gp1Reset => .gp1 (opParam 0x00#8 0)
  | .gp1ResetCmdBuffer => .gp1 (opParam 0x01#8 0)
  | .gp1AckIrq => .gp1 (opParam 0x02#8 0)
  | .gp1DisplayEnable b => .gp1 (opParam 0x03#8 (0#23 ++ BitVec.ofBool b : BitVec (23 + 1)))
  | .gp1DmaDirection d => .gp1 (opParam 0x04#8 (0#22 ++ d : BitVec (22 + 2)))
  | .gp1DisplayArea x y => .gp1 (opParam 0x05#8 (0#5 ++ (y ++ x) : BitVec (5 + (9 + 10))))
  | .gp1HRange x1 x2 => .gp1 (opParam 0x06#8 (x2 ++ x1 : BitVec (12 + 12)))
  | .gp1VRange y1 y2 => .gp1 (opParam 0x07#8 (param10 y1 y2))
  | .gp1DisplayMode m => .gp1 (opParam 0x08#8 (0#16 ++ m : BitVec (16 + 8)))
  | .gp1TexDisableAllow b => .gp1 (opParam 0x09#8 (0#23 ++ BitVec.ofBool b : BitVec (23 + 1)))
  | .gp1GpuInfo k => .gp1 (opParam 0x10#8 (0#20 ++ k : BitVec (20 + 4)))
  | .gp1Unrecognized w => .gp1 w
  | .gpuGpuread => .gpuRead false
  | .gpuGpustat => .gpuRead true
  | .dmaMadrWrite n b d => .dmaWrite (dmaAddr n 0 b) d
  | .dmaBcrWrite n b d => .dmaWrite (dmaAddr n 1 b) d
  | .dmaChcrWrite n b d => .dmaWrite (dmaAddr n 2 b) d
  | .dmaReservedWrite n b d => .dmaWrite (dmaAddr n 3 b) d
  | .dmaDpcrWrite b d => .dmaWrite (BitVec.ofNat 7 (0x70 + b.val)) d
  | .dmaDicrWriteLow b d => .dmaWrite (BitVec.ofNat 7 (0x74 + b.val)) d
  | .dmaDicrAck d => .dmaWrite 0x77#7 d
  | .dmaUnmapped a (some d) => .dmaWrite a d
  | .dmaUnmapped a none => .dmaRead a
  | .dmaRead a => .dmaRead a
  | .cdIndexWrite k => .cdWrite 0 0 (0#6 ++ k : BitVec (6 + 2))
  | .cdCommand d => .cdWrite 1 0 d
  | .cdSoundmapData d => .cdWrite 1 1 d
  | .cdSoundmapCoding d => .cdWrite 1 2 d
  | .cdVolRr d => .cdWrite 1 3 d
  | .cdParam d => .cdWrite 2 0 d
  | .cdIntEnable e => .cdWrite 2 1 (0#3 ++ e : BitVec (3 + 5))
  | .cdVolLl d => .cdWrite 2 2 d
  | .cdVolRl d => .cdWrite 2 3 d
  | .cdRequest d => .cdWrite 3 0 d
  | .cdIntAck b e => .cdWrite 3 1 ((0#1 ++ BitVec.ofBool b) ++ (0#1 ++ e) : BitVec ((1 + 1) + (1 + 5)))
  | .cdVolLr d => .cdWrite 3 2 d
  | .cdVolApply d => .cdWrite 3 3 d
  | .cdStatusRead => .cdRead 0 0
  | .cdResponseRead => .cdRead 1 0
  | .cdDataRead => .cdRead 2 0
  | .cdIntRead => .cdRead 3 0
  | .shell => .shell
  | .cdGetstat => .cdCommand 0x01
  | .cdSetloc => .cdCommand 0x02
  | .cdPlay => .cdCommand 0x03
  | .cdReadn => .cdCommand 0x06
  | .cdMotoron => .cdCommand 0x07
  | .cdStop => .cdCommand 0x08
  | .cdPause => .cdCommand 0x09
  | .cdInit => .cdCommand 0x0A
  | .cdMute => .cdCommand 0x0B
  | .cdDemute => .cdCommand 0x0C
  | .cdSetfilter => .cdCommand 0x0D
  | .cdSetmode => .cdCommand 0x0E
  | .cdGetlocl => .cdCommand 0x10
  | .cdGetlocp => .cdCommand 0x11
  | .cdSetsession => .cdCommand 0x12
  | .cdGettn => .cdCommand 0x13
  | .cdGettd => .cdCommand 0x14
  | .cdSeekl => .cdCommand 0x15
  | .cdSeekp => .cdCommand 0x16
  | .cdTest => .cdCommand 0x19
  | .cdGetid => .cdCommand 0x1A
  | .cdReads => .cdCommand 0x1B
  | .cdReadtoc => .cdCommand 0x1E
  | .cdUnlock v => .cdCommand (0x0A#5 ++ v : BitVec (5 + 3))
  | .cdUnrecognized d => .cdCommand d
  | i => .gp0 (gp0Words i)

/-- The GP0 words the host sends for a command: its words, and after a polyline of fewer vertices than the nominal
count the sentinel (rules R207, R264, R265). -/
def gp0Stream (c : Config) (i : Instr) : List Word :=
  match i with
  | .gp0LineFP _ _ vs =>
      if vs.length = c.polylineMaxVertices then gp0Words i else gp0Words i ++ [c.lineSentinel]
  | .gp0LineGP _ _ v0 rest =>
      if v0.toList.length + rest.length = c.polylineMaxVertices then gp0Words i else gp0Words i ++ [c.lineSentinel]
  | i => gp0Words i

/-! ### A word of the opcode table -/

/-- The words of a GP0 packet whose bits, first word lowest, are `w`: as many as the command word says, cut at a
polyline's sentinel (rules R205, R207). -/
def tableWords (w : Nat) : Nat → List Word
  | 0 => []
  | n + 1 => BitVec.ofNat 32 w :: tableWords (w / 2 ^ 32) n

/-- The encoded form a word of spec/opcode_table.json stands for. The table's formats number their bits apart (a GP0
and a GP1 word both have 32, the DMA address, the CDROM port key and the CDROM command byte all fit in 8), and a bare
word does not say by which port it comes. The rule taken: among the rows whose fixed bits the word has, the row that
fixes the most bits, and of equal ones the first in the table (assumption 12). -/
def tableRaw (nbits w : Nat) : Option Raw :=
  if nbits = 0 then none
  else if nbits ≤ 8 then
    let d : Byte := BitVec.ofNat 8 w
    let n := d.toNat
    if cdUnknown d = false then some (.cdCommand d)
    else if n = 0x04 ∨ n = 0x05 ∨ n = 0x0F then some (.cdWrite (BitVec.ofNat 2 (n / 4)) (BitVec.ofNat 2 n) 0)
    else if n < 0x80 then some (.dmaWrite (BitVec.ofNat 7 n) 0)
    else some (.cdCommand d)
  else if nbits < 32 then none
  else
    let w0 : Word := BitVec.ofNat 32 w
    match gp0Class (byte3 w0) with
    | .immediate => some (.gp0 [w0])
    | .unrecognized => if gp1Unknown w0 then some (.gp0 [w0]) else some (.gp1 w0)
    | .multiword k =>
      let ws := tableWords w (wordCount Config.default k w0)
      if isPolyline k w0 then
        some (.gp0 (w0 :: (ws.drop 1).takeWhile (· != Config.default.lineSentinel)))
      else some (.gp0 ws)

/-- The instruction the decoder reads from a word of the opcode table (`tableRaw` says from which format). -/
def decodeTableWord (nbits w : Nat) : Option Instr :=
  match tableRaw nbits w with
  | none => none
  | some r =>
    match decode Config.default r with
    | .instr i => some i
    | .reject _ => none

end Sys2Proof
end

