-- ==== Sys2Proof/WellFormed.lean ====
section
/-! DEFINITION. Which instructions have an encoding (30_encoding.md): the checks that the operand types do not carry
by themselves. -/
namespace Sys2Proof

/-- Well-formedness under the parameters `c`. A polyline has at most `POLYLINE_MAX_VERTICES` vertices, a Gouraud
polyline no vertex after a first it lacks, and no operand word of a polyline is the sentinel, which would end it (rule
R207); an unrecognized word or byte is one (rules R229, R352, R511); a DMA write names one of the `DMA_CHANNELS`, a DMA
read a register there is, and an access that names none is the row DMA.UNMAPPED (rules R8, R104, R404, R405; assumption
3). Every other operand type admits encodable values only. -/
def Instr.wf (c : Config) (i : Instr) : Bool :=
  match i with
  | .gp0LineFP _ _ vs =>
      decide (vs.length ≤ c.polylineMaxVertices) && ((gp0Words i).drop 1).all (· != c.lineSentinel)
  | .gp0LineGP _ _ v0 rest =>
      (v0.isSome || rest.isEmpty) && decide (v0.toList.length + rest.length ≤ c.polylineMaxVertices)
        && ((gp0Words i).drop 1).all (· != c.lineSentinel)
  | .gp0Unrecognized w => gp0Class (byte3 w) == .unrecognized
  | .gp1Unrecognized w => gp1Unknown w
  | .dmaMadrWrite n .. | .dmaBcrWrite n .. | .dmaChcrWrite n .. | .dmaReservedWrite n .. => decide (n.val < c.dmaChannels)
  | .dmaRead a => dmaMapped c a
  | .dmaUnmapped a _ => !dmaMapped c a
  | .cdUnrecognized d => cdUnknown d
  | .gp0Nop | .gp0ClearCache | .gp0Fill .. | .gp0Irq | .gp0PolyF3 .. | .gp0PolyFT3 .. | .gp0PolyF4 ..
  | .gp0PolyFT4 .. | .gp0PolyG3 .. | .gp0PolyGT3 .. | .gp0PolyG4 .. | .gp0PolyGT4 .. | .gp0LineF2 .. | .gp0LineG2 ..
  | .gp0RectVar .. | .gp0RectTVar .. | .gp0Rect1 .. | .gp0RectT1 .. | .gp0Rect8 .. | .gp0RectT8 .. | .gp0Rect16 ..
  | .gp0RectT16 .. | .gp0CopyVramVram .. | .gp0CopyCpuVram .. | .gp0CopyVramCpu .. | .gp0DrawMode _
  | .gp0TexWindow _ | .gp0DrawAreaTl _ | .gp0DrawAreaBr _ | .gp0DrawOffset _ | .gp0Mask _ | .gp0Data _ _ => true
  | .gp1Reset | .gp1ResetCmdBuffer | .gp1AckIrq | .gp1DisplayEnable _ | .gp1DmaDirection _ | .gp1DisplayArea _ _
  | .gp1HRange _ _ | .gp1VRange _ _ | .gp1DisplayMode _ | .gp1TexDisableAllow _ | .gp1GpuInfo _ | .gpuGpuread
  | .gpuGpustat => true
  | .dmaDpcrWrite .. | .dmaDicrWriteLow .. | .dmaDicrAck _ => true
  | .cdIndexWrite _ | .cdCommand _ | .cdSoundmapData _ | .cdSoundmapCoding _ | .cdVolRr _ | .cdParam _
  | .cdIntEnable _ | .cdVolLl _ | .cdVolRl _ | .cdRequest _ | .cdIntAck _ _ | .cdVolLr _ | .cdVolApply _
  | .cdStatusRead | .cdResponseRead | .cdDataRead | .cdIntRead | .shell => true
  | .cdGetstat | .cdSetloc | .cdPlay | .cdReadn | .cdMotoron | .cdStop | .cdPause | .cdInit | .cdMute | .cdDemute
  | .cdSetfilter | .cdSetmode | .cdGetlocl | .cdGetlocp | .cdSetsession | .cdGettn | .cdGettd | .cdSeekl | .cdSeekp
  | .cdTest | .cdGetid | .cdReads | .cdReadtoc | .cdUnlock _ => true

end Sys2Proof
end

