-- ==== Sys2Proof/Machine/CdPorts.lean ====
section
/-! DEFINITION. The CDROM ports (45_cdrom_ports.md section 1), the command dispatch (46_cdrom_commands.md rule R512) and
the shell toggle (rule R480). -/
namespace Sys2Proof.Machine

/-! ### Command dispatch (rules R510 to R512) -/

/-- The meaning of a command instruction, as the dispatch runs it. It is `exec` on the command instructions; a
command byte decodes to no other, and those change nothing here. -/
def cdRun (i : Instr) (s : State) : Out :=
  match i with
  | .cdGetstat => execCdGetstat s
  | .cdSetloc => execCdSetloc s
  | .cdPlay => execCdPlay s
  | .cdReadn => execCdReadn s
  | .cdMotoron => execCdMotoron s
  | .cdStop => execCdStop s
  | .cdPause => execCdPause s
  | .cdInit => execCdInit s
  | .cdMute => execCdMute s
  | .cdDemute => execCdDemute s
  | .cdSetfilter => execCdSetfilter s
  | .cdSetmode => execCdSetmode s
  | .cdGetlocl => execCdGetlocl s
  | .cdGetlocp => execCdGetlocp s
  | .cdSetsession => execCdSetsession s
  | .cdGettn => execCdGettn s
  | .cdGettd => execCdGettd s
  | .cdSeekl => execCdSeekl s
  | .cdSeekp => execCdSeekp s
  | .cdTest => execCdTest s
  | .cdGetid => execCdGetid s
  | .cdReads => execCdReads s
  | .cdReadtoc => execCdReadtoc s
  | .cdUnlock v => execCdUnlock v s
  | .cdUnrecognized d => execCdUnrecognized d s
  | _ => .next s

/-- CD.COMMAND (rules R463, R512): busy, the command's rule, then the parameter FIFO cleared. -/
def execCdCommand (d : Byte) (s : State) : Out :=
  andThen (cdRun (cdCommandOf d) { s with cd.busy := true }) (fun s => .next { s with cd.paramFifo := [] })

/-! ### Port writes (rules R462 to R478) -/

/-- CD.INDEX_WRITE (rule R462). -/
def execCdIndexWrite (index : BitVec 2) (s : State) : Out := .next { s with cd.index := index }

/-- CD.SOUNDMAP_DATA (rule R471): nothing. -/
def execCdSoundmapData (_d : Byte) (s : State) : Out := .next s

/-- CD.SOUNDMAP_CODING (rule R472). -/
def execCdSoundmapCoding (d : Byte) (s : State) : Out := .next { s with cd.soundMapCoding := d }

/-- CD.VOL_RR (rule R473). -/
def execCdVolRr (d : Byte) (s : State) : Out := .next { s with cd.volRR := d }

/-- CD.PARAM (rule R464): dropped when the FIFO is full. -/
def execCdParam (d : Byte) (s : State) : Out :=
  .next { s with cd.paramFifo := fifoPush s.cfg s.cd.paramFifo d }

/-- CD.INT_ENABLE (rule R469). -/
def execCdIntEnable (codes : BitVec 5) (s : State) : Out := .next { s with cd.ie := codes }

/-- CD.VOL_LL (rule R474). -/
def execCdVolLl (d : Byte) (s : State) : Out := .next { s with cd.volLL := d }

/-- CD.VOL_RL (rule R475). -/
def execCdVolRl (d : Byte) (s : State) : Out := .next { s with cd.volRL := d }

/-- CD.REQUEST (rule R467): stored only. -/
def execCdRequest (d : Byte) (s : State) : Out := .next { s with cd.request := d }

/-- The pop of an acknowledgement (rule R468). -/
def ackFront (codes : BitVec 5) (s : State) : State :=
  match s.cd.intFifo with
  | [] => s
  | _ :: rest => if codes = 0#5 then s else { s with cd.intFifo := rest, cd.frontSignalled := false }

/-- CD.INT_ACK (rule R468). -/
def execCdIntAck (clearParams : Bool) (codes : BitVec 5) (s : State) : Out :=
  .next (ackFront codes (if clearParams then { s with cd.paramFifo := [] } else s))

/-- CD.VOL_LR (rule R477). -/
def execCdVolLr (d : Byte) (s : State) : Out := .next { s with cd.volLR := d }

/-- CD.VOL_APPLY (rule R478): stored only. -/
def execCdVolApply (d : Byte) (s : State) : Out := .next { s with cd.volApply := d }

/-! ### Port reads (rules R461, R465, R466, R470) -/

/-- CD.STATUS_READ (rule R461); no side effect. -/
def execCdStatusRead (s : State) : Out := .next (returnBytes [cdStatus s.cfg s.cd] s)

/-- CD.RESPONSE_READ (rule R465). -/
def execCdResponseRead (s : State) : Out :=
  let (b, s) := popResponse s
  .next (returnBytes [b] s)

/-- CD.DATA_READ (rule R466). -/
def execCdDataRead (s : State) : Out :=
  let (b, s) := popData s
  .next (returnBytes [b] s)

/-- CD.INT_READ (rule R470): the enable view at indices 0 and 2, the flag view at 1 and 3; no pop. -/
def execCdIntRead (s : State) : Out :=
  .next (returnBytes [if s.cd.index.getLsbD 0 then cdIntFlag s.cd else cdIntEnableView s.cd] s)

/-! ### The shell (rule R480) -/

/-- SHELL (rule R480): no interrupt, no FIFO change. -/
def execShell (s : State) : Out := .next { s with cd.stat := toggleShell s.cd.stat }

end Sys2Proof.Machine
end

