-- ==== Sys2Proof/Machine/Gp0Draw.lean ====
section
/-! DEFINITION. The GP0 drawing commands (41_gp0_draw.md): the fill, which the block performs itself, and the polygons,
lines and rectangles, which become draw batches for the rasterizer. Each runs when its words are complete (rule R208). -/
namespace Sys2Proof.Machine

/-! ### Fill (rules R250, R251) -/

/-- Row `y` of a fill: `w` pixels from column `x`, left to right. -/
def fillRow (c : Config) (x y w : Nat) (p : Pixel) (v : Vram) : Vram :=
  repeatFor w (fun i v => vramWrite c v (x + i) y p) v

/-- The fill's pixels, top to bottom. -/
def fillPixels (c : Config) (x y w h : Nat) (p : Pixel) (v : Vram) : Vram :=
  repeatFor h (fun j v => fillRow c x (y + j) w p v) v

/-- GP0.FILL (rule R250). -/
def execGp0Fill (c : Rgb) (pos size : Xy) (s : State) : Out :=
  let v := fillPixels s.cfg pos.x.toNat pos.y.toNat size.x.toNat size.y.toNat (to15 c) s.gpu.vram
  .next { s with gpu.vram := v }

/-! ### Polygons (rules R254 to R261, R280) -/

/-- Untextured triangles. -/
def drawPlain (gouraud semi raw : Bool) (tris : List (List Vertex)) (s : State) : Out :=
  .next (drawBatches (tris.map (plainBatch .triangle gouraud semi raw s.gpu)) s)

/-- Textured triangles. -/
def drawTextured (gouraud semi raw : Bool) (palette page : Half) (tris : List (List Vertex)) (s : State) : Out :=
  .next (drawBatches (tris.map (texBatch gouraud semi raw palette page s.gpu)) s)

/-- GP0.POLY_F3 (rule R254). -/
def execGp0PolyF3 (semi raw : Bool) (c : Rgb) (v0 v1 v2 : Pos) (s : State) : Out :=
  drawPlain false semi raw [[flatVertex v0 c, flatVertex v1 c, flatVertex v2 c]] s

/-- GP0.POLY_FT3 (rule R255). -/
def execGp0PolyFT3 (semi raw : Bool) (c : Rgb) (v0 : Pos) (t0 : Uv) (palette : Half) (v1 : Pos) (t1 : Uv)
    (page : Half) (v2 : Pos) (t2 : Uv) (s : State) : Out :=
  drawTextured false semi raw palette page [[texVertex v0 c t0, texVertex v1 c t1, texVertex v2 c t2]] s

/-- GP0.POLY_F4 (rule R256). -/
def execGp0PolyF4 (semi raw : Bool) (c : Rgb) (v0 v1 v2 v3 : Pos) (s : State) : Out :=
  drawPlain false semi raw (quadTriangles (flatVertex v0 c) (flatVertex v1 c) (flatVertex v2 c) (flatVertex v3 c)) s

/-- GP0.POLY_FT4 (rule R257). -/
def execGp0PolyFT4 (semi raw : Bool) (c : Rgb) (v0 : Pos) (t0 : Uv) (palette : Half) (v1 : Pos) (t1 : Uv)
    (page : Half) (v2 : Pos) (t2 : Uv) (v3 : Pos) (t3 : Uv) (s : State) : Out :=
  drawTextured false semi raw palette page
    (quadTriangles (texVertex v0 c t0) (texVertex v1 c t1) (texVertex v2 c t2) (texVertex v3 c t3)) s

/-- GP0.POLY_G3 (rule R258). -/
def execGp0PolyG3 (semi raw : Bool) (c0 : Rgb) (v0 : Pos) (c1 : Rgb) (v1 : Pos) (c2 : Rgb) (v2 : Pos)
    (s : State) : Out :=
  drawPlain true semi raw [[flatVertex v0 c0, flatVertex v1 c1, flatVertex v2 c2]] s

/-- GP0.POLY_GT3 (rule R259). -/
def execGp0PolyGT3 (semi raw : Bool) (c0 : Rgb) (v0 : Pos) (t0 : Uv) (palette : Half) (c1 : Rgb) (v1 : Pos)
    (t1 : Uv) (page : Half) (c2 : Rgb) (v2 : Pos) (t2 : Uv) (s : State) : Out :=
  drawTextured true semi raw palette page [[texVertex v0 c0 t0, texVertex v1 c1 t1, texVertex v2 c2 t2]] s

/-- GP0.POLY_G4 (rule R260). -/
def execGp0PolyG4 (semi raw : Bool) (c0 : Rgb) (v0 : Pos) (c1 : Rgb) (v1 : Pos) (c2 : Rgb) (v2 : Pos) (c3 : Rgb)
    (v3 : Pos) (s : State) : Out :=
  drawPlain true semi raw
    (quadTriangles (flatVertex v0 c0) (flatVertex v1 c1) (flatVertex v2 c2) (flatVertex v3 c3)) s

/-- GP0.POLY_GT4 (rule R261). -/
def execGp0PolyGT4 (semi raw : Bool) (c0 : Rgb) (v0 : Pos) (t0 : Uv) (palette : Half) (c1 : Rgb) (v1 : Pos)
    (t1 : Uv) (page : Half) (c2 : Rgb) (v2 : Pos) (t2 : Uv) (c3 : Rgb) (v3 : Pos) (t3 : Uv) (s : State) : Out :=
  drawTextured true semi raw palette page
    (quadTriangles (texVertex v0 c0 t0) (texVertex v1 c1 t1) (texVertex v2 c2 t2) (texVertex v3 c3 t3)) s

/-! ### Lines (rules R262 to R265, R281) -/

/-- One batch per segment; fewer than two vertices give none. -/
def drawLine (gouraud semi : Bool) (vs : List Vertex) (s : State) : Out :=
  .next (drawBatches ((segments vs).map (plainBatch .segment gouraud semi false s.gpu)) s)

/-- GP0.LINE_F2 (rule R262). -/
def execGp0LineF2 (semi : Bool) (c : Rgb) (v0 v1 : Pos) (s : State) : Out :=
  drawLine false semi [flatVertex v0 c, flatVertex v1 c] s

/-- GP0.LINE_FP (rule R264). -/
def execGp0LineFP (semi : Bool) (c : Rgb) (vs : List Pos) (s : State) : Out :=
  drawLine false semi (vs.map fun p => flatVertex p c) s

/-- GP0.LINE_G2 (rule R263). -/
def execGp0LineG2 (semi : Bool) (c0 : Rgb) (v0 : Pos) (c1 : Rgb) (v1 : Pos) (s : State) : Out :=
  drawLine true semi [flatVertex v0 c0, flatVertex v1 c1] s

/-- GP0.LINE_GP (rule R265). -/
def execGp0LineGP (semi : Bool) (c0 : Rgb) (v0 : Option Pos) (rest : List ColoredPos) (s : State) : Out :=
  drawLine true semi ((v0.toList.map fun p => flatVertex p c0) ++ rest.map fun v => flatVertex v.pos v.color) s

/-! ### Rectangles (rules R266 to R273, R282) -/

/-- GP0.RECT_VAR (rule R266). -/
def execGp0RectVar (semi raw : Bool) (c : Rgb) (anchor : Pos) (size : Xy) (s : State) : Out :=
  drawPlain false semi raw (rectTriangles anchor c size.x.toNat size.y.toNat) s

/-- GP0.RECT_TVAR (rule R270). -/
def execGp0RectTVar (semi raw : Bool) (c : Rgb) (anchor : Pos) (t : Uv) (palette : Half) (size : Xy)
    (s : State) : Out :=
  drawTextured false semi raw palette (rectPage s.gpu) (texRectTriangles anchor c t size.x.toNat size.y.toNat) s

/-- GP0.RECT_1 (rule R267). -/
def execGp0Rect1 (semi raw : Bool) (c : Rgb) (anchor : Pos) (s : State) : Out :=
  drawPlain false semi raw (rectTriangles anchor c 1 1) s

/-- GP0.RECT_T1 (rule R271). -/
def execGp0RectT1 (semi raw : Bool) (c : Rgb) (anchor : Pos) (t : Uv) (palette : Half) (s : State) : Out :=
  drawTextured false semi raw palette (rectPage s.gpu) (texRectTriangles anchor c t 1 1) s

/-- GP0.RECT_8 (rule R268). -/
def execGp0Rect8 (semi raw : Bool) (c : Rgb) (anchor : Pos) (s : State) : Out :=
  drawPlain false semi raw (rectTriangles anchor c 8 8) s

/-- GP0.RECT_T8 (rule R272). -/
def execGp0RectT8 (semi raw : Bool) (c : Rgb) (anchor : Pos) (t : Uv) (palette : Half) (s : State) : Out :=
  drawTextured false semi raw palette (rectPage s.gpu) (texRectTriangles anchor c t 8 8) s

/-- GP0.RECT_16 (rule R269). -/
def execGp0Rect16 (semi raw : Bool) (c : Rgb) (anchor : Pos) (s : State) : Out :=
  drawPlain false semi raw (rectTriangles anchor c 16 16) s

/-- GP0.RECT_T16 (rule R273). -/
def execGp0RectT16 (semi raw : Bool) (c : Rgb) (anchor : Pos) (t : Uv) (palette : Half) (s : State) : Out :=
  drawTextured false semi raw palette (rectPage s.gpu) (texRectTriangles anchor c t 16 16) s

end Sys2Proof.Machine
end

