-- ==== Sys2Proof/Machine/Gp0Registers.lean ====
section
/-! DEFINITION. The one-word GP0 commands (40_gp0_decoder.md section 2): NOP, cache clear, interrupt request, the
register-set commands E1 to E6, and the unrecognized opcode. -/
namespace Sys2Proof.Machine

/-- GP0.NOP (rule R220): nothing. -/
def execGp0Nop (s : State) : Out := .next s

/-- GP0.CLEAR_CACHE (rule R221): the block has no cache, so nothing. -/
def execGp0ClearCache (s : State) : Out := .next s

/-- GP0.IRQ (rule R222): `irq <- 1`; the signal is raised at the next `gpu.step`. -/
def execGp0Irq (s : State) : Out := .next { s with gpu.irq := true }

/-- GP0.DRAW_MODE (rule R223). -/
def execGp0DrawMode (mode : BitVec 14) (s : State) : Out := .next { s with gpu.drawMode := mode }

/-- GP0.TEX_WINDOW (rule R224). -/
def execGp0TexWindow (w : TexWindow) (s : State) : Out := .next { s with gpu.texWindow := w }

/-- GP0.DRAW_AREA_TL (rule R225). -/
def execGp0DrawAreaTl (c : Corner) (s : State) : Out := .next { s with gpu.drawAreaTL := c }

/-- GP0.DRAW_AREA_BR (rule R226). -/
def execGp0DrawAreaBr (c : Corner) (s : State) : Out := .next { s with gpu.drawAreaBR := c }

/-- GP0.DRAW_OFFSET (rule R227). -/
def execGp0DrawOffset (o : DrawOffset) (s : State) : Out := .next { s with gpu.drawOffset := o }

/-- GP0.MASK (rule R228). -/
def execGp0Mask (m : MaskSetting) (s : State) : Out := .next { s with gpu.mask := m }

/-- An unrecognized GP0 opcode (rule R229): logged, nothing else. -/
def execGp0Unrecognized (w : Word) (s : State) : Out := .next (emit (.log (.unknownGP0 w)) s)

end Sys2Proof.Machine
end

