-- ==== Sys2Proof/Machine/Gp0Transfer.lean ====
section
/-! DEFINITION. The GP0 transfer commands, the data phase of CPU->VRAM, and GPUREAD (42_gp0_transfer.md). -/
namespace Sys2Proof.Machine

/-! ### The transfer cursor (rules R34, R300, R305) -/

/-- The cursor at the first pixel of a rectangle; the ends are unwrapped sums. -/
def cursorAt (pos size : Xy) : Cursor :=
  ⟨pos.x.toNat, pos.y.toNat, pos.x.toNat + size.x.toNat, pos.y.toNat + size.y.toNat, pos.x.toNat, pos.y.toNat⟩

/-- One pixel on, with row wrap (rules R302, R320). -/
def cursorNext (k : Cursor) : Cursor :=
  if k.currX + 1 = k.endX then { k with currX := k.startX, currY := k.currY + 1 }
  else { k with currX := k.currX + 1 }

/-- Is the rectangle complete (rules R302, R320)? -/
def cursorDone (k : Cursor) : Bool := decide (k.currY = k.endY)

/-! ### CPU to VRAM (rules R300, R302, R303) -/

/-- GP0.COPY_CPU_VRAM (rule R300), phase 1. -/
def execGp0CopyCpuVram (dst size : Xy) (s : State) : Out :=
  if size.x = 0#16 ∨ size.y = 0#16 then .next s
  else .next { s with gpu.cursor := cursorAt dst size, gpu.cmdState := .cpuToVramData }

/-- One pixel of the data phase (rule R302): written unchanged, then the cursor moves, then completion is tested. -/
def dataPixel (p : Pixel) (s : State) : State :=
  let v := vramWrite s.cfg s.gpu.vram s.gpu.cursor.currX s.gpu.cursor.currY p
  let k := cursorNext s.gpu.cursor
  { s with
    gpu.vram := v
    gpu.cursor := k
    gpu.cmdState := if cursorDone k then .idle else s.gpu.cmdState }

/-- GP0.DATA (rules R302, R303), phase 2: the high half is discarded when the low half completes the rectangle. -/
def execGp0Data (pixel0 pixel1 : Pixel) (s : State) : Out :=
  let s := dataPixel pixel0 s
  .next (if cursorDone s.gpu.cursor then s else dataPixel pixel1 s)

/-! ### VRAM to CPU (rule R305) -/

/-- GP0.COPY_VRAM_CPU (rule R305). -/
def execGp0CopyVramCpu (src size : Xy) (s : State) : Out :=
  if size.x = 0#16 ∨ size.y = 0#16 then .next s
  else .next { s with gpu.cursor := cursorAt src size, gpu.readMode := .vramRead }

/-! ### VRAM to VRAM (rules R310, R311) -/

/-- Row `j` of a copy, pixel by pixel, each read seeing the earlier writes (D16). -/
def copyRow (c : Config) (sx sy dx dy w : Nat) (v : Vram) : Vram :=
  repeatFor w (fun i v => vramWrite c v (dx + i) dy (vramRead c v (sx + i) sy)) v

/-- The rows of a copy, top to bottom. -/
def copyPixels (c : Config) (sx sy dx dy w h : Nat) (v : Vram) : Vram :=
  repeatFor h (fun j v => copyRow c sx (sy + j) dx (dy + j) w v) v

/-- GP0.COPY_VRAM_VRAM (rules R310, R311): an oversized copy is logged and writes nothing. -/
def execGp0CopyVramVram (src dst size : Xy) (s : State) : Out :=
  if s.cfg.vramWidth < size.x.toNat ∨ s.cfg.vramHeight < size.y.toNat then
    .next (emit (.log (.copyTooLarge size.x.toNat size.y.toNat)) s)
  else
    let v := copyPixels s.cfg src.x.toNat src.y.toNat dst.x.toNat dst.y.toNat size.x.toNat size.y.toNat s.gpu.vram
    .next { s with gpu.vram := v }

/-! ### GPUREAD (rule R320) -/

/-- One pixel of a pending VRAM read, and the cursor moved on; the last one ends the read mode. -/
def readPixel (s : State) : Pixel × State :=
  let p := vramRead s.cfg s.gpu.vram s.gpu.cursor.currX s.gpu.cursor.currY
  let k := cursorNext s.gpu.cursor
  (p, { s with gpu.cursor := k, gpu.readMode := if cursorDone k then .normal else s.gpu.readMode })

/-- The value and the effect of a GPUREAD (rule R320): used by the port and by DMA channel 2 (rule R422). -/
def gpuReadWord (s : State) : Word × State :=
  match s.gpu.readMode with
  | .normal => (s.gpu.gpuReadLatch, s)
  | .vramRead =>
    let (lo, s) := readPixel s
    match s.gpu.readMode with
    | .normal =>
      let (hi, s) := draw16 s
      ((hi ++ lo : BitVec (16 + 16)), s)
    | .vramRead =>
      let (hi, s) := readPixel s
      ((hi ++ lo : BitVec (16 + 16)), s)

/-- GPU.GPUREAD (rule R320): a host read of GPU offset 0. -/
def execGpuGpuread (s : State) : Out :=
  let (w, s) := gpuReadWord s
  .next (returnBytes (bytesOfWord w) s)

/-- GPU.GPUSTAT (rule R360): a host read of GPU offset 4; no side effect. -/
def execGpuGpustat (s : State) : Out := .next (returnBytes (bytesOfWord (gpustat s.gpu)) s)

end Sys2Proof.Machine
end

