-- ==== Sys2Proof/Machine/Gp0Port.lean ====
section
/-! DEFINITION. The GP0 port (40_gp0_decoder.md section 1): how a word is taken in each decoder state, when a command is
complete, and the effect of a GP0 word as the DMA engine sends it (rule R422). -/
namespace Sys2Proof.Machine

/-- What a GP0 word does: it is collected, or it completes an instruction, to be run from the state given. -/
inductive Gp0Taken where
  | collected (s : State)
  | complete (i : Instr) (s : State)

/-- Before a routine runs: `cmdState <- Idle`, `currArg <- 0`, `argCount <- 0` (rule R208). -/
def endCollect (s : State) : State :=
  { s with gpu.cmdState := .idle, gpu.currArg := 0, gpu.argCount := 0 }

/-- A word in `Idle` (rule R201). -/
def gp0Idle (w : Word) (s : State) : Gp0Taken :=
  match gp0Class (byte3 w) with
  | .immediate => .complete (immediateOf w) s
  | .unrecognized => .complete (.gp0Unrecognized w) s
  | .multiword k =>
    .collected { s with
      gpu.args := s.gpu.args.set 0 w
      gpu.currArg := 1
      gpu.argCount := wordCount s.cfg k w
      gpu.cmdState := .collect k }

/-- A word in `Collect(k)` (rules R206, R207, R208): the sentinel ends a polyline and is not stored; any other word is
an argument, and the last one completes the command. -/
def gp0Collect (k : Kind) (w : Word) (s : State) : Gp0Taken :=
  if isPolyline k (argAt s.gpu.args 0) = true ∧ w = s.cfg.lineSentinel then
    .complete (packetOf k (s.gpu.args.take s.gpu.currArg)) (endCollect s)
  else
    let s := { s with gpu.args := s.gpu.args.set s.gpu.currArg w, gpu.currArg := s.gpu.currArg + 1 }
    if s.gpu.currArg = s.gpu.argCount then
      .complete (packetOf k (s.gpu.args.take s.gpu.currArg)) (endCollect s)
    else .collected s

/-- A GP0 word (rule R200). -/
def gp0Take (w : Word) (s : State) : Gp0Taken :=
  match s.gpu.cmdState with
  | .idle => gp0Idle w s
  | .collect k => gp0Collect k w s
  | .cpuToVramData => .complete (.gp0Data (lowHalf w) (highHalf w)) s

/-- The meaning of a GP0 instruction, as the DMA engine runs it. It is `exec` on the GP0 instructions (the statement
`Gp0WordsCompleteWithinTheGpu`); the decoder completes no other (`gp0Take_gp0`), and those change nothing here. -/
def gp0Run (i : Instr) (s : State) : Out :=
  match i with
  | .gp0Nop => execGp0Nop s
  | .gp0ClearCache => execGp0ClearCache s
  | .gp0Fill c pos size => execGp0Fill c pos size s
  | .gp0Irq => execGp0Irq s
  | .gp0PolyF3 semi raw c v0 v1 v2 => execGp0PolyF3 semi raw c v0 v1 v2 s
  | .gp0PolyFT3 semi raw c v0 t0 pal v1 t1 page v2 t2 => execGp0PolyFT3 semi raw c v0 t0 pal v1 t1 page v2 t2 s
  | .gp0PolyF4 semi raw c v0 v1 v2 v3 => execGp0PolyF4 semi raw c v0 v1 v2 v3 s
  | .gp0PolyFT4 semi raw c v0 t0 pal v1 t1 page v2 t2 v3 t3 =>
      execGp0PolyFT4 semi raw c v0 t0 pal v1 t1 page v2 t2 v3 t3 s
  | .gp0PolyG3 semi raw c0 v0 c1 v1 c2 v2 => execGp0PolyG3 semi raw c0 v0 c1 v1 c2 v2 s
  | .gp0PolyGT3 semi raw c0 v0 t0 pal c1 v1 t1 page c2 v2 t2 =>
      execGp0PolyGT3 semi raw c0 v0 t0 pal c1 v1 t1 page c2 v2 t2 s
  | .gp0PolyG4 semi raw c0 v0 c1 v1 c2 v2 c3 v3 => execGp0PolyG4 semi raw c0 v0 c1 v1 c2 v2 c3 v3 s
  | .gp0PolyGT4 semi raw c0 v0 t0 pal c1 v1 t1 page c2 v2 t2 c3 v3 t3 =>
      execGp0PolyGT4 semi raw c0 v0 t0 pal c1 v1 t1 page c2 v2 t2 c3 v3 t3 s
  | .gp0LineF2 semi c v0 v1 => execGp0LineF2 semi c v0 v1 s
  | .gp0LineFP semi c vs => execGp0LineFP semi c vs s
  | .gp0LineG2 semi c0 v0 c1 v1 => execGp0LineG2 semi c0 v0 c1 v1 s
  | .gp0LineGP semi c0 v0 rest => execGp0LineGP semi c0 v0 rest s
  | .gp0RectVar semi raw c a size => execGp0RectVar semi raw c a size s
  | .gp0RectTVar semi raw c a t pal size => execGp0RectTVar semi raw c a t pal size s
  | .gp0Rect1 semi raw c a => execGp0Rect1 semi raw c a s
  | .gp0RectT1 semi raw c a t pal => execGp0RectT1 semi raw c a t pal s
  | .gp0Rect8 semi raw c a => execGp0Rect8 semi raw c a s
  | .gp0RectT8 semi raw c a t pal => execGp0RectT8 semi raw c a t pal s
  | .gp0Rect16 semi raw c a => execGp0Rect16 semi raw c a s
  | .gp0RectT16 semi raw c a t pal => execGp0RectT16 semi raw c a t pal s
  | .gp0CopyVramVram src dst size => execGp0CopyVramVram src dst size s
  | .gp0CopyCpuVram dst size => execGp0CopyCpuVram dst size s
  | .gp0CopyVramCpu src size => execGp0CopyVramCpu src size s
  | .gp0DrawMode mode => execGp0DrawMode mode s
  | .gp0TexWindow w => execGp0TexWindow w s
  | .gp0DrawAreaTl c => execGp0DrawAreaTl c s
  | .gp0DrawAreaBr c => execGp0DrawAreaBr c s
  | .gp0DrawOffset o => execGp0DrawOffset o s
  | .gp0Mask m => execGp0Mask m s
  | .gp0Unrecognized w => execGp0Unrecognized w s
  | .gp0Data p0 p1 => execGp0Data p0 p1 s
  | _ => .next s

/-- `GP0(v)`: the effect of a GP0 write (rules R200, R422). -/
def gp0Word (w : Word) (s : State) : Out :=
  match gp0Take w s with
  | .collected s => .next s
  | .complete i s => gp0Run i s

end Sys2Proof.Machine
end

