-- ==== Sys2Proof/Machine/Dma.lean ====
section
/-! DEFINITION. The DMA engine (44_dma.md): byte accesses to its registers, the start condition, the transfers and
their completion. A whole transfer runs inside the write that starts it (rule R420, D31). -/
namespace Sys2Proof.Machine

/-! ### CHCR fields (rule R53) -/

/-- Bit 0: 1 = from RAM. -/
def chcrFromRam (c : Word) : Bool := c.getLsbD 0

/-- Bit 1: 1 = step −4. -/
def chcrStepDown (c : Word) : Bool := c.getLsbD 1

/-- Bits 10:9: the sync mode. -/
def chcrSync (c : Word) : BitVec 2 := c.extractLsb' 9 2

/-- Bit 24: start, busy. -/
def chcrBusy (c : Word) : Bool := c.getLsbD 24

/-- Bit 28: start by hand. -/
def chcrTrigger (c : Word) : Bool := c.getLsbD 28

/-- Bits 24 and 28 cleared (rule R430). -/
def chcrDone (c : Word) : Word := c &&& 0xEEFFFFFF#32

/-! ### Address and count (rule R421) -/

/-- `delta`. -/
def dmaDelta (c : Word) : Int := if chcrStepDown c then -4 else 4

/-- `nz(v)`. -/
def nz (v : Half) : Nat := if v = 0#16 then 0x10000 else v.toNat

/-- `count`, in sync modes 0 and 1. -/
def dmaCount (ch : DmaChannel) : Nat :=
  if chcrSync ch.chcr = 0#2 then nz (lowHalf ch.bcr) else nz (lowHalf ch.bcr) * nz (highHalf ch.bcr)

/-! ### Channel 2: the GPU (rules R422, R423, R428) -/

/-- RAM to GPU: `n` words from `addr`, each as a GP0 write (rule R422). -/
def gpuSend (delta : Int) (n addr : Nat) (s : State) : Out :=
  match n with
  | 0 => .next s
  | k + 1 => andThen (gp0Word (memRead s.ram addr) s) (fun s => gpuSend delta k (stepAddr s.cfg addr delta) s)

/-- GPU to RAM: `n` GPUREAD words to `addr` on (rule R422). -/
def gpuReceive (delta : Int) (n addr : Nat) (s : State) : State :=
  match n with
  | 0 => s
  | k + 1 =>
    let (w, s) := gpuReadWord s
    gpuReceive delta k (stepAddr s.cfg addr delta) { s with ram := memWrite s.ram addr w }

/-- The words of a linked-list node at `addr`: `n` of them from the `i`-th on (rule R423). -/
def nodeSend (addr n i : Nat) (s : State) : Out :=
  match n with
  | 0 => .next s
  | k + 1 =>
    andThen (gp0Word (memRead s.ram ((addr + 4 * i) % s.cfg.ramSize)) s) (fun s => nodeSend addr k (i + 1) s)

/-- The linked list from the header at `addr`, with `nodes` headers still allowed (rules R423, R428). -/
def listSend (nodes addr : Nat) (s : State) : Out :=
  match nodes with
  | 0 => .fault (.dmaLinkedListBound addr s)
  | k + 1 =>
    let header := memRead s.ram addr
    andThen (nodeSend addr (byte3 header).toNat 1 s) (fun s =>
      if bitOf header 23 then .next s else listSend k (ramAddr s.cfg header) s)

/-- The transfer of channel 2. -/
def dmaGpu (ch : DmaChannel) (s : State) : Out :=
  if chcrSync ch.chcr = 2#2 then listSend s.cfg.dmaLlMaxNodes (ramAddr s.cfg ch.madr) s
  else if chcrFromRam ch.chcr then gpuSend (dmaDelta ch.chcr) (dmaCount ch) (ramAddr s.cfg ch.madr) s
  else .next (gpuReceive (dmaDelta ch.chcr) (dmaCount ch) (ramAddr s.cfg ch.madr) s)

/-! ### Channel 3: the CDROM (rule R424) -/

/-- Four pops of the data FIFO, the first in bits 7:0 (rules R108, R424). -/
def popDataWord (s : State) : Word × State :=
  let (b0, s) := popData s
  let (b1, s) := popData s
  let (b2, s) := popData s
  let (b3, s) := popData s
  (wordOfLE b0 b1 b2 b3, s)

/-- `n` words from the data FIFO to `addr` on. -/
def cdReceive (delta : Int) (n addr : Nat) (s : State) : State :=
  match n with
  | 0 => s
  | k + 1 =>
    let (w, s) := popDataWord s
    cdReceive delta k (stepAddr s.cfg addr delta) { s with ram := memWrite s.ram addr w }

/-! ### Channel 6: ordering-table clear (rule R425) -/

/-- `n` table words from `addr` down, each the address of the next, the last the end marker. -/
def clearTable (c : Config) (n addr : Nat) (m : Memory) : Memory :=
  match n with
  | 0 => m
  | k + 1 =>
    let next := stepAddr c addr (-4)
    clearTable c k next (memWrite m addr (if k = 0 then 0x00FFFFFF#32 else BitVec.ofNat 32 next))

/-! ### Start and completion (rules R420, R427, R430) -/

/-- The start condition. -/
def dmaStarts (c : Config) (dpcr : Word) (n : Fin 7) (chcr : Word) : Bool :=
  chcrBusy chcr && (chcrSync chcr != 0#2 || chcrTrigger chcr)
    && (!c.dmaRequireDpcrEnable || dpcr.getLsbD (4 * n.val + 3))

/-- The combinations rule R427 refuses. -/
def dmaRefused (n : Fin 7) (chcr : Word) : Bool :=
  match n.val with
  | 2 => chcrSync chcr == 2#2 && !chcrFromRam chcr
  | 3 => chcrFromRam chcr || chcrSync chcr == 2#2
  | 6 => chcrFromRam chcr || chcrSync chcr != 0#2
  | _ => false

/-- The transfer of channel `n` (rules R422 to R426). -/
def dmaTransfer (n : Fin 7) (s : State) : Out :=
  let ch := channel s n
  match n.val with
  | 2 => dmaGpu ch s
  | 3 => .next (cdReceive (dmaDelta ch.chcr) (dmaCount ch) (ramAddr s.cfg ch.madr) s)
  | 6 => .next { s with ram := clearTable s.cfg (dmaCount ch) (ramAddr s.cfg ch.madr) s.ram }
  | _ => .next s

/-- Completion of channel `n` (rule R430); `irqFlag` (rule R57) is set and consumed here. -/
def dmaFinish (n : Fin 7) (s : State) : State :=
  let ch := channel s n
  let s := setChannel s n { ch with chcr := chcrDone ch.chcr }
  { s with dma.dicr := dicrComplete s.dma.dicr n.val }

/-- After a write of CHCR byte 3 (rule R420). -/
def dmaStart (n : Fin 7) (s : State) : Out :=
  let c := (channel s n).chcr
  if dmaStarts s.cfg s.dma.dpcr n c then
    if chcrSync c = 3#2 then .fault (.dmaReservedSyncMode n.val s)
    else if dmaRefused n c then
      .fault (.dmaUnsupportedTransfer n.val (bitNat (chcrFromRam c)) (chcrSync c).toNat s)
    else andThen (dmaTransfer n s) (fun s => .next (dmaFinish n s))
  else .next s

/-! ### Register writes (rules R401 to R412) -/

/-- DMA.MADR_WRITE (rule R401). -/
def execDmaMadrWrite (n : Fin 7) (b : Fin 4) (d : Byte) (s : State) : Out :=
  let ch := channel s n
  .next (setChannel s n { ch with madr := setWordByte ch.madr b.val d })

/-- DMA.BCR_WRITE (rule R402). -/
def execDmaBcrWrite (n : Fin 7) (b : Fin 4) (d : Byte) (s : State) : Out :=
  let ch := channel s n
  .next (setChannel s n { ch with bcr := setWordByte ch.bcr b.val d })

/-- DMA.CHCR_WRITE (rule R403): the byte is stored; byte 3 tests the start condition. -/
def execDmaChcrWrite (n : Fin 7) (b : Fin 4) (d : Byte) (s : State) : Out :=
  let ch := channel s n
  let s := setChannel s n { ch with chcr := setWordByte ch.chcr b.val d }
  if b = 3 then dmaStart n s else .next s

/-- DMA.RESERVED_WRITE, the fourth register word (rule R406): nothing. -/
def execDmaReservedWrite (_n : Fin 7) (_b : Fin 4) (_d : Byte) (s : State) : Out := .next s

/-- DMA.DPCR_WRITE (rule R410). -/
def execDmaDpcrWrite (b : Fin 4) (d : Byte) (s : State) : Out :=
  .next { s with dma.dpcr := setWordByte s.dma.dpcr b.val d }

/-- DMA.DICR_WRITE_LOW (rule R411). -/
def execDmaDicrWriteLow (b : Fin 3) (d : Byte) (s : State) : Out :=
  .next { s with dma.dicr := setWordByte s.dma.dicr b.val d }

/-- DMA.DICR_ACK (rule R412): clear on write 1. -/
def execDmaDicrAck (d : Byte) (s : State) : Out := .next { s with dma.dicr := dicrAck s.dma.dicr d }

/-! ### Reads and the unmapped addresses (rules R404 to R406) -/

/-- A read that returns `ANY8`. -/
def returnDraw (s : State) : State :=
  let (b, s) := draw8 s
  returnBytes [b] s

/-- A read of an unmapped address: logged, then a draw (rule R404). -/
def dmaUnmappedRead (a : Nat) (s : State) : State := returnDraw (emit (.log (.dmaUnmappedRead a)) s)

/-- DMA.UNMAPPED (rule R404). -/
def execDmaUnmapped (a : BitVec 7) (data : Option Byte) (s : State) : Out :=
  match data with
  | some d => .next (emit (.log (.dmaUnmappedWrite a.toNat d)) s)
  | none => .next (dmaUnmappedRead a.toNat s)

/-- Register word `r` of a channel; the fourth holds no state (rules R104, R406). -/
def channelWord (ch : DmaChannel) (r : Nat) : Option Word :=
  match r with
  | 0 => some ch.madr
  | 1 => some ch.bcr
  | 2 => some ch.chcr
  | _ => none

/-- The register word a mapped address below 0x78 lies in (rules R104, R400). -/
def dmaWordAt (s : State) (a : BitVec 7) : Option Word :=
  if h : a.toNat / 0x10 < 7 then channelWord (channel s ⟨a.toNat / 0x10, h⟩) (a.toNat % 0x10 / 4)
  else if a.toNat < 0x74 then some s.dma.dpcr
  else some s.dma.dicr

/-- DMA.READ (rule R405). -/
def execDmaRead (a : BitVec 7) (s : State) : Out :=
  if a.toNat < 0x78 then
    match dmaWordAt s a with
    | some w => .next (returnBytes [wordByte w (a.toNat % 4)] s)
    | none => .next (returnDraw s)
  else .next (dmaUnmappedRead a.toNat s)

end Sys2Proof.Machine
end

