-- ==== Sys2Proof/Machine/Gp1.lean ====
section
/-! DEFINITION. The GP1 control commands (43_gp1_status_timing.md section 2). -/
namespace Sys2Proof.Machine

/-- GP1.RESET (rule R341): abandons any command in flight and restores the defaults. VRAM, the cursor,
`gpuReadLatch`, `texDisableAllowed` and the timing state stay. -/
def execGp1Reset (s : State) : Out :=
  .next { s with
    gpu.cmdState := .idle
    gpu.argCount := 0
    gpu.currArg := 0
    gpu.readMode := .normal
    gpu.irq := false
    gpu.irqSignalled := false
    gpu.displayDisable := true
    gpu.dmaDirection := 0#2
    gpu.displayAreaX := 0#10
    gpu.displayAreaY := 0#9
    gpu.hRangeX1 := 0x200#12
    gpu.hRangeX2 := 0xC00#12
    gpu.vRangeY1 := 0x010#10
    gpu.vRangeY2 := 0x100#10
    gpu.dispMode := 0#8
    gpu.drawMode := 0#14
    gpu.texWindow := ⟨0#5, 0#5, 0#5, 0#5⟩
    gpu.drawAreaTL := ⟨0#10, 0#10⟩
    gpu.drawAreaBR := ⟨0#10, 0#10⟩
    gpu.drawOffset := ⟨0#11, 0#11⟩
    gpu.mask := ⟨false, false⟩ }

/-- GP1.RESET_CMD_BUFFER (rule R342): abandons any GP0 command in flight, the data phase included. -/
def execGp1ResetCmdBuffer (s : State) : Out :=
  .next { s with gpu.cmdState := .idle, gpu.argCount := 0, gpu.currArg := 0 }

/-- GP1.ACK_IRQ (rule R343). -/
def execGp1AckIrq (s : State) : Out := .next { s with gpu.irq := false, gpu.irqSignalled := false }

/-- GP1.DISPLAY_ENABLE (rule R344): sets, does not toggle (C9). -/
def execGp1DisplayEnable (off : Bool) (s : State) : Out := .next { s with gpu.displayDisable := off }

/-- GP1.DMA_DIRECTION (rule R345). -/
def execGp1DmaDirection (dir : BitVec 2) (s : State) : Out := .next { s with gpu.dmaDirection := dir }

/-- GP1.DISPLAY_AREA (rule R346). -/
def execGp1DisplayArea (x : BitVec 10) (y : BitVec 9) (s : State) : Out :=
  .next { s with gpu.displayAreaX := x, gpu.displayAreaY := y }

/-- GP1.H_RANGE (rule R347). -/
def execGp1HRange (x1 x2 : BitVec 12) (s : State) : Out := .next { s with gpu.hRangeX1 := x1, gpu.hRangeX2 := x2 }

/-- GP1.V_RANGE (rule R348): with `GP1_07_SOURCE_QUIRK` the horizontal range is written instead (C2). -/
def execGp1VRange (y1 y2 : BitVec 10) (s : State) : Out :=
  if s.cfg.gp107SourceQuirk then
    .next { s with gpu.hRangeX1 := y1.setWidth 12, gpu.hRangeX2 := y2.setWidth 12 }
  else .next { s with gpu.vRangeY1 := y1, gpu.vRangeY2 := y2 }

/-- GP1.DISPLAY_MODE (rule R349). -/
def execGp1DisplayMode (mode : Byte) (s : State) : Out := .next { s with gpu.dispMode := mode }

/-- GP1.TEX_DISABLE_ALLOW (rule R350). -/
def execGp1TexDisableAllow (allow : Bool) (s : State) : Out := .next { s with gpu.texDisableAllowed := allow }

/-- The value an info query latches; none leaves the latch (rule R351). -/
def gpuInfo (g : Gpu) (index : BitVec 4) : Option Word :=
  match index.toNat with
  | 2 => some (0#12 ++ ((g.texWindow.offsetY ++ g.texWindow.offsetX) ++ (g.texWindow.maskY ++ g.texWindow.maskX))
      : BitVec (12 + ((5 + 5) + (5 + 5))))
  | 3 => some (0#12 ++ (g.drawAreaTL.y ++ g.drawAreaTL.x) : BitVec (12 + (10 + 10)))
  | 4 => some (0#12 ++ (g.drawAreaBR.y ++ g.drawAreaBR.x) : BitVec (12 + (10 + 10)))
  | 5 => some (0#10 ++ (g.drawOffset.y ++ g.drawOffset.x) : BitVec (10 + (11 + 11)))
  | 7 => some 2#32
  | 8 => some 0#32
  | _ => none

/-- GP1.GPU_INFO (rule R351). -/
def execGp1GpuInfo (index : BitVec 4) (s : State) : Out :=
  .next { s with gpu.gpuReadLatch := (gpuInfo s.gpu index).getD s.gpu.gpuReadLatch }

/-- An unrecognized GP1 command (rules R352, R601): fault 1, no state changed; or, where the parameters take rule
R602's alternative, a log and no state changed (assumption 16). -/
def execGp1Unrecognized (w : Word) (s : State) : Out :=
  if s.cfg.gp1UnknownDegrades then .next (emit (.log (.unknownGP1 w)) s) else .fault (.unknownGP1 w s)

end Sys2Proof.Machine
end

