-- ==== Sys2Proof/Machine/Dispatch.lean ====
section
/-! DEFINITION. What each instruction does: one arm per constructor, one direct call of its meaning. -/
namespace Sys2Proof.Machine

def exec (i : Instr) (s : State) : Host.Outcome State Fault Refusal :=
  match i with
  | .gp0Nop => Sys2Proof.Machine.execGp0Nop s
  | .gp0ClearCache => Sys2Proof.Machine.execGp0ClearCache s
  | .gp0Fill c pos size => Sys2Proof.Machine.execGp0Fill c pos size s
  | .gp0Irq => Sys2Proof.Machine.execGp0Irq s
  | .gp0PolyF3 semi raw c v0 v1 v2 => Sys2Proof.Machine.execGp0PolyF3 semi raw c v0 v1 v2 s
  | .gp0PolyFT3 semi raw c v0 t0 palette v1 t1 page v2 t2 => Sys2Proof.Machine.execGp0PolyFT3 semi raw c v0 t0 palette v1 t1 page v2 t2 s
  | .gp0PolyF4 semi raw c v0 v1 v2 v3 => Sys2Proof.Machine.execGp0PolyF4 semi raw c v0 v1 v2 v3 s
  | .gp0PolyFT4 semi raw c v0 t0 palette v1 t1 page v2 t2 v3 t3 => Sys2Proof.Machine.execGp0PolyFT4 semi raw c v0 t0 palette v1 t1 page v2 t2 v3 t3 s
  | .gp0PolyG3 semi raw c0 v0 c1 v1 c2 v2 => Sys2Proof.Machine.execGp0PolyG3 semi raw c0 v0 c1 v1 c2 v2 s
  | .gp0PolyGT3 semi raw c0 v0 t0 palette c1 v1 t1 page c2 v2 t2 => Sys2Proof.Machine.execGp0PolyGT3 semi raw c0 v0 t0 palette c1 v1 t1 page c2 v2 t2 s
  | .gp0PolyG4 semi raw c0 v0 c1 v1 c2 v2 c3 v3 => Sys2Proof.Machine.execGp0PolyG4 semi raw c0 v0 c1 v1 c2 v2 c3 v3 s
  | .gp0PolyGT4 semi raw c0 v0 t0 palette c1 v1 t1 page c2 v2 t2 c3 v3 t3 => Sys2Proof.Machine.execGp0PolyGT4 semi raw c0 v0 t0 palette c1 v1 t1 page c2 v2 t2 c3 v3 t3 s
  | .gp0LineF2 semi c v0 v1 => Sys2Proof.Machine.execGp0LineF2 semi c v0 v1 s
  | .gp0LineFP semi c vs => Sys2Proof.Machine.execGp0LineFP semi c vs s
  | .gp0LineG2 semi c0 v0 c1 v1 => Sys2Proof.Machine.execGp0LineG2 semi c0 v0 c1 v1 s
  | .gp0LineGP semi c0 v0 rest => Sys2Proof.Machine.execGp0LineGP semi c0 v0 rest s
  | .gp0RectVar semi raw c anchor size => Sys2Proof.Machine.execGp0RectVar semi raw c anchor size s
  | .gp0RectTVar semi raw c anchor t palette size => Sys2Proof.Machine.execGp0RectTVar semi raw c anchor t palette size s
  | .gp0Rect1 semi raw c anchor => Sys2Proof.Machine.execGp0Rect1 semi raw c anchor s
  | .gp0RectT1 semi raw c anchor t palette => Sys2Proof.Machine.execGp0RectT1 semi raw c anchor t palette s
  | .gp0Rect8 semi raw c anchor => Sys2Proof.Machine.execGp0Rect8 semi raw c anchor s
  | .gp0RectT8 semi raw c anchor t palette => Sys2Proof.Machine.execGp0RectT8 semi raw c anchor t palette s
  | .gp0Rect16 semi raw c anchor => Sys2Proof.Machine.execGp0Rect16 semi raw c anchor s
  | .gp0RectT16 semi raw c anchor t palette => Sys2Proof.Machine.execGp0RectT16 semi raw c anchor t palette s
  | .gp0CopyVramVram src dst size => Sys2Proof.Machine.execGp0CopyVramVram src dst size s
  | .gp0CopyCpuVram dst size => Sys2Proof.Machine.execGp0CopyCpuVram dst size s
  | .gp0CopyVramCpu src size => Sys2Proof.Machine.execGp0CopyVramCpu src size s
  | .gp0DrawMode mode => Sys2Proof.Machine.execGp0DrawMode mode s
  | .gp0TexWindow w => Sys2Proof.Machine.execGp0TexWindow w s
  | .gp0DrawAreaTl c => Sys2Proof.Machine.execGp0DrawAreaTl c s
  | .gp0DrawAreaBr c => Sys2Proof.Machine.execGp0DrawAreaBr c s
  | .gp0DrawOffset o => Sys2Proof.Machine.execGp0DrawOffset o s
  | .gp0Mask m => Sys2Proof.Machine.execGp0Mask m s
  | .gp0Unrecognized w => Sys2Proof.Machine.execGp0Unrecognized w s
  | .gp0Data pixel0 pixel1 => Sys2Proof.Machine.execGp0Data pixel0 pixel1 s
  | .gp1Reset => Sys2Proof.Machine.execGp1Reset s
  | .gp1ResetCmdBuffer => Sys2Proof.Machine.execGp1ResetCmdBuffer s
  | .gp1AckIrq => Sys2Proof.Machine.execGp1AckIrq s
  | .gp1DisplayEnable off => Sys2Proof.Machine.execGp1DisplayEnable off s
  | .gp1DmaDirection dir => Sys2Proof.Machine.execGp1DmaDirection dir s
  | .gp1DisplayArea x y => Sys2Proof.Machine.execGp1DisplayArea x y s
  | .gp1HRange x1 x2 => Sys2Proof.Machine.execGp1HRange x1 x2 s
  | .gp1VRange y1 y2 => Sys2Proof.Machine.execGp1VRange y1 y2 s
  | .gp1DisplayMode mode => Sys2Proof.Machine.execGp1DisplayMode mode s
  | .gp1TexDisableAllow allow => Sys2Proof.Machine.execGp1TexDisableAllow allow s
  | .gp1GpuInfo index => Sys2Proof.Machine.execGp1GpuInfo index s
  | .gp1Unrecognized w => Sys2Proof.Machine.execGp1Unrecognized w s
  | .gpuGpuread => Sys2Proof.Machine.execGpuGpuread s
  | .gpuGpustat => Sys2Proof.Machine.execGpuGpustat s
  | .dmaMadrWrite n b d => Sys2Proof.Machine.execDmaMadrWrite n b d s
  | .dmaBcrWrite n b d => Sys2Proof.Machine.execDmaBcrWrite n b d s
  | .dmaChcrWrite n b d => Sys2Proof.Machine.execDmaChcrWrite n b d s
  | .dmaReservedWrite n b d => Sys2Proof.Machine.execDmaReservedWrite n b d s
  | .dmaDpcrWrite b d => Sys2Proof.Machine.execDmaDpcrWrite b d s
  | .dmaDicrWriteLow b d => Sys2Proof.Machine.execDmaDicrWriteLow b d s
  | .dmaDicrAck d => Sys2Proof.Machine.execDmaDicrAck d s
  | .dmaUnmapped a data => Sys2Proof.Machine.execDmaUnmapped a data s
  | .dmaRead a => Sys2Proof.Machine.execDmaRead a s
  | .cdIndexWrite index => Sys2Proof.Machine.execCdIndexWrite index s
  | .cdCommand d => Sys2Proof.Machine.execCdCommand d s
  | .cdSoundmapData d => Sys2Proof.Machine.execCdSoundmapData d s
  | .cdSoundmapCoding d => Sys2Proof.Machine.execCdSoundmapCoding d s
  | .cdVolRr d => Sys2Proof.Machine.execCdVolRr d s
  | .cdParam d => Sys2Proof.Machine.execCdParam d s
  | .cdIntEnable codes => Sys2Proof.Machine.execCdIntEnable codes s
  | .cdVolLl d => Sys2Proof.Machine.execCdVolLl d s
  | .cdVolRl d => Sys2Proof.Machine.execCdVolRl d s
  | .cdRequest d => Sys2Proof.Machine.execCdRequest d s
  | .cdIntAck clearParams codes => Sys2Proof.Machine.execCdIntAck clearParams codes s
  | .cdVolLr d => Sys2Proof.Machine.execCdVolLr d s
  | .cdVolApply d => Sys2Proof.Machine.execCdVolApply d s
  | .cdStatusRead => Sys2Proof.Machine.execCdStatusRead s
  | .cdResponseRead => Sys2Proof.Machine.execCdResponseRead s
  | .cdDataRead => Sys2Proof.Machine.execCdDataRead s
  | .cdIntRead => Sys2Proof.Machine.execCdIntRead s
  | .shell => Sys2Proof.Machine.execShell s
  | .cdGetstat => Sys2Proof.Machine.execCdGetstat s
  | .cdSetloc => Sys2Proof.Machine.execCdSetloc s
  | .cdPlay => Sys2Proof.Machine.execCdPlay s
  | .cdReadn => Sys2Proof.Machine.execCdReadn s
  | .cdMotoron => Sys2Proof.Machine.execCdMotoron s
  | .cdStop => Sys2Proof.Machine.execCdStop s
  | .cdPause => Sys2Proof.Machine.execCdPause s
  | .cdInit => Sys2Proof.Machine.execCdInit s
  | .cdMute => Sys2Proof.Machine.execCdMute s
  | .cdDemute => Sys2Proof.Machine.execCdDemute s
  | .cdSetfilter => Sys2Proof.Machine.execCdSetfilter s
  | .cdSetmode => Sys2Proof.Machine.execCdSetmode s
  | .cdGetlocl => Sys2Proof.Machine.execCdGetlocl s
  | .cdGetlocp => Sys2Proof.Machine.execCdGetlocp s
  | .cdSetsession => Sys2Proof.Machine.execCdSetsession s
  | .cdGettn => Sys2Proof.Machine.execCdGettn s
  | .cdGettd => Sys2Proof.Machine.execCdGettd s
  | .cdSeekl => Sys2Proof.Machine.execCdSeekl s
  | .cdSeekp => Sys2Proof.Machine.execCdSeekp s
  | .cdTest => Sys2Proof.Machine.execCdTest s
  | .cdGetid => Sys2Proof.Machine.execCdGetid s
  | .cdReads => Sys2Proof.Machine.execCdReads s
  | .cdReadtoc => Sys2Proof.Machine.execCdReadtoc s
  | .cdUnlock variant => Sys2Proof.Machine.execCdUnlock variant s
  | .cdUnrecognized d => Sys2Proof.Machine.execCdUnrecognized d s

end Sys2Proof.Machine
end

