-- ==== Sys2Proof/Machine/Ticks.lean ====
section
/-! DEFINITION. The three steps the host calls: `gpu.step`, `dma.step`, `cdrom.step`, each with its interrupt edge
(rules R114, R118, R611). -/
namespace Sys2Proof.Machine

/-! ### gpu.step (rules R370, R371) -/

/-- The parity bit: per frame in interlaced 480-line mode, else per line (rule R370). -/
def oddOf (g : Gpu) : Bool :=
  if vres g && interlace g then decide (g.frame % 2 = 1) else decide (g.line % 2 = 1)

/-- The timing after `newLines > 0` lines, and whether a frame ended: at most one does, and restarts at line 0. -/
def advanceLines (c : Config) (newLines : Nat) (g : Gpu) : Bool × Gpu :=
  let ended := decide (c.linesPerFrame ≤ g.line + newLines)
  let g := if ended then { g with line := 0, frame := g.frame + 1 } else { g with line := g.line + newLines }
  (ended, { g with odd := oddOf g })

/-- The display timing of a step of `cycles`, and whether a frame ended (rule R370). -/
def advanceTiming (c : Config) (cycles : Nat) (g : Gpu) : Bool × Gpu :=
  let total := g.dotAccum + cycles
  let newLines := total / c.gpuCyclesPerLine
  let g := { g with dotAccum := total % c.gpuCyclesPerLine }
  if newLines = 0 then (false, g) else advanceLines c newLines g

/-- The GPU interrupt at the end of a step (rule R371): one trigger for one request. -/
def signalGpu (s : State) : State :=
  if s.cfg.gpuIrqSignals && (s.gpu.irq && !s.gpu.irqSignalled) then
    emit (.trigger .gpu) { s with gpu.irqSignalled := true }
  else s

/-- `gpu.step(cycles)`; the Boolean it returns is the event `vblank` (rules R370, R371). -/
def gpuStep (cycles : Nat) (s : State) : State :=
  let (ended, g) := advanceTiming s.cfg cycles s.gpu
  emit (.vblank ended) (signalGpu { s with gpu := g })

/-! ### dma.step (rule R440) -/

/-- `dma.step()`: the master flag recomputed, a trigger on its rising edge only. -/
def dmaStep (s : State) : State :=
  let prev := s.dma.dicr.getLsbD 31
  let mf := masterCondition s.dma.dicr
  let s := { s with dma.dicr := setMasterFlag s.dma.dicr mf }
  if mf && !prev then emit (.trigger .dma) s else s

/-! ### cdrom.step (rules R476, R481, R482) -/

/-- Sector delivery and `ackMoreData` (rule R482); a sector the disc does not hold takes its draws. -/
def deliverSector (s : State) : State :=
  let x := s.cd.currentSector
  let fifo :=
    if s.cd.modeReg.getLsbD 5 then sectorBytes s x 12 s.cfg.cdSectorRaw else sectorBytes s x 24 s.cfg.cdSectorData
  let header := Vector.ofFn fun i : Fin 8 => sectorByte s x (12 + i.val)
  let s := { s with
    cd.dataFifo := fifo
    cd.lastHeader := header
    cd.currentSector := x + 1
    draws := s.draws + sectorSize }
  let s := { s with cd.intFifo := fifoPush s.cfg s.cd.intFifo int1 }
  writeResponse s.cd.stat s

/-- Steps per sector: `modeReg[7]` selects double speed (rule R481). -/
def sectorInterval (s : State) : Nat :=
  if s.cd.modeReg.getLsbD 7 then s.cfg.cdStepsPerSector2x else s.cfg.cdStepsPerSector1x

/-- The sector timer while reading or playing (rule R481). -/
def advanceSector (s : State) : State :=
  if s.cd.stat.getLsbD 5 || s.cd.stat.getLsbD 7 then
    let t := s.cd.sectorTimer + 1
    if sectorInterval s ≤ t then deliverSector { s with cd.sectorTimer := 0 } else { s with cd.sectorTimer := t }
  else s

/-- Does the interrupt FIFO's front signal now (rule R476)? -/
def cdSignals (d : Cd) : Bool :=
  match d.intFifo with
  | [] => false
  | code :: _ => !d.frontSignalled && (d.ie &&& code.extractLsb' 0 5) != 0#5

/-- CDROM interrupt signalling (rule R476). -/
def signalCd (s : State) : State :=
  if cdSignals s.cd then emit (.trigger .cdrom) { s with cd.frontSignalled := true } else s

/-- `cdrom.step()` (rule R481): delivery before signalling (D74). -/
def cdStep (s : State) : State := signalCd (advanceSector { s with cd.busy := false })

end Sys2Proof.Machine
end

