-- ==== Sys2Proof/Machine/Transact.lean ====
section
/-! DEFINITION. Host transactions (rule R140): what each decodes to (rules R102 to R106, R460), the width checks that
come first (rule R603), wider DMA accesses byte by byte (rule R105), the steps, the shell toggle, and the host CPU's own
store to main RAM (rule R116). -/
namespace Sys2Proof.Machine

/-! ### GPU -/

/-- A GP0 word from the host: collected, or the instruction it completes is run (rules R200, R208). -/
def hostGp0 (w : Word) (s : State) : Out :=
  match gp0Take w s with
  | .collected s => .next s
  | .complete i s => exec i s

/-- A GPU write (rules R102, R103, R340). -/
def gpuWrite (off : Nat) (width : Width) (w : Word) (s : State) : Out :=
  if width = .w32 ∧ off = 0 then hostGp0 w s
  else if width = .w32 ∧ off = 4 then exec (gp1Of w) s
  else .fault (.hostAccessWidth off width.bits s)

/-- A GPU read (rules R102, R103). -/
def gpuRead (off : Nat) (width : Width) (s : State) : Out :=
  if width = .w32 ∧ off = 0 then exec .gpuGpuread s
  else if width = .w32 ∧ off = 4 then exec .gpuGpustat s
  else .fault (.hostAccessWidth off width.bits s)

/-! ### DMA -/

/-- The bytes of a write from byte `i` of the data on, `n` of them, at ascending addresses (rule R105). -/
def dmaWriteBytes (a n i : Nat) (w : Word) (s : State) : Out :=
  match n with
  | 0 => .next s
  | k + 1 =>
    andThen (exec (dmaWriteOf s.cfg (BitVec.ofNat 7 (a + i)) (wordByte w i)) s) (fun s => dmaWriteBytes a k (i + 1) w s)

/-- The bytes of a read, `n` of them from address `a` on (rule R105). -/
def dmaReadBytes (a n : Nat) (s : State) : Out :=
  match n with
  | 0 => .next s
  | k + 1 => andThen (exec (dmaReadOf s.cfg (BitVec.ofNat 7 a)) s) (fun s => dmaReadBytes (a + 1) k s)

/-- A DMA write of any width; one that leaves the window is no transaction (rules R104, R140; assumption 14). -/
def dmaWriteTxn (off : Nat) (width : Width) (w : Word) (s : State) : Out :=
  if off + width.bytes ≤ 0x80 then dmaWriteBytes off width.bytes 0 w s
  else .refused (.outsideWindow .dma off width.bits)

/-- A DMA read of any width. -/
def dmaReadTxn (off : Nat) (width : Width) (s : State) : Out :=
  if off + width.bytes ≤ 0x80 then dmaReadBytes off width.bytes s
  else .refused (.outsideWindow .dma off width.bits)

/-! ### CDROM -/

/-- A CDROM write: the width check, then the port and the bank index (rules R106, R460, R603). -/
def cdWriteTxn (off : Nat) (width : Width) (w : Word) (s : State) : Out :=
  if width ≠ .w8 then .fault (.hostAccessWidth off width.bits s)
  else if off < 4 then exec (cdWriteOf (BitVec.ofNat 2 off) s.cd.index (byte0 w)) s
  else .refused (.outsideWindow .cdrom off width.bits)

/-- A CDROM read. -/
def cdReadTxn (off : Nat) (width : Width) (s : State) : Out :=
  if width ≠ .w8 then .fault (.hostAccessWidth off width.bits s)
  else if off < 4 then exec (cdReadOf (BitVec.ofNat 2 off)) s
  else .refused (.outsideWindow .cdrom off width.bits)

/-! ### All transactions -/

/-- The end of a read: the bytes it returned, assembled little-endian, are the value the host gets (rules R105,
R140). -/
def finishRead (width : Width) (s : State) : State :=
  emit (.returned width (wordOfBytesLE s.readBuf)) s

/-- The read part of a transaction. -/
def readTxn (c : Comp) (off : Nat) (width : Width) (s : State) : Out :=
  match c with
  | .gpu => gpuRead off width s
  | .dma => dmaReadTxn off width s
  | .cdrom => cdReadTxn off width s

/-- A write transaction. -/
def writeTxn (c : Comp) (off : Nat) (width : Width) (w : Word) (s : State) : Out :=
  match c with
  | .gpu => gpuWrite off width w s
  | .dma => dmaWriteTxn off width w s
  | .cdrom => cdWriteTxn off width w s

/-- A step; `cycles` is read only by the GPU's (rule R140). -/
def tickTxn (c : Comp) (cycles : Nat) (s : State) : State :=
  match c with
  | .gpu => gpuStep cycles s
  | .dma => dmaStep s
  | .cdrom => cdStep s

/-- The host CPU's own store of a byte to main RAM (rule R116; assumption 11). -/
def ramStoreTxn (addr : Nat) (d : Byte) (s : State) : Out :=
  if addr < s.cfg.ramSize then .next { s with ram := memSetByte s.ram addr d } else .refused (.outsideRam addr)

/-- One host transaction, atomic (rules R111, R140). -/
def transact (t : Txn) (s : State) : Out :=
  match t with
  | .write c off width w => writeTxn c off width w s
  | .read c off width => andThen (readTxn c off width s) (fun s => .next (finishRead width s))
  | .tick c cycles => .next (tickTxn c cycles s)
  | .shell => exec .shell s
  | .ramStore addr d => ramStoreTxn addr d s

/-! ### A word of the opcode table as the next transaction -/

/-- The decoder in the middle of a GP0 command of kind `k`, with the words `ws` received and `count` needed. -/
def collecting (k : Kind) (ws : List Word) (count : Nat) (s : State) : State :=
  { s with
    gpu.cmdState := .collect k
    gpu.args := ws ++ s.gpu.args.drop ws.length
    gpu.currArg := ws.length
    gpu.argCount := count }

/-- `s` with the GP0 packet `ws` received up to its last word, which is the next transaction; the last word of a
polyline cut short is the sentinel (rule R207). -/
def placeGp0 (ws : List Word) (s : State) : State :=
  match ws with
  | [] => s
  | w :: _ =>
    match gp0Class (byte3 w) with
    | .multiword k =>
      let count := wordCount s.cfg k w
      if ws.length < count then
        { collecting k ws count s with script := [.write .gpu 0 .w32 s.cfg.lineSentinel] }
      else
        { collecting k ws.dropLast count s with script := [.write .gpu 0 .w32 (ws.getLastD w)] }
    | _ => { s with gpu.cmdState := .idle, script := [.write .gpu 0 .w32 w] }

/-- `s` with the encoded form `r` as its next transaction and what the transaction needs to be decoded as `r`: the
decoder state for a GP0 word, the bank index for a CDROM port. -/
def placeRaw (r : Raw) (s : State) : State :=
  match r with
  | .gp0 ws => placeGp0 ws s
  | .gp0Data w => { s with gpu.cmdState := .cpuToVramData, script := [.write .gpu 0 .w32 w] }
  | .gp1 w => { s with script := [.write .gpu 4 .w32 w] }
  | .gpuRead stat => { s with script := [.read .gpu (if stat then 4 else 0) .w32] }
  | .dmaWrite a d => { s with script := [.write .dma a.toNat .w8 (d.setWidth 32)] }
  | .dmaRead a => { s with script := [.read .dma a.toNat .w8] }
  | .cdWrite p i d => { s with cd.index := i, script := [.write .cdrom p.toNat .w8 (d.setWidth 32)] }
  | .cdRead p i => { s with cd.index := i, script := [.read .cdrom p.toNat .w8] }
  | .cdCommand d => { s with cd.index := 0#2, script := [.write .cdrom 1 .w8 (d.setWidth 32)] }
  | .shell => { s with script := [.shell] }

end Sys2Proof.Machine
end

