-- ==== Sys2Proof/Machine/Step.lean ====
section
/-! DEFINITION. The step: the next host transaction. The block executes nothing by itself (rules R1, R113, R704). -/
namespace Sys2Proof.Machine

/-- One step: the next host transaction, taken off the script. With none left the block does nothing (rule R704). -/
def step (s : State) : Host.Outcome State Fault Refusal :=
  match s.script with
  | [] => .next s
  | t :: ts => transact t { s with script := ts, readBuf := [] }

/-- `s` with a word of spec/opcode_table.json as its next transaction (`tableRaw` says by which port; assumptions 12
and 17). -/
def State.withFetchWord (s : State) (nbits w : Nat) : State :=
  match tableRaw nbits w with
  | none => s
  | some r => placeRaw r s

end Sys2Proof.Machine
end

