-- ==== Sys2Proof/Safety.lean ====
section
/-! DEFINITION. The terms claims are stated in: the invariant of the state, when a transaction is one instruction, runs
of transactions, and what a run sent out. -/
namespace Sys2Proof.Machine

/-! ### The invariant -/

/-- The GP0 decoder's state (rules R32, R33, R205, R207): while a command collects, `args[0]` is its command word,
`argCount` its word count, fewer words than that have come, and no argument of a polyline is the sentinel; otherwise
both counters are 0. -/
def decoderInv (c : Config) (g : Gpu) : Prop :=
  match g.cmdState with
  | .collect k =>
    gp0Class (byte3 (argAt g.args 0)) = .multiword k
      ∧ g.argCount = wordCount c k (argAt g.args 0)
      ∧ 1 ≤ g.currArg ∧ g.currArg < g.argCount
      ∧ (isPolyline k (argAt g.args 0) = true → ∀ w ∈ (g.args.take g.currArg).drop 1, w ≠ c.lineSentinel)
  | _ => g.argCount = 0 ∧ g.currArg = 0

/-- The transfer cursor while a transfer is in progress (rules R34, R300, R305): the column lies in the rectangle's
span, the corner and the ends in the fields' ranges. `currY` has no bound here: the hazard of rule R722 can carry it
past `endY` (assumption 18). -/
def cursorInv (g : Gpu) : Prop :=
  g.cmdState = .cpuToVramData ∨ g.readMode = .vramRead →
    g.cursor.startX ≤ g.cursor.currX ∧ g.cursor.currX < g.cursor.endX
      ∧ g.cursor.startX ≤ 0xFFFF ∧ g.cursor.startY ≤ 0xFFFF
      ∧ g.cursor.endX ≤ 0x1FFFE ∧ g.cursor.endY ≤ 0x1FFFE ∧ g.cursor.startY ≤ g.cursor.currY

/-- The mode of the stat byte: at most one of bits 5, 6, 7 (rule R62). -/
def modeOneHot (stat : Byte) : Prop :=
  stat &&& 0xE0#8 = 0x00#8 ∨ stat &&& 0xE0#8 = 0x20#8 ∨ stat &&& 0xE0#8 = 0x40#8 ∨ stat &&& 0xE0#8 = 0x80#8

/-- The interrupt codes the block queues (rules R64, R479, R482): 1, 2, 3, 5. -/
def cdCode (b : Byte) : Prop := b = int1 ∨ b = int2 ∨ b = int3 ∨ b = int5

/-- The invariant of the state. -/
structure State.Inv (s : State) : Prop where
  /-- the parameters are ones the model takes (rule R204) -/
  cfg : s.cfg.accepts = true
  /-- VRAM in canonical form, inside the grid (rule R101) -/
  vram : Vram.wf s.cfg s.gpu.vram = true
  /-- main RAM in canonical form, below `RAM_SIZE` (rule R107) -/
  ram : Memory.wf s.cfg s.ram = true
  /-- the argument buffer's length (rule R33) -/
  args : s.gpu.args.length = s.cfg.argBufferWords
  decoder : decoderInv s.cfg s.gpu
  cursor : cursorInv s.gpu
  /-- a signalled request is a pending one (rules R37, R371) -/
  irq : s.gpu.irqSignalled = true → s.gpu.irq = true
  /-- the display timing's ranges (rule R48) -/
  dots : s.gpu.dotAccum < s.cfg.gpuCyclesPerLine
  line : s.gpu.line < s.cfg.linesPerFrame
  /-- the FIFO capacities (rules R13, R63 to R65) -/
  params : s.cd.paramFifo.length ≤ s.cfg.fifoCap
  responses : s.cd.responseFifo.length ≤ s.cfg.fifoCap
  ints : s.cd.intFifo.length ≤ s.cfg.fifoCap
  data : s.cd.dataFifo.length ≤ s.cfg.cdSectorRaw
  codes : ∀ b ∈ s.cd.intFifo, cdCode b
  /-- only an entry at the front can have been signalled (rule R476) -/
  front : s.cd.frontSignalled = true → s.cd.intFifo ≠ []
  mode : modeOneHot s.cd.stat

/-! ### When a transaction is one instruction -/

/-- The encoded form of a GP0 word that is one instruction by itself: none while a command collects, or where the word
starts a command of several. -/
def gp0Raw (g : Gpu) (w : Word) : Option Raw :=
  match g.cmdState with
  | .idle =>
    match gp0Class (byte3 w) with
    | .multiword _ => none
    | .immediate => some (.gp0 [w])
    | .unrecognized => some (.gp0 [w])
  | .cpuToVramData => some (.gp0Data w)
  | .collect _ => none

/-- The encoded form of a write (rules R102, R104, R460). -/
def writeRaw (s : State) (c : Comp) (off : Nat) (width : Width) (w : Word) : Option Raw :=
  match c with
  | .gpu =>
    if width = .w32 ∧ off = 0 then gp0Raw s.gpu w
    else if width = .w32 ∧ off = 4 then some (.gp1 w)
    else none
  | .dma => if width = .w8 ∧ off < 0x80 then some (.dmaWrite (BitVec.ofNat 7 off) (byte0 w)) else none
  | .cdrom => if width = .w8 ∧ off < 4 then some (.cdWrite (BitVec.ofNat 2 off) s.cd.index (byte0 w)) else none

/-- The encoded form of a read. -/
def readRaw (s : State) (c : Comp) (off : Nat) (width : Width) : Option Raw :=
  match c with
  | .gpu =>
    if width = .w32 ∧ off = 0 then some (.gpuRead false)
    else if width = .w32 ∧ off = 4 then some (.gpuRead true)
    else none
  | .dma => if width = .w8 ∧ off < 0x80 then some (.dmaRead (BitVec.ofNat 7 off)) else none
  | .cdrom => if width = .w8 ∧ off < 4 then some (.cdRead (BitVec.ofNat 2 off) s.cd.index) else none

/-- The encoded form a transaction brings the decoder in the state `s`, where it is one instruction by itself: every
GPU access of the right width but a GP0 word that only collects, every 8-bit DMA or CDROM access, the shell toggle. -/
def Txn.raw (s : State) (t : Txn) : Option Raw :=
  match t with
  | .write c off width w => writeRaw s c off width w
  | .read c off width => readRaw s c off width
  | .shell => some .shell
  | .tick _ _ => none
  | .ramStore _ _ => none

/-- The state in which a step runs its instruction: the transaction taken off the script, no byte returned yet. -/
def enter (s : State) : State := { s with script := s.script.tail, readBuf := [] }

/-- What a step adds after its instruction: a read sends its value out. -/
def leave (t : Txn) (o : Out) : Out :=
  match t with
  | .read _ _ width => andThen o fun s => .next (finishRead width s)
  | _ => o

/-! ### Runs -/

/-- GP0 words written by the host, one after another. -/
def feed (ws : List Word) (s : State) : Out :=
  match ws with
  | [] => .next s
  | w :: ws => andThen (transact (.write .gpu 0 .w32 w) s) (feed ws)

/-- A script of transactions, run to its end or to the first stop. -/
def runAll (ts : List Txn) (s : State) : Out :=
  match ts with
  | [] => .next s
  | t :: ts => andThen (transact t s) (runAll ts)

/-- The instructions that encoded forms decode to, run one after another. -/
def runForms (rs : List Raw) (s : State) : Out :=
  match rs with
  | [] => .next s
  | r :: rs =>
    match decode s.cfg r with
    | .instr i => andThen (exec i s) (runForms rs)
    | .reject _ => .next s

/-- The triggers of a component among events (rule R610). -/
def triggers (c : Comp) (es : List Event) : Nat := es.countP (· == .trigger c)

/-- `dma.step` calls in a run of transactions at which the master condition holds and the stored flag is 0: the rising
edges of rule R440. -/
def dmaEdges (ts : List Txn) (s : State) : Nat :=
  match ts with
  | [] => 0
  | t :: ts =>
    let here := match t with
      | .tick .dma _ => if masterCondition s.dma.dicr && !s.dma.dicr.getLsbD 31 then 1 else 0
      | _ => 0
    match transact t s with
    | .next s' => here + dmaEdges ts s'
    | _ => here

/-- `n` GPUREADs, the words in order, and the state they leave (rules R320, R724). -/
def gpuReads (n : Nat) (s : State) : List Word × State :=
  match n with
  | 0 => ([], s)
  | k + 1 =>
    let (w, s) := gpuReadWord s
    let (ws, s) := gpuReads k s
    (w :: ws, s)

/-! ### Pixels and words of a transfer -/

/-- Pixel `k` of a stream of words: two to a word, the first in bits 15:0 (rule R108). -/
def pixelOfWords (ws : List Word) (k : Nat) : Pixel :=
  let w := ws.getD (k / 2) 0#32
  if k % 2 = 0 then lowHalf w else highHalf w

/-- Is the pixel `(x, y)` one of the `w` by `h` pixels from `(x0, y0)` on, wrapped (rules R101, R250)? -/
def inRect (c : Config) (x0 y0 w h x y : Nat) : Prop :=
  ∃ i j, i < w ∧ j < h ∧ (x0 + i) % c.vramWidth = x % c.vramWidth ∧ (y0 + j) % c.vramHeight = y % c.vramHeight

/-! ### DMA transfers -/

/-- The state after the byte `d` is stored in CHCR byte 3 of channel `n`, before any transfer (rule R403). -/
def chcrStored (n : Fin 7) (d : Byte) (s : State) : State :=
  setChannel s n { channel s n with chcr := setWordByte (channel s n).chcr 3 d }

/-- A write of `d` to CHCR byte 3 of channel `n` starts a transfer that rules R420 and R427 let run. -/
def transferRuns (n : Fin 7) (d : Byte) (s : State) : Prop :=
  let c := (channel (chcrStored n d s) n).chcr
  dmaStarts s.cfg s.dma.dpcr n c = true ∧ chcrSync c ≠ 3#2 ∧ dmaRefused n c = false

/-- The RAM address of the `i`-th word of a transfer from `base` (rule R421). -/
def wordAddr (c : Config) (base : Nat) (delta : Int) (i : Nat) : Nat :=
  (((base : Int) + delta * i) % (c.ramSize : Int)).toNat

/-- Is `a` one of the bytes of the `n` words of a transfer from `base`? -/
def inTransfer (c : Config) (base : Nat) (delta : Int) (n a : Nat) : Prop :=
  ∃ i, i < n ∧ wordAddr c base delta i ≤ a ∧ a < wordAddr c base delta i + 4

/-- The GP0 words of the linked-list node at `addr` (rule R423). -/
def nodeWords (c : Config) (m : Memory) (addr : Nat) : List Word :=
  (List.range (byte3 (memRead m addr)).toNat).map fun i => memRead m ((addr + 4 * (i + 1)) % c.ramSize)

/-- The GP0 words of the linked list at `addr`, following at most `nodes` headers; none where the list is longer (rules
R423, R428). -/
def listWords (c : Config) (m : Memory) (nodes addr : Nat) : Option (List Word) :=
  match nodes with
  | 0 => none
  | k + 1 =>
    let header := memRead m addr
    if bitOf header 23 then some (nodeWords c m addr)
    else (listWords c m k (ramAddr c header)).map (nodeWords c m addr ++ ·)

/-- The address of the header `nodes` links on from the one at `addr` (rule R423). -/
def listHeader (c : Config) (m : Memory) (nodes addr : Nat) : Nat :=
  match nodes with
  | 0 => addr
  | k + 1 => listHeader c m k (ramAddr c (memRead m addr))

/-- The GP0 words of the first `nodes` nodes from the one at `addr` on, in order. -/
def listPrefix (c : Config) (m : Memory) (nodes addr : Nat) : List Word :=
  match nodes with
  | 0 => []
  | k + 1 => nodeWords c m addr ++ listPrefix c m k (ramAddr c (memRead m addr))

end Sys2Proof.Machine
end

