-- ==== Sys2Proof/Certificates/Slice0/Obligations.lean ====
section
/-! DEFINITION. The statements for the provers. Each docstring names the rules of spec/ it formalises. -/
open Sys2Proof Sys2Proof.Machine

/-! ### Encoding -/

/-- Rules R104, R142 to R152, R460, R510: for every well-formed instruction, with every operand at every value its
encoding admits, decoding its encoding gives it back. A DMA instruction is well formed where its channel is one of the
`DMA_CHANNELS` (assumption 3). -/
def Obligations.DecodeOfEncodeIsTheInstruction : Prop :=
  ∀ (c : Config) (i : Instr), c.accepts = true → i.wf c = true → decode c (encode i) = .instr i

/-- Rules R142 to R152, R207, R229, R352, R405, R460, R510, R511: whatever the decoder answers is well formed, so an
unrecognized word or byte is really outside the maps and a polyline fits its nominal count. The sentinel's default
matters: its ignored bits are not 0. What an absent DMA channel's addresses decode to is the model's (assumption 3). -/
def Obligations.DecoderAnswersWellFormed : Prop :=
  ∀ (c : Config) (r : Raw) (i : Instr), c.lineSentinel = 0x55555555#32 → decode c r = .instr i → i.wf c = true

/-- Rules R142 to R152, R400, R460, R510: words written out from the tables decode to what they stand for. A sanity
statement. -/
def Obligations.SampleWordsDecode : Prop :=
  let c := Config.default
  decode c (.gp0 [0x020000FF#32, 0x01FE03FC#32, 0x00040008#32])
      = .instr (.gp0Fill ⟨0xFF, 0, 0⟩ ⟨1020, 510⟩ ⟨8, 4⟩)
    ∧ decode c (.gp0 [0x2D0000FF#32, 0#32, 0x7FC00000#32, 0x10#32, 0x00050010#32, 0x00100000#32, 0x1000#32,
        0x00100010#32, 0x1010#32])
      = .instr (.gp0PolyFT4 false true ⟨0xFF, 0, 0⟩ ⟨0, 0⟩ ⟨0, 0⟩ 0x7FC0 ⟨16, 0⟩ ⟨0x10, 0⟩ 5 ⟨0, 16⟩ ⟨0, 0x10⟩
          ⟨16, 16⟩ ⟨0x10, 0x10⟩)
    ∧ decode c (.gp0 [0xE50007FF#32]) = .instr (.gp0DrawOffset ⟨0x7FF, 0⟩)
    ∧ decode c (.gp1 0x06C60260#32) = .instr (.gp1HRange 0x260 0xC60)
    ∧ decode c (.gp1 0x1F000007#32) = .instr (.gp1GpuInfo 7)
    ∧ decode c (.dmaWrite 0x6B#7 0x11#8) = .instr (.dmaChcrWrite 6 3 0x11)
    ∧ decode c (.dmaRead 0x77#7) = .instr (.dmaRead 0x77)
    ∧ decode c (.cdWrite 3 1 0x5F#8) = .instr (.cdIntAck true 0x1F)
    ∧ decode c (.cdCommand 0x52#8) = .instr (.cdUnlock 2)
    ∧ decode c (.gp0 [0x20000000#32]) = .reject (.wrongWordCount 4 1)

/-! ### The step, and the GP0 decoder -/

/-- Rules R140, R200, R340, R400, R460: where the next transaction brings one encoded form and that decodes to `i`,
the step is `exec i` from the state with the transaction taken off; a read then sends its value out. The script and
the sent value are how the model holds them (assumptions 13, 17). -/
def Obligations.StepRunsTheDecodedInstruction : Prop :=
  ∀ (s : State) (t : Txn) (ts : List Txn) (r : Raw) (i : Instr), s.script = t :: ts → Txn.raw s t = some r →
    decode s.cfg r = .instr i → step s = leave t (exec i (enter s))

/-- Rules R201, R206 to R208: a GP0 word in `Idle` that names a multiword command starts its collection; in `Collect`
a word is stored while more are needed; the last word, or a polyline's sentinel, runs the instruction the received
words decode to, from the `Idle` decoder. The script is how the model holds the host (assumptions 13, 17). -/
def Obligations.CollectionRunsTheDecodedPacket : Prop :=
  ∀ (s : State) (w : Word) (ts : List Txn), s.Inv → s.script = .write .gpu 0 .w32 w :: ts →
    (∀ k, s.gpu.cmdState = .idle → gp0Class (byte3 w) = .multiword k →
      step s = .next { enter s with
        gpu.cmdState := .collect k, gpu.args := s.gpu.args.set 0 w, gpu.currArg := 1,
        gpu.argCount := wordCount s.cfg k w })
    ∧ ∀ k, s.gpu.cmdState = .collect k →
      let ends := isPolyline k (argAt s.gpu.args 0) = true ∧ w = s.cfg.lineSentinel
      let stored := { enter s with gpu.args := s.gpu.args.set s.gpu.currArg w }
      (ends → ∃ i, decode s.cfg (.gp0 (s.gpu.args.take s.gpu.currArg)) = .instr i ∧
        step s = exec i (endCollect (enter s)))
      ∧ (¬ ends → s.gpu.currArg + 1 = s.gpu.argCount →
        ∃ i, decode s.cfg (.gp0 (s.gpu.args.take s.gpu.currArg ++ [w])) = .instr i ∧
          step s = exec i (endCollect stored))
      ∧ (¬ ends → s.gpu.currArg + 1 ≠ s.gpu.argCount →
        step s = .next { stored with gpu.currArg := s.gpu.currArg + 1 })

/-- Rules R150, R205 to R208, R264, R265: the words of any well-formed GP0 command, a cut-short polyline's sentinel
after them, sent to an idle decoder, run exactly that command; the argument buffer alone may differ. -/
def Obligations.Gp0StreamRunsTheCommand : Prop :=
  ∀ (s : State) (i : Instr), s.Inv → s.gpu.cmdState = .idle → i.wf s.cfg = true → gp0Words i ≠ [] →
    ∃ args, args.length = s.gpu.args.length ∧
      feed (gp0Stream s.cfg i) s = exec i { s with gpu.args := args }

/-- Rules R422, R600: no GP0 word stops the model, a word the DMA engine sends has exactly the effect of the host's, and
the frame: a GP0 word changes no register that only GP1, the steps, DMA or the CDROM write, and no RAM byte. -/
def Obligations.Gp0WordsCompleteWithinTheGpu : Prop :=
  ∀ (s : State) (w : Word), gp0Word w s = transact (.write .gpu 0 .w32 w) s ∧
    ∃ t, transact (.write .gpu 0 .w32 w) s = .next t ∧
    t.dma = s.dma ∧ t.cd = s.cd ∧ t.cfg = s.cfg ∧ (∀ a, memByte t.ram a = memByte s.ram a) ∧ t.draws = s.draws ∧
    t.readBuf = s.readBuf ∧ t.script = s.script ∧ t.gpu.gpuReadLatch = s.gpu.gpuReadLatch ∧
    t.gpu.irqSignalled = s.gpu.irqSignalled ∧ t.gpu.displayDisable = s.gpu.displayDisable ∧
    t.gpu.dmaDirection = s.gpu.dmaDirection ∧
    t.gpu.displayAreaX = s.gpu.displayAreaX ∧ t.gpu.displayAreaY = s.gpu.displayAreaY ∧
    t.gpu.hRangeX1 = s.gpu.hRangeX1 ∧ t.gpu.hRangeX2 = s.gpu.hRangeX2 ∧ t.gpu.vRangeY1 = s.gpu.vRangeY1 ∧
    t.gpu.vRangeY2 = s.gpu.vRangeY2 ∧ t.gpu.dispMode = s.gpu.dispMode ∧
    t.gpu.texDisableAllowed = s.gpu.texDisableAllowed ∧ t.gpu.dotAccum = s.gpu.dotAccum ∧
    t.gpu.line = s.gpu.line ∧ t.gpu.frame = s.gpu.frame ∧ t.gpu.odd = s.gpu.odd

/-- Rule R209: of everything that is no GP0 word, only GP1 0x00, GP1 0x01 and a DMA channel-2 start (which sends GP0
words) touch the GP0 decoder: every other instruction leaves `cmdState`, `args`, `argCount` and `currArg` alone. -/
def Obligations.OnlyResetCommandsAbandon : Prop :=
  ∀ (i : Instr) (s t : State), exec i s = .next t → gp0Words i = [] → (∀ p q, i ≠ .gp0Data p q) →
    i ≠ .gp1Reset → i ≠ .gp1ResetCmdBuffer → (∀ d, i ≠ .dmaChcrWrite 2 3 d) →
    t.gpu.cmdState = s.gpu.cmdState ∧ t.gpu.args = s.gpu.args ∧ t.gpu.argCount = s.gpu.argCount ∧
      t.gpu.currArg = s.gpu.currArg

/-! ### GP0 registers -/

/-- Rules R220 to R229: each one-word GP0 command sets its register and nothing else; NOP and clear cache change
nothing; an unrecognized word is logged only. -/
def Obligations.OneWordCommandsSetTheirRegister : Prop :=
  ∀ s : State,
    exec .gp0Nop s = .next s ∧ exec .gp0ClearCache s = .next s
    ∧ exec .gp0Irq s = .next { s with gpu.irq := true }
    ∧ (∀ m, exec (.gp0DrawMode m) s = .next { s with gpu.drawMode := m })
    ∧ (∀ w, exec (.gp0TexWindow w) s = .next { s with gpu.texWindow := w })
    ∧ (∀ k, exec (.gp0DrawAreaTl k) s = .next { s with gpu.drawAreaTL := k })
    ∧ (∀ k, exec (.gp0DrawAreaBr k) s = .next { s with gpu.drawAreaBR := k })
    ∧ (∀ o, exec (.gp0DrawOffset o) s = .next { s with gpu.drawOffset := o })
    ∧ (∀ m, exec (.gp0Mask m) s = .next { s with gpu.mask := m })
    ∧ (∀ w, exec (.gp0Unrecognized w) s = .next { s with out := s.out ++ [.log (.unknownGP0 w)] })

/-! ### Drawing -/

/-- Rule R251: `to15` keeps bits 7:3 of each channel, red in 4:0, green in 9:5, blue in 14:10, and bit 15 is 0. -/
def Obligations.To15DropsTheLowThreeBits : Prop :=
  ∀ (c : Rgb) (i : Nat), i < 16 → (to15 c).getLsbD i =
    if i < 5 then c.r.getLsbD (i + 3) else if i < 10 then c.g.getLsbD (i - 5 + 3)
    else if i < 15 then c.b.getLsbD (i - 10 + 3) else false

/-- Rule R250: a fill completes; the pixels of its wrapped rectangle become the colour, whatever the size, every other
pixel keeps its value, and nothing but VRAM changes. -/
def Obligations.FillWritesExactlyItsRectangle : Prop :=
  ∀ (s : State) (c : Rgb) (pos size : Xy), 0 < s.cfg.vramWidth →
    ∃ v, exec (.gp0Fill c pos size) s = .next { s with gpu.vram := v } ∧ ∀ x y,
      (inRect s.cfg pos.x.toNat pos.y.toNat size.x.toNat size.y.toNat x y → vramRead s.cfg v x y = to15 c) ∧
      (¬ inRect s.cfg pos.x.toNat pos.y.toNat size.x.toNat size.y.toNat x y →
        vramRead s.cfg v x y = vramRead s.cfg s.gpu.vram x y)

/-- Rule R252: for each batch, first the batch event, then VRAM becomes what the rasterizer makes of its pixels and the
batch; nothing else changes, VRAMs of equal pixels are left with equal pixels, and a write of the rasterizer lands modulo
the grid. The pixels written are the free value `rasterize` (assumption 4). -/
def Obligations.BatchEffect : Prop :=
  ∀ (s : State) (b : DrawBatch),
    let pixels : State → Nat → Nat → Pixel := fun u x y => vramRead u.cfg u.gpu.vram x y
    drawBatch b s = { s with
      out := s.out ++ [.batch b]
      gpu.vram := applyPixels s.cfg (Config.rasterize s.cfg.vramWidth s.cfg.vramHeight (pixels s) b) s.gpu.vram }
    ∧ (∀ s' : State, 0 < s.cfg.vramWidth → s'.cfg = s.cfg → (∀ x y, pixels s' x y = pixels s x y) →
      ∀ x y, pixels (drawBatch b s') x y = pixels (drawBatch b s) x y)
    ∧ ∀ (ps : List PixelWrite) (p : PixelWrite) (x y : Nat), 0 < s.cfg.vramWidth →
      vramRead s.cfg (applyPixels s.cfg (ps ++ [p]) s.gpu.vram) x y =
        if x % s.cfg.vramWidth = p.x % s.cfg.vramWidth ∧ y % s.cfg.vramHeight = p.y % s.cfg.vramHeight then p.p
        else vramRead s.cfg (applyPixels s.cfg ps s.gpu.vram) x y

/-- Rules R253 to R261, R280: the batches of the eight polygon commands, field by field: a triangle one, a quad
{0,1,2} then {1,2,3}; flat vertices carry the command's colour, Gouraud vertices their own; untextured batches have
palette, page, `u`, `v` zero; the snapshot is the register state. -/
def Obligations.PolygonCommandsEmitTheirBatches : Prop :=
  ∀ (s : State) (semi raw : Bool) (k0 k1 k2 k3 : Rgb) (p0 p1 p2 p3 : Pos) (t0 t1 t2 t3 : Uv) (pal page : Half),
    let snap : Snapshot := ⟨s.gpu.drawMode, s.gpu.texWindow, s.gpu.drawAreaTL, s.gpu.drawAreaBR, s.gpu.drawOffset,
      s.gpu.mask, s.gpu.texDisableAllowed⟩
    let v : Pos → Rgb → Vertex := fun p k => ⟨p.x.toInt, p.y.toInt, k.r, k.g, k.b, 0, 0⟩
    let tv : Pos → Rgb → Uv → Vertex := fun p k t => ⟨p.x.toInt, p.y.toInt, k.r, k.g, k.b, t.u.toNat, t.v.toNat⟩
    let b : Bool → List Vertex → DrawBatch := fun g vs => ⟨.triangle, vs, g, false, semi, raw, 0, 0, snap⟩
    let tb : Bool → List Vertex → DrawBatch := fun g vs => ⟨.triangle, vs, g, true, semi, raw, pal, page, snap⟩
    exec (.gp0PolyF3 semi raw k0 p0 p1 p2) s = .next (drawBatch (b false [v p0 k0, v p1 k0, v p2 k0]) s)
    ∧ exec (.gp0PolyFT3 semi raw k0 p0 t0 pal p1 t1 page p2 t2) s
      = .next (drawBatch (tb false [tv p0 k0 t0, tv p1 k0 t1, tv p2 k0 t2]) s)
    ∧ exec (.gp0PolyF4 semi raw k0 p0 p1 p2 p3) s
      = .next (drawBatch (b false [v p1 k0, v p2 k0, v p3 k0]) (drawBatch (b false [v p0 k0, v p1 k0, v p2 k0]) s))
    ∧ exec (.gp0PolyFT4 semi raw k0 p0 t0 pal p1 t1 page p2 t2 p3 t3) s
      = .next (drawBatch (tb false [tv p1 k0 t1, tv p2 k0 t2, tv p3 k0 t3])
          (drawBatch (tb false [tv p0 k0 t0, tv p1 k0 t1, tv p2 k0 t2]) s))
    ∧ exec (.gp0PolyG3 semi raw k0 p0 k1 p1 k2 p2) s
      = .next (drawBatch (b true [v p0 k0, v p1 k1, v p2 k2]) s)
    ∧ exec (.gp0PolyGT3 semi raw k0 p0 t0 pal k1 p1 t1 page k2 p2 t2) s
      = .next (drawBatch (tb true [tv p0 k0 t0, tv p1 k1 t1, tv p2 k2 t2]) s)
    ∧ exec (.gp0PolyG4 semi raw k0 p0 k1 p1 k2 p2 k3 p3) s
      = .next (drawBatch (b true [v p1 k1, v p2 k2, v p3 k3]) (drawBatch (b true [v p0 k0, v p1 k1, v p2 k2]) s))
    ∧ exec (.gp0PolyGT4 semi raw k0 p0 t0 pal k1 p1 t1 page k2 p2 t2 k3 p3 t3) s
      = .next (drawBatch (tb true [tv p1 k1 t1, tv p2 k2 t2, tv p3 k3 t3])
          (drawBatch (tb true [tv p0 k0 t0, tv p1 k1 t1, tv p2 k2 t2]) s))

/-- Rules R262 to R265, R281: a line of `n` vertices emits, in order, one segment batch from each vertex to the next,
so `n - 1` of them and none for fewer than two; the last vertex added adds the last batch. -/
def Obligations.LineCommandsEmitTheirSegments : Prop :=
  ∀ (s : State) (semi : Bool) (k k0 : Rgb) (p q : Pos),
    let snap : Snapshot := ⟨s.gpu.drawMode, s.gpu.texWindow, s.gpu.drawAreaTL, s.gpu.drawAreaBR, s.gpu.drawOffset,
      s.gpu.mask, s.gpu.texDisableAllowed⟩
    let v : Pos → Rgb → Vertex := fun p k => ⟨p.x.toInt, p.y.toInt, k.r, k.g, k.b, 0, 0⟩
    let seg : Bool → Vertex → Vertex → DrawBatch := fun g a b => ⟨.segment, [a, b], g, false, semi, false, 0, 0, snap⟩
    exec (.gp0LineF2 semi k p q) s = .next (drawBatch (seg false (v p k) (v q k)) s)
    ∧ exec (.gp0LineG2 semi k0 p k q) s = .next (drawBatch (seg true (v p k0) (v q k)) s)
    ∧ exec (.gp0LineFP semi k []) s = .next s ∧ exec (.gp0LineFP semi k [p]) s = .next s
    ∧ (∀ ps, ∃ t, exec (.gp0LineFP semi k (ps ++ [p])) s = .next t ∧
        exec (.gp0LineFP semi k (ps ++ [p, q])) s = .next (drawBatch (seg false (v p k) (v q k)) t))
    ∧ exec (.gp0LineGP semi k0 none []) s = .next s ∧ exec (.gp0LineGP semi k0 (some p) []) s = .next s
    ∧ exec (.gp0LineGP semi k0 (some p) [⟨k, q⟩]) s = .next (drawBatch (seg true (v p k0) (v q k)) s)
    ∧ (∀ p0 vs k1, ∃ t, exec (.gp0LineGP semi k0 (some p0) (vs ++ [⟨k1, p⟩])) s = .next t ∧
        exec (.gp0LineGP semi k0 (some p0) (vs ++ [⟨k1, p⟩, ⟨k, q⟩])) s
          = .next (drawBatch (seg true (v p k1) (v q k)) t))

/-- Rules R266 to R273, R282: each rectangle command emits two triangle batches over its four corners, {0,1,2} then
{1,2,3}, flat, with the size its row fixes or its size word; a textured one takes the palette of its UV word and the
page of `drawMode[8:0]`, and its corner UVs are untruncated sums. -/
def Obligations.RectangleCommandsEmitTheirBatches : Prop :=
  ∀ (s : State) (semi raw : Bool) (k : Rgb) (a : Pos) (t : Uv) (pal : Half) (size : Xy),
    let snap : Snapshot := ⟨s.gpu.drawMode, s.gpu.texWindow, s.gpu.drawAreaTL, s.gpu.drawAreaBR, s.gpu.drawOffset,
      s.gpu.mask, s.gpu.texDisableAllowed⟩
    let c : Int → Int → Nat → Nat → Vertex := fun dx dy u v => ⟨a.x.toInt + dx, a.y.toInt + dy, k.r, k.g, k.b, u, v⟩
    let page : Half := (s.gpu.drawMode.extractLsb' 0 9).setWidth 16
    let b : List Vertex → DrawBatch := fun vs => ⟨.triangle, vs, false, false, semi, raw, 0, 0, snap⟩
    let tb : List Vertex → DrawBatch := fun vs => ⟨.triangle, vs, false, true, semi, raw, pal, page, snap⟩
    let plain : Nat → Nat → State := fun w h =>
      drawBatch (b [c w 0 0 0, c 0 h 0 0, c w h 0 0]) (drawBatch (b [c 0 0 0 0, c w 0 0 0, c 0 h 0 0]) s)
    let u := t.u.toNat
    let v := t.v.toNat
    let tex : Nat → Nat → State := fun w h =>
      drawBatch (tb [c w 0 (u + w) v, c 0 h u (v + h), c w h (u + w) (v + h)])
        (drawBatch (tb [c 0 0 u v, c w 0 (u + w) v, c 0 h u (v + h)]) s)
    exec (.gp0RectVar semi raw k a size) s = .next (plain size.x.toNat size.y.toNat)
    ∧ exec (.gp0RectTVar semi raw k a t pal size) s = .next (tex size.x.toNat size.y.toNat)
    ∧ exec (.gp0Rect1 semi raw k a) s = .next (plain 1 1) ∧ exec (.gp0RectT1 semi raw k a t pal) s = .next (tex 1 1)
    ∧ exec (.gp0Rect8 semi raw k a) s = .next (plain 8 8) ∧ exec (.gp0RectT8 semi raw k a t pal) s = .next (tex 8 8)
    ∧ exec (.gp0Rect16 semi raw k a) s = .next (plain 16 16)
    ∧ exec (.gp0RectT16 semi raw k a t pal) s = .next (tex 16 16)

/-! ### Transfers -/

/-- Rules R300, R305: the two CPU-facing copies set the cursor to the rectangle's corner and unwrapped ends, then enter
the data phase or the read mode; with a zero size they do nothing. -/
def Obligations.CopyCommandsSetTheCursor : Prop :=
  ∀ (s : State) (p z : Xy),
    let k : Cursor := ⟨p.x.toNat, p.y.toNat, p.x.toNat + z.x.toNat, p.y.toNat + z.y.toNat, p.x.toNat, p.y.toNat⟩
    (z.x = 0#16 ∨ z.y = 0#16 → exec (.gp0CopyCpuVram p z) s = .next s ∧ exec (.gp0CopyVramCpu p z) s = .next s)
    ∧ (z.x ≠ 0#16 → z.y ≠ 0#16 →
      exec (.gp0CopyCpuVram p z) s = .next { s with gpu.cursor := k, gpu.cmdState := .cpuToVramData }
      ∧ exec (.gp0CopyVramCpu p z) s = .next { s with gpu.cursor := k, gpu.readMode := .vramRead })

/-- Rules R302, R303: a data word writes its low pixel at the cursor and moves it with row wrap; completion is tested
then, and only if the rectangle is not complete the high pixel follows in the same way; nothing else changes. -/
def Obligations.DataWordWritesOneOrTwoPixels : Prop :=
  ∀ (s : State) (lo hi : Pixel), s.gpu.cmdState = .cpuToVramData →
    let next : Cursor → Cursor := fun k =>
      if k.currX + 1 = k.endX then { k with currX := k.startX, currY := k.currY + 1 }
      else { k with currX := k.currX + 1 }
    let k0 := s.gpu.cursor
    let k1 := next k0
    let v1 := vramWrite s.cfg s.gpu.vram k0.currX k0.currY lo
    (k1.currY = k1.endY →
      exec (.gp0Data lo hi) s = .next { s with gpu.vram := v1, gpu.cursor := k1, gpu.cmdState := .idle })
    ∧ (k1.currY ≠ k1.endY →
      exec (.gp0Data lo hi) s = .next { s with
        gpu.vram := vramWrite s.cfg v1 k1.currX k1.currY hi
        gpu.cursor := next k1
        gpu.cmdState := if (next k1).currY = (next k1).endY then .idle else .cpuToVramData })

/-- Rules R300, R302: from an idle decoder, a CPU->VRAM copy of `w` by `h` takes exactly `ceil(w*h/2)` data words: the
data phase lasts through every earlier word and ends with the last; pixel `k` of the words lands at column `k mod w`,
row `k div w` of the wrapped rectangle where the rectangle fits the grid, and no pixel outside it changes. -/
def Obligations.UploadTakesExactlyItsWords : Prop :=
  ∀ (s : State) (p z : Xy) (ws : List Word), 0 < s.cfg.vramWidth → s.gpu.cmdState = .idle → z.x ≠ 0#16 → z.y ≠ 0#16 →
    ws.length = (z.x.toNat * z.y.toNat + 1) / 2 →
    ∃ s0 t, exec (.gp0CopyCpuVram p z) s = .next s0 ∧ feed ws s0 = .next t ∧ t.gpu.cmdState = .idle
      ∧ (∀ n, n < ws.length → ∃ u, feed (ws.take n) s0 = .next u ∧ u.gpu.cmdState = .cpuToVramData)
      ∧ (z.x.toNat ≤ s.cfg.vramWidth → z.y.toNat ≤ s.cfg.vramHeight → ∀ i j, i < z.x.toNat → j < z.y.toNat →
          vramRead s.cfg t.gpu.vram (p.x.toNat + i) (p.y.toNat + j) = pixelOfWords ws (j * z.x.toNat + i))
      ∧ (∀ x y, ¬ inRect s.cfg p.x.toNat p.y.toNat z.x.toNat z.y.toNat x y →
          vramRead s.cfg t.gpu.vram x y = vramRead s.cfg s.gpu.vram x y)
      ∧ t.out = s.out ∧ t.ram = s.ram ∧ t.dma = s.dma ∧ t.cd = s.cd

/-- Rules R310, R311: an oversized VRAM->VRAM copy is logged and copies nothing; any other completes and changes
nothing but VRAM. It goes through one stage per pixel, row by row, each pixel read from VRAM as the pixels before it
left it, overlapping or not; where no source pixel is a destination pixel, every destination pixel becomes its source
pixel, and no pixel outside the destination rectangle ever changes. -/
def Obligations.VramCopyMovesItsRectangle : Prop :=
  ∀ (s : State) (a b z : Xy), 0 < s.cfg.vramWidth →
    (s.cfg.vramWidth < z.x.toNat ∨ s.cfg.vramHeight < z.y.toNat →
      exec (.gp0CopyVramVram a b z) s
        = .next { s with out := s.out ++ [.log (.copyTooLarge z.x.toNat z.y.toNat)] })
    ∧ (z.x.toNat ≤ s.cfg.vramWidth → z.y.toNat ≤ s.cfg.vramHeight →
      ∃ v, exec (.gp0CopyVramVram a b z) s = .next { s with gpu.vram := v } ∧
        (∀ x y, ¬ inRect s.cfg b.x.toNat b.y.toNat z.x.toNat z.y.toNat x y →
          vramRead s.cfg v x y = vramRead s.cfg s.gpu.vram x y) ∧
        (∃ stage : Nat → Vram, stage 0 = s.gpu.vram ∧ stage (z.x.toNat * z.y.toNat) = v ∧
          ∀ k, k < z.x.toNat * z.y.toNat → ∀ x y,
            let i := k % z.x.toNat
            let j := k / z.x.toNat
            vramRead s.cfg (stage (k + 1)) x y =
              if x % s.cfg.vramWidth = (b.x.toNat + i) % s.cfg.vramWidth ∧
                y % s.cfg.vramHeight = (b.y.toNat + j) % s.cfg.vramHeight
              then vramRead s.cfg (stage k) (a.x.toNat + i) (a.y.toNat + j) else vramRead s.cfg (stage k) x y) ∧
        ((∀ x y, inRect s.cfg a.x.toNat a.y.toNat z.x.toNat z.y.toNat x y →
            ¬ inRect s.cfg b.x.toNat b.y.toNat z.x.toNat z.y.toNat x y) →
          ∀ i j, i < z.x.toNat → j < z.y.toNat →
            vramRead s.cfg v (b.x.toNat + i) (b.y.toNat + j)
              = vramRead s.cfg s.gpu.vram (a.x.toNat + i) (a.y.toNat + j)))

/-- Rules R108, R320: GPUREAD returns the latch in normal mode, with no side effect; with a VRAM read pending, the pixel at
the cursor in the low half and the next one in the high half, the cursor moved twice; when the low pixel is the last, the
read ends after it and the high half is a draw. The host is sent that value, its bytes being held byte 0 first. The draw
is a free value (assumption 9), and that values sent are events is the model's form (assumption 13). -/
def Obligations.GpureadReturnsLatchOrPixels : Prop :=
  ∀ s : State,
    let next : Cursor → Cursor := fun k =>
      if k.currX + 1 = k.endX then { k with currX := k.startX, currY := k.currY + 1 }
      else { k with currX := k.currX + 1 }
    let k0 := s.gpu.cursor
    let k1 := next k0
    let k2 := next k1
    let lo := vramRead s.cfg s.gpu.vram k0.currX k0.currY
    let hi := vramRead s.cfg s.gpu.vram k1.currX k1.currY
    let returns : Word → State → Prop := fun w t =>
      let bytes : List Byte := [w.extractLsb' 0 8, w.extractLsb' 8 8, w.extractLsb' 16 8, w.extractLsb' 24 8]
      exec .gpuGpuread s = .next { t with readBuf := s.readBuf ++ bytes }
      ∧ (s.readBuf = [] →
        transact (.read .gpu 0 .w32) s = .next { t with readBuf := bytes, out := s.out ++ [.returned .w32 w] })
    (s.gpu.readMode = .normal → returns s.gpu.gpuReadLatch s)
    ∧ (s.gpu.readMode = .vramRead → k1.currY ≠ k1.endY →
      returns (hi ++ lo : BitVec (16 + 16)) { s with
        gpu.cursor := k2
        gpu.readMode := if k2.currY = k2.endY then .normal else .vramRead })
    ∧ (s.gpu.readMode = .vramRead → k1.currY = k1.endY →
      returns (Config.any16 s.draws ++ lo : BitVec (16 + 16)) { s with
        gpu.cursor := k1
        gpu.readMode := .normal
        draws := s.draws + 1 })

/-- Rules R305, R320, R724: after a VRAM->CPU copy of `w` by `h`, exactly `ceil(w*h/2)` GPUREADs return pixel words:
the read mode lasts before the last and is normal after it; pixel `k` of the words is the VRAM pixel at column
`k mod w`, row `k div w` of the wrapped rectangle; VRAM does not change. -/
def Obligations.DownloadReadsExactlyItsWords : Prop :=
  ∀ (s : State) (p z : Xy), z.x ≠ 0#16 → z.y ≠ 0#16 →
    let n := (z.x.toNat * z.y.toNat + 1) / 2
    ∃ s0, exec (.gp0CopyVramCpu p z) s = .next s0 ∧ (gpuReads n s0).2.gpu.readMode = .normal
      ∧ (∀ m, m < n → (gpuReads m s0).2.gpu.readMode = .vramRead)
      ∧ (∀ i j, i < z.x.toNat → j < z.y.toNat → pixelOfWords (gpuReads n s0).1 (j * z.x.toNat + i)
          = vramRead s.cfg s.gpu.vram (p.x.toNat + i) (p.y.toNat + j))
      ∧ (gpuReads n s0).2.gpu.vram = s.gpu.vram ∧ (gpuReads n s0).1.length = n

/-! ### GP1 and GPUSTAT -/

/-- Rules R342 to R350 (R348 with either value of `GP1_07_SOURCE_QUIRK`): each of the GP1 commands 0x01 to 0x09 writes
its registers and nothing else. -/
def Obligations.Gp1CommandsWriteTheirRegisters : Prop :=
  ∀ s : State,
    exec .gp1ResetCmdBuffer s = .next { s with gpu.cmdState := .idle, gpu.argCount := 0, gpu.currArg := 0 }
    ∧ exec .gp1AckIrq s = .next { s with gpu.irq := false, gpu.irqSignalled := false }
    ∧ (∀ b, exec (.gp1DisplayEnable b) s = .next { s with gpu.displayDisable := b })
    ∧ (∀ d, exec (.gp1DmaDirection d) s = .next { s with gpu.dmaDirection := d })
    ∧ (∀ x y, exec (.gp1DisplayArea x y) s = .next { s with gpu.displayAreaX := x, gpu.displayAreaY := y })
    ∧ (∀ a b, exec (.gp1HRange a b) s = .next { s with gpu.hRangeX1 := a, gpu.hRangeX2 := b })
    ∧ (∀ a b, s.cfg.gp107SourceQuirk = false →
        exec (.gp1VRange a b) s = .next { s with gpu.vRangeY1 := a, gpu.vRangeY2 := b })
    ∧ (∀ a b, s.cfg.gp107SourceQuirk = true →
        exec (.gp1VRange a b) s = .next { s with gpu.hRangeX1 := a.setWidth 12, gpu.hRangeX2 := b.setWidth 12 })
    ∧ (∀ m, exec (.gp1DisplayMode m) s = .next { s with gpu.dispMode := m })
    ∧ (∀ b, exec (.gp1TexDisableAllow b) s = .next { s with gpu.texDisableAllowed := b })

/-- Rules R341, R701: GP1 0x00 puts every register the table marks back to its power-on value and leaves VRAM, the
argument buffer's contents, the cursor, the latch, the texture-disable permission, the timing state and everything
outside the GPU alone. -/
def Obligations.Gp1ResetRestoresTheDefaults : Prop :=
  ∀ s : State, exec .gp1Reset s = .next { s with gpu := { Gpu.powerOn s.cfg with
    vram := s.gpu.vram, args := s.gpu.args, cursor := s.gpu.cursor, gpuReadLatch := s.gpu.gpuReadLatch,
    texDisableAllowed := s.gpu.texDisableAllowed, dotAccum := s.gpu.dotAccum, line := s.gpu.line,
    frame := s.gpu.frame, odd := s.gpu.odd } }

/-- Rule R351: the value each index latches, bit by bit for the packed registers, and the indices that leave the
latch; nothing else changes. -/
def Obligations.GpuInfoLatchesByIndex : Prop :=
  ∀ (s : State) (k : BitVec 4), ∃ w, exec (.gp1GpuInfo k) s = .next { s with gpu.gpuReadLatch := w } ∧
    (k = 2#4 → w.toNat = s.gpu.texWindow.maskX.toNat + s.gpu.texWindow.maskY.toNat * 2 ^ 5
      + s.gpu.texWindow.offsetX.toNat * 2 ^ 10 + s.gpu.texWindow.offsetY.toNat * 2 ^ 15) ∧
    (k = 3#4 → w.toNat = s.gpu.drawAreaTL.x.toNat + s.gpu.drawAreaTL.y.toNat * 2 ^ 10) ∧
    (k = 4#4 → w.toNat = s.gpu.drawAreaBR.x.toNat + s.gpu.drawAreaBR.y.toNat * 2 ^ 10) ∧
    (k = 5#4 → w.toNat = s.gpu.drawOffset.x.toNat + s.gpu.drawOffset.y.toNat * 2 ^ 11) ∧
    (k = 7#4 → w = 2#32) ∧ (k = 8#4 → w = 0#32) ∧
    (k = 0#4 ∨ k = 1#4 ∨ k = 6#4 ∨ 9 ≤ k.toNat → w = s.gpu.gpuReadLatch)

/-- Rules R352, R602: exactly the command bytes 0x0A to 0x0F and 0x20 to 0xFF decode to the unrecognized command; it
faults with the word and no state changed, unless the parameters take R602's alternative: then it is logged and
nothing else changes. The choice between the two is the model's parameter (assumption 16). -/
def Obligations.UnknownGp1FaultsWithoutEffect : Prop :=
  ∀ (s : State) (w : Word),
    (gp1Of w = .gp1Unrecognized w ↔
      (0x0A ≤ (byte3 w).toNat ∧ (byte3 w).toNat ≤ 0x0F) ∨ 0x20 ≤ (byte3 w).toNat)
    ∧ (s.cfg.gp1UnknownDegrades = false → exec (.gp1Unrecognized w) s = .fault (.unknownGP1 w s))
    ∧ (s.cfg.gp1UnknownDegrades = true →
        exec (.gp1Unrecognized w) s = .next { s with out := s.out ++ [.log (.unknownGP1 w)] })

/-- Rule R360: GPUSTAT, bit by bit, is what a read sends the host; reading it changes nothing; after GP1 0x00 with
`odd = 0` it is 0x14802000. That values sent are events is the model's form (assumption 13). -/
def Obligations.GpustatBits : Prop :=
  ∀ s : State,
    let w := gpustat s.gpu
    let g := s.gpu
    let bytes : List Byte := [w.extractLsb' 0 8, w.extractLsb' 8 8, w.extractLsb' 16 8, w.extractLsb' 24 8]
    exec .gpuGpustat s = .next { s with readBuf := s.readBuf ++ bytes }
    ∧ (s.readBuf = [] →
      transact (.read .gpu 4 .w32) s = .next { s with readBuf := bytes, out := s.out ++ [.returned .w32 w] })
    ∧ (∀ i, i < 11 → w.getLsbD i = g.drawMode.getLsbD i)
    ∧ w.getLsbD 11 = g.mask.setMaskWhileDrawing ∧ w.getLsbD 12 = g.mask.checkMaskBeforeDraw
    ∧ w.getLsbD 13 = (if g.dispMode.getLsbD 5 = false then true else g.odd)
    ∧ w.getLsbD 14 = g.dispMode.getLsbD 7 ∧ w.getLsbD 15 = (g.drawMode.getLsbD 11 && g.texDisableAllowed)
    ∧ w.getLsbD 16 = g.dispMode.getLsbD 6 ∧ w.getLsbD 17 = g.dispMode.getLsbD 0
    ∧ w.getLsbD 18 = g.dispMode.getLsbD 1 ∧ w.getLsbD 19 = g.dispMode.getLsbD 2
    ∧ w.getLsbD 20 = g.dispMode.getLsbD 3 ∧ w.getLsbD 21 = g.dispMode.getLsbD 4
    ∧ w.getLsbD 22 = g.dispMode.getLsbD 5 ∧ w.getLsbD 23 = g.displayDisable ∧ w.getLsbD 24 = g.irq
    ∧ w.getLsbD 25 = (if g.dmaDirection = 0#2 then false else if g.dmaDirection = 1#2 then true
        else if g.dmaDirection = 2#2 then w.getLsbD 28 else w.getLsbD 27)
    ∧ w.getLsbD 26 = true ∧ w.getLsbD 27 = decide (g.readMode = .vramRead) ∧ w.getLsbD 28 = true
    ∧ w.getLsbD 29 = g.dmaDirection.getLsbD 0 ∧ w.getLsbD 30 = g.dmaDirection.getLsbD 1 ∧ w.getLsbD 31 = g.odd
    ∧ (g.odd = false → ∃ t, exec .gp1Reset s = .next t ∧ gpustat t.gpu = 0x14802000#32)

/-! ### The GPU step -/

/-- Rules R370, R371: the dot accumulator, line, frame and parity after a GPU step, and the value it returns; one GPU
trigger exactly when signalling is on and a request is pending and not yet signalled, which marks it signalled. Only
the timing state, that mark and the events change. -/
def Obligations.GpuStepAdvancesTimingAndSignals : Prop :=
  ∀ (s : State) (cycles : Nat),
    let total := s.gpu.dotAccum + cycles
    let n := total / s.cfg.gpuCyclesPerLine
    let ended := 0 < n ∧ s.cfg.linesPerFrame ≤ s.gpu.line + n
    let due := s.cfg.gpuIrqSignals = true ∧ s.gpu.irq = true ∧ s.gpu.irqSignalled = false
    ∃ g es, transact (.tick .gpu cycles) s = .next { s with gpu := g, out := s.out ++ es ++ [.vblank (decide ended)] }
      ∧ (due → es = [.trigger .gpu] ∧ g.irqSignalled = true)
      ∧ (¬ due → es = [] ∧ g.irqSignalled = s.gpu.irqSignalled)
      ∧ g.dotAccum = total % s.cfg.gpuCyclesPerLine
      ∧ (n = 0 → g.line = s.gpu.line ∧ g.frame = s.gpu.frame ∧ g.odd = s.gpu.odd)
      ∧ (ended → g.line = 0 ∧ g.frame = s.gpu.frame + 1)
      ∧ (0 < n → ¬ ended → g.line = s.gpu.line + n ∧ g.frame = s.gpu.frame)
      ∧ (0 < n → g.odd = decide ((if s.gpu.dispMode.getLsbD 2 ∧ s.gpu.dispMode.getLsbD 5 then g.frame else g.line) % 2
          = 1))
      ∧ { g with dotAccum := s.gpu.dotAccum, line := s.gpu.line, frame := s.gpu.frame, odd := s.gpu.odd,
                 irqSignalled := s.gpu.irqSignalled } = s.gpu

/-! ### DMA registers -/

/-- Rules R108, R401, R402, R403, R410, R411: a byte write to MADR, BCR, CHCR bytes 0 to 2, DPCR or DICR bytes 0 to 2
replaces bits `8b+7 : 8b` of that register, keeps its other bits and every other register, and starts nothing; one to
the fourth word changes nothing (rule R406). -/
def Obligations.DmaByteWritesReplaceOneByte : Prop :=
  ∀ (s : State) (n : Fin 7) (b : Fin 4) (d : Byte),
    let put : Word → Word → Prop := fun old new => ∀ i, i < 32 →
      new.getLsbD i = if 8 * b.val ≤ i ∧ i < 8 * b.val + 8 then d.getLsbD (i - 8 * b.val) else old.getLsbD i
    let ch := channel s n
    (∃ w, exec (.dmaMadrWrite n b d) s = .next (setChannel s n { ch with madr := w }) ∧ put ch.madr w)
    ∧ (∃ w, exec (.dmaBcrWrite n b d) s = .next (setChannel s n { ch with bcr := w }) ∧ put ch.bcr w)
    ∧ (b ≠ 3 → ∃ w, exec (.dmaChcrWrite n b d) s = .next (setChannel s n { ch with chcr := w }) ∧ put ch.chcr w)
    ∧ exec (.dmaReservedWrite n b d) s = .next s
    ∧ (∃ w, exec (.dmaDpcrWrite b d) s = .next { s with dma.dpcr := w } ∧ put s.dma.dpcr w)
    ∧ (∀ h : b.val < 3, ∃ w, exec (.dmaDicrWriteLow ⟨b.val, h⟩ d) s = .next { s with dma.dicr := w } ∧
        put s.dma.dicr w)

/-- Rule R412: a byte written at 0x77 is a write of DICR byte 3; it clears each completion flag whose bit is 1 in the
data, sets none, and never changes bit 31 or bits 23:0; no other state changes. -/
def Obligations.DicrAckClearsWrittenOnes : Prop :=
  ∀ (s : State) (d : Byte), decode s.cfg (.dmaWrite 0x77#7 d) = .instr (.dmaDicrAck d) ∧
    ∃ w, exec (.dmaDicrAck d) s = .next { s with dma.dicr := w } ∧
    ∀ i, i < 32 → w.getLsbD i =
      if 24 ≤ i ∧ i < 31 then s.dma.dicr.getLsbD i && !d.getLsbD (i - 24) else s.dma.dicr.getLsbD i

/-- Rules R104, R110, R404 to R406: a byte read below 0x78 returns its register's byte, the fourth word of a channel a
draw; an unmapped address is logged and returns a draw on a read, and changes nothing on a write. No register changes.
That the addresses of a channel the parameters do not give are unmapped is the model's choice (assumption 3). The draws
are free values (assumption 9). -/
def Obligations.DmaReadsReturnTheirByte : Prop :=
  ∀ s : State,
    let back : Byte → State := fun x => { s with readBuf := s.readBuf ++ [x] }
    let drawn : State := { s with readBuf := s.readBuf ++ [Config.any8 s.draws], draws := s.draws + 1 }
    (∀ (n : Fin 7) (b : Fin 4),
      exec (.dmaRead (dmaAddr n 0 b)) s = .next (back ((channel s n).madr.extractLsb' (8 * b.val) 8))
      ∧ exec (.dmaRead (dmaAddr n 1 b)) s = .next (back ((channel s n).bcr.extractLsb' (8 * b.val) 8))
      ∧ exec (.dmaRead (dmaAddr n 2 b)) s = .next (back ((channel s n).chcr.extractLsb' (8 * b.val) 8))
      ∧ exec (.dmaRead (dmaAddr n 3 b)) s = .next drawn)
    ∧ (∀ b : Fin 4,
      exec (.dmaRead (BitVec.ofNat 7 (0x70 + b.val))) s = .next (back (s.dma.dpcr.extractLsb' (8 * b.val) 8))
      ∧ exec (.dmaRead (BitVec.ofNat 7 (0x74 + b.val))) s = .next (back (s.dma.dicr.extractLsb' (8 * b.val) 8)))
    ∧ (∀ a : BitVec 7,
      exec (.dmaUnmapped a none) s = .next { drawn with out := s.out ++ [.log (.dmaUnmappedRead a.toNat)] }
      ∧ (∀ d, exec (.dmaUnmapped a (some d)) s = .next { s with out := s.out ++ [.log (.dmaUnmappedWrite a.toNat d)] })
      ∧ (0x78 ≤ a.toNat ∨ (a.toNat < 0x70 ∧ s.cfg.dmaChannels ≤ a.toNat / 0x10) →
        decode s.cfg (.dmaRead a) = .instr (.dmaUnmapped a none)
        ∧ ∀ d, decode s.cfg (.dmaWrite a d) = .instr (.dmaUnmapped a (some d))))

/-! ### DMA transfers -/

/-- Rules R403, R420, R427, R603: a write of CHCR byte 3 whose start condition is false stores the byte and does nothing
else. The condition, in bits of the new value: 24, and a sync mode or 28, and the DPCR enable where it is required.
Where it is true, sync mode 3 faults as reserved, first; then a combination rule R427 refuses faults with channel,
direction and sync mode; both leave the state with the byte stored and nothing else. -/
def Obligations.ChcrByte3StartRules : Prop :=
  ∀ (s : State) (n : Fin 7) (d : Byte),
    let c := (channel (chcrStored n d s) n).chcr
    let dir := if c.getLsbD 0 then 1 else 0
    let sync := (c.extractLsb' 9 2).toNat
    let starts := c.getLsbD 24 = true ∧ (sync ≠ 0 ∨ c.getLsbD 28 = true) ∧
      (s.cfg.dmaRequireDpcrEnable = false ∨ s.dma.dpcr.getLsbD (4 * n.val + 3) = true)
    let refused := (n = 2 ∧ sync = 2 ∧ dir = 0) ∨ (n = 3 ∧ (dir = 1 ∨ sync = 2)) ∨
      (n = 6 ∧ (dir = 1 ∨ sync = 1 ∨ sync = 2))
    (¬ starts → exec (.dmaChcrWrite n 3 d) s = .next (chcrStored n d s))
    ∧ (starts → sync = 3 → exec (.dmaChcrWrite n 3 d) s = .fault (.dmaReservedSyncMode n.val (chcrStored n d s)))
    ∧ (starts → sync ≠ 3 → refused →
        exec (.dmaChcrWrite n 3 d) s = .fault (.dmaUnsupportedTransfer n.val dir sync (chcrStored n d s)))
    ∧ (starts → sync ≠ 3 → ¬ refused → transferRuns n d s)

/-- Rules R420, R426, R430: a started transfer of channel 0, 1, 4 or 5 moves nothing and completes at once. Completion,
of any channel, clears bits 24 and 28 of CHCR, sets DICR bit `24 + n` exactly when bit `16 + n` is set, and changes no
other bit of either register, no other channel, no MADR or BCR, and not `dicr[31]`. -/
def Obligations.CompletionReportsToDicr : Prop :=
  ∀ (s : State) (n : Fin 7),
    (∀ d, n = 0 ∨ n = 1 ∨ n = 4 ∨ n = 5 → transferRuns n d s →
      exec (.dmaChcrWrite n 3 d) s = .next (dmaFinish n (chcrStored n d s))) ∧
    ∃ w dicr, dmaFinish n s = { setChannel s n { channel s n with chcr := w } with dma.dicr := dicr } ∧
    (∀ i, i < 32 → w.getLsbD i = if i = 24 ∨ i = 28 then false else (channel s n).chcr.getLsbD i) ∧
    (∀ i, i < 32 → dicr.getLsbD i =
      if i = 24 + n.val ∧ s.dma.dicr.getLsbD (16 + n.val) = true then true else s.dma.dicr.getLsbD i)

/-- Rules R421, R425, R430: the ordering-table clear completes; where the table fits RAM, each word holds the address
of the next lower one and the last 0x00FFFFFF; every other byte of RAM is unchanged; beside RAM only channel 6 and
DICR change, as completion says. RAM is held as assumption 6 says. -/
def Obligations.OrderingTableClearLinksDownward : Prop :=
  ∀ (s : State) (d : Byte), s.cfg.accepts = true → transferRuns 6 d s →
    let base := ramAddr s.cfg (channel s 6).madr
    let count := if (channel s 6).bcr.extractLsb' 0 16 = 0#16 then 0x10000 else ((channel s 6).bcr.extractLsb' 0 16).toNat
    ∃ m, exec (.dmaChcrWrite 6 3 d) s = .next (dmaFinish 6 { chcrStored 6 d s with ram := m }) ∧
      (4 * count ≤ s.cfg.ramSize → ∀ i, i < count →
        memRead m (wordAddr s.cfg base (-4) i) =
          if i + 1 = count then 0x00FFFFFF#32 else BitVec.ofNat 32 (wordAddr s.cfg base (-4) (i + 1))) ∧
      (∀ a, ¬ inTransfer s.cfg base (-4) count a → memByte m a = memByte s.ram a)

/-- Rules R421, R424, R430: a CDROM transfer moves the data FIFO's bytes in order to RAM from MADR on, where they fit,
and takes them off the FIFO; every RAM byte outside the transfer is unchanged. The count is BCR's low half in sync mode
0 and that times its high half in mode 1, each 0 meaning 0x10000; the step is 4, down where CHCR bit 1 is set. RAM is held
as assumption 6 says. -/
def Obligations.CdromTransferMovesTheDataFifo : Prop :=
  ∀ (s : State) (d : Byte), s.cfg.accepts = true → transferRuns 3 d s →
    let ch := channel (chcrStored 3 d s) 3
    let base := ramAddr s.cfg ch.madr
    let c := ch.chcr
    let nz : Half → Nat := fun v => if v = 0#16 then 0x10000 else v.toNat
    let size := nz (ch.bcr.extractLsb' 0 16)
    let count := if c.extractLsb' 9 2 = 0#2 then size else size * nz (ch.bcr.extractLsb' 16 16)
    let delta : Int := if c.getLsbD 1 then -4 else 4
    ∃ m draws, exec (.dmaChcrWrite 3 3 d) s = .next (dmaFinish 3 { chcrStored 3 d s with
        ram := m, draws := draws, cd.dataFifo := s.cd.dataFifo.drop (4 * count) }) ∧
      (4 * count ≤ s.cfg.ramSize → ∀ i b x, i < count → b < 4 → s.cd.dataFifo[4 * i + b]? = some x →
        memByte m (wordAddr s.cfg base delta i + b) = x) ∧
      (∀ a, ¬ inTransfer s.cfg base delta count a → memByte m a = memByte s.ram a)

/-- Rules R421, R422, R430: RAM to GPU in sync mode 0 or 1 sends exactly `count` RAM words, from MADR on in steps of 4
up or, where CHCR bit 1 is set, down, modulo RAM, each as a host GP0 word, then completes. The count is BCR's low half in
mode 0 and that times its high half in mode 1, each 0 meaning 0x10000. RAM is held as assumption 6 says. -/
def Obligations.GpuSendIsAFeedOfRamWords : Prop :=
  ∀ (s : State) (d : Byte), s.cfg.accepts = true → transferRuns 2 d s →
    let ch := channel (chcrStored 2 d s) 2
    let c := ch.chcr
    let nz : Half → Nat := fun v => if v = 0#16 then 0x10000 else v.toNat
    let size := nz (ch.bcr.extractLsb' 0 16)
    let count := if c.extractLsb' 9 2 = 0#2 then size else size * nz (ch.bcr.extractLsb' 16 16)
    let delta : Int := if c.getLsbD 1 then -4 else 4
    c.extractLsb' 9 2 ≠ 2#2 → c.getLsbD 0 = true →
    let ws := (List.range count).map fun i => memRead s.ram (wordAddr s.cfg (ramAddr s.cfg ch.madr) delta i)
    ∃ t, feed ws (chcrStored 2 d s) = .next t ∧ exec (.dmaChcrWrite 2 3 d) s = .next (dmaFinish 2 t) ∧ t.ram = s.ram

/-- Rules R421, R422, R430: GPU to RAM writes `count` GPUREAD words in order to RAM from MADR on, in steps of 4 up or,
where CHCR bit 1 is set, down; every RAM byte outside the transfer is unchanged. The count is BCR's low half in sync mode
0 and that times its high half in mode 1, each 0 meaning 0x10000. RAM is held as assumption 6 says. -/
def Obligations.GpuReceiveStoresGpureads : Prop :=
  ∀ (s : State) (d : Byte), s.cfg.accepts = true → transferRuns 2 d s →
    let ch := channel (chcrStored 2 d s) 2
    let c := ch.chcr
    let nz : Half → Nat := fun v => if v = 0#16 then 0x10000 else v.toNat
    let size := nz (ch.bcr.extractLsb' 0 16)
    let count := if c.extractLsb' 9 2 = 0#2 then size else size * nz (ch.bcr.extractLsb' 16 16)
    let delta : Int := if c.getLsbD 1 then -4 else 4
    c.getLsbD 0 = false →
    let base := ramAddr s.cfg ch.madr
    let r := gpuReads count (chcrStored 2 d s)
    ∃ m, exec (.dmaChcrWrite 2 3 d) s = .next (dmaFinish 2 { r.2 with ram := m }) ∧
      (4 * count ≤ s.cfg.ramSize → ∀ i, i < count →
        memRead m (wordAddr s.cfg base delta i) = r.1.getD i 0#32) ∧
      (∀ a, ¬ inTransfer s.cfg base delta count a → memByte m a = memByte s.ram a)

/-- Rules R423, R428, R430, R601: the linked list sends the words of its nodes in order, each as a host GP0 word, and
completes, when it ends within `DMA_LL_MAX_NODES` headers; otherwise it faults with the address of the header past the
bound, and the words of the nodes up to the bound keep their effects. RAM is held as assumption 6 says. -/
def Obligations.LinkedListSendsItsNodes : Prop :=
  ∀ (s : State) (d : Byte), transferRuns 2 d s →
    let ch := channel (chcrStored 2 d s) 2
    chcrSync ch.chcr = 2#2 →
    let base := ramAddr s.cfg ch.madr
    let nodes := s.cfg.dmaLlMaxNodes
    match listWords s.cfg s.ram nodes base with
    | some ws => ∃ t, feed ws (chcrStored 2 d s) = .next t ∧
        exec (.dmaChcrWrite 2 3 d) s = .next (dmaFinish 2 t) ∧ t.ram = s.ram
    | none => ∃ t, feed (listPrefix s.cfg s.ram nodes base) (chcrStored 2 d s) = .next t ∧
        exec (.dmaChcrWrite 2 3 d) s = .fault (.dmaLinkedListBound (listHeader s.cfg s.ram nodes base) t) ∧ t.ram = s.ram

/-! ### The DMA interrupt -/

/-- Rule R440: `dma.step` recomputes bit 31 from `forceIRQ`, `masterEnable` and the enabled completed channels, changes
nothing else of the state, and emits one DMA trigger exactly when bit 31 goes from 0 to 1. -/
def Obligations.DmaStepTriggersOnTheRisingEdge : Prop :=
  ∀ (s : State) (cycles : Nat),
    let r := s.dma.dicr
    let mf : Prop := r.getLsbD 15 = true ∨
      (r.getLsbD 23 = true ∧ ∃ i, i < 7 ∧ r.getLsbD (16 + i) = true ∧ r.getLsbD (24 + i) = true)
    ∃ w es, transact (.tick .dma cycles) s = .next { s with dma.dicr := w, out := s.out ++ es } ∧
      (w.getLsbD 31 = true ↔ mf) ∧ (∀ i, i < 31 → w.getLsbD i = r.getLsbD i) ∧
      (mf → r.getLsbD 31 = false → es = [.trigger .dma]) ∧ (¬ (mf ∧ r.getLsbD 31 = false) → es = [])

/-- Rules R440, R441: over any run of transactions and steps, the DMA triggers sent are as many as the steps at which
the master condition held and the stored flag was 0. The transactions include the host's own RAM stores (assumption
11). -/
def Obligations.DmaTriggersCountRisingEdges : Prop :=
  ∀ (ts : List Txn) (s t : State), runAll ts s = .next t →
    triggers .dma t.out = triggers .dma s.out + dmaEdges ts s

/-- Rules R118, R611: a transaction only appends events; only a step of a component sends its trigger, and at most
one. -/
def Obligations.TriggersOnlyAtSteps : Prop :=
  ∀ (t : Txn) (s s' : State), transact t s = .next s' →
    ∃ es, s'.out = s.out ++ es ∧
      ∀ c, triggers c es ≤ (match t with | .tick c' _ => if c' = c then 1 else 0 | _ => 0)

/-! ### CDROM ports -/

/-- Rules R462, R467, R469, R471 to R475, R477, R478: each register port writes its register and nothing else. -/
def Obligations.CdPortWritesStoreTheirByte : Prop :=
  ∀ (s : State) (d : Byte),
    (∀ i, exec (.cdIndexWrite i) s = .next { s with cd.index := i })
    ∧ (∀ e, exec (.cdIntEnable e) s = .next { s with cd.ie := e })
    ∧ exec (.cdSoundmapData d) s = .next s
    ∧ exec (.cdSoundmapCoding d) s = .next { s with cd.soundMapCoding := d }
    ∧ exec (.cdVolRr d) s = .next { s with cd.volRR := d } ∧ exec (.cdVolLl d) s = .next { s with cd.volLL := d }
    ∧ exec (.cdVolRl d) s = .next { s with cd.volRL := d } ∧ exec (.cdVolLr d) s = .next { s with cd.volLR := d }
    ∧ exec (.cdVolApply d) s = .next { s with cd.volApply := d }
    ∧ exec (.cdRequest d) s = .next { s with cd.request := d }

/-- Rules R464, R468: the operands of the two ports; a parameter is appended, or dropped when the FIFO is full; an acknowledgement clears the
parameter FIFO when asked, and pops one interrupt entry, with its signalled mark, when a code bit is set. -/
def Obligations.ParamAndAckMoveTheFifos : Prop :=
  ∀ (s : State) (d : Byte),
    decode s.cfg (.cdWrite 2 0 d) = .instr (.cdParam d)
    ∧ decode s.cfg (.cdWrite 3 1 d) = .instr (.cdIntAck (d.getLsbD 6) (d.extractLsb' 0 5))
    ∧ (s.cd.paramFifo.length < s.cfg.fifoCap →
      exec (.cdParam d) s = .next { s with cd.paramFifo := s.cd.paramFifo ++ [d] })
    ∧ (s.cfg.fifoCap ≤ s.cd.paramFifo.length → exec (.cdParam d) s = .next s)
    ∧ ∀ (clear : Bool) (codes : BitVec 5),
      let ps := if clear then [] else s.cd.paramFifo
      (codes = 0#5 ∨ s.cd.intFifo = [] →
        exec (.cdIntAck clear codes) s = .next { s with cd.paramFifo := ps })
      ∧ (codes ≠ 0#5 → s.cd.intFifo ≠ [] →
        exec (.cdIntAck clear codes) s
          = .next { s with cd.paramFifo := ps, cd.intFifo := s.cd.intFifo.tail, cd.frontSignalled := false })

/-- Rule R461: the status register's bits; reading it changes nothing. -/
def Obligations.CdStatusBits : Prop :=
  ∀ s : State, ∃ x : Byte, exec .cdStatusRead s = .next { s with readBuf := s.readBuf ++ [x] } ∧
    x.extractLsb' 0 2 = s.cd.index ∧ x.getLsbD 2 = false ∧ x.getLsbD 3 = decide (s.cd.paramFifo = []) ∧
    x.getLsbD 4 = decide (s.cd.paramFifo.length < s.cfg.fifoCap) ∧ x.getLsbD 5 = decide (s.cd.responseFifo ≠ []) ∧
    x.getLsbD 6 = decide (s.cd.dataFifo ≠ []) ∧ x.getLsbD 7 = s.cd.busy

/-- Rules R465, R466, R470: the response and data ports return the FIFO's front and take it off, or a draw when it is
empty; the interrupt port returns the enable or the flag view by the index, bits 7:5 reading 1, and pops nothing. The
draws are free values (assumption 9). -/
def Obligations.CdReadsPopTheirFifo : Prop :=
  ∀ s : State,
    let drawn : State := { s with readBuf := s.readBuf ++ [Config.any8 s.draws], draws := s.draws + 1 }
    (∀ b bs, s.cd.responseFifo = b :: bs →
      exec .cdResponseRead s = .next { s with cd.responseFifo := bs, readBuf := s.readBuf ++ [b] })
    ∧ (s.cd.responseFifo = [] → exec .cdResponseRead s = .next drawn)
    ∧ (∀ b bs, s.cd.dataFifo = b :: bs →
      exec .cdDataRead s = .next { s with cd.dataFifo := bs, readBuf := s.readBuf ++ [b] })
    ∧ (s.cd.dataFifo = [] → exec .cdDataRead s = .next drawn)
    ∧ ∃ x : Byte, exec .cdIntRead s = .next { s with readBuf := s.readBuf ++ [x] } ∧ x.extractLsb' 5 3 = 7#3 ∧
      (s.cd.index = 0#2 ∨ s.cd.index = 2#2 → x.extractLsb' 0 5 = s.cd.ie) ∧
      (s.cd.index = 1#2 ∨ s.cd.index = 3#2 → x.extractLsb' 0 5 =
        match s.cd.intFifo with
        | [] => 0#5
        | code :: _ => (0#2 ++ code.extractLsb' 0 3 : BitVec (2 + 3)))

/-! ### CDROM commands -/

/-- Rules R13, R479: `respond` appends the bytes to the response FIFO and the code to the interrupt FIFO, each as far
as its capacity goes, and changes nothing else. -/
def Obligations.RespondAppendsUpToTheCapacity : Prop :=
  ∀ (s : State) (code : Byte) (bs : List Byte), s.cd.responseFifo.length ≤ s.cfg.fifoCap →
    s.cd.intFifo.length ≤ s.cfg.fifoCap →
    respond code bs s = { s with
      cd.responseFifo := (s.cd.responseFifo ++ bs).take s.cfg.fifoCap
      cd.intFifo := (s.cd.intFifo ++ [code]).take s.cfg.fifoCap }

/-- Rules R463, R512: a command byte sets busy, runs the instruction the byte decodes to, and then clears the
parameter FIFO, whatever the command; it never stops. How the command rows fit the port is the model's reading
(assumption 21). -/
def Obligations.CommandPortDispatches : Prop :=
  ∀ (s : State) (d : Byte), ∃ t, exec (cdCommandOf d) { s with cd.busy := true } = .next t ∧
    exec (.cdCommand d) s = .next { t with cd.paramFifo := [] } ∧ t.cd.busy = true ∧
    t.gpu = s.gpu ∧ t.dma = s.dma ∧ t.ram = s.ram ∧ t.cfg = s.cfg ∧ t.readBuf = s.readBuf

/-- Rules R511, R513, R514, R522, R523, R526, R527, R529, R536, R537: the commands that read no parameter and change no
mode: their responses, in order, and what else they set; track numbers are sent in BCD. The disc is data (assumption 2). -/
def Obligations.PlainCommandsRespond : Prop :=
  ∀ s : State,
    let st := s.cd.stat
    let disc := s.cfg.disc
    let toBcd : Nat → Byte := fun n => BitVec.ofNat 8 (16 * (n % 100 / 10) + n % 10)
    exec .cdGetstat s = .next (respond 3#8 [st] s)
    ∧ exec .cdMute s = .next (respond 3#8 [st] { s with cd.muted := true })
    ∧ exec .cdDemute s = .next (respond 3#8 [st] { s with cd.muted := false })
    ∧ exec .cdGetlocl s = .next (respond 3#8 s.cd.lastHeader.toList s)
    ∧ (∀ p, disc.positions.lookup s.cd.currentSector = some p →
        exec .cdGetlocp s = .next (respond 3#8 [p.track, p.index, p.relMinute, p.relSecond, p.relFrame, p.absMinute,
          p.absSecond, p.absFrame] s))
    ∧ (∃ bs, bs.length = 8 ∧ exec .cdGetlocp s = .next (respond 3#8 bs s))
    ∧ exec .cdGettn s = .next (respond 3#8 [st, toBcd disc.firstTrack, toBcd disc.lastTrack] s)
    ∧ exec .cdReadtoc s = .next (respond 2#8 [st] (respond 3#8 [st] s))
    ∧ (∀ v, exec (.cdUnlock v) s = .next (respond 5#8 [st ||| 0x01#8, 0x40#8] s))
    ∧ (∀ d, exec (.cdUnrecognized d) s = .next { s with out := s.out ++ [.log (.unknownCdCommand d)] })

/-- Rules R513, R517 to R521, R531, R532, R535: the commands that change the motor or the mode: the stat byte each
response reports and the one left, the pending seek applied, the timer and mode register set. In terms of the stat
byte `st`: motor on is bit 1, `st & 0x1F` has no mode. -/
def Obligations.MotorAndModeCommands : Prop :=
  ∀ s : State,
    let st := s.cd.stat
    let on := st ||| 0x02#8
    let sought : State := { s with
      cd.currentSector := if s.cd.seekPending then s.cd.seekTarget else s.cd.currentSector, cd.seekPending := false }
    let reading := (on &&& 0x1F#8) ||| 0x20#8
    let seeking := (on &&& 0x1F#8) ||| 0x40#8
    exec .cdMotoron s = .next (respond 2#8 [on] (respond 3#8 [on] { s with cd.stat := on }))
    ∧ exec .cdStop s = .next (respond 2#8 [st &&& 0x1D#8] { respond 3#8 [st] s with cd.stat := st &&& 0x1D#8 })
    ∧ exec .cdPause s = .next (respond 2#8 [st &&& 0x1F#8] { respond 3#8 [st] s with cd.stat := st &&& 0x1F#8 })
    ∧ exec .cdInit s = .next (respond 2#8 [on &&& 0x1F#8] (respond 3#8 [on &&& 0x1F#8]
        { s with cd.stat := on &&& 0x1F#8, cd.modeReg := 0x20#8 }))
    ∧ (∀ i, i = .cdReadn ∨ i = .cdReads →
        exec i s = .next (respond 3#8 [reading] { sought with cd.stat := reading, cd.sectorTimer := 0 }))
    ∧ (∀ i, i = .cdSeekl ∨ i = .cdSeekp →
        exec i s = .next (respond 2#8 [on &&& 0x1F#8]
          { respond 3#8 [seeking] { sought with cd.stat := seeking } with cd.stat := on &&& 0x1F#8 }))

/-- Rules R513, R515, R516, R524, R525, R528, R530, R533: the commands that read parameters, when the parameters are
there: what each byte sets and the response; Play of track 0 takes a pending seek. The disc is data, and where a track it
does not list starts is a free value (assumption 2). -/
def Obligations.ParameterCommandsUseTheirBytes : Prop :=
  ∀ (s : State) (a b c : Byte) (ps : List Byte),
    let st := s.cd.stat
    let dec : Byte → Nat := fun x => 10 * (x.toNat / 16) + x.toNat % 16
    let toBcd : Nat → Byte := fun n => BitVec.ofNat 8 (16 * (n % 100 / 10) + n % 10)
    let playing := ((st ||| 0x02#8) &&& 0x1F#8) ||| 0x80#8
    (s.cd.paramFifo = a :: b :: c :: ps →
      exec .cdSetloc s = .next (respond 3#8 [st] { s with
        cd.paramFifo := ps
        cd.seekTarget := ((dec a * 60 + dec b) * 75 + dec c : Nat) - (150 : Int)
        cd.seekPending := true }))
    ∧ (s.cd.paramFifo = a :: b :: ps →
      exec .cdSetfilter s = .next (respond 3#8 [st] { s with
        cd.paramFifo := ps, cd.filterFile := a, cd.filterChannel := b }))
    ∧ (s.cd.paramFifo = a :: ps →
      exec .cdSetmode s = .next (respond 3#8 [st] { s with cd.paramFifo := ps, cd.modeReg := a })
      ∧ exec .cdSetsession s = .next (respond 2#8 [st] (respond 3#8 [st] { s with cd.paramFifo := ps, cd.session := a }))
      ∧ (a = 0x20#8 → exec .cdTest s = .next (respond 3#8 [0x94#8, 0x09#8, 0x19#8, 0xC0#8] { s with cd.paramFifo := ps }))
      ∧ (a ≠ 0x20#8 → exec .cdTest s = .next { s with
          cd.paramFifo := ps, out := s.out ++ [.log (.unknownCdCommand 0x19#8)] })
      ∧ (∃ x : Int, (∀ y, s.cfg.disc.trackStarts.lookup (dec a) = some y → x = y) ∧
          let t := (x + 150).toNat
          exec .cdGettd s = .next (respond 3#8 [st, toBcd (t / 4500), toBcd (t / 75 % 60)]
            { s with cd.paramFifo := ps })
          ∧ (dec a ≠ 0 → exec .cdPlay s = .next (respond 3#8 [playing] { s with
              cd.paramFifo := ps, cd.currentSector := x, cd.seekPending := false, cd.stat := playing,
              cd.sectorTimer := 0 })))
      ∧ (dec a = 0 → exec .cdPlay s = .next (respond 3#8 [playing] { s with
          cd.paramFifo := ps
          cd.currentSector := if s.cd.seekPending then s.cd.seekTarget else s.cd.currentSector
          cd.seekPending := false, cd.stat := playing, cd.sectorTimer := 0 })))

/-- Rules R13, R479, R515, R516, R524, R525, R528, R530, R533: with any parameter FIFO, too short ones included, those
commands still complete (a missing byte is a draw, but Play reads none then and takes a pending seek), take exactly their
bytes off the front as far as they are there (Setloc three, Setfilter two, each other one), and leave the index, the data
FIFO, `busy`, `ie` and everything outside the CDROM but events and draws as they were. The draws are free values
(assumption 9). -/
def Obligations.ParameterCommandsAlwaysComplete : Prop :=
  ∀ (s : State) (i : Instr) (bytes : Nat),
    (i = .cdSetloc ∧ bytes = 3) ∨ (i = .cdSetfilter ∧ bytes = 2) ∨
      ((i = .cdPlay ∨ i = .cdSetmode ∨ i = .cdSetsession ∨ i = .cdGettd ∨ i = .cdTest) ∧ bytes = 1) →
    ∃ t, exec i s = .next t ∧ t.cd.paramFifo = s.cd.paramFifo.drop bytes ∧
      t.draws = s.draws + (if i = .cdPlay then 0 else bytes - s.cd.paramFifo.length) ∧ t.cd.index = s.cd.index ∧
      t.cd.dataFifo = s.cd.dataFifo ∧ t.cd.busy = s.cd.busy ∧ t.cd.ie = s.cd.ie ∧ t.gpu = s.gpu ∧ t.dma = s.dma ∧
      t.ram = s.ram ∧ t.cfg = s.cfg ∧ t.readBuf = s.readBuf ∧ t.script = s.script ∧
      (s.cd.paramFifo = [] → i = .cdPlay →
        let playing := ((s.cd.stat ||| 0x02#8) &&& 0x1F#8) ||| 0x80#8
        t = respond 3#8 [playing] { s with
          cd.currentSector := if s.cd.seekPending then s.cd.seekTarget else s.cd.currentSector
          cd.seekPending := false, cd.stat := playing, cd.sectorTimer := 0 })

/-- Rule R534: the command byte 0x1A is GetID; it answers the licensed reply with a disc present and the shell closed, else the no-disc reply, after
the first response. -/
def Obligations.GetidDependsOnDiscAndShell : Prop :=
  ∀ s : State,
    decode s.cfg (.cdCommand 0x1A#8) = .instr .cdGetid
    ∧ (s.cfg.disc.present = true → s.cd.stat.getLsbD 4 = false →
      exec .cdGetid s = .next (respond 2#8 ([0x02#8, 0x00#8, 0x20#8, 0x00#8] ++ s.cfg.cdRegion) (respond 3#8 [s.cd.stat] s)))
    ∧ (s.cfg.disc.present = false ∨ s.cd.stat.getLsbD 4 = true →
      exec .cdGetid s = .next (respond 5#8 [0x08#8, 0x40#8, 0#8, 0#8, 0#8, 0#8, 0#8, 0#8] (respond 3#8 [s.cd.stat] s)))

/-! ### Shell, sector delivery, CDROM interrupt -/

/-- Rule R480: opening the shell sets stat bit 4, clears bits 0, 2, 5, 6, 7 and keeps bits 1 and 3; closing clears bit
4 only; nothing else changes. -/
def Obligations.ShellToggleForcesModeNone : Prop :=
  ∀ s : State, ∃ x, exec .shell s = .next { s with cd.stat := x } ∧
    (s.cd.stat.getLsbD 4 = false → ∀ i, i < 8 →
      x.getLsbD i = if i = 4 then true else if i = 1 ∨ i = 3 then s.cd.stat.getLsbD i else false) ∧
    (s.cd.stat.getLsbD 4 = true → ∀ i, i < 8 → x.getLsbD i = if i = 4 then false else s.cd.stat.getLsbD i)

/-- Rules R481, R482: a CDROM step clears busy; while reading or playing it counts to the interval that `modeReg[7]`
selects and then delivers the sector: the slice `modeReg[5]` selects replaces the data FIFO, the header is kept, the
sector number goes up, and the marker 1 and the stat byte are queued (dropped when full). A sector the disc does not
hold, and by R515 every negative one, is 2352 draws. The disc is data (assumption 2), the draws free values (assumption
9). -/
def Obligations.CdStepDeliversSectors : Prop :=
  ∀ (s : State) (cycles : Nat),
    let active := s.cd.stat.getLsbD 5 = true ∨ s.cd.stat.getLsbD 7 = true
    let interval := if s.cd.modeReg.getLsbD 7 then s.cfg.cdStepsPerSector2x else s.cfg.cdStepsPerSector1x
    ∃ t, transact (.tick .cdrom cycles) s = .next t ∧ t.cd.busy = false ∧ t.cd.stat = s.cd.stat ∧
      t.gpu = s.gpu ∧ t.dma = s.dma ∧ t.ram = s.ram ∧ t.cfg = s.cfg ∧ t.cd.paramFifo = s.cd.paramFifo ∧
      (¬ active → t.cd = { s.cd with busy := false, frontSignalled := t.cd.frontSignalled }) ∧
      (active → s.cd.sectorTimer + 1 < interval →
        t.cd = { s.cd with busy := false, sectorTimer := s.cd.sectorTimer + 1,
                           frontSignalled := t.cd.frontSignalled }) ∧
      (active → interval ≤ s.cd.sectorTimer + 1 →
        t.cd.sectorTimer = 0 ∧ t.cd.currentSector = s.cd.currentSector + 1 ∧
        t.cd.intFifo = (if s.cd.intFifo.length < s.cfg.fifoCap then s.cd.intFifo ++ [1#8] else s.cd.intFifo) ∧
        t.cd.responseFifo = (if s.cd.responseFifo.length < s.cfg.fifoCap then s.cd.responseFifo ++ [s.cd.stat]
          else s.cd.responseFifo) ∧
        t.draws = s.draws + 2352 ∧
        (∀ bs, 0 ≤ s.cd.currentSector → s.cfg.disc.sectors.lookup s.cd.currentSector = some bs → bs.length = 2352 →
          s.cfg.accepts = true →
          t.cd.dataFifo = (if s.cd.modeReg.getLsbD 5 then (bs.drop 12).take s.cfg.cdSectorRaw
            else (bs.drop 24).take s.cfg.cdSectorData) ∧
          t.cd.lastHeader.toList = (bs.drop 12).take 8) ∧
        (s.cd.currentSector < 0 ∨ s.cfg.disc.sectors.lookup s.cd.currentSector = none →
          let drawn : Nat → Nat → List Byte := fun lo n => (List.range n).map fun i => Config.any8 (s.draws + (lo + i))
          t.cd.dataFifo = (if s.cd.modeReg.getLsbD 5 then drawn 12 s.cfg.cdSectorRaw
            else drawn 24 s.cfg.cdSectorData) ∧
          t.cd.lastHeader.toList = drawn 12 8))

/-- Rules R476, R481, R482: the signalling of a CDROM step, which comes after the delivery of a sector where one is due:
one trigger exactly when the front that the interrupt FIFO then has is enabled and not yet signalled, which marks it
signalled; otherwise none. So a marker delivered into an empty interrupt FIFO signals in the same step; while nothing is
read or played the signal and `busy` are all that changes. -/
def Obligations.CdStepSignalsTheFrontOnce : Prop :=
  ∀ (s : State) (cycles : Nat), ∃ t, transact (.tick .cdrom cycles) s = .next t ∧ t.cd.ie = s.cd.ie ∧
    let due := s.cd.frontSignalled = false ∧ ∃ code rest, t.cd.intFifo = code :: rest ∧
      s.cd.ie &&& code.extractLsb' 0 5 ≠ 0#5
    (due → t.cd.frontSignalled = true ∧ t.out = s.out ++ [.trigger .cdrom])
    ∧ (¬ due → t.cd.frontSignalled = s.cd.frontSignalled ∧ t.out = s.out)
    ∧ (s.cd.stat.getLsbD 5 = false → s.cd.stat.getLsbD 7 = false →
      t = { s with cd.busy := false, cd.frontSignalled := t.cd.frontSignalled, out := t.out })
    ∧ (s.cd.stat.getLsbD 5 = true ∨ s.cd.stat.getLsbD 7 = true →
      (if s.cd.modeReg.getLsbD 7 then s.cfg.cdStepsPerSector2x else s.cfg.cdStepsPerSector1x) ≤ s.cd.sectorTimer + 1 →
      s.cd.intFifo = [] → 0 < s.cfg.fifoCap → s.cd.frontSignalled = false → s.cd.ie.getLsbD 0 = true →
      t.cd.intFifo = [1#8] ∧ t.cd.frontSignalled = true ∧ t.out = s.out ++ [.trigger .cdrom])

/-! ### Host accesses -/

/-- Rules R103, R106, R603: a GPU access that is not 32 bits wide at offset 0 or 4, and a CDROM access wider than 8
bits, fault with offset and width and change nothing. That a wide CDROM access at an offset of 4 or more, which R140
counts among no transactions, faults likewise is the model's reading (assumption 14). -/
def Obligations.WrongWidthFaultsFirst : Prop :=
  ∀ (s : State) (off : Nat) (width : Width) (w : Word),
    (width ≠ .w32 ∨ (off ≠ 0 ∧ off ≠ 4) →
      transact (.write .gpu off width w) s = .fault (.hostAccessWidth off width.bits s)
      ∧ transact (.read .gpu off width) s = .fault (.hostAccessWidth off width.bits s))
    ∧ (width ≠ .w8 →
      transact (.write .cdrom off width w) s = .fault (.hostAccessWidth off width.bits s)
      ∧ transact (.read .cdrom off width) s = .fault (.hostAccessWidth off width.bits s))

/-- Rules R105, R108: a DMA access of any width inside the window runs what its byte addresses decode to, in ascending
order, and a read returns their bytes little-endian. So a 32-bit or an aligned 16-bit read of MADR, BCR, CHCR, DPCR or
DICR returns the register or its half; a 32-bit or an aligned 16-bit write of MADR, BCR or DPCR stores the word or half; a
32-bit write of DICR stores its low three bytes and acknowledges with byte 3, and one of CHCR stores three bytes and writes byte 3 last, which stores the
word where its start condition is false. The channels are the `DMA_CHANNELS` there are (assumption 3). -/
def Obligations.WideDmaAccessesAreLittleEndian : Prop :=
  ∀ (s : State) (width : Width) (w : Word), s.readBuf = [] →
    let returns : Nat → Word → Prop := fun a r =>
      (∃ bs, transact (.read .dma a .w32) s = .next { s with out := s.out ++ [.returned .w32 r], readBuf := bs })
      ∧ ∀ h, h < 2 → ∃ bs, transact (.read .dma (a + 2 * h) .w16) s = .next { s with
        out := s.out ++ [.returned .w16 ((r.extractLsb' (16 * h) 16).setWidth 32)], readBuf := bs }
    let stores : Nat → Word → (Word → State) → Prop := fun a old new =>
      transact (.write .dma a .w32 w) s = .next (new w)
      ∧ ∀ h, h < 2 → ∃ r, transact (.write .dma (a + 2 * h) .w16 w) s = .next (new r) ∧ ∀ i, i < 32 →
        r.getLsbD i = if 16 * h ≤ i ∧ i < 16 * h + 16 then w.getLsbD (i - 16 * h) else old.getLsbD i
    (∀ off, off + width.bytes ≤ 0x80 →
      transact (.write .dma off width w) s = runForms ((List.range width.bytes).map fun i =>
        .dmaWrite (BitVec.ofNat 7 (off + i)) (w.extractLsb' (8 * i) 8)) s
      ∧ ∃ t v, runForms ((List.range width.bytes).map fun i => .dmaRead (BitVec.ofNat 7 (off + i))) s = .next t ∧
        transact (.read .dma off width) s = .next { t with out := t.out ++ [.returned width v] } ∧
        t.readBuf.length = width.bytes ∧ ∀ i, i < 4 → v.extractLsb' (8 * i) 8 = t.readBuf.getD i 0#8)
    ∧ (returns 0x70 s.dma.dpcr ∧ returns 0x74 s.dma.dicr ∧ ∀ n : Fin 7, n.val < s.cfg.dmaChannels →
        returns (0x10 * n.val) (channel s n).madr ∧ returns (0x10 * n.val + 4) (channel s n).bcr
        ∧ returns (0x10 * n.val + 8) (channel s n).chcr)
    ∧ stores 0x70 s.dma.dpcr (fun r => { s with dma.dpcr := r })
    ∧ (∃ r, transact (.write .dma 0x74 .w32 w) s = .next { s with dma.dicr := r } ∧ ∀ i, i < 32 → r.getLsbD i =
      if i < 24 then w.getLsbD i else if i < 31 then s.dma.dicr.getLsbD i && !w.getLsbD i else s.dma.dicr.getLsbD i)
    ∧ ∀ n : Fin 7, n.val < s.cfg.dmaChannels →
      let ch := channel s n
      stores (0x10 * n.val) ch.madr (fun r => setChannel s n { ch with madr := r })
      ∧ stores (0x10 * n.val + 4) ch.bcr (fun r => setChannel s n { ch with bcr := r })
      ∧ transact (.write .dma (0x10 * n.val + 8) .w32 w) s = exec (.dmaChcrWrite n 3 (w.extractLsb' 24 8))
        (setChannel s n { ch with chcr := (ch.chcr.extractLsb' 24 8 ++ w.extractLsb' 0 24 : BitVec (8 + 24)) })
      ∧ (¬ (w.getLsbD 24 = true ∧ (w.extractLsb' 9 2 ≠ 0#2 ∨ w.getLsbD 28 = true) ∧
          (s.cfg.dmaRequireDpcrEnable = false ∨ s.dma.dpcr.getLsbD (4 * n.val + 3) = true)) →
        transact (.write .dma (0x10 * n.val + 8) .w32 w) s = .next (setChannel s n { ch with chcr := w }))

/-! ### Invariants and whole-machine rules -/

/-- Rules R12, R13, R31, R33, R37, R48, R62, R101, R107, R204, R476: every step from a state that meets the invariant
leaves one that does: memories canonical and in range, decoder consistent, FIFOs within capacity, one drive mode,
timing in range. The check of the parameters and the cursor's bounds are the model's (assumptions 10, 18). -/
def Obligations.StepKeepsTheInvariant : Prop :=
  ∀ s t : State, s.Inv → step s = .next t → t.Inv

/-- Rules R204, R700 to R703: the machine under any parameters the model takes, the reset machine among them, meets the
invariant at power-on; parameters it does not take are refused. The refusals beyond the two bounds of R204 are the
model's (assumptions 3, 10), and so are the values at power-on that the rules leave open (assumptions 5 to 8, 15). -/
def Obligations.PowerOnMeetsTheInvariant : Prop :=
  State.reset.Inv ∧ ∀ c s, State.configure c = some s → s.Inv ∧ s = State.powerOn c ∧ c.accepts = true

/-- Rules R701 to R704: every register value the rules give for power-on, with the stat byte the parameters give, GPUSTAT
and the CDROM status register among them. The draws (VRAM, `gpuReadLatch`, `lastHeader`) and what the rules leave
unspecified (the cursor, the words of `args`) are no part of it. With no transaction to come a step changes nothing; the
script is how the model holds the host (assumption 17). -/
def Obligations.ResetValues : Prop :=
  let g := State.reset.gpu
  let d := State.reset.cd
  (g.cmdState = .idle ∧ g.argCount = 0 ∧ g.currArg = 0 ∧ g.readMode = .normal ∧ g.irq = false ∧
    g.irqSignalled = false ∧ g.displayDisable = true ∧ g.dmaDirection = 0#2 ∧ g.displayAreaX = 0#10 ∧
    g.displayAreaY = 0#9 ∧ g.hRangeX1 = 0x200#12 ∧ g.hRangeX2 = 0xC00#12 ∧ g.vRangeY1 = 0x010#10 ∧
    g.vRangeY2 = 0x100#10 ∧ g.dispMode = 0#8 ∧ g.drawMode = 0#14 ∧ g.texWindow = ⟨0#5, 0#5, 0#5, 0#5⟩ ∧
    g.drawAreaTL = ⟨0#10, 0#10⟩ ∧ g.drawAreaBR = ⟨0#10, 0#10⟩ ∧ g.drawOffset = ⟨0#11, 0#11⟩ ∧
    g.mask = ⟨false, false⟩ ∧ g.texDisableAllowed = false ∧ g.dotAccum = 0 ∧ g.line = 0 ∧ g.frame = 0 ∧
    g.odd = false ∧ gpustat g = 0x14802000#32)
  ∧ (State.reset.dma.dpcr = 0x07654321#32 ∧ State.reset.dma.dicr = 0#32 ∧
    ∀ n, channel State.reset n = ⟨0#32, 0#32, 0#32⟩)
  ∧ (d.index = 0#2 ∧ d.stat = 0x00#8 ∧ d.paramFifo = [] ∧ d.responseFifo = [] ∧ d.intFifo = [] ∧ d.dataFifo = [] ∧
    d.frontSignalled = false ∧ d.busy = false ∧ d.ie = 0#5 ∧ d.modeReg = 0#8 ∧ d.currentSector = 0 ∧
    d.seekTarget = 0 ∧ d.seekPending = false ∧ d.sectorTimer = 0 ∧ d.request = 0#8 ∧ d.soundMapCoding = 0#8 ∧
    d.volLL = 0#8 ∧ d.volLR = 0#8 ∧ d.volRL = 0#8 ∧ d.volRR = 0#8 ∧ d.volApply = 0#8 ∧ d.filterFile = 0#8 ∧
    d.filterChannel = 0#8 ∧ d.muted = false ∧ d.session = 0#8 ∧ cdStatus State.reset.cfg d = 0x18#8)
  ∧ (∀ c, (State.powerOn c).cd.stat = c.cdPoweronStat)
  ∧ step State.reset = .next State.reset

/-- Rules R12, R48, R62, R370, R412, R480: along any step, the parameters never change; the display timing changes
only at a GPU step; the stored master flag only at a DMA step; the shell bit only at the shell toggle; the script
loses its first transaction. The parameters and the script stand in the state by the model's choice (assumptions 1,
13). -/
def Obligations.WhoWritesWhat : Prop :=
  ∀ (s s' : State) (t : Txn) (ts : List Txn), s.script = t :: ts → step s = .next s' →
    s'.cfg = s.cfg ∧ s'.script = ts ∧
    ((∀ n, t ≠ .tick .gpu n) → s'.gpu.dotAccum = s.gpu.dotAccum ∧ s'.gpu.line = s.gpu.line ∧
      s'.gpu.frame = s.gpu.frame ∧ s'.gpu.odd = s.gpu.odd) ∧
    ((∀ n, t ≠ .tick .dma n) → s'.dma.dicr.getLsbD 31 = s.dma.dicr.getLsbD 31) ∧
    (t ≠ .shell → s'.cd.stat.getLsbD 4 = s.cd.stat.getLsbD 4)
end

