-- ==== Sys2Proof/Laws/Cells.lean ====
section
/-! SUPPORT. Sparse storage: a read after a write, the canonical form, and equality of canonical lists; then the same
for VRAM and main RAM. -/
namespace Sys2Proof.Machine

@[simp] theorem cellsGet_nil {α : Type} (a : Nat) : cellsGet ([] : List (Nat × α)) a = none := rfl

theorem cellsWf_weaken {α : Type} {lo lo' bound : Nat} {m : List (Nat × α)} (h : cellsWf lo bound m = true)
    (hl : lo' ≤ lo) : cellsWf lo' bound m = true := by
  cases m with
  | nil => rfl
  | cons p m =>
    simp only [cellsWf, Bool.and_eq_true, decide_eq_true_eq] at h ⊢
    exact ⟨⟨hl.trans h.1.1, h.1.2⟩, h.2⟩

/-- Nothing is listed below the first address. -/
theorem cellsGet_lt {α : Type} {lo bound a : Nat} {m : List (Nat × α)} (h : cellsWf lo bound m = true) (ha : a < lo) :
    cellsGet m a = none := by
  induction m generalizing lo with
  | nil => rfl
  | cons p m ih =>
    simp only [cellsWf, Bool.and_eq_true, decide_eq_true_eq] at h
    have hne : a ≠ p.1 := by omega
    simp only [cellsGet, hne, if_false]
    exact ih h.2 (by omega)

/-- A read after a write: the value written there, what was listed elsewhere. -/
theorem cellsGet_cellsSet {α : Type} (m : List (Nat × α)) (a b : Nat) (v : α) :
    cellsGet (cellsSet m a v) b = if b = a then some v else cellsGet m b := by
  induction m with
  | nil => by_cases h : b = a <;> simp [cellsSet, cellsGet, h]
  | cons p m ih =>
    obtain ⟨c, u⟩ := p
    rcases Nat.lt_trichotomy a c with hac | rfl | hac
    · by_cases h : b = a <;> simp [cellsSet, cellsGet, hac, h]
    · by_cases h : b = a <;> simp [cellsSet, cellsGet, h]
    · have h1 : ¬ a < c := by omega
      have h2 : a ≠ c := by omega
      by_cases hb : b = c
      · subst hb
        have h3 : b ≠ a := by omega
        simp [cellsSet, cellsGet, h1, h2, h3]
      · simp [cellsSet, cellsGet, h1, h2, hb, ih]

/-- A write keeps the canonical form. -/
theorem cellsWf_cellsSet {α : Type} {lo bound : Nat} {m : List (Nat × α)} {a : Nat} (v : α)
    (h : cellsWf lo bound m = true) (h1 : lo ≤ a) (h2 : a < bound) : cellsWf lo bound (cellsSet m a v) = true := by
  induction m generalizing lo with
  | nil => simp [cellsSet, cellsWf, h1, h2]
  | cons p m ih =>
    obtain ⟨c, u⟩ := p
    simp only [cellsWf, Bool.and_eq_true, decide_eq_true_eq] at h
    rcases Nat.lt_trichotomy a c with hac | rfl | hac
    · simp only [cellsSet, hac, if_true, cellsWf, Bool.and_eq_true, decide_eq_true_eq]
      exact ⟨⟨h1, h2⟩, ⟨⟨by omega, h.1.2⟩, h.2⟩⟩
    · simp only [cellsSet, Nat.lt_irrefl, if_false, if_true, cellsWf, Bool.and_eq_true, decide_eq_true_eq]
      exact ⟨⟨h1, h2⟩, h.2⟩
    · have h3 : ¬ a < c := by omega
      have h4 : a ≠ c := by omega
      simp only [cellsSet, h3, h4, if_false, cellsWf, Bool.and_eq_true, decide_eq_true_eq]
      exact ⟨h.1, ih h.2 (by omega)⟩

/-- Canonical lists with the same contents are the same list. -/
theorem cells_ext {α : Type} {lo bound : Nat} {m m' : List (Nat × α)} (h : cellsWf lo bound m = true)
    (h' : cellsWf lo bound m' = true) (he : ∀ a, cellsGet m a = cellsGet m' a) : m = m' := by
  induction m generalizing lo m' with
  | nil =>
    cases m' with
    | nil => rfl
    | cons p m' => have := he p.1; simp [cellsGet] at this
  | cons p m ih =>
    cases m' with
    | nil => have := he p.1; simp [cellsGet] at this
    | cons p' m' =>
      obtain ⟨a, v⟩ := p
      obtain ⟨a', v'⟩ := p'
      simp only [cellsWf, Bool.and_eq_true, decide_eq_true_eq] at h h'
      have haa : a = a' := by
        rcases Nat.lt_trichotomy a a' with hlt | heq | hlt
        · have h1 := he a
          have h2 : cellsGet m' a = none := cellsGet_lt h'.2 (by omega)
          simp [cellsGet, h2, Nat.ne_of_lt hlt] at h1
        · exact heq
        · have h1 := he a'
          have h2 : cellsGet m a' = none := cellsGet_lt h.2 (by omega)
          simp [cellsGet, h2, Nat.ne_of_lt hlt] at h1
      subst haa
      have hv : v = v' := by
        have h1 := he a
        simpa [cellsGet] using h1
      subst hv
      have hm : m = m' := by
        refine ih h.2 h'.2 fun b => ?_
        by_cases hb : b = a
        · subst hb
          rw [cellsGet_lt h.2 (by omega), cellsGet_lt h'.2 (by omega)]
        · have h1 := he b
          simpa [cellsGet, hb] using h1
      rw [hm]

/-! ### VRAM -/

theorem pixelNumber_lt {c : Config} (hw : 0 < c.vramWidth) (hh : 0 < c.vramHeight) (x y : Nat) :
    pixelNumber c x y < c.vramWidth * c.vramHeight := by
  have h1 := Nat.mod_lt x hw
  have h2 : y % c.vramHeight + 1 ≤ c.vramHeight := Nat.mod_lt y hh
  calc pixelNumber c x y = (y % c.vramHeight) * c.vramWidth + x % c.vramWidth := rfl
    _ < (y % c.vramHeight) * c.vramWidth + c.vramWidth := by omega
    _ = (y % c.vramHeight + 1) * c.vramWidth := by ring
    _ ≤ c.vramHeight * c.vramWidth := Nat.mul_le_mul_right _ h2
    _ = c.vramWidth * c.vramHeight := Nat.mul_comm _ _

/-- Two pixels have one number exactly when they are the same modulo the grid (rule R101). -/
theorem pixelNumber_eq_iff {c : Config} (hw : 0 < c.vramWidth) (x y x' y' : Nat) :
    pixelNumber c x y = pixelNumber c x' y'
      ↔ x % c.vramWidth = x' % c.vramWidth ∧ y % c.vramHeight = y' % c.vramHeight := by
  have hx := Nat.mod_lt x hw
  have hx' := Nat.mod_lt x' hw
  constructor
  · intro h
    have hm : pixelNumber c x y % c.vramWidth = pixelNumber c x' y' % c.vramWidth := by rw [h]
    have hd : pixelNumber c x y / c.vramWidth = pixelNumber c x' y' / c.vramWidth := by rw [h]
    simp only [pixelNumber, Nat.mul_comm _ c.vramWidth, Nat.mul_add_mod, Nat.mul_add_div hw] at hm hd
    rw [Nat.mod_eq_of_lt hx, Nat.mod_eq_of_lt hx'] at hm
    rw [Nat.div_eq_of_lt hx, Nat.div_eq_of_lt hx'] at hd
    exact ⟨hm, by simpa using hd⟩
  · rintro ⟨h1, h2⟩
    simp only [pixelNumber, h1, h2]

/-- A pixel read after a pixel write (rules R12, R101). -/
theorem vramRead_vramWrite {c : Config} (hw : 0 < c.vramWidth) (v : Vram) (x y x' y' : Nat) (p : Pixel) :
    vramRead c (vramWrite c v x y p) x' y'
      = if x' % c.vramWidth = x % c.vramWidth ∧ y' % c.vramHeight = y % c.vramHeight then p
        else vramRead c v x' y' := by
  simp only [vramRead, pixelAt, vramWrite, cellsGet_cellsSet, pixelNumber_eq_iff hw]
  split <;> rfl

theorem vramWrite_wf {c : Config} (hw : 0 < c.vramWidth) (hh : 0 < c.vramHeight) {v : Vram} (x y : Nat) (p : Pixel)
    (h : Vram.wf c v = true) : Vram.wf c (vramWrite c v x y p) = true :=
  cellsWf_cellsSet p h (Nat.zero_le _) (pixelNumber_lt hw hh x y)

theorem applyPixels_wf {c : Config} (hw : 0 < c.vramWidth) (hh : 0 < c.vramHeight) (ps : List PixelWrite) {v : Vram}
    (h : Vram.wf c v = true) : Vram.wf c (applyPixels c ps v) = true := by
  induction ps generalizing v with
  | nil => exact h
  | cons p ps ih => exact ih (vramWrite_wf hw hh _ _ _ h)

/-! ### Main RAM -/

/-- A byte read after a byte write (rule R12). -/
theorem memByte_memSetByte (m : Memory) (a b : Nat) (d : Byte) :
    memByte (memSetByte m a d) b = if b = a then d else memByte m b := by
  simp only [memByte, memSetByte, cellsGet_cellsSet]
  split <;> rfl

theorem memSetByte_wf {c : Config} {m : Memory} {a : Nat} (d : Byte) (h : Memory.wf c m = true) (ha : a < c.ramSize) :
    Memory.wf c (memSetByte m a d) = true :=
  cellsWf_cellsSet d h (Nat.zero_le _) ha

theorem memWrite_wf {c : Config} {m : Memory} {a : Nat} (w : Word) (h : Memory.wf c m = true)
    (ha : a + 4 ≤ c.ramSize) : Memory.wf c (memWrite m a w) = true := by
  refine memSetByte_wf _ (memSetByte_wf _ (memSetByte_wf _ (memSetByte_wf _ h ?_) ?_) ?_) ?_ <;> omega

/-- A byte read after a word write: a byte of the word inside it, what stood there outside (rules R12, R108). -/
theorem memByte_memWrite (m : Memory) (a b : Nat) (w : Word) :
    memByte (memWrite m a w) b = if a ≤ b ∧ b < a + 4 then wordByte w (b - a) else memByte m b := by
  simp only [memWrite, memByte_memSetByte]
  by_cases h3 : b = a + 3
  · subst h3; simp
  by_cases h2 : b = a + 2
  · subst h2; simp
  by_cases h1 : b = a + 1
  · subst h1; simp
  by_cases h0 : b = a
  · subst h0; simp
  · have : ¬ (a ≤ b ∧ b < a + 4) := by omega
    simp [h0, h1, h2, h3, this]

/-- A word taken apart and put together again (rule R108). -/
theorem wordOfLE_wordByte (w : Word) : wordOfLE (wordByte w 0) (wordByte w 1) (wordByte w 2) (wordByte w 3) = w := by
  apply BitVec.eq_of_getLsbD_eq
  intro i hi
  simp only [wordOfLE, wordByte, BitVec.getLsbD_append, BitVec.getLsbD_extractLsb']
  by_cases h0 : i < 8
  · simp [h0, show i < 16 by omega]
  by_cases h1 : i < 16
  · have : 8 * 1 + (i - 8) = i := by omega
    simp [h0, h1, this, show i - 8 < 8 by omega]
  by_cases h2 : i < 24
  · have : 8 * 2 + (i - 16) = i := by omega
    simp [h1, this, show i - 16 < 8 by omega]
  · have : 8 * 3 + (i - 16 - 8) = i := by omega
    simp [h1, this, show ¬ (i - 16 < 8) by omega, show i - 16 - 8 < 8 by omega]

/-- A word read after a word write at the same address. -/
theorem memRead_memWrite_same (m : Memory) (a : Nat) (w : Word) : memRead (memWrite m a w) a = w := by
  simp only [memRead, memByte_memWrite]
  simp [wordOfLE_wordByte]

/-- A word read after a word write that does not touch it. -/
theorem memRead_memWrite_other (m : Memory) (a b : Nat) (w : Word) (h : b + 4 ≤ a ∨ a + 4 ≤ b) :
    memRead (memWrite m a w) b = memRead m b := by
  have key : ∀ i, i < 4 → memByte (memWrite m a w) (b + i) = memByte m (b + i) := by
    intro i hi
    rw [memByte_memWrite, if_neg (by omega)]
  simp only [memRead, key 1 (by omega), key 2 (by omega), key 3 (by omega)]
  rw [show memByte (memWrite m a w) b = memByte m b from key 0 (by omega)]

end Sys2Proof.Machine
end

