-- ==== Sys2Proof/Laws/State.lean ====
section
/-! SUPPORT. One lemma per field per update of the state: what each named operation leaves alone, and what it sets. -/
namespace Sys2Proof.Machine

/-! ### emit -/

@[simp] theorem emit_gpu (e : Event) (s : State) : (emit e s).gpu = s.gpu := rfl
@[simp] theorem emit_dma (e : Event) (s : State) : (emit e s).dma = s.dma := rfl
@[simp] theorem emit_cd (e : Event) (s : State) : (emit e s).cd = s.cd := rfl
@[simp] theorem emit_cfg (e : Event) (s : State) : (emit e s).cfg = s.cfg := rfl
@[simp] theorem emit_ram (e : Event) (s : State) : (emit e s).ram = s.ram := rfl
@[simp] theorem emit_draws (e : Event) (s : State) : (emit e s).draws = s.draws := rfl
@[simp] theorem emit_out (e : Event) (s : State) : (emit e s).out = s.out ++ [e] := rfl
@[simp] theorem emit_readBuf (e : Event) (s : State) : (emit e s).readBuf = s.readBuf := rfl
@[simp] theorem emit_script (e : Event) (s : State) : (emit e s).script = s.script := rfl

/-! ### returnBytes -/

@[simp] theorem returnBytes_gpu (bs : List Byte) (s : State) : (returnBytes bs s).gpu = s.gpu := rfl
@[simp] theorem returnBytes_dma (bs : List Byte) (s : State) : (returnBytes bs s).dma = s.dma := rfl
@[simp] theorem returnBytes_cd (bs : List Byte) (s : State) : (returnBytes bs s).cd = s.cd := rfl
@[simp] theorem returnBytes_cfg (bs : List Byte) (s : State) : (returnBytes bs s).cfg = s.cfg := rfl
@[simp] theorem returnBytes_ram (bs : List Byte) (s : State) : (returnBytes bs s).ram = s.ram := rfl
@[simp] theorem returnBytes_draws (bs : List Byte) (s : State) : (returnBytes bs s).draws = s.draws := rfl
@[simp] theorem returnBytes_out (bs : List Byte) (s : State) : (returnBytes bs s).out = s.out := rfl
@[simp] theorem returnBytes_readBuf (bs : List Byte) (s : State) : (returnBytes bs s).readBuf = s.readBuf ++ bs := rfl
@[simp] theorem returnBytes_script (bs : List Byte) (s : State) : (returnBytes bs s).script = s.script := rfl

/-! ### draw8 -/

@[simp] theorem draw8_gpu  (s : State) : ((draw8 s).2).gpu = s.gpu := rfl
@[simp] theorem draw8_dma  (s : State) : ((draw8 s).2).dma = s.dma := rfl
@[simp] theorem draw8_cd  (s : State) : ((draw8 s).2).cd = s.cd := rfl
@[simp] theorem draw8_cfg  (s : State) : ((draw8 s).2).cfg = s.cfg := rfl
@[simp] theorem draw8_ram  (s : State) : ((draw8 s).2).ram = s.ram := rfl
@[simp] theorem draw8_draws  (s : State) : ((draw8 s).2).draws = s.draws + 1 := rfl
@[simp] theorem draw8_out  (s : State) : ((draw8 s).2).out = s.out := rfl
@[simp] theorem draw8_readBuf  (s : State) : ((draw8 s).2).readBuf = s.readBuf := rfl
@[simp] theorem draw8_script  (s : State) : ((draw8 s).2).script = s.script := rfl

/-! ### draw16 -/

@[simp] theorem draw16_gpu  (s : State) : ((draw16 s).2).gpu = s.gpu := rfl
@[simp] theorem draw16_dma  (s : State) : ((draw16 s).2).dma = s.dma := rfl
@[simp] theorem draw16_cd  (s : State) : ((draw16 s).2).cd = s.cd := rfl
@[simp] theorem draw16_cfg  (s : State) : ((draw16 s).2).cfg = s.cfg := rfl
@[simp] theorem draw16_ram  (s : State) : ((draw16 s).2).ram = s.ram := rfl
@[simp] theorem draw16_draws  (s : State) : ((draw16 s).2).draws = s.draws + 1 := rfl
@[simp] theorem draw16_out  (s : State) : ((draw16 s).2).out = s.out := rfl
@[simp] theorem draw16_readBuf  (s : State) : ((draw16 s).2).readBuf = s.readBuf := rfl
@[simp] theorem draw16_script  (s : State) : ((draw16 s).2).script = s.script := rfl

/-! ### setChannel -/

@[simp] theorem setChannel_gpu (n : Fin 7) (ch : DmaChannel) (s : State) : (setChannel s n ch).gpu = s.gpu := rfl
@[simp] theorem setChannel_dma (n : Fin 7) (ch : DmaChannel) (s : State) : (setChannel s n ch).dma = { s.dma with channels := s.dma.channels.set n ch } := rfl
@[simp] theorem setChannel_cd (n : Fin 7) (ch : DmaChannel) (s : State) : (setChannel s n ch).cd = s.cd := rfl
@[simp] theorem setChannel_cfg (n : Fin 7) (ch : DmaChannel) (s : State) : (setChannel s n ch).cfg = s.cfg := rfl
@[simp] theorem setChannel_ram (n : Fin 7) (ch : DmaChannel) (s : State) : (setChannel s n ch).ram = s.ram := rfl
@[simp] theorem setChannel_draws (n : Fin 7) (ch : DmaChannel) (s : State) : (setChannel s n ch).draws = s.draws := rfl
@[simp] theorem setChannel_out (n : Fin 7) (ch : DmaChannel) (s : State) : (setChannel s n ch).out = s.out := rfl
@[simp] theorem setChannel_readBuf (n : Fin 7) (ch : DmaChannel) (s : State) : (setChannel s n ch).readBuf = s.readBuf := rfl
@[simp] theorem setChannel_script (n : Fin 7) (ch : DmaChannel) (s : State) : (setChannel s n ch).script = s.script := rfl

/-! ### endCollect -/

@[simp] theorem endCollect_gpu  (s : State) : (endCollect s).gpu = { s.gpu with cmdState := .idle, currArg := 0, argCount := 0 } := rfl
@[simp] theorem endCollect_dma  (s : State) : (endCollect s).dma = s.dma := rfl
@[simp] theorem endCollect_cd  (s : State) : (endCollect s).cd = s.cd := rfl
@[simp] theorem endCollect_cfg  (s : State) : (endCollect s).cfg = s.cfg := rfl
@[simp] theorem endCollect_ram  (s : State) : (endCollect s).ram = s.ram := rfl
@[simp] theorem endCollect_draws  (s : State) : (endCollect s).draws = s.draws := rfl
@[simp] theorem endCollect_out  (s : State) : (endCollect s).out = s.out := rfl
@[simp] theorem endCollect_readBuf  (s : State) : (endCollect s).readBuf = s.readBuf := rfl
@[simp] theorem endCollect_script  (s : State) : (endCollect s).script = s.script := rfl

/-! ### enterMode -/

@[simp] theorem enterMode_gpu (m : DriveMode) (s : State) : (enterMode m s).gpu = s.gpu := rfl
@[simp] theorem enterMode_dma (m : DriveMode) (s : State) : (enterMode m s).dma = s.dma := rfl
@[simp] theorem enterMode_cd (m : DriveMode) (s : State) : (enterMode m s).cd = { s.cd with stat := setMode m s.cd.stat } := rfl
@[simp] theorem enterMode_cfg (m : DriveMode) (s : State) : (enterMode m s).cfg = s.cfg := rfl
@[simp] theorem enterMode_ram (m : DriveMode) (s : State) : (enterMode m s).ram = s.ram := rfl
@[simp] theorem enterMode_draws (m : DriveMode) (s : State) : (enterMode m s).draws = s.draws := rfl
@[simp] theorem enterMode_out (m : DriveMode) (s : State) : (enterMode m s).out = s.out := rfl
@[simp] theorem enterMode_readBuf (m : DriveMode) (s : State) : (enterMode m s).readBuf = s.readBuf := rfl
@[simp] theorem enterMode_script (m : DriveMode) (s : State) : (enterMode m s).script = s.script := rfl

/-! ### startMotor -/

@[simp] theorem startMotor_gpu  (s : State) : (startMotor s).gpu = s.gpu := rfl
@[simp] theorem startMotor_dma  (s : State) : (startMotor s).dma = s.dma := rfl
@[simp] theorem startMotor_cd  (s : State) : (startMotor s).cd = { s.cd with stat := motorOn s.cd.stat } := rfl
@[simp] theorem startMotor_cfg  (s : State) : (startMotor s).cfg = s.cfg := rfl
@[simp] theorem startMotor_ram  (s : State) : (startMotor s).ram = s.ram := rfl
@[simp] theorem startMotor_draws  (s : State) : (startMotor s).draws = s.draws := rfl
@[simp] theorem startMotor_out  (s : State) : (startMotor s).out = s.out := rfl
@[simp] theorem startMotor_readBuf  (s : State) : (startMotor s).readBuf = s.readBuf := rfl
@[simp] theorem startMotor_script  (s : State) : (startMotor s).script = s.script := rfl

/-! ### writeResponse -/

@[simp] theorem writeResponse_gpu (b : Byte) (s : State) : (writeResponse b s).gpu = s.gpu := rfl
@[simp] theorem writeResponse_dma (b : Byte) (s : State) : (writeResponse b s).dma = s.dma := rfl
@[simp] theorem writeResponse_cd (b : Byte) (s : State) : (writeResponse b s).cd = { s.cd with responseFifo := fifoPush s.cfg s.cd.responseFifo b } := rfl
@[simp] theorem writeResponse_cfg (b : Byte) (s : State) : (writeResponse b s).cfg = s.cfg := rfl
@[simp] theorem writeResponse_ram (b : Byte) (s : State) : (writeResponse b s).ram = s.ram := rfl
@[simp] theorem writeResponse_draws (b : Byte) (s : State) : (writeResponse b s).draws = s.draws := rfl
@[simp] theorem writeResponse_out (b : Byte) (s : State) : (writeResponse b s).out = s.out := rfl
@[simp] theorem writeResponse_readBuf (b : Byte) (s : State) : (writeResponse b s).readBuf = s.readBuf := rfl
@[simp] theorem writeResponse_script (b : Byte) (s : State) : (writeResponse b s).script = s.script := rfl

/-! ### dataPixel -/

@[simp] theorem dataPixel_dma (p : Pixel) (s : State) : (dataPixel p s).dma = s.dma := rfl
@[simp] theorem dataPixel_cd (p : Pixel) (s : State) : (dataPixel p s).cd = s.cd := rfl
@[simp] theorem dataPixel_cfg (p : Pixel) (s : State) : (dataPixel p s).cfg = s.cfg := rfl
@[simp] theorem dataPixel_ram (p : Pixel) (s : State) : (dataPixel p s).ram = s.ram := rfl
@[simp] theorem dataPixel_draws (p : Pixel) (s : State) : (dataPixel p s).draws = s.draws := rfl
@[simp] theorem dataPixel_out (p : Pixel) (s : State) : (dataPixel p s).out = s.out := rfl
@[simp] theorem dataPixel_readBuf (p : Pixel) (s : State) : (dataPixel p s).readBuf = s.readBuf := rfl
@[simp] theorem dataPixel_script (p : Pixel) (s : State) : (dataPixel p s).script = s.script := rfl

/-! ### enter -/

@[simp] theorem enter_gpu  (s : State) : (enter s).gpu = s.gpu := rfl
@[simp] theorem enter_dma  (s : State) : (enter s).dma = s.dma := rfl
@[simp] theorem enter_cd  (s : State) : (enter s).cd = s.cd := rfl
@[simp] theorem enter_cfg  (s : State) : (enter s).cfg = s.cfg := rfl
@[simp] theorem enter_ram  (s : State) : (enter s).ram = s.ram := rfl
@[simp] theorem enter_draws  (s : State) : (enter s).draws = s.draws := rfl
@[simp] theorem enter_out  (s : State) : (enter s).out = s.out := rfl
@[simp] theorem enter_readBuf  (s : State) : (enter s).readBuf = [] := rfl
@[simp] theorem enter_script  (s : State) : (enter s).script = s.script.tail := rfl

theorem draw8_fst (s : State) : (draw8 s).1 = Config.any8 s.draws := rfl

theorem draw16_fst (s : State) : (draw16 s).1 = Config.any16 s.draws := rfl

/-! ### readParam: takes from one FIFO, or a draw -/

@[simp] theorem readParam_gpu (s : State) : (readParam s).2.gpu = s.gpu := by
  unfold readParam; split <;> rfl
@[simp] theorem readParam_dma (s : State) : (readParam s).2.dma = s.dma := by
  unfold readParam; split <;> rfl
@[simp] theorem readParam_cfg (s : State) : (readParam s).2.cfg = s.cfg := by
  unfold readParam; split <;> rfl
@[simp] theorem readParam_ram (s : State) : (readParam s).2.ram = s.ram := by
  unfold readParam; split <;> rfl
@[simp] theorem readParam_out (s : State) : (readParam s).2.out = s.out := by
  unfold readParam; split <;> rfl
@[simp] theorem readParam_readBuf (s : State) : (readParam s).2.readBuf = s.readBuf := by
  unfold readParam; split <;> rfl
@[simp] theorem readParam_script (s : State) : (readParam s).2.script = s.script := by
  unfold readParam; split <;> rfl

theorem readParam_nil (s : State) (h : s.cd.paramFifo = []) :
    readParam s = (Config.any8 s.draws, { s with draws := s.draws + 1 }) := by simp [readParam, h, draw8]

theorem readParam_cons (s : State) (b : Byte) (bs : List Byte) (h : s.cd.paramFifo = b :: bs) :
    readParam s = (b, { s with cd.paramFifo := bs }) := by simp [readParam, h]

/-- What the operation changes of the CDROM: that FIFO, by its front entry. -/
@[simp] theorem readParam_cd (s : State) : (readParam s).2.cd = { s.cd with paramFifo := s.cd.paramFifo.tail } := by
  cases h : s.cd.paramFifo with
  | nil => rw [readParam_nil s h]; show s.cd = _; rw [List.tail_nil, ← h]
  | cons b bs => rw [readParam_cons s b bs h]; rfl

/-! ### popResponse: takes from one FIFO, or a draw -/

@[simp] theorem popResponse_gpu (s : State) : (popResponse s).2.gpu = s.gpu := by
  unfold popResponse; split <;> rfl
@[simp] theorem popResponse_dma (s : State) : (popResponse s).2.dma = s.dma := by
  unfold popResponse; split <;> rfl
@[simp] theorem popResponse_cfg (s : State) : (popResponse s).2.cfg = s.cfg := by
  unfold popResponse; split <;> rfl
@[simp] theorem popResponse_ram (s : State) : (popResponse s).2.ram = s.ram := by
  unfold popResponse; split <;> rfl
@[simp] theorem popResponse_out (s : State) : (popResponse s).2.out = s.out := by
  unfold popResponse; split <;> rfl
@[simp] theorem popResponse_readBuf (s : State) : (popResponse s).2.readBuf = s.readBuf := by
  unfold popResponse; split <;> rfl
@[simp] theorem popResponse_script (s : State) : (popResponse s).2.script = s.script := by
  unfold popResponse; split <;> rfl

theorem popResponse_nil (s : State) (h : s.cd.responseFifo = []) :
    popResponse s = (Config.any8 s.draws, { s with draws := s.draws + 1 }) := by simp [popResponse, h, draw8]

theorem popResponse_cons (s : State) (b : Byte) (bs : List Byte) (h : s.cd.responseFifo = b :: bs) :
    popResponse s = (b, { s with cd.responseFifo := bs }) := by simp [popResponse, h]

/-- What the operation changes of the CDROM: that FIFO, by its front entry. -/
@[simp] theorem popResponse_cd (s : State) : (popResponse s).2.cd = { s.cd with responseFifo := s.cd.responseFifo.tail } := by
  cases h : s.cd.responseFifo with
  | nil => rw [popResponse_nil s h]; show s.cd = _; rw [List.tail_nil, ← h]
  | cons b bs => rw [popResponse_cons s b bs h]; rfl

/-! ### popData: takes from one FIFO, or a draw -/

@[simp] theorem popData_gpu (s : State) : (popData s).2.gpu = s.gpu := by
  unfold popData; split <;> rfl
@[simp] theorem popData_dma (s : State) : (popData s).2.dma = s.dma := by
  unfold popData; split <;> rfl
@[simp] theorem popData_cfg (s : State) : (popData s).2.cfg = s.cfg := by
  unfold popData; split <;> rfl
@[simp] theorem popData_ram (s : State) : (popData s).2.ram = s.ram := by
  unfold popData; split <;> rfl
@[simp] theorem popData_out (s : State) : (popData s).2.out = s.out := by
  unfold popData; split <;> rfl
@[simp] theorem popData_readBuf (s : State) : (popData s).2.readBuf = s.readBuf := by
  unfold popData; split <;> rfl
@[simp] theorem popData_script (s : State) : (popData s).2.script = s.script := by
  unfold popData; split <;> rfl

theorem popData_nil (s : State) (h : s.cd.dataFifo = []) :
    popData s = (Config.any8 s.draws, { s with draws := s.draws + 1 }) := by simp [popData, h, draw8]

theorem popData_cons (s : State) (b : Byte) (bs : List Byte) (h : s.cd.dataFifo = b :: bs) :
    popData s = (b, { s with cd.dataFifo := bs }) := by simp [popData, h]

/-- What the operation changes of the CDROM: that FIFO, by its front entry. -/
@[simp] theorem popData_cd (s : State) : (popData s).2.cd = { s.cd with dataFifo := s.cd.dataFifo.tail } := by
  cases h : s.cd.dataFifo with
  | nil => rw [popData_nil s h]; show s.cd = _; rw [List.tail_nil, ← h]
  | cons b bs => rw [popData_cons s b bs h]; rfl

/-! ### writeResponses, respond -/

@[simp] theorem writeResponses_gpu (bs : List Byte) (s : State) : (writeResponses bs s).gpu = s.gpu := by
  induction bs generalizing s with
  | nil => rfl
  | cons b bs ih => exact (ih _).trans rfl
@[simp] theorem respond_gpu (code : Byte) (bs : List Byte) (s : State) : (respond code bs s).gpu = s.gpu :=
  writeResponses_gpu bs s
@[simp] theorem respondStat_gpu (s : State) : (respondStat s).gpu = s.gpu := respond_gpu _ _ s
@[simp] theorem respondStat2_gpu (s : State) : (respondStat2 s).gpu = s.gpu := respond_gpu _ _ s
@[simp] theorem applySeek_gpu (s : State) : (applySeek s).gpu = s.gpu := by
  unfold applySeek; split <;> rfl
@[simp] theorem writeResponses_dma (bs : List Byte) (s : State) : (writeResponses bs s).dma = s.dma := by
  induction bs generalizing s with
  | nil => rfl
  | cons b bs ih => exact (ih _).trans rfl
@[simp] theorem respond_dma (code : Byte) (bs : List Byte) (s : State) : (respond code bs s).dma = s.dma :=
  writeResponses_dma bs s
@[simp] theorem respondStat_dma (s : State) : (respondStat s).dma = s.dma := respond_dma _ _ s
@[simp] theorem respondStat2_dma (s : State) : (respondStat2 s).dma = s.dma := respond_dma _ _ s
@[simp] theorem applySeek_dma (s : State) : (applySeek s).dma = s.dma := by
  unfold applySeek; split <;> rfl
@[simp] theorem writeResponses_cfg (bs : List Byte) (s : State) : (writeResponses bs s).cfg = s.cfg := by
  induction bs generalizing s with
  | nil => rfl
  | cons b bs ih => exact (ih _).trans rfl
@[simp] theorem respond_cfg (code : Byte) (bs : List Byte) (s : State) : (respond code bs s).cfg = s.cfg :=
  writeResponses_cfg bs s
@[simp] theorem respondStat_cfg (s : State) : (respondStat s).cfg = s.cfg := respond_cfg _ _ s
@[simp] theorem respondStat2_cfg (s : State) : (respondStat2 s).cfg = s.cfg := respond_cfg _ _ s
@[simp] theorem applySeek_cfg (s : State) : (applySeek s).cfg = s.cfg := by
  unfold applySeek; split <;> rfl
@[simp] theorem writeResponses_ram (bs : List Byte) (s : State) : (writeResponses bs s).ram = s.ram := by
  induction bs generalizing s with
  | nil => rfl
  | cons b bs ih => exact (ih _).trans rfl
@[simp] theorem respond_ram (code : Byte) (bs : List Byte) (s : State) : (respond code bs s).ram = s.ram :=
  writeResponses_ram bs s
@[simp] theorem respondStat_ram (s : State) : (respondStat s).ram = s.ram := respond_ram _ _ s
@[simp] theorem respondStat2_ram (s : State) : (respondStat2 s).ram = s.ram := respond_ram _ _ s
@[simp] theorem applySeek_ram (s : State) : (applySeek s).ram = s.ram := by
  unfold applySeek; split <;> rfl
@[simp] theorem writeResponses_draws (bs : List Byte) (s : State) : (writeResponses bs s).draws = s.draws := by
  induction bs generalizing s with
  | nil => rfl
  | cons b bs ih => exact (ih _).trans rfl
@[simp] theorem respond_draws (code : Byte) (bs : List Byte) (s : State) : (respond code bs s).draws = s.draws :=
  writeResponses_draws bs s
@[simp] theorem respondStat_draws (s : State) : (respondStat s).draws = s.draws := respond_draws _ _ s
@[simp] theorem respondStat2_draws (s : State) : (respondStat2 s).draws = s.draws := respond_draws _ _ s
@[simp] theorem applySeek_draws (s : State) : (applySeek s).draws = s.draws := by
  unfold applySeek; split <;> rfl
@[simp] theorem writeResponses_out (bs : List Byte) (s : State) : (writeResponses bs s).out = s.out := by
  induction bs generalizing s with
  | nil => rfl
  | cons b bs ih => exact (ih _).trans rfl
@[simp] theorem respond_out (code : Byte) (bs : List Byte) (s : State) : (respond code bs s).out = s.out :=
  writeResponses_out bs s
@[simp] theorem respondStat_out (s : State) : (respondStat s).out = s.out := respond_out _ _ s
@[simp] theorem respondStat2_out (s : State) : (respondStat2 s).out = s.out := respond_out _ _ s
@[simp] theorem applySeek_out (s : State) : (applySeek s).out = s.out := by
  unfold applySeek; split <;> rfl
@[simp] theorem writeResponses_readBuf (bs : List Byte) (s : State) : (writeResponses bs s).readBuf = s.readBuf := by
  induction bs generalizing s with
  | nil => rfl
  | cons b bs ih => exact (ih _).trans rfl
@[simp] theorem respond_readBuf (code : Byte) (bs : List Byte) (s : State) : (respond code bs s).readBuf = s.readBuf :=
  writeResponses_readBuf bs s
@[simp] theorem respondStat_readBuf (s : State) : (respondStat s).readBuf = s.readBuf := respond_readBuf _ _ s
@[simp] theorem respondStat2_readBuf (s : State) : (respondStat2 s).readBuf = s.readBuf := respond_readBuf _ _ s
@[simp] theorem applySeek_readBuf (s : State) : (applySeek s).readBuf = s.readBuf := by
  unfold applySeek; split <;> rfl
@[simp] theorem writeResponses_script (bs : List Byte) (s : State) : (writeResponses bs s).script = s.script := by
  induction bs generalizing s with
  | nil => rfl
  | cons b bs ih => exact (ih _).trans rfl
@[simp] theorem respond_script (code : Byte) (bs : List Byte) (s : State) : (respond code bs s).script = s.script :=
  writeResponses_script bs s
@[simp] theorem respondStat_script (s : State) : (respondStat s).script = s.script := respond_script _ _ s
@[simp] theorem respondStat2_script (s : State) : (respondStat2 s).script = s.script := respond_script _ _ s
@[simp] theorem applySeek_script (s : State) : (applySeek s).script = s.script := by
  unfold applySeek; split <;> rfl

/-- Bytes pushed one by one, each dropped when the FIFO is full (rule R13). -/
def fifoPushes (c : Config) (f bs : List Byte) : List Byte := bs.foldl (fifoPush c) f

@[simp] theorem writeResponses_cd (bs : List Byte) (s : State) : (writeResponses bs s).cd
    = { s.cd with responseFifo := fifoPushes s.cfg s.cd.responseFifo bs } := by
  induction bs generalizing s with
  | nil => rfl
  | cons b bs ih => rw [writeResponses, ih]; rfl

@[simp] theorem respond_cd (code : Byte) (bs : List Byte) (s : State) : (respond code bs s).cd
    = { s.cd with
        responseFifo := fifoPushes s.cfg s.cd.responseFifo bs
        intFifo := fifoPush s.cfg s.cd.intFifo code } := by
  simp [respond]

@[simp] theorem respondStat_cd (s : State) : (respondStat s).cd
    = { s.cd with
        responseFifo := fifoPush s.cfg s.cd.responseFifo s.cd.stat
        intFifo := fifoPush s.cfg s.cd.intFifo int3 } := by
  simp [respondStat, fifoPushes]

@[simp] theorem respondStat2_cd (s : State) : (respondStat2 s).cd
    = { s.cd with
        responseFifo := fifoPush s.cfg s.cd.responseFifo s.cd.stat
        intFifo := fifoPush s.cfg s.cd.intFifo int2 } := by
  simp [respondStat2, fifoPushes]

@[simp] theorem applySeek_cd (s : State) : (applySeek s).cd
    = { s.cd with
        currentSector := if s.cd.seekPending then s.cd.seekTarget else s.cd.currentSector
        seekPending := false } := by
  unfold applySeek
  split
  · simp [*]
  · rename_i h
    have hf : s.cd.seekPending = false := by simpa using h
    simp only []
    rw [← hf]

/-! ### FIFOs (rule R13) -/

/-- No push makes a FIFO longer than its capacity. -/
theorem fifoPush_length {c : Config} {f : List Byte} (b : Byte) (h : f.length ≤ c.fifoCap) :
    (fifoPush c f b).length ≤ c.fifoCap := by
  unfold fifoPush
  split
  · simp; omega
  · exact h

/-- A push never loses what the FIFO holds. -/
theorem fifoPush_prefix (c : Config) (f : List Byte) (b : Byte) : f <+: fifoPush c f b := by
  unfold fifoPush
  split
  · exact List.prefix_append _ _
  · exact List.prefix_rfl

theorem mem_fifoPush {c : Config} {f : List Byte} {b x : Byte} (h : x ∈ fifoPush c f b) : x ∈ f ∨ x = b := by
  unfold fifoPush at h
  split at h
  · simpa using h
  · exact Or.inl h

theorem fifoPushes_length {c : Config} {f : List Byte} (bs : List Byte) (h : f.length ≤ c.fifoCap) :
    (fifoPushes c f bs).length ≤ c.fifoCap := by
  induction bs generalizing f with
  | nil => exact h
  | cons b bs ih => exact ih (fifoPush_length b h)

/-! ### Outcomes -/

@[simp] theorem andThen_next (s : State) (f : State → Out) : andThen (.next s) f = f s := rfl
@[simp] theorem andThen_fault (r : Fault) (f : State → Out) : andThen (.fault r) f = .fault r := rfl
@[simp] theorem andThen_refused (r : Refusal) (f : State → Out) : andThen (.refused r) f = .refused r := rfl

/-- Where a sequence answers a next state, its first part did, and the second from there. -/
theorem andThen_eq_next {o : Out} {f : State → Out} {t : State} (h : andThen o f = .next t) :
    ∃ s, o = .next s ∧ f s = .next t := by
  cases o with
  | next s => exact ⟨s, rfl, h⟩
  | fault r => cases h
  | refused r => cases h

/-! ### Channels -/

@[simp] theorem channel_setChannel_same (s : State) (n : Fin 7) (ch : DmaChannel) :
    channel (setChannel s n ch) n = ch := by
  simp [channel, setChannel]

/-- The last write of a channel's registers stands. -/
@[simp] theorem setChannel_setChannel (s : State) (n : Fin 7) (c d : DmaChannel) :
    setChannel (setChannel s n c) n d = setChannel s n d := by
  simp [setChannel]

theorem channel_setChannel_other (s : State) (n k : Fin 7) (ch : DmaChannel) (h : k ≠ n) :
    channel (setChannel s n ch) k = channel s k := by
  have hv : n.val ≠ k.val := fun e => h (Fin.ext e.symm)
  simp [channel, setChannel, hv]

end Sys2Proof.Machine
end

