-- ==== Sys2Proof/Laws/Gp0.lean ====
section
/-! SUPPORT. What a GP0 instruction can change (rules R220 to R311): one frame, and that every one completes within it;
then what the GP0 port does with a word. -/
namespace Sys2Proof.Machine

/-! ### Repeated pixel writes -/

@[simp] theorem repeatFor_zero {σ : Type} (f : Nat → σ → σ) (s : σ) : repeatFor 0 f s = s := rfl

theorem repeatFor_succ {σ : Type} (n : Nat) (f : Nat → σ → σ) (s : σ) :
    repeatFor (n + 1) f s = f n (repeatFor n f s) := rfl

/-- What every step of a repetition keeps, the repetition keeps. -/
theorem repeatFor_invariant {σ : Type} {P : σ → Prop} {n : Nat} {f : Nat → σ → σ} {s : σ} (h : P s)
    (hf : ∀ i s, P s → P (f i s)) : P (repeatFor n f s) := by
  induction n with
  | zero => exact h
  | succ n ih => exact hf n _ ih

/-! ### The frame of a GP0 instruction -/

/-- What no GP0 instruction changes; the events it sends are appended, and no trigger is among them. -/
structure Gp0Frame (s t : State) : Prop where
  dma : t.dma = s.dma
  cd : t.cd = s.cd
  cfg : t.cfg = s.cfg
  ram : t.ram = s.ram
  draws : t.draws = s.draws
  readBuf : t.readBuf = s.readBuf
  script : t.script = s.script
  gpuReadLatch : t.gpu.gpuReadLatch = s.gpu.gpuReadLatch
  irqSignalled : t.gpu.irqSignalled = s.gpu.irqSignalled
  displayDisable : t.gpu.displayDisable = s.gpu.displayDisable
  dmaDirection : t.gpu.dmaDirection = s.gpu.dmaDirection
  displayAreaX : t.gpu.displayAreaX = s.gpu.displayAreaX
  displayAreaY : t.gpu.displayAreaY = s.gpu.displayAreaY
  hRangeX1 : t.gpu.hRangeX1 = s.gpu.hRangeX1
  hRangeX2 : t.gpu.hRangeX2 = s.gpu.hRangeX2
  vRangeY1 : t.gpu.vRangeY1 = s.gpu.vRangeY1
  vRangeY2 : t.gpu.vRangeY2 = s.gpu.vRangeY2
  dispMode : t.gpu.dispMode = s.gpu.dispMode
  texDisableAllowed : t.gpu.texDisableAllowed = s.gpu.texDisableAllowed
  dotAccum : t.gpu.dotAccum = s.gpu.dotAccum
  line : t.gpu.line = s.gpu.line
  frame : t.gpu.frame = s.gpu.frame
  odd : t.gpu.odd = s.gpu.odd
  irq : s.gpu.irq = true → t.gpu.irq = true
  out : ∃ es, t.out = s.out ++ es ∧ ∀ c, triggers c es = 0

theorem Gp0Frame.refl (s : State) : Gp0Frame s s := by
  constructor <;> first | rfl | exact id | exact ⟨[], by simp [triggers]⟩

theorem Gp0Frame.trans {s t u : State} (h : Gp0Frame s t) (h' : Gp0Frame t u) : Gp0Frame s u where
  dma := h'.dma.trans h.dma
  cd := h'.cd.trans h.cd
  cfg := h'.cfg.trans h.cfg
  ram := h'.ram.trans h.ram
  draws := h'.draws.trans h.draws
  readBuf := h'.readBuf.trans h.readBuf
  script := h'.script.trans h.script
  gpuReadLatch := h'.gpuReadLatch.trans h.gpuReadLatch
  irqSignalled := h'.irqSignalled.trans h.irqSignalled
  displayDisable := h'.displayDisable.trans h.displayDisable
  dmaDirection := h'.dmaDirection.trans h.dmaDirection
  displayAreaX := h'.displayAreaX.trans h.displayAreaX
  displayAreaY := h'.displayAreaY.trans h.displayAreaY
  hRangeX1 := h'.hRangeX1.trans h.hRangeX1
  hRangeX2 := h'.hRangeX2.trans h.hRangeX2
  vRangeY1 := h'.vRangeY1.trans h.vRangeY1
  vRangeY2 := h'.vRangeY2.trans h.vRangeY2
  dispMode := h'.dispMode.trans h.dispMode
  texDisableAllowed := h'.texDisableAllowed.trans h.texDisableAllowed
  dotAccum := h'.dotAccum.trans h.dotAccum
  line := h'.line.trans h.line
  frame := h'.frame.trans h.frame
  odd := h'.odd.trans h.odd
  irq := h'.irq ∘ h.irq
  out := by
    obtain ⟨es, h1, h2⟩ := h.out
    obtain ⟨es', h1', h2'⟩ := h'.out
    refine ⟨es ++ es', by rw [h1', h1, List.append_assoc], fun c => ?_⟩
    have e1 := h2 c
    have e2 := h2' c
    simp only [triggers] at e1 e2
    simp only [triggers, List.countP_append, e1, e2]

theorem gp0Frame_emit_log (l : LogEvent) (s : State) : Gp0Frame s (emit (.log l) s) := by
  constructor <;> first | rfl | exact id | exact ⟨[.log l], rfl, fun c => rfl⟩

theorem gp0Frame_drawBatch (b : DrawBatch) (s : State) : Gp0Frame s (drawBatch b s) := by
  constructor <;> first | rfl | exact id | exact ⟨[.batch b], rfl, fun c => rfl⟩

theorem gp0Frame_drawBatches (bs : List DrawBatch) (s : State) : Gp0Frame s (drawBatches bs s) := by
  induction bs generalizing s with
  | nil => exact .refl s
  | cons b bs ih => exact (gp0Frame_drawBatch b s).trans (ih _)

theorem gp0Frame_dataPixel (p : Pixel) (s : State) : Gp0Frame s (dataPixel p s) := by
  constructor <;> first | rfl | exact id | exact ⟨[], by simp [triggers]⟩

theorem gp0Frame_endCollect (s : State) : Gp0Frame s (endCollect s) := by
  constructor <;> first | rfl | exact id | exact ⟨[], by simp [triggers]⟩

/-- Every GP0 instruction completes, within the frame; what is no GP0 instruction changes nothing here. -/
theorem gp0Run_next (i : Instr) (s : State) : ∃ t, gp0Run i s = .next t ∧ Gp0Frame s t := by
  cases i <;>
    first
    | exact ⟨_, rfl, .refl s⟩
    | exact ⟨_, rfl, gp0Frame_drawBatches _ _⟩
    | exact ⟨_, rfl, gp0Frame_emit_log _ _⟩
    | (refine ⟨_, rfl, ?_⟩
       constructor <;> first | rfl | exact id | exact fun _ => rfl | exact ⟨[], by simp [triggers]⟩)
    | skip
  case gp0CopyVramVram a b z =>
    simp only [gp0Run, execGp0CopyVramVram]
    split
    · exact ⟨_, rfl, gp0Frame_emit_log _ _⟩
    · refine ⟨_, rfl, ?_⟩
      constructor <;> first | rfl | exact id | exact ⟨[], by simp [triggers]⟩
  case gp0CopyCpuVram a z =>
    simp only [gp0Run, execGp0CopyCpuVram]
    split
    · exact ⟨_, rfl, .refl s⟩
    · refine ⟨_, rfl, ?_⟩
      constructor <;> first | rfl | exact id | exact ⟨[], by simp [triggers]⟩
  case gp0CopyVramCpu a z =>
    simp only [gp0Run, execGp0CopyVramCpu]
    split
    · exact ⟨_, rfl, .refl s⟩
    · refine ⟨_, rfl, ?_⟩
      constructor <;> first | rfl | exact id | exact ⟨[], by simp [triggers]⟩
  case gp0Data p q =>
    refine ⟨_, rfl, ?_⟩
    split
    · exact gp0Frame_dataPixel p s
    · exact (gp0Frame_dataPixel p s).trans (gp0Frame_dataPixel q _)

/-! ### The GP0 port -/

/-- An instruction the GP0 decoder completes: `exec` runs it as `gp0Run` does. -/
def isGp0 (i : Instr) : Prop := ∀ s, exec i s = gp0Run i s

theorem isGp0_immediateOf (w : Word) : isGp0 (immediateOf w) := by
  intro s
  unfold immediateOf
  split <;> rfl

theorem isGp0_polygonOf (ws : List Word) : isGp0 (polygonOf ws) := by
  intro s
  unfold polygonOf
  simp only
  split <;> rfl

theorem isGp0_lineOf (ws : List Word) : isGp0 (lineOf ws) := by
  intro s
  unfold lineOf
  simp only
  split <;> rfl

theorem isGp0_rectangleOf (ws : List Word) : isGp0 (rectangleOf ws) := by
  intro s
  unfold rectangleOf
  simp only
  split <;> rfl

theorem isGp0_packetOf (k : Kind) (ws : List Word) : isGp0 (packetOf k ws) := by
  cases k with
  | polygon => exact isGp0_polygonOf ws
  | line => exact isGp0_lineOf ws
  | rectangle => exact isGp0_rectangleOf ws
  | fillRectangle => exact fun s => rfl
  | copyCpuToVram => exact fun s => rfl
  | copyVramToCpu => exact fun s => rfl
  | copyVramToVram => exact fun s => rfl

/-- What the port does with a word: it is collected within the frame, or it completes a GP0 instruction, to run from a
state within the frame (rules R200 to R208). -/
theorem gp0Take_gp0 (w : Word) (s : State) :
    (∃ t, gp0Take w s = .collected t ∧ Gp0Frame s t)
      ∨ ∃ i t, gp0Take w s = .complete i t ∧ isGp0 i ∧ Gp0Frame s t := by
  unfold gp0Take
  split
  · unfold gp0Idle
    split
    · exact .inr ⟨_, _, rfl, isGp0_immediateOf w, .refl s⟩
    · exact .inr ⟨_, _, rfl, fun _ => rfl, .refl s⟩
    · refine .inl ⟨_, rfl, ?_⟩
      constructor <;> first | rfl | exact id | exact ⟨[], by simp [triggers]⟩
  · rename_i k _
    unfold gp0Collect
    split
    · exact .inr ⟨_, _, rfl, isGp0_packetOf k _, gp0Frame_endCollect s⟩
    · simp only
      split
      · refine .inr ⟨_, _, rfl, isGp0_packetOf k _, ?_⟩
        constructor <;> first | rfl | exact id | exact ⟨[], by simp [triggers]⟩
      · refine .inl ⟨_, rfl, ?_⟩
        constructor <;> first | rfl | exact id | exact ⟨[], by simp [triggers]⟩
  · exact .inr ⟨_, _, rfl, fun _ => rfl, .refl s⟩

/-- The engine's GP0 word and the host's have one effect (rule R422). -/
theorem hostGp0_eq_gp0Word (w : Word) (s : State) : hostGp0 w s = gp0Word w s := by
  unfold hostGp0 gp0Word
  rcases gp0Take_gp0 w s with ⟨t, h, -⟩ | ⟨i, t, h, hi, -⟩
  · rw [h]
  · rw [h]; exact hi t

/-- A GP0 word never stops the model (rule R422), and stays within the frame. -/
theorem gp0Word_next (w : Word) (s : State) : ∃ t, gp0Word w s = .next t ∧ Gp0Frame s t := by
  unfold gp0Word
  rcases gp0Take_gp0 w s with ⟨t, h, hf⟩ | ⟨i, t, h, -, hf⟩
  · exact ⟨t, by rw [h], hf⟩
  · obtain ⟨u, hu, hfu⟩ := gp0Run_next i t
    exact ⟨u, by rw [h]; exact hu, hf.trans hfu⟩

end Sys2Proof.Machine
end

