-- ==== Sys2Proof/Laws/Fields.lean ====
section
/-! SUPPORT. The fields of encoded words: what the encoder puts in, the decoder takes out (rules R146 to R151). -/
namespace Sys2Proof

/-- A field inside the low part of a word. -/
theorem extract_append_low {m n : Nat} (k l : Nat) (hi : BitVec m) (lo : BitVec n) (h : k + l ≤ n) :
    (hi ++ lo).extractLsb' k l = lo.extractLsb' k l := by
  apply BitVec.eq_of_getLsbD_eq
  intro i hil
  simp only [BitVec.getLsbD_extractLsb', BitVec.getLsbD_append, show k + i < n by omega, if_true, hil]

/-- A field inside the high part of a word. -/
theorem extract_append_high {m n : Nat} (k l : Nat) (hi : BitVec m) (lo : BitVec n) (h : n ≤ k) :
    (hi ++ lo).extractLsb' k l = hi.extractLsb' (k - n) l := by
  apply BitVec.eq_of_getLsbD_eq
  intro i hil
  simp only [BitVec.getLsbD_extractLsb', BitVec.getLsbD_append, show ¬ k + i < n by omega, if_false, hil]
  rw [show k + i - n = k - n + i by omega]

/-- The whole of a part. -/
theorem extract_all {n : Nat} (x : BitVec n) : x.extractLsb' 0 n = x := by
  apply BitVec.eq_of_getLsbD_eq
  intro i hi
  simp [hi]

/-- A part of a part. -/
theorem extract_extract {n : Nat} (x : BitVec n) (a b k l : Nat) (h : k + l ≤ b) :
    (x.extractLsb' a b).extractLsb' k l = x.extractLsb' (a + k) l := by
  apply BitVec.eq_of_getLsbD_eq
  intro i hi
  simp only [BitVec.getLsbD_extractLsb', hi, show k + i < b by omega, decide_true, Bool.true_and]
  rw [Nat.add_assoc]

/-- One bit of the low part. -/
theorem getLsbD_append_low {m n : Nat} (i : Nat) (hi : BitVec m) (lo : BitVec n) (h : i < n) :
    (hi ++ lo).getLsbD i = lo.getLsbD i := by
  simp [BitVec.getLsbD_append, h]

/-- One bit of the high part. -/
theorem getLsbD_append_high {m n : Nat} (i : Nat) (hi : BitVec m) (lo : BitVec n) (h : n ≤ i) :
    (hi ++ lo).getLsbD i = hi.getLsbD (i - n) := by
  simp [BitVec.getLsbD_append, Nat.not_lt.mpr h]

/-! ### Words from bytes -/

@[simp] theorem byte0_wordOfBytes (b3 b2 b1 b0 : Byte) : byte0 (wordOfBytes b3 b2 b1 b0) = b0 := by
  unfold byte0 wordOfBytes
  rw [extract_append_low _ _ _ _ (by decide), extract_append_low _ _ _ _ (by decide), extract_all]

@[simp] theorem byte1_wordOfBytes (b3 b2 b1 b0 : Byte) : byte1 (wordOfBytes b3 b2 b1 b0) = b1 := by
  unfold byte1 wordOfBytes
  rw [extract_append_low _ _ _ _ (by decide), extract_append_high _ _ _ _ (by decide), extract_all]

@[simp] theorem byte2_wordOfBytes (b3 b2 b1 b0 : Byte) : byte2 (wordOfBytes b3 b2 b1 b0) = b2 := by
  unfold byte2 wordOfBytes
  rw [extract_append_high _ _ _ _ (by decide), extract_append_low _ _ _ _ (by decide), extract_all]

@[simp] theorem byte3_wordOfBytes (b3 b2 b1 b0 : Byte) : byte3 (wordOfBytes b3 b2 b1 b0) = b3 := by
  unfold byte3 wordOfBytes
  rw [extract_append_high _ _ _ _ (by decide), extract_append_high _ _ _ _ (by decide), extract_all]

/-- The bytes of a word assembled little-endian (rule R108). -/
theorem Machine.wordByte_wordOfLE (b0 b1 b2 b3 : Byte) :
    wordByte (wordOfLE b0 b1 b2 b3) 0 = b0 ∧ wordByte (wordOfLE b0 b1 b2 b3) 1 = b1
      ∧ wordByte (wordOfLE b0 b1 b2 b3) 2 = b2 ∧ wordByte (wordOfLE b0 b1 b2 b3) 3 = b3 :=
  ⟨byte0_wordOfBytes b3 b2 b1 b0, byte1_wordOfBytes b3 b2 b1 b0, byte2_wordOfBytes b3 b2 b1 b0,
    byte3_wordOfBytes b3 b2 b1 b0⟩

/-- Byte `b` of a word of RAM is the byte at `a + b` (rule R108). -/
theorem Machine.wordByte_memRead (m : Memory) (a b : Nat) (hb : b < 4) : wordByte (memRead m a) b = memByte m (a + b) := by
  obtain ⟨h0, h1, h2, h3⟩ := Machine.wordByte_wordOfLE (memByte m a) (memByte m (a + 1)) (memByte m (a + 2)) (memByte m (a + 3))
  match b, hb with
  | 0, _ => exact h0
  | 1, _ => exact h1
  | 2, _ => exact h2
  | 3, _ => exact h3

@[simp] theorem rgbOf_opRgb (op : Byte) (c : Rgb) : rgbOf (opRgb op c) = c := by
  simp [rgbOf, opRgb]

@[simp] theorem byte3_opRgb (op : Byte) (c : Rgb) : byte3 (opRgb op c) = op := by simp [opRgb]

/-- Bits 31:24 of a command word are its opcode's bits. -/
theorem bitOf_opRgb (op : Byte) (c : Rgb) (i : Nat) : bitOf (opRgb op c) (24 + i) = op.getLsbD i := by
  unfold bitOf opRgb wordOfBytes
  rw [getLsbD_append_high _ _ _ (by omega), getLsbD_append_high _ _ _ (by omega)]
  congr 1
  omega

theorem bit24_opRgb (op : Byte) (c : Rgb) : bitOf (opRgb op c) 24 = op.getLsbD 0 := bitOf_opRgb op c 0
theorem bit25_opRgb (op : Byte) (c : Rgb) : bitOf (opRgb op c) 25 = op.getLsbD 1 := bitOf_opRgb op c 1
theorem bit26_opRgb (op : Byte) (c : Rgb) : bitOf (opRgb op c) 26 = op.getLsbD 2 := bitOf_opRgb op c 2
theorem bit27_opRgb (op : Byte) (c : Rgb) : bitOf (opRgb op c) 27 = op.getLsbD 3 := bitOf_opRgb op c 3
theorem bit28_opRgb (op : Byte) (c : Rgb) : bitOf (opRgb op c) 28 = op.getLsbD 4 := bitOf_opRgb op c 4

/-- Bits 28:27 of a rectangle's command word: its size field. -/
theorem size_opRgb (op : Byte) (c : Rgb) : (opRgb op c).extractLsb' 27 2 = op.extractLsb' 3 2 := by
  unfold opRgb wordOfBytes
  rw [extract_append_high _ _ _ _ (by decide), extract_append_high _ _ _ _ (by decide)]

/-! ### Positions, texture coordinates, sizes -/

@[simp] theorem posOf_posWord (p : Pos) : posOf (posWord p) = p := by
  unfold posOf posWord
  congr 1
  · rw [extract_append_low _ _ _ _ (by decide), extract_append_low _ _ _ _ (by decide), extract_all]
  · rw [extract_append_high _ _ _ _ (by decide), extract_append_low _ _ _ _ (by decide), extract_all]

@[simp] theorem uvOf_uvWord (ref : Half) (t : Uv) : uvOf (uvWord ref t) = t := by
  unfold uvOf uvWord byte0 byte1
  congr 1
  · rw [extract_append_low _ _ _ _ (by decide), extract_append_low _ _ _ _ (by decide), extract_all]
  · rw [extract_append_low _ _ _ _ (by decide), extract_append_high _ _ _ _ (by decide), extract_all]

@[simp] theorem highHalf_uvWord (ref : Half) (t : Uv) : highHalf (uvWord ref t) = ref := by
  unfold highHalf uvWord
  rw [extract_append_high _ _ _ _ (by decide), extract_all]

@[simp] theorem xyOf_xyWord (p : Xy) : xyOf (xyWord p) = p := by
  unfold xyOf xyWord lowHalf highHalf
  congr 1
  · rw [extract_append_low _ _ _ _ (by decide), extract_all]
  · rw [extract_append_high _ _ _ _ (by decide), extract_all]

/-! ### One-word commands -/

@[simp] theorem byte3_opParam (op : Byte) (p : BitVec 24) : byte3 (opParam op p) = op := by
  unfold byte3 opParam
  rw [extract_append_high _ _ _ _ (by decide), extract_all]

/-- A field of a 24-bit parameter. -/
theorem extract_opParam (op : Byte) (p : BitVec 24) (k l : Nat) (h : k + l ≤ 24) :
    (opParam op p).extractLsb' k l = p.extractLsb' k l := extract_append_low k l op p h

/-- A bit of a 24-bit parameter. -/
theorem bitOf_opParam (op : Byte) (p : BitVec 24) (i : Nat) (h : i < 24) :
    bitOf (opParam op p) i = p.getLsbD i := getLsbD_append_low i op p h

theorem param10_low (x y : BitVec 10) : (param10 x y).extractLsb' 0 10 = x := by
  unfold param10
  rw [extract_append_low _ _ _ _ (by decide), extract_append_low _ _ _ _ (by decide), extract_all]

theorem param10_high (x y : BitVec 10) : (param10 x y).extractLsb' 10 10 = y := by
  unfold param10
  rw [extract_append_low _ _ _ _ (by decide), extract_append_high _ _ _ _ (by decide), extract_all]

/-! ### Packets -/

@[simp] theorem argAt_cons_zero (w : Word) (ws : List Word) : argAt (w :: ws) 0 = w := rfl

@[simp] theorem argAt_cons_succ (w : Word) (ws : List Word) (i : Nat) : argAt (w :: ws) (i + 1) = argAt ws i := by
  simp [argAt]

/-- The vertices of a flat polyline, taken back from their words. -/
theorem map_posOf_posWord (vs : List Pos) : (vs.map posWord).map posOf = vs := by
  induction vs with
  | nil => rfl
  | cons v vs ih => simpa using ih

/-- The vertices of a Gouraud polyline after its first, taken back from their words. -/
theorem coloredPosOf_words (vs : List ColoredPos) : coloredPosOf (coloredPosWords vs) = vs := by
  induction vs with
  | nil => rfl
  | cons v vs ih => simp [coloredPosWords, coloredPosOf, ih]

theorem coloredPosWords_length (vs : List ColoredPos) : (coloredPosWords vs).length = 2 * vs.length := by
  induction vs with
  | nil => rfl
  | cons v vs ih => simp [coloredPosWords, ih]; omega

/-- The encoded form of a GP0 command: its words. -/
theorem encode_gp0 (i : Instr) (h : gp0Words i ≠ []) : encode i = .gp0 (gp0Words i) := by
  cases i <;> first | rfl | exact absurd rfl h

/-- A polygon's opcode: its class and its bits (rules R142, R143). -/
theorem polyOp_fields : ∀ g q t s r : Bool, gp0Class (polyOp g q t s r) = .multiword .polygon
    ∧ (polyOp g q t s r).getLsbD 4 = g ∧ (polyOp g q t s r).getLsbD 3 = q ∧ (polyOp g q t s r).getLsbD 2 = t
    ∧ (polyOp g q t s r).getLsbD 1 = s ∧ (polyOp g q t s r).getLsbD 0 = r := by decide

/-- A line's opcode (rules R142, R144). -/
theorem lineOp_fields : ∀ g p s : Bool, gp0Class (lineOp g p s) = .multiword .line
    ∧ (lineOp g p s).getLsbD 4 = g ∧ (lineOp g p s).getLsbD 3 = p ∧ (lineOp g p s).getLsbD 1 = s := by decide

/-- A rectangle's opcode (rules R142, R145). -/
theorem rectOp_fields : ∀ s1 s0 t s r : Bool, gp0Class (rectOp s1 s0 t s r) = .multiword .rectangle
    ∧ (rectOp s1 s0 t s r).getLsbD 4 = s1 ∧ (rectOp s1 s0 t s r).getLsbD 3 = s0
    ∧ (rectOp s1 s0 t s r).getLsbD 2 = t ∧ (rectOp s1 s0 t s r).getLsbD 1 = s
    ∧ (rectOp s1 s0 t s r).getLsbD 0 = r
    ∧ ((rectOp s1 s0 t s r).extractLsb' 3 2 = 0#2 ↔ s1 = false ∧ s0 = false) := by decide

/-! ### Bytes of a register -/

/-- A byte write into a register, bit by bit (rule R108): bits `8b+7 : 8b` from the data, the rest as before. -/
theorem Machine.getLsbD_setWordByte (w : Word) (b : Nat) (d : Byte) (i : Nat) (hi : i < 32) :
    (Machine.setWordByte w b d).getLsbD i
      = if 8 * b ≤ i ∧ i < 8 * b + 8 then d.getLsbD (i - 8 * b) else w.getLsbD i := by
  unfold Machine.setWordByte
  simp only [BitVec.getLsbD_or, BitVec.getLsbD_and, BitVec.getLsbD_not, BitVec.getLsbD_shiftLeft,
    BitVec.getLsbD_setWidth]
  have hff : ∀ j, (0xFF#32 : BitVec 32).getLsbD j = decide (j < 8) := by
    intro j
    by_cases hj : j < 32
    · interval_cases j <;> decide
    · rw [BitVec.getLsbD_of_ge _ _ (by omega)]
      simp; omega
  by_cases h1 : i < 8 * b
  · simp [hi, h1, show ¬ 8 * b ≤ i by omega]
  · by_cases h2 : i < 8 * b + 8
    · simp [hi, h1, h2, hff, show 8 * b ≤ i by omega, show i - 8 * b < 8 by omega, show i - 8 * b < 32 by omega]
    · have h3 : ¬ i - 8 * b < 8 := by omega
      rw [BitVec.getLsbD_of_ge d _ (by omega)]
      simp [hi, h1, h2, hff, h3]

end Sys2Proof
end

