-- ==== Sys2Proof/Laws/Packets.lean ====
section
/-! SUPPORT. GP0 commands as packets (rules R142 to R150, R205, R207): for every command of several words, its class, its
word count, its stream, and that its words decode to it. -/
namespace Sys2Proof

/-- What the words `w :: rest` of a command `i` of several words are to the decoder: a packet of kind `k`, with the
count the command word says, or, of a polyline, at most that count, no argument the sentinel, and the sentinel sent
after fewer words. -/
structure Packet (c : Config) (i : Instr) (k : Kind) (w : Word) (rest : List Word) : Prop where
  words : gp0Words i = w :: rest
  cls : gp0Class (byte3 w) = .multiword k
  fixed : isPolyline k w = false → rest.length + 1 = wordCount c k w ∧ gp0Stream c i = w :: rest
  poly : isPolyline k w = true → rest.length + 1 ≤ wordCount c k w ∧ (∀ x ∈ rest, x ≠ c.lineSentinel)
    ∧ gp0Stream c i = if rest.length + 1 = wordCount c k w then w :: rest else w :: rest ++ [c.lineSentinel]
  packet : packetOf k (w :: rest) = i

/-! ### Fill and copies -/

theorem packet_fill (c : Config) (k : Rgb) (p z : Xy) :
    Packet c (.gp0Fill k p z) .fillRectangle (opRgb 0x02#8 k) [xyWord p, xyWord z] :=
  ⟨rfl, by rw [byte3_opRgb]; decide, fun _ => ⟨rfl, rfl⟩, (fun h => nomatch h),
    by simp only [packetOf, argAt_cons_zero, argAt_cons_succ, rgbOf_opRgb, xyOf_xyWord]⟩

theorem packet_copyVramVram (c : Config) (p q z : Xy) :
    Packet c (.gp0CopyVramVram p q z) .copyVramToVram (opParam 0x80#8 0) [xyWord p, xyWord q, xyWord z] :=
  ⟨rfl, by rw [byte3_opParam]; decide, fun _ => ⟨rfl, rfl⟩, (fun h => nomatch h),
    by simp only [packetOf, argAt_cons_zero, argAt_cons_succ, xyOf_xyWord]⟩

theorem packet_copyCpuVram (c : Config) (p z : Xy) :
    Packet c (.gp0CopyCpuVram p z) .copyCpuToVram (opParam 0xA0#8 0) [xyWord p, xyWord z] :=
  ⟨rfl, by rw [byte3_opParam]; decide, fun _ => ⟨rfl, rfl⟩, (fun h => nomatch h),
    by simp only [packetOf, argAt_cons_zero, argAt_cons_succ, xyOf_xyWord]⟩

theorem packet_copyVramCpu (c : Config) (p z : Xy) :
    Packet c (.gp0CopyVramCpu p z) .copyVramToCpu (opParam 0xC0#8 0) [xyWord p, xyWord z] :=
  ⟨rfl, by rw [byte3_opParam]; decide, fun _ => ⟨rfl, rfl⟩, (fun h => nomatch h),
    by simp only [packetOf, argAt_cons_zero, argAt_cons_succ, xyOf_xyWord]⟩

/-! ### Polygons -/

/-- A packet whose kind is no polyline's. -/
theorem packet_of_fixed {c : Config} {i : Instr} {k : Kind} {w : Word} {rest : List Word} (words : gp0Words i = w :: rest)
    (cls : gp0Class (byte3 w) = .multiword k) (np : isPolyline k w = false) (count : rest.length + 1 = wordCount c k w)
    (stream : gp0Stream c i = w :: rest) (packet : packetOf k (w :: rest) = i) : Packet c i k w rest :=
  ⟨words, cls, fun _ => ⟨count, stream⟩, (fun h => by rw [np] at h; exact nomatch h), packet⟩

theorem packet_polyF3 (c : Config) (s r : Bool) (k0 : Rgb) (v0 : Pos) (v1 : Pos) (v2 : Pos) :
    Packet c (.gp0PolyF3 s r k0 v0 v1 v2) .polygon (opRgb (polyOp false false false s r) k0) [posWord v0, posWord v1,
      posWord v2] := by
  obtain ⟨hc, h4, h3, h2, h1, h0⟩ := polyOp_fields false false false s r
  refine packet_of_fixed rfl (by rw [byte3_opRgb]; exact hc) rfl ?_ rfl ?_
  · simp only [wordCount, bit28_opRgb, bit27_opRgb, bit26_opRgb, h4, h3, h2, bitNat]; rfl
  · simp only [packetOf, polygonOf, argAt_cons_zero, argAt_cons_succ, bit28_opRgb, bit27_opRgb, bit26_opRgb,
      bit25_opRgb, bit24_opRgb, h4, h3, h2, h1, h0, posOf_posWord, rgbOf_opRgb]

theorem packet_polyFT3 (c : Config) (s r : Bool) (k0 : Rgb) (v0 : Pos) (t0 : Uv) (pal : Half) (v1 : Pos) (t1 : Uv)
    (page : Half) (v2 : Pos) (t2 : Uv) :
    Packet c (.gp0PolyFT3 s r k0 v0 t0 pal v1 t1 page v2 t2) .polygon (opRgb (polyOp false false true s r) k0)
      [posWord v0, uvWord pal t0, posWord v1, uvWord page t1, posWord v2, uvWord 0 t2] := by
  obtain ⟨hc, h4, h3, h2, h1, h0⟩ := polyOp_fields false false true s r
  refine packet_of_fixed rfl (by rw [byte3_opRgb]; exact hc) rfl ?_ rfl ?_
  · simp only [wordCount, bit28_opRgb, bit27_opRgb, bit26_opRgb, h4, h3, h2, bitNat]; rfl
  · simp only [packetOf, polygonOf, argAt_cons_zero, argAt_cons_succ, bit28_opRgb, bit27_opRgb, bit26_opRgb,
      bit25_opRgb, bit24_opRgb, h4, h3, h2, h1, h0, posOf_posWord, rgbOf_opRgb, uvOf_uvWord, highHalf_uvWord]

theorem packet_polyF4 (c : Config) (s r : Bool) (k0 : Rgb) (v0 : Pos) (v1 : Pos) (v2 : Pos) (v3 : Pos) :
    Packet c (.gp0PolyF4 s r k0 v0 v1 v2 v3) .polygon (opRgb (polyOp false true false s r) k0) [posWord v0, posWord
      v1, posWord v2, posWord v3] := by
  obtain ⟨hc, h4, h3, h2, h1, h0⟩ := polyOp_fields false true false s r
  refine packet_of_fixed rfl (by rw [byte3_opRgb]; exact hc) rfl ?_ rfl ?_
  · simp only [wordCount, bit28_opRgb, bit27_opRgb, bit26_opRgb, h4, h3, h2, bitNat]; rfl
  · simp only [packetOf, polygonOf, argAt_cons_zero, argAt_cons_succ, bit28_opRgb, bit27_opRgb, bit26_opRgb,
      bit25_opRgb, bit24_opRgb, h4, h3, h2, h1, h0, posOf_posWord, rgbOf_opRgb]

theorem packet_polyFT4 (c : Config) (s r : Bool) (k0 : Rgb) (v0 : Pos) (t0 : Uv) (pal : Half) (v1 : Pos) (t1 : Uv)
    (page : Half) (v2 : Pos) (t2 : Uv) (v3 : Pos) (t3 : Uv) :
    Packet c (.gp0PolyFT4 s r k0 v0 t0 pal v1 t1 page v2 t2 v3 t3) .polygon (opRgb (polyOp false true true s r) k0)
      [posWord v0, uvWord pal t0, posWord v1, uvWord page t1, posWord v2, uvWord 0 t2, posWord v3, uvWord 0 t3] := by
  obtain ⟨hc, h4, h3, h2, h1, h0⟩ := polyOp_fields false true true s r
  refine packet_of_fixed rfl (by rw [byte3_opRgb]; exact hc) rfl ?_ rfl ?_
  · simp only [wordCount, bit28_opRgb, bit27_opRgb, bit26_opRgb, h4, h3, h2, bitNat]; rfl
  · simp only [packetOf, polygonOf, argAt_cons_zero, argAt_cons_succ, bit28_opRgb, bit27_opRgb, bit26_opRgb,
      bit25_opRgb, bit24_opRgb, h4, h3, h2, h1, h0, posOf_posWord, rgbOf_opRgb, uvOf_uvWord, highHalf_uvWord]

theorem packet_polyG3 (c : Config) (s r : Bool) (k0 : Rgb) (v0 : Pos) (k1 : Rgb) (v1 : Pos) (k2 : Rgb) (v2 : Pos) :
    Packet c (.gp0PolyG3 s r k0 v0 k1 v1 k2 v2) .polygon (opRgb (polyOp true false false s r) k0) [posWord v0, opRgb 0
      k1, posWord v1, opRgb 0 k2, posWord v2] := by
  obtain ⟨hc, h4, h3, h2, h1, h0⟩ := polyOp_fields true false false s r
  refine packet_of_fixed rfl (by rw [byte3_opRgb]; exact hc) rfl ?_ rfl ?_
  · simp only [wordCount, bit28_opRgb, bit27_opRgb, bit26_opRgb, h4, h3, h2, bitNat]; rfl
  · simp only [packetOf, polygonOf, argAt_cons_zero, argAt_cons_succ, bit28_opRgb, bit27_opRgb, bit26_opRgb,
      bit25_opRgb, bit24_opRgb, h4, h3, h2, h1, h0, posOf_posWord, rgbOf_opRgb]

theorem packet_polyGT3 (c : Config) (s r : Bool) (k0 : Rgb) (v0 : Pos) (t0 : Uv) (pal : Half) (k1 : Rgb) (v1 : Pos)
    (t1 : Uv) (page : Half) (k2 : Rgb) (v2 : Pos) (t2 : Uv) :
    Packet c (.gp0PolyGT3 s r k0 v0 t0 pal k1 v1 t1 page k2 v2 t2) .polygon (opRgb (polyOp true false true s r) k0)
      [posWord v0, uvWord pal t0, opRgb 0 k1, posWord v1, uvWord page t1, opRgb 0 k2, posWord v2, uvWord 0 t2] := by
  obtain ⟨hc, h4, h3, h2, h1, h0⟩ := polyOp_fields true false true s r
  refine packet_of_fixed rfl (by rw [byte3_opRgb]; exact hc) rfl ?_ rfl ?_
  · simp only [wordCount, bit28_opRgb, bit27_opRgb, bit26_opRgb, h4, h3, h2, bitNat]; rfl
  · simp only [packetOf, polygonOf, argAt_cons_zero, argAt_cons_succ, bit28_opRgb, bit27_opRgb, bit26_opRgb,
      bit25_opRgb, bit24_opRgb, h4, h3, h2, h1, h0, posOf_posWord, rgbOf_opRgb, uvOf_uvWord, highHalf_uvWord]

theorem packet_polyG4 (c : Config) (s r : Bool) (k0 : Rgb) (v0 : Pos) (k1 : Rgb) (v1 : Pos) (k2 : Rgb) (v2 : Pos) (k3
    : Rgb) (v3 : Pos) :
    Packet c (.gp0PolyG4 s r k0 v0 k1 v1 k2 v2 k3 v3) .polygon (opRgb (polyOp true true false s r) k0) [posWord v0,
      opRgb 0 k1, posWord v1, opRgb 0 k2, posWord v2, opRgb 0 k3, posWord v3] := by
  obtain ⟨hc, h4, h3, h2, h1, h0⟩ := polyOp_fields true true false s r
  refine packet_of_fixed rfl (by rw [byte3_opRgb]; exact hc) rfl ?_ rfl ?_
  · simp only [wordCount, bit28_opRgb, bit27_opRgb, bit26_opRgb, h4, h3, h2, bitNat]; rfl
  · simp only [packetOf, polygonOf, argAt_cons_zero, argAt_cons_succ, bit28_opRgb, bit27_opRgb, bit26_opRgb,
      bit25_opRgb, bit24_opRgb, h4, h3, h2, h1, h0, posOf_posWord, rgbOf_opRgb]

theorem packet_polyGT4 (c : Config) (s r : Bool) (k0 : Rgb) (v0 : Pos) (t0 : Uv) (pal : Half) (k1 : Rgb) (v1 : Pos)
    (t1 : Uv) (page : Half) (k2 : Rgb) (v2 : Pos) (t2 : Uv) (k3 : Rgb) (v3 : Pos) (t3 : Uv) :
    Packet c (.gp0PolyGT4 s r k0 v0 t0 pal k1 v1 t1 page k2 v2 t2 k3 v3 t3) .polygon (opRgb (polyOp true true true s
      r) k0) [posWord v0, uvWord pal t0, opRgb 0 k1, posWord v1, uvWord page t1, opRgb 0 k2, posWord v2, uvWord 0 t2,
      opRgb 0 k3, posWord v3, uvWord 0 t3] := by
  obtain ⟨hc, h4, h3, h2, h1, h0⟩ := polyOp_fields true true true s r
  refine packet_of_fixed rfl (by rw [byte3_opRgb]; exact hc) rfl ?_ rfl ?_
  · simp only [wordCount, bit28_opRgb, bit27_opRgb, bit26_opRgb, h4, h3, h2, bitNat]; rfl
  · simp only [packetOf, polygonOf, argAt_cons_zero, argAt_cons_succ, bit28_opRgb, bit27_opRgb, bit26_opRgb,
      bit25_opRgb, bit24_opRgb, h4, h3, h2, h1, h0, posOf_posWord, rgbOf_opRgb, uvOf_uvWord, highHalf_uvWord]

/-! ### Rectangles -/

theorem packet_rectVar (c : Config) (s r : Bool) (k : Rgb) (a : Pos) (z : Xy) :
    Packet c (.gp0RectVar s r k a z) .rectangle (opRgb (rectOp false false false s r) k)
      [posWord a, xyWord z] := by
  obtain ⟨hc, h4, h3, h2, h1, h0, hz⟩ := rectOp_fields false false false s r
  refine packet_of_fixed rfl (by rw [byte3_opRgb]; exact hc) rfl ?_ rfl ?_
  · simp only [wordCount, bit26_opRgb, size_opRgb, h2, bitNat]
    rw [if_pos (hz.mpr (by decide))]; rfl
  · simp only [packetOf, rectangleOf, argAt_cons_zero, argAt_cons_succ, bit28_opRgb, bit27_opRgb, bit26_opRgb,
      bit25_opRgb, bit24_opRgb, h4, h3, h2, h1, h0, posOf_posWord, rgbOf_opRgb, xyOf_xyWord]

theorem packet_rectTVar (c : Config) (s r : Bool) (k : Rgb) (a : Pos) (t : Uv) (pal : Half) (z : Xy) :
    Packet c (.gp0RectTVar s r k a t pal z) .rectangle (opRgb (rectOp false false true s r) k)
      [posWord a, uvWord pal t, xyWord z] := by
  obtain ⟨hc, h4, h3, h2, h1, h0, hz⟩ := rectOp_fields false false true s r
  refine packet_of_fixed rfl (by rw [byte3_opRgb]; exact hc) rfl ?_ rfl ?_
  · simp only [wordCount, bit26_opRgb, size_opRgb, h2, bitNat]
    rw [if_pos (hz.mpr (by decide))]; rfl
  · simp only [packetOf, rectangleOf, argAt_cons_zero, argAt_cons_succ, bit28_opRgb, bit27_opRgb, bit26_opRgb,
      bit25_opRgb, bit24_opRgb, h4, h3, h2, h1, h0, posOf_posWord, rgbOf_opRgb, uvOf_uvWord, highHalf_uvWord, xyOf_xyWord]

theorem packet_rect1 (c : Config) (s r : Bool) (k : Rgb) (a : Pos) :
    Packet c (.gp0Rect1 s r k a) .rectangle (opRgb (rectOp false true false s r) k)
      [posWord a] := by
  obtain ⟨hc, h4, h3, h2, h1, h0, hz⟩ := rectOp_fields false true false s r
  refine packet_of_fixed rfl (by rw [byte3_opRgb]; exact hc) rfl ?_ rfl ?_
  · simp only [wordCount, bit26_opRgb, size_opRgb, h2, bitNat]
    rw [if_neg (fun h => absurd (hz.mp h) (by decide))]; rfl
  · simp only [packetOf, rectangleOf, argAt_cons_zero, argAt_cons_succ, bit28_opRgb, bit27_opRgb, bit26_opRgb,
      bit25_opRgb, bit24_opRgb, h4, h3, h2, h1, h0, posOf_posWord, rgbOf_opRgb]

theorem packet_rectT1 (c : Config) (s r : Bool) (k : Rgb) (a : Pos) (t : Uv) (pal : Half) :
    Packet c (.gp0RectT1 s r k a t pal) .rectangle (opRgb (rectOp false true true s r) k)
      [posWord a, uvWord pal t] := by
  obtain ⟨hc, h4, h3, h2, h1, h0, hz⟩ := rectOp_fields false true true s r
  refine packet_of_fixed rfl (by rw [byte3_opRgb]; exact hc) rfl ?_ rfl ?_
  · simp only [wordCount, bit26_opRgb, size_opRgb, h2, bitNat]
    rw [if_neg (fun h => absurd (hz.mp h) (by decide))]; rfl
  · simp only [packetOf, rectangleOf, argAt_cons_zero, argAt_cons_succ, bit28_opRgb, bit27_opRgb, bit26_opRgb,
      bit25_opRgb, bit24_opRgb, h4, h3, h2, h1, h0, posOf_posWord, rgbOf_opRgb, uvOf_uvWord, highHalf_uvWord]

theorem packet_rect8 (c : Config) (s r : Bool) (k : Rgb) (a : Pos) :
    Packet c (.gp0Rect8 s r k a) .rectangle (opRgb (rectOp true false false s r) k)
      [posWord a] := by
  obtain ⟨hc, h4, h3, h2, h1, h0, hz⟩ := rectOp_fields true false false s r
  refine packet_of_fixed rfl (by rw [byte3_opRgb]; exact hc) rfl ?_ rfl ?_
  · simp only [wordCount, bit26_opRgb, size_opRgb, h2, bitNat]
    rw [if_neg (fun h => absurd (hz.mp h) (by decide))]; rfl
  · simp only [packetOf, rectangleOf, argAt_cons_zero, argAt_cons_succ, bit28_opRgb, bit27_opRgb, bit26_opRgb,
      bit25_opRgb, bit24_opRgb, h4, h3, h2, h1, h0, posOf_posWord, rgbOf_opRgb]

theorem packet_rectT8 (c : Config) (s r : Bool) (k : Rgb) (a : Pos) (t : Uv) (pal : Half) :
    Packet c (.gp0RectT8 s r k a t pal) .rectangle (opRgb (rectOp true false true s r) k)
      [posWord a, uvWord pal t] := by
  obtain ⟨hc, h4, h3, h2, h1, h0, hz⟩ := rectOp_fields true false true s r
  refine packet_of_fixed rfl (by rw [byte3_opRgb]; exact hc) rfl ?_ rfl ?_
  · simp only [wordCount, bit26_opRgb, size_opRgb, h2, bitNat]
    rw [if_neg (fun h => absurd (hz.mp h) (by decide))]; rfl
  · simp only [packetOf, rectangleOf, argAt_cons_zero, argAt_cons_succ, bit28_opRgb, bit27_opRgb, bit26_opRgb,
      bit25_opRgb, bit24_opRgb, h4, h3, h2, h1, h0, posOf_posWord, rgbOf_opRgb, uvOf_uvWord, highHalf_uvWord]

theorem packet_rect16 (c : Config) (s r : Bool) (k : Rgb) (a : Pos) :
    Packet c (.gp0Rect16 s r k a) .rectangle (opRgb (rectOp true true false s r) k)
      [posWord a] := by
  obtain ⟨hc, h4, h3, h2, h1, h0, hz⟩ := rectOp_fields true true false s r
  refine packet_of_fixed rfl (by rw [byte3_opRgb]; exact hc) rfl ?_ rfl ?_
  · simp only [wordCount, bit26_opRgb, size_opRgb, h2, bitNat]
    rw [if_neg (fun h => absurd (hz.mp h) (by decide))]; rfl
  · simp only [packetOf, rectangleOf, argAt_cons_zero, argAt_cons_succ, bit28_opRgb, bit27_opRgb, bit26_opRgb,
      bit25_opRgb, bit24_opRgb, h4, h3, h2, h1, h0, posOf_posWord, rgbOf_opRgb]

theorem packet_rectT16 (c : Config) (s r : Bool) (k : Rgb) (a : Pos) (t : Uv) (pal : Half) :
    Packet c (.gp0RectT16 s r k a t pal) .rectangle (opRgb (rectOp true true true s r) k)
      [posWord a, uvWord pal t] := by
  obtain ⟨hc, h4, h3, h2, h1, h0, hz⟩ := rectOp_fields true true true s r
  refine packet_of_fixed rfl (by rw [byte3_opRgb]; exact hc) rfl ?_ rfl ?_
  · simp only [wordCount, bit26_opRgb, size_opRgb, h2, bitNat]
    rw [if_neg (fun h => absurd (hz.mp h) (by decide))]; rfl
  · simp only [packetOf, rectangleOf, argAt_cons_zero, argAt_cons_succ, bit28_opRgb, bit27_opRgb, bit26_opRgb,
      bit25_opRgb, bit24_opRgb, h4, h3, h2, h1, h0, posOf_posWord, rgbOf_opRgb, uvOf_uvWord, highHalf_uvWord]

/-! ### Lines -/

theorem packet_lineF2 (c : Config) (s : Bool) (k : Rgb) (v0 v1 : Pos) :
    Packet c (.gp0LineF2 s k v0 v1) .line (opRgb (lineOp false false s) k) [posWord v0, posWord v1] := by
  obtain ⟨hc, h4, h3, h1⟩ := lineOp_fields false false s
  refine packet_of_fixed rfl (by rw [byte3_opRgb]; exact hc) ?_ ?_ rfl ?_
  · simp only [isPolyline, bit27_opRgb, h3]; rfl
  · simp only [wordCount, bit28_opRgb, bit27_opRgb, h4, h3, bitNat]; rfl
  · simp only [packetOf, lineOf, argAt_cons_zero, argAt_cons_succ, bit28_opRgb, bit27_opRgb, bit25_opRgb, h4, h3, h1,
      posOf_posWord, rgbOf_opRgb]

theorem packet_lineG2 (c : Config) (s : Bool) (k0 : Rgb) (v0 : Pos) (k1 : Rgb) (v1 : Pos) :
    Packet c (.gp0LineG2 s k0 v0 k1 v1) .line (opRgb (lineOp true false s) k0)
      [posWord v0, opRgb 0 k1, posWord v1] := by
  obtain ⟨hc, h4, h3, h1⟩ := lineOp_fields true false s
  refine packet_of_fixed rfl (by rw [byte3_opRgb]; exact hc) ?_ ?_ rfl ?_
  · simp only [isPolyline, bit27_opRgb, h3]; rfl
  · simp only [wordCount, bit28_opRgb, bit27_opRgb, h4, h3, bitNat]; rfl
  · simp only [packetOf, lineOf, argAt_cons_zero, argAt_cons_succ, bit28_opRgb, bit27_opRgb, bit25_opRgb, h4, h3, h1,
      posOf_posWord, rgbOf_opRgb]

/-- A flat polyline: its nominal count is its longest form's. -/
theorem packet_lineFP (c : Config) (s : Bool) (k : Rgb) (vs : List Pos) (h : (Instr.gp0LineFP s k vs).wf c = true) :
    Packet c (.gp0LineFP s k vs) .line (opRgb (lineOp false true s) k) (vs.map posWord) := by
  obtain ⟨hc, h4, h3, h1⟩ := lineOp_fields false true s
  have hp : isPolyline .line (opRgb (lineOp false true s) k) = true := by simp only [isPolyline, bit27_opRgb, h3]; rfl
  have hw : wordCount c .line (opRgb (lineOp false true s) k) = 1 + c.polylineMaxVertices := by
    simp only [wordCount, bit28_opRgb, bit27_opRgb, h4, h3, bitNat]
    simp
  simp only [Instr.wf, gp0Words, List.drop_succ_cons, List.drop_zero, Bool.and_eq_true, decide_eq_true_eq,
    List.all_eq_true, bne_iff_ne] at h
  refine ⟨rfl, by rw [byte3_opRgb]; exact hc, (fun h => by rw [hp] at h; exact nomatch h), fun _ => ⟨?_, h.2, ?_⟩, ?_⟩
  · rw [hw, List.length_map]; omega
  · rw [hw, List.length_map]
    show (if vs.length = c.polylineMaxVertices then _ else _) = _
    by_cases hl : vs.length = c.polylineMaxVertices
    · rw [if_pos hl, if_pos (by omega)]; rfl
    · rw [if_neg hl, if_neg (by omega)]; rfl
  · simp only [packetOf, lineOf, argAt_cons_zero, bit28_opRgb, bit27_opRgb, bit25_opRgb, h4, h3, h1, rgbOf_opRgb,
      List.drop_succ_cons, List.drop_zero, map_posOf_posWord]

/-- A Gouraud polyline. -/
theorem packet_lineGP (c : Config) (s : Bool) (k0 : Rgb) (v0 : Option Pos) (vs : List ColoredPos)
    (hm : 2 ≤ c.polylineMaxVertices) (h : (Instr.gp0LineGP s k0 v0 vs).wf c = true) :
    Packet c (.gp0LineGP s k0 v0 vs) .line (opRgb (lineOp true true s) k0)
      (v0.toList.map posWord ++ coloredPosWords vs) := by
  obtain ⟨hc, h4, h3, h1⟩ := lineOp_fields true true s
  have hp : isPolyline .line (opRgb (lineOp true true s) k0) = true := by simp only [isPolyline, bit27_opRgb, h3]; rfl
  have hw : wordCount c .line (opRgb (lineOp true true s) k0) = c.polylineMaxVertices * 2 := by
    simp only [wordCount, bit28_opRgb, bit27_opRgb, h4, h3, bitNat]
    simp
  simp only [Instr.wf, gp0Words, List.drop_succ_cons, List.drop_zero, Bool.and_eq_true, decide_eq_true_eq,
    List.all_eq_true, bne_iff_ne] at h
  obtain ⟨⟨hv, hn⟩, hs⟩ := h
  have hlen : (v0.toList.map posWord ++ coloredPosWords vs).length = v0.toList.length + 2 * vs.length := by
    rw [List.length_append, List.length_map, coloredPosWords_length]
  refine ⟨rfl, by rw [byte3_opRgb]; exact hc, (fun h => by rw [hp] at h; exact nomatch h), fun _ => ⟨?_, hs, ?_⟩, ?_⟩
  · rw [hw, hlen]
    cases v0 with
    | none => cases vs with
      | nil => simp; omega
      | cons v vs => exact nomatch hv
    | some v => simp only [Option.toList_some, List.length_singleton] at hn ⊢; omega
  · rw [hw, hlen]
    show (if v0.toList.length + vs.length = c.polylineMaxVertices then _ else _) = _
    cases v0 with
    | none => cases vs with
      | nil =>
        rw [if_neg (by simp; omega), if_neg (by simp; omega)]
        rfl
      | cons v vs => exact nomatch hv
    | some v =>
      have hl1 : (some v).toList.length = 1 := rfl
      by_cases hl : (some v).toList.length + vs.length = c.polylineMaxVertices
      · rw [if_pos hl, if_pos (by omega)]; rfl
      · rw [if_neg hl, if_neg (by omega)]; rfl
  · simp only [packetOf, lineOf, argAt_cons_zero, bit28_opRgb, bit27_opRgb, bit25_opRgb, h4, h3, h1, rgbOf_opRgb]
    cases v0 with
    | none => cases vs with
      | nil => rfl
      | cons v vs => exact nomatch hv
    | some v =>
      simp only [Option.toList_some, List.map_cons, List.map_nil, List.singleton_append, List.getElem?_cons_succ,
        List.getElem?_cons_zero, Option.map_some, List.drop_succ_cons, List.drop_zero, coloredPosOf_words,
        posOf_posWord]

/-! ### All GP0 commands -/

/-- A one-word GP0 command: the decoder takes its word at once. -/
def OneWord (c : Config) (i : Instr) (w : Word) : Prop :=
  gp0Words i = [w] ∧ gp0Stream c i = [w] ∧
    (gp0Class (byte3 w) = .immediate ∧ immediateOf w = i ∨ gp0Class (byte3 w) = .unrecognized ∧ i = .gp0Unrecognized w)

theorem oneWord_immediate (c : Config) (i : Instr) (op : Byte) (p : BitVec 24) (hw : gp0Words i = [opParam op p])
    (hs : gp0Stream c i = [opParam op p]) (h : gp0Class op = .immediate) (hi : immediateOf (opParam op p) = i) :
    OneWord c i (opParam op p) := ⟨hw, hs, .inl ⟨by rw [byte3_opParam]; exact h, hi⟩⟩

theorem oneWord_drawMode (c : Config) (m : BitVec 14) : OneWord c (.gp0DrawMode m) (opParam 0xE1#8 (0#10 ++ m)) := by
  refine oneWord_immediate c _ _ _ rfl rfl (by decide) ?_
  unfold immediateOf
  rw [byte3_opParam]
  show Instr.gp0DrawMode _ = _
  rw [extract_opParam _ _ 0 14 (by decide), extract_append_low _ _ _ _ (by decide), extract_all]

/-- The four fields of E2 (rules R42, R152). -/
theorem immediateOf_texWindow (p : BitVec 24) : immediateOf (opParam 0xE2#8 p) = .gp0TexWindow
    ⟨p.extractLsb' 0 5, p.extractLsb' 5 5, p.extractLsb' 10 5, p.extractLsb' 15 5⟩ := by
  unfold immediateOf
  rw [byte3_opParam]
  show Instr.gp0TexWindow _ = _
  rw [extract_opParam _ _ 0 5 (by decide), extract_opParam _ _ 5 5 (by decide), extract_opParam _ _ 10 5 (by decide),
    extract_opParam _ _ 15 5 (by decide)]

theorem oneWord_texWindow (c : Config) (t : TexWindow) : OneWord c (.gp0TexWindow t)
    (opParam 0xE2#8 (0#4 ++ ((t.offsetY ++ t.offsetX) ++ (t.maskY ++ t.maskX)))) := by
  refine oneWord_immediate c _ _ _ rfl rfl (by decide) ?_
  rw [immediateOf_texWindow]
  have h1 : (0#4 ++ ((t.offsetY ++ t.offsetX) ++ (t.maskY ++ t.maskX))).extractLsb' 0 5 = t.maskX := by
    rw [extract_append_low _ _ _ _ (by decide), extract_append_low _ _ _ _ (by decide),
      extract_append_low _ _ _ _ (by decide), extract_all]
  have h2 : (0#4 ++ ((t.offsetY ++ t.offsetX) ++ (t.maskY ++ t.maskX))).extractLsb' 5 5 = t.maskY := by
    rw [extract_append_low _ _ _ _ (by decide), extract_append_low _ _ _ _ (by decide),
      extract_append_high _ _ _ _ (by decide), extract_all]
  have h3 : (0#4 ++ ((t.offsetY ++ t.offsetX) ++ (t.maskY ++ t.maskX))).extractLsb' 10 5 = t.offsetX := by
    rw [extract_append_low _ _ _ _ (by decide), extract_append_high _ _ _ _ (by decide),
      extract_append_low _ _ _ _ (by decide), extract_all]
  have h4 : (0#4 ++ ((t.offsetY ++ t.offsetX) ++ (t.maskY ++ t.maskX))).extractLsb' 15 5 = t.offsetY := by
    rw [extract_append_low _ _ _ _ (by decide), extract_append_high _ _ _ _ (by decide),
      extract_append_high _ _ _ _ (by decide), extract_all]
  exact congrArg Instr.gp0TexWindow (congr (congr (congr (congrArg TexWindow.mk h1) h2) h3) h4)

theorem oneWord_drawAreaTl (c : Config) (k : Corner) : OneWord c (.gp0DrawAreaTl k) (opParam 0xE3#8 (param10 k.x k.y)) := by
  refine oneWord_immediate c _ _ _ rfl rfl (by decide) ?_
  unfold immediateOf
  rw [byte3_opParam]
  show Instr.gp0DrawAreaTl _ = _
  rw [extract_opParam _ _ 0 10 (by decide), extract_opParam _ _ 10 10 (by decide), param10_low, param10_high]

theorem oneWord_drawAreaBr (c : Config) (k : Corner) : OneWord c (.gp0DrawAreaBr k) (opParam 0xE4#8 (param10 k.x k.y)) := by
  refine oneWord_immediate c _ _ _ rfl rfl (by decide) ?_
  unfold immediateOf
  rw [byte3_opParam]
  show Instr.gp0DrawAreaBr _ = _
  rw [extract_opParam _ _ 0 10 (by decide), extract_opParam _ _ 10 10 (by decide), param10_low, param10_high]

theorem oneWord_drawOffset (c : Config) (o : DrawOffset) :
    OneWord c (.gp0DrawOffset o) (opParam 0xE5#8 (0#2 ++ (o.y ++ o.x))) := by
  refine oneWord_immediate c _ _ _ rfl rfl (by decide) ?_
  unfold immediateOf
  rw [byte3_opParam]
  show Instr.gp0DrawOffset _ = _
  rw [extract_opParam _ _ 0 11 (by decide), extract_opParam _ _ 11 11 (by decide),
    extract_append_low 0 11 _ _ (by decide), extract_append_low 0 11 _ _ (by decide),
    extract_append_low 11 11 _ _ (by decide), extract_append_high 11 11 _ _ (by decide), extract_all, extract_all]

theorem oneWord_mask (c : Config) (m : MaskSetting) : OneWord c (.gp0Mask m) (opParam 0xE6#8
    (0#22 ++ (BitVec.ofBool m.checkMaskBeforeDraw ++ BitVec.ofBool m.setMaskWhileDrawing))) := by
  obtain ⟨a, b⟩ := m
  refine oneWord_immediate c _ _ _ rfl rfl (by decide) ?_
  cases a <;> cases b <;> decide

/-- Every well-formed GP0 command is one word or one packet. -/
theorem gp0_command_forms (c : Config) (i : Instr) (hm : 2 ≤ c.polylineMaxVertices) (h : i.wf c = true)
    (hg : gp0Words i ≠ []) : (∃ w, OneWord c i w) ∨ ∃ k w rest, Packet c i k w rest := by
  cases i
  case gp0Nop => exact .inl ⟨_, oneWord_immediate c _ _ _ rfl rfl (by decide) (by decide)⟩
  case gp0ClearCache => exact .inl ⟨_, oneWord_immediate c _ _ _ rfl rfl (by decide) (by decide)⟩
  case gp0Irq => exact .inl ⟨_, oneWord_immediate c _ _ _ rfl rfl (by decide) (by decide)⟩
  case gp0DrawMode => exact .inl ⟨_, oneWord_drawMode ..⟩
  case gp0TexWindow => exact .inl ⟨_, oneWord_texWindow ..⟩
  case gp0DrawAreaTl => exact .inl ⟨_, oneWord_drawAreaTl ..⟩
  case gp0DrawAreaBr => exact .inl ⟨_, oneWord_drawAreaBr ..⟩
  case gp0DrawOffset => exact .inl ⟨_, oneWord_drawOffset ..⟩
  case gp0Mask => exact .inl ⟨_, oneWord_mask ..⟩
  case gp0Unrecognized w => exact .inl ⟨w, rfl, rfl, .inr ⟨by simpa [Instr.wf] using h, rfl⟩⟩
  case gp0Fill => exact .inr ⟨_, _, _, packet_fill ..⟩
  case gp0CopyVramVram => exact .inr ⟨_, _, _, packet_copyVramVram ..⟩
  case gp0CopyCpuVram => exact .inr ⟨_, _, _, packet_copyCpuVram ..⟩
  case gp0CopyVramCpu => exact .inr ⟨_, _, _, packet_copyVramCpu ..⟩
  case gp0PolyF3 => exact .inr ⟨_, _, _, packet_polyF3 ..⟩
  case gp0PolyFT3 => exact .inr ⟨_, _, _, packet_polyFT3 ..⟩
  case gp0PolyF4 => exact .inr ⟨_, _, _, packet_polyF4 ..⟩
  case gp0PolyFT4 => exact .inr ⟨_, _, _, packet_polyFT4 ..⟩
  case gp0PolyG3 => exact .inr ⟨_, _, _, packet_polyG3 ..⟩
  case gp0PolyGT3 => exact .inr ⟨_, _, _, packet_polyGT3 ..⟩
  case gp0PolyG4 => exact .inr ⟨_, _, _, packet_polyG4 ..⟩
  case gp0PolyGT4 => exact .inr ⟨_, _, _, packet_polyGT4 ..⟩
  case gp0LineF2 => exact .inr ⟨_, _, _, packet_lineF2 ..⟩
  case gp0LineG2 => exact .inr ⟨_, _, _, packet_lineG2 ..⟩
  case gp0LineFP => exact .inr ⟨_, _, _, packet_lineFP _ _ _ _ h⟩
  case gp0LineGP => exact .inr ⟨_, _, _, packet_lineGP _ _ _ _ _ hm h⟩
  case gp0RectVar => exact .inr ⟨_, _, _, packet_rectVar ..⟩
  case gp0RectTVar => exact .inr ⟨_, _, _, packet_rectTVar ..⟩
  case gp0Rect1 => exact .inr ⟨_, _, _, packet_rect1 ..⟩
  case gp0RectT1 => exact .inr ⟨_, _, _, packet_rectT1 ..⟩
  case gp0Rect8 => exact .inr ⟨_, _, _, packet_rect8 ..⟩
  case gp0RectT8 => exact .inr ⟨_, _, _, packet_rectT8 ..⟩
  case gp0Rect16 => exact .inr ⟨_, _, _, packet_rect16 ..⟩
  case gp0RectT16 => exact .inr ⟨_, _, _, packet_rectT16 ..⟩
  all_goals exact absurd rfl hg

end Sys2Proof
end

