-- ==== Sys2Proof/Laws/Decoder.lean ====
section
/-! SUPPORT. The GP0 decoder word by word (rules R200 to R208): what one word does in each state, and what a run of
argument words leaves. -/
namespace Sys2Proof.Machine

/-- A command of several words takes at least two, and fits the argument buffer (rules R204, R205). -/
theorem wordCount_bounds {c : Config} (h : c.accepts = true) (k : Kind) (w : Word) :
    2 ≤ wordCount c k w ∧ wordCount c k w ≤ c.argBufferWords := by
  have h1 : 2 ≤ c.polylineMaxVertices := by simp [Config.accepts] at h; omega
  have h2 : 1 + c.polylineMaxVertices * 2 - 1 ≤ c.argBufferWords := by simp [Config.accepts] at h; omega
  have h3 : 12 ≤ c.argBufferWords := by simp [Config.accepts] at h; omega
  cases k <;> simp only [wordCount, bitNat]
  all_goals try omega
  · cases bitOf w 28 <;> cases bitOf w 27 <;> cases bitOf w 26 <;> simp <;> omega
  · cases bitOf w 28 <;> cases bitOf w 27 <;> simp <;> omega
  · cases bitOf w 26 <;> simp <;> split <;> omega

/-- A GP0 write of the host is a word at the GP0 port (rule R102). -/
theorem transact_gp0 (w : Word) (s : State) : transact (.write .gpu 0 .w32 w) s = hostGp0 w s := by
  show gpuWrite 0 .w32 w s = _
  unfold gpuWrite
  exact if_pos ⟨rfl, rfl⟩

/-- Words fed one run after another. -/
theorem feed_append (ws vs : List Word) (s : State) : feed (ws ++ vs) s = andThen (feed ws s) (feed vs) := by
  induction ws generalizing s with
  | nil => rfl
  | cons w ws ih =>
    simp only [List.cons_append, feed]
    cases transact (.write .gpu 0 .w32 w) s with
    | next t => simp only [andThen_next, ih]
    | fault r => rfl
    | refused r => rfl

/-- One word fed. -/
theorem feed_one (w : Word) (s : State) : feed [w] s = hostGp0 w s := by
  simp only [feed, transact_gp0]
  cases hostGp0 w s <;> rfl

/-- A prefix of a list after one more word is stored behind it. -/
theorem take_set_succ (args ws : List Word) (w : Word) (h : args.take ws.length = ws) (hl : ws.length < args.length) :
    (args.set ws.length w).take (ws.length + 1) = ws ++ [w] := by
  rw [List.take_set, List.take_add_one, h]
  have : args[ws.length]? = some args[ws.length] := List.getElem?_eq_getElem hl
  rw [this]
  simp

/-- The decoder in the middle of a command of kind `k`: the words `ws` received, `n` needed (rule R206). -/
structure Receiving (k : Kind) (ws : List Word) (n : Nat) (s : State) : Prop where
  state : s.gpu.cmdState = .collect k
  words : s.gpu.args.take ws.length = ws
  curr : s.gpu.currArg = ws.length
  count : s.gpu.argCount = n
  room : n ≤ s.gpu.args.length
  first : ws ≠ []

/-- The command word received is the first argument. -/
theorem Receiving.arg0 {k : Kind} {w : Word} {ws : List Word} {n : Nat} {s : State} (h : Receiving k (w :: ws) n s) :
    argAt s.gpu.args 0 = w := by
  have := h.words
  cases ha : s.gpu.args with
  | nil => rw [ha] at this; exact nomatch this
  | cons a as => rw [ha] at this; simp at this; simp [argAt, this.1]

/-- A command word in `Idle` starts a collection (rule R201). -/
theorem hostGp0_first {s : State} {w : Word} {k : Kind} (hs : s.gpu.cmdState = .idle)
    (hk : gp0Class (byte3 w) = .multiword k) : hostGp0 w s = .next { s with
      gpu.cmdState := .collect k, gpu.args := s.gpu.args.set 0 w, gpu.currArg := 1,
      gpu.argCount := wordCount s.cfg k w } := by
  simp only [hostGp0, gp0Take, hs, gp0Idle, hk]

/-- A word that is neither the sentinel of a polyline nor the last is stored (rule R206). -/
theorem hostGp0_more {k : Kind} {w : Word} {ws : List Word} {n : Nat} {s : State} (x : Word)
    (h : Receiving k (w :: ws) n s) (hx : isPolyline k w = true → x ≠ s.cfg.lineSentinel)
    (hn : (w :: ws).length + 1 < n) : ∃ a, a.length = s.gpu.args.length
      ∧ hostGp0 x s = .next { s with gpu.args := a, gpu.currArg := (w :: ws).length + 1 }
      ∧ Receiving k (w :: ws ++ [x]) n { s with gpu.args := a, gpu.currArg := (w :: ws).length + 1 } := by
  refine ⟨s.gpu.args.set (w :: ws).length x, by simp, ?_, ?_⟩
  · simp only [hostGp0, gp0Take, h.state, gp0Collect, h.arg0, h.curr, h.count]
    rw [if_neg (fun hc => hx hc.1 hc.2), if_neg (by omega)]
  · refine ⟨h.state, ?_, by simp, h.count, by simpa using h.room, by simp⟩
    have := take_set_succ s.gpu.args (w :: ws) x h.words (by have := h.room; omega)
    simpa using this

/-- The last word completes the command, which runs from the `Idle` decoder (rules R206, R208). -/
theorem hostGp0_last {k : Kind} {w : Word} {ws : List Word} {n : Nat} {s : State} (x : Word)
    (h : Receiving k (w :: ws) n s) (hx : isPolyline k w = true → x ≠ s.cfg.lineSentinel)
    (hn : (w :: ws).length + 1 = n) : ∃ a, a.length = s.gpu.args.length
      ∧ hostGp0 x s = exec (packetOf k (w :: ws ++ [x])) (endCollect { s with gpu.args := a }) := by
  refine ⟨s.gpu.args.set (w :: ws).length x, by simp, ?_⟩
  simp only [hostGp0, gp0Take, h.state, gp0Collect, h.arg0, h.curr, h.count]
  rw [if_neg (fun hc => hx hc.1 hc.2), if_pos hn]
  simp only
  rw [take_set_succ s.gpu.args (w :: ws) x h.words (by have := h.room; omega)]
  rfl

/-- The sentinel ends a polyline and is not stored (rule R207). -/
theorem hostGp0_sentinel {k : Kind} {w : Word} {ws : List Word} {n : Nat} {s : State}
    (h : Receiving k (w :: ws) n s) (hp : isPolyline k w = true) :
    hostGp0 s.cfg.lineSentinel s = exec (packetOf k (w :: ws)) (endCollect s) := by
  simp only [hostGp0, gp0Take, h.state, gp0Collect, h.arg0, h.curr, h.words]
  rw [if_pos ⟨hp, trivial⟩]

/-- A run of argument words that does not complete the command is stored (rule R206). -/
theorem feed_more {k : Kind} {w : Word} {n : Nat} (xs : List Word) {ws : List Word} {s : State}
    (h : Receiving k (w :: ws) n s) (hx : isPolyline k w = true → ∀ x ∈ xs, x ≠ s.cfg.lineSentinel)
    (hn : (w :: ws).length + xs.length < n) : ∃ a, a.length = s.gpu.args.length
      ∧ feed xs s = .next { s with gpu.args := a, gpu.currArg := (w :: ws).length + xs.length }
      ∧ Receiving k (w :: ws ++ xs) n { s with gpu.args := a, gpu.currArg := (w :: ws).length + xs.length } := by
  induction xs generalizing ws s with
  | nil =>
    refine ⟨s.gpu.args, rfl, ?_, ?_⟩
    · have hc := h.curr
      show Host.Outcome.next s = _
      rw [show (w :: ws).length + ([] : List Word).length = s.gpu.currArg by rw [hc]; rfl]
    · have hc := h.curr
      rw [show (w :: ws).length + ([] : List Word).length = s.gpu.currArg by rw [hc]; rfl, List.append_nil]
      exact h
  | cons x xs ih =>
    rw [List.length_cons] at hn
    obtain ⟨a, ha, h1, h2⟩ := hostGp0_more x h (fun hp => hx hp x (by simp)) (by
      simp only [List.length_cons] at hn ⊢; omega)
    obtain ⟨b, hb, h3, h4⟩ := ih (ws := ws ++ [x]) h2 (fun hp y hy => hx hp y (by simp [hy])) (by
      simp only [List.length_cons, List.length_append, List.length_nil] at hn ⊢; omega)
    have hl : (w :: (ws ++ [x])).length + xs.length = (w :: ws).length + (x :: xs).length := by simp; omega
    rw [hl] at h3 h4
    refine ⟨b, by rw [hb, ← ha], ?_, ?_⟩
    · simp only [feed, transact_gp0, h1, andThen_next]
      rw [h3]
    · simpa using h4

end Sys2Proof.Machine
end

