-- ==== Sys2Proof/Laws/Dma.lean ====
section
/-! SUPPORT. DMA addresses (rules R107, R421), what each transfer does to RAM and keeps of the rest (rules R422 to
R425), and that every operation over RAM keeps its canonical form. -/
namespace Sys2Proof.Machine

/-! ### The parameters a transfer rests on -/

theorem accepts_ramSize {c : Config} (h : c.accepts = true) : 4 ≤ c.ramSize ∧ c.ramSize % 4 = 0 := by
  simp [Config.accepts] at h
  omega

theorem accepts_grid {c : Config} (h : c.accepts = true) : 0 < c.vramWidth ∧ 0 < c.vramHeight := by
  simp [Config.accepts] at h
  omega

/-! ### Addresses -/

theorem ramAddr_mod (c : Config) (v : Word) : ramAddr c v % 4 = 0 := by
  simp only [ramAddr]
  omega

theorem ramAddr_lt {c : Config} (h : c.accepts = true) (v : Word) : ramAddr c v < c.ramSize := by
  have h4 := (accepts_ramSize h).1
  have := Nat.mod_lt (v.extractLsb' 0 24).toNat (show 0 < c.ramSize by omega)
  simp only [ramAddr]
  omega

/-- A word of a transfer lies inside RAM, on a multiple of 4 (rule R107). -/
theorem wordAddr_bounds {c : Config} (h : c.accepts = true) {base : Nat} (hb : base % 4 = 0) {delta : Int}
    (hd : delta = 4 ∨ delta = -4) (i : Nat) :
    wordAddr c base delta i % 4 = 0 ∧ wordAddr c base delta i + 4 ≤ c.ramSize := by
  obtain ⟨h4, hm⟩ := accepts_ramSize h
  have hpos : (0 : Int) < c.ramSize := by omega
  have h0 := Int.emod_nonneg ((base : Int) + delta * i) (show (c.ramSize : Int) ≠ 0 by omega)
  have h1 := Int.emod_lt_of_pos ((base : Int) + delta * i) hpos
  have hdvd : (4 : Int) ∣ (c.ramSize : Int) := by omega
  have h2 : (((base : Int) + delta * i) % (c.ramSize : Int)) % 4 = 0 := by
    rw [Int.emod_emod_of_dvd _ hdvd]
    rcases hd with rfl | rfl <;> omega
  simp only [wordAddr]
  omega

@[simp] theorem wordAddr_zero {c : Config} {base : Nat} (hb : base < c.ramSize) (delta : Int) :
    wordAddr c base delta 0 = base := by
  simp only [wordAddr, Int.natCast_zero, Int.mul_zero, Int.add_zero]
  rw [Int.emod_eq_of_lt (by omega) (by omega)]
  omega

/-- Stepping from the `i`-th word gives the next one. -/
theorem stepAddr_wordAddr {c : Config} (h : c.accepts = true) (base : Nat) (delta : Int) (i : Nat) :
    stepAddr c (wordAddr c base delta i) delta = wordAddr c base delta (i + 1) := by
  have h4 := (accepts_ramSize h).1
  have h0 := Int.emod_nonneg ((base : Int) + delta * i) (show (c.ramSize : Int) ≠ 0 by omega)
  simp only [stepAddr, wordAddr]
  rw [Int.toNat_of_nonneg h0, Int.emod_add_emod]
  rw [show (base : Int) + delta * i + delta = base + delta * ((i + 1 : Nat) : Int) by push_cast; ring]

theorem dmaDelta_cases (c : Word) : dmaDelta c = 4 ∨ dmaDelta c = -4 := by
  unfold dmaDelta
  split <;> simp

/-- Words of a transfer that fits RAM do not overlap. -/
theorem wordAddr_ne {c : Config} (h : c.accepts = true) (base : Nat) {delta : Int} (hd : delta = 4 ∨ delta = -4)
    {n i j : Nat} (hfit : 4 * n ≤ c.ramSize) (hi : i < n) (hj : j < n) (hij : i ≠ j) :
    wordAddr c base delta i ≠ wordAddr c base delta j := by
  intro he
  have h4 := (accepts_ramSize h).1
  have a0 := Int.emod_nonneg ((base : Int) + delta * i) (show (c.ramSize : Int) ≠ 0 by omega)
  have b0 := Int.emod_nonneg ((base : Int) + delta * j) (show (c.ramSize : Int) ≠ 0 by omega)
  have hz : ((base : Int) + delta * i) % (c.ramSize : Int) = ((base : Int) + delta * j) % (c.ramSize : Int) := by
    simp only [wordAddr] at he
    omega
  have hdvd : (c.ramSize : Int) ∣ ((base : Int) + delta * i) - ((base : Int) + delta * j) :=
    Int.dvd_of_emod_eq_zero (Int.emod_eq_emod_iff_emod_sub_eq_zero.mp hz)
  obtain ⟨k, hk⟩ := hdvd
  have hk0 : k = 0 := by
    by_contra hne
    have habs : (c.ramSize : Int) ≤ |(c.ramSize : Int) * k| := by
      rw [abs_mul, abs_of_nonneg (show (0 : Int) ≤ (c.ramSize : Int) by omega)]
      have : 1 ≤ |k| := Int.one_le_abs hne
      nlinarith
    have hlt : |(c.ramSize : Int) * k| < c.ramSize := by
      rw [← hk, abs_lt]
      rcases hd with rfl | rfl <;> constructor <;> omega
    omega
  rw [hk0] at hk
  rcases hd with rfl | rfl <;> omega

/-! ### Words written in a row -/

/-- `n` words written at the words of a transfer from the `i`-th on, in order. -/
def storeWords (c : Config) (base : Nat) (delta : Int) (ws : List Word) (i : Nat) (m : Memory) : Memory :=
  match ws with
  | [] => m
  | w :: ws => storeWords c base delta ws (i + 1) (memWrite m (wordAddr c base delta i) w)

theorem storeWords_wf {c : Config} (h : c.accepts = true) {base : Nat} (hb : base % 4 = 0) {delta : Int}
    (hd : delta = 4 ∨ delta = -4) (ws : List Word) (i : Nat) {m : Memory} (hm : Memory.wf c m = true) :
    Memory.wf c (storeWords c base delta ws i m) = true := by
  induction ws generalizing i m with
  | nil => exact hm
  | cons w ws ih => exact ih (i + 1) (memWrite_wf w hm (wordAddr_bounds h hb hd i).2)

/-- A byte outside the words written keeps its value. -/
theorem memByte_storeWords_outside {c : Config} (base : Nat) (delta : Int) (ws : List Word) (i : Nat) (m : Memory)
    (a : Nat) (ha : ∀ j, i ≤ j → j < i + ws.length →
      ¬ (wordAddr c base delta j ≤ a ∧ a < wordAddr c base delta j + 4)) :
    memByte (storeWords c base delta ws i m) a = memByte m a := by
  induction ws generalizing i m with
  | nil => rfl
  | cons w ws ih =>
    rw [storeWords, ih (i + 1) _ fun j h1 h2 => ha j (by omega) (by simp; omega), memByte_memWrite,
      if_neg (ha i (Nat.le_refl _) (by simp))]

/-- Each word written stands where it was written, when they do not overlap. -/
theorem memRead_storeWords {c : Config} (h : c.accepts = true) {base : Nat} (hb : base % 4 = 0) {delta : Int}
    (hd : delta = 4 ∨ delta = -4) (ws : List Word) (i : Nat) (m : Memory) {n : Nat} (hfit : 4 * n ≤ c.ramSize)
    (hn : i + ws.length ≤ n) (j : Nat) (hj : j < ws.length) :
    memRead (storeWords c base delta ws i m) (wordAddr c base delta (i + j)) = ws.getD j 0#32 := by
  have keep : ∀ (vs : List Word) (k : Nat) (m : Memory), (∀ l, k ≤ l → l < k + vs.length → l < n ∧ l ≠ i + j) →
      i + j < n → memRead (storeWords c base delta vs k m) (wordAddr c base delta (i + j))
        = memRead m (wordAddr c base delta (i + j)) := by
    intro vs
    induction vs with
    | nil => intros; rfl
    | cons v vs ih =>
      intro k m hl hij
      rw [storeWords, ih (k + 1) _ (fun l h1 h2 => hl l (by omega) (by simp; omega)) hij]
      obtain ⟨hkn, hkj⟩ := hl k (Nat.le_refl _) (by simp)
      have hne := wordAddr_ne h base hd hfit hkn hij hkj
      have hk := (wordAddr_bounds h hb hd k).1
      have hj := (wordAddr_bounds h hb hd (i + j)).1
      exact memRead_memWrite_other _ _ _ _ (by omega)
  induction ws generalizing i j m with
  | nil => simp at hj
  | cons w ws ih =>
    rw [storeWords]
    simp only [List.length_cons] at hn hj
    cases j with
    | zero =>
      rw [keep ws (i + 1) _ (fun l h1 h2 => ⟨by omega, by omega⟩) (by omega), Nat.add_zero, memRead_memWrite_same]
      rfl
    | succ j =>
      rw [show i + (j + 1) = i + 1 + j by omega, ih (i + 1) _ (by omega) j (by omega) ?_]
      · rfl
      · intro vs k m hl hij
        rw [show i + 1 + j = i + (j + 1) by omega] at hij ⊢
        exact keep vs k m (fun l h1 h2 => by have := hl l h1 h2; omega) hij

/-! ### GPU to RAM (rule R422) -/

/-- One GPUREAD changes the cursor, the read mode and the draws only (rule R320). -/
theorem gpuReadWord_frame (s : State) : ∃ k m n, (gpuReadWord s).2
    = { s with gpu.cursor := k, gpu.readMode := m, draws := n } := by
  unfold gpuReadWord
  split
  · exact ⟨_, _, _, rfl⟩
  · simp only
    split <;> exact ⟨_, _, _, rfl⟩

/-- GPUREADs do not look at RAM. -/
theorem gpuReadWord_ram (s : State) (m : Memory) :
    gpuReadWord { s with ram := m } = ((gpuReadWord s).1, { (gpuReadWord s).2 with ram := m }) := by
  unfold gpuReadWord
  simp only
  split
  · rfl
  · simp only [readPixel]
    split <;> rfl

/-- Several GPUREADs change the same and nothing more. -/
theorem gpuReads_frame (n : Nat) (s : State) : ∃ k m d, (gpuReads n s).2
    = { s with gpu.cursor := k, gpu.readMode := m, draws := d } := by
  induction n generalizing s with
  | zero => exact ⟨s.gpu.cursor, s.gpu.readMode, s.draws, rfl⟩
  | succ n ih =>
    obtain ⟨k, m, d, h⟩ := gpuReadWord_frame s
    obtain ⟨k', m', d', h'⟩ := ih (gpuReadWord s).2
    refine ⟨k', m', d', ?_⟩
    show (gpuReads n (gpuReadWord s).2).2 = _
    rw [h', h]

theorem gpuReads_length (n : Nat) (s : State) : (gpuReads n s).1.length = n := by
  induction n generalizing s with
  | zero => rfl
  | succ n ih =>
    show (_ :: (gpuReads n (gpuReadWord s).2).1).length = _
    rw [List.length_cons, ih]

theorem gpuReads_succ (n : Nat) (s : State) : gpuReads (n + 1) s
    = ((gpuReadWord s).1 :: (gpuReads n (gpuReadWord s).2).1, (gpuReads n (gpuReadWord s).2).2) := rfl

theorem gpuReads_ram (n : Nat) (s : State) (m : Memory) :
    gpuReads n { s with ram := m } = ((gpuReads n s).1, { (gpuReads n s).2 with ram := m }) := by
  induction n generalizing s with
  | zero => rfl
  | succ n ih =>
    rw [gpuReads_succ, gpuReadWord_ram, gpuReads_succ]
    simp only [ih]

/-- GPU to RAM is the GPUREADs, and their words stored in order. -/
theorem gpuReceive_eq {c : Config} (h : c.accepts = true) {delta : Int} {n base : Nat} (i : Nat) {s : State}
    (hs : s.cfg = c) : gpuReceive delta n (wordAddr c base delta i) s
      = { (gpuReads n s).2 with ram := storeWords c base delta (gpuReads n s).1 i s.ram } := by
  induction n generalizing i s with
  | zero => rfl
  | succ n ih =>
    obtain ⟨k, m, d, hf⟩ := gpuReadWord_frame s
    have hc : (gpuReadWord s).2.cfg = c := by rw [hf]; exact hs
    have hr : (gpuReadWord s).2.ram = s.ram := by rw [hf]
    show gpuReceive delta n (stepAddr (gpuReadWord s).2.cfg (wordAddr c base delta i) delta)
      { (gpuReadWord s).2 with ram := memWrite (gpuReadWord s).2.ram (wordAddr c base delta i) (gpuReadWord s).1 } = _
    rw [hc, hr, stepAddr_wordAddr h, gpuReads_succ]
    refine (ih (i + 1) (by exact hc)).trans ?_
    rw [gpuReads_ram]
    rfl

/-! ### RAM to GPU (rules R422, R423, R428) -/

/-- The engine's GP0 words and the host's are fed alike. -/
theorem feed_gp0Word (w : Word) (ws : List Word) (s : State) : feed (w :: ws) s = andThen (gp0Word w s) (feed ws) := by
  rw [← hostGp0_eq_gp0Word]; rfl

/-- Words fed complete, within the frame of a GP0 word. -/
theorem feed_next (ws : List Word) (s : State) : ∃ t, feed ws s = .next t ∧ Gp0Frame s t := by
  induction ws generalizing s with
  | nil => exact ⟨s, rfl, .refl s⟩
  | cons w ws ih =>
    obtain ⟨t, h1, f1⟩ := gp0Word_next w s
    obtain ⟨u, h2, f2⟩ := ih t
    exact ⟨u, by rw [feed_gp0Word, h1, andThen_next, h2], f1.trans f2⟩

/-- RAM to GPU is its RAM words fed in order. -/
theorem gpuSend_eq {c : Config} (h : c.accepts = true) (base : Nat) (delta : Int) {n : Nat} (i : Nat) {s : State}
    (hs : s.cfg = c) : gpuSend delta n (wordAddr c base delta i) s
      = feed ((List.range' i n).map fun j => memRead s.ram (wordAddr c base delta j)) s := by
  induction n generalizing i s with
  | zero => rfl
  | succ n ih =>
    obtain ⟨t, h1, f1⟩ := gp0Word_next (memRead s.ram (wordAddr c base delta i)) s
    have hc : t.cfg = c := f1.cfg.trans hs
    rw [List.range'_succ, List.map_cons, feed_gp0Word]
    simp only [gpuSend, h1, andThen_next]
    rw [hc, stepAddr_wordAddr h, ih (i + 1) hc, f1.ram]

/-- The words of a linked-list node are fed in order. -/
theorem nodeSend_eq (addr n i : Nat) (s : State) : nodeSend addr n i s
    = feed ((List.range' i n).map fun j => memRead s.ram ((addr + 4 * j) % s.cfg.ramSize)) s := by
  induction n generalizing i s with
  | zero => rfl
  | succ n ih =>
    obtain ⟨t, h1, f1⟩ := gp0Word_next (memRead s.ram ((addr + 4 * i) % s.cfg.ramSize)) s
    rw [List.range'_succ, List.map_cons, feed_gp0Word]
    simp only [nodeSend, h1, andThen_next]
    rw [ih (i + 1) t, f1.ram, f1.cfg]

/-- A linked-list node is its `nodeWords` fed. -/
theorem nodeSend_node (addr : Nat) (s : State) :
    nodeSend addr (byte3 (memRead s.ram addr)).toNat 1 s = feed (nodeWords s.cfg s.ram addr) s := by
  rw [nodeSend_eq, nodeWords, List.range'_eq_map_range, List.map_map]
  simp only [Function.comp_def, Nat.add_comm]

/-- The linked list feeds the words of its nodes; past the bound it faults at the header it reached, the words of the
nodes before it sent. -/
theorem listSend_eq (nodes addr : Nat) (s : State) : listSend nodes addr s
    = match listWords s.cfg s.ram nodes addr with
      | some ws => feed ws s
      | none => andThen (feed (listPrefix s.cfg s.ram nodes addr) s)
          fun t => .fault (.dmaLinkedListBound (listHeader s.cfg s.ram nodes addr) t) := by
  induction nodes generalizing addr s with
  | zero => rfl
  | succ k ih =>
    obtain ⟨t, h1, f1⟩ := feed_next (nodeWords s.cfg s.ram addr) s
    simp only [listSend, nodeSend_node, h1, andThen_next, listWords, listPrefix, listHeader, feed_append]
    split
    · exact h1.symm
    · rw [ih, f1.cfg, f1.ram]
      cases listWords s.cfg s.ram k (ramAddr s.cfg (memRead s.ram addr)) with
      | none => simp
      | some ws => simp [feed_append, h1]

/-! ### CDROM to RAM (rule R424) -/

/-- Four pops take four bytes off the data FIFO, and draws where it is short. -/
theorem popDataWord_frame (s : State) : ∃ n, (popDataWord s).2
    = { s with draws := n, cd.dataFifo := s.cd.dataFifo.drop 4 } := by
  have pop : ∀ s : State, ∃ n, (popData s).2 = { s with draws := n, cd.dataFifo := s.cd.dataFifo.drop 1 } := by
    intro s
    cases h : s.cd.dataFifo with
    | nil =>
      refine ⟨s.draws + 1, ?_⟩
      rw [popData_nil s h]
      obtain ⟨gpu, dma, cd, cfg, ram, draws, out, readBuf, script⟩ := s
      obtain ⟨⟩ := cd
      simp_all
    | cons b bs => exact ⟨s.draws, by rw [popData_cons s b bs h]; rfl⟩
  obtain ⟨n0, h0⟩ := pop s
  obtain ⟨n1, h1⟩ := pop (popData s).2
  obtain ⟨n2, h2⟩ := pop (popData (popData s).2).2
  obtain ⟨n3, h3⟩ := pop (popData (popData (popData s).2).2).2
  refine ⟨n3, ?_⟩
  show (popData (popData (popData (popData s).2).2).2).2 = _
  rw [h3, h2, h1, h0]
  simp [List.drop_drop]

/-- Byte `b` of the word popped is byte `b` of the FIFO, where it is there. -/
theorem popDataWord_byte (s : State) (b : Nat) (x : Byte) (hb : b < 4) (hx : s.cd.dataFifo[b]? = some x) :
    wordByte (popDataWord s).1 b = x := by
  have pop : ∀ s : State, (popData s).2.cd.dataFifo = s.cd.dataFifo.drop 1
      ∧ ∀ x, s.cd.dataFifo[0]? = some x → (popData s).1 = x := by
    intro s
    cases h : s.cd.dataFifo with
    | nil => simp [popData_nil s h, h]
    | cons b bs => simp [popData_cons s b bs h]
  obtain ⟨w0, w1, w2, w3⟩ := wordByte_wordOfLE (popData s).1 (popData (popData s).2).1
    (popData (popData (popData s).2).2).1 (popData (popData (popData (popData s).2).2).2).1
  match b, hb, hx with
  | 0, _, hx => exact w0.trans ((pop s).2 x hx)
  | 1, _, hx => refine w1.trans ((pop _).2 x ?_); rw [(pop s).1]; simpa using hx
  | 2, _, hx => refine w2.trans ((pop _).2 x ?_); rw [(pop _).1, (pop _).1]; simpa using hx
  | 3, _, hx => refine w3.trans ((pop _).2 x ?_); rw [(pop _).1, (pop _).1, (pop _).1]; simpa using hx

/-- CDROM to RAM takes `4n` bytes off the data FIFO and stores `n` words, whose bytes are the FIFO's as far as they
reach. -/
theorem cdReceive_eq {c : Config} (h : c.accepts = true) {delta : Int} {n base : Nat} (i : Nat) {s : State}
    (hs : s.cfg = c) : ∃ ws d, ws.length = n
      ∧ (∀ j b x, j < n → b < 4 → s.cd.dataFifo[4 * j + b]? = some x → wordByte (ws.getD j 0#32) b = x)
      ∧ cdReceive delta n (wordAddr c base delta i) s
      = { s with
          draws := d
          cd.dataFifo := s.cd.dataFifo.drop (4 * n)
          ram := storeWords c base delta ws i s.ram } := by
  induction n generalizing i s with
  | zero => exact ⟨[], s.draws, rfl, by intro j b x h; omega, rfl⟩
  | succ n ih =>
    obtain ⟨d, hf⟩ := popDataWord_frame s
    have hc : (popDataWord s).2.cfg = c := by rw [hf]; exact hs
    have hr : (popDataWord s).2.ram = s.ram := by rw [hf]
    obtain ⟨ws, d', hl, hby, he⟩ := ih (i + 1) (s := { (popDataWord s).2 with
      ram := memWrite s.ram (wordAddr c base delta i) (popDataWord s).1 }) hc
    refine ⟨(popDataWord s).1 :: ws, d', by simp [hl], ?_, ?_⟩
    · intro j b x hj hb hx
      cases j with
      | zero => exact popDataWord_byte s b x hb (by simpa using hx)
      | succ j =>
        refine hby j b x (by omega) hb ?_
        rw [hf]
        simp only [List.getElem?_drop]
        rw [show 4 + (4 * j + b) = 4 * (j + 1) + b by omega]; exact hx
    show cdReceive delta n (stepAddr (popDataWord s).2.cfg (wordAddr c base delta i) delta)
      { (popDataWord s).2 with ram := memWrite (popDataWord s).2.ram (wordAddr c base delta i) (popDataWord s).1 } = _
    rw [hc, hr, stepAddr_wordAddr h]
    refine he.trans ?_
    rw [hf]
    simp only [List.drop_drop, storeWords]
    rw [show 4 + 4 * n = 4 * (n + 1) by omega]

/-! ### Ordering-table clear (rule R425) -/

/-- The words of a table of `n` entries from the `i`-th on: each the address of the next, the last the end marker. -/
def clearWords (c : Config) (base n i : Nat) : List Word :=
  match n with
  | 0 => []
  | k + 1 => (if k = 0 then 0x00FFFFFF#32 else BitVec.ofNat 32 (wordAddr c base (-4) (i + 1))) :: clearWords c base k (i + 1)

theorem clearWords_length (c : Config) (base n i : Nat) : (clearWords c base n i).length = n := by
  induction n generalizing i with
  | zero => rfl
  | succ n ih => simp [clearWords, ih]

/-- The clear stores the table's words in order. -/
theorem clearTable_eq {c : Config} (h : c.accepts = true) (base n i : Nat) (m : Memory) :
    clearTable c n (wordAddr c base (-4) i) m = storeWords c base (-4) (clearWords c base n i) i m := by
  induction n generalizing i m with
  | zero => rfl
  | succ n ih => simp only [clearTable, clearWords, storeWords, stepAddr_wordAddr h, ih]

/-! ### The canonical form of RAM (rule R107) -/

theorem clearTable_wf {c : Config} (h : c.accepts = true) (n : Nat) {a : Nat} (ha : a < c.ramSize) (h4 : a % 4 = 0)
    {m : Memory} (hm : Memory.wf c m = true) : Memory.wf c (clearTable c n a m) = true := by
  have he := clearTable_eq h a n 0 m
  rw [wordAddr_zero ha] at he
  rw [he]
  exact storeWords_wf h h4 (.inr rfl) _ _ hm

theorem gpuReceive_wf {delta : Int} (hd : delta = 4 ∨ delta = -4) (n : Nat) {a : Nat} {s : State}
    (h : s.cfg.accepts = true) (ha : a < s.cfg.ramSize) (h4 : a % 4 = 0) (hm : Memory.wf s.cfg s.ram = true) :
    Memory.wf s.cfg (gpuReceive delta n a s).ram = true := by
  have he := gpuReceive_eq (delta := delta) (n := n) (base := a) h 0 rfl
  rw [wordAddr_zero ha] at he
  rw [he]
  exact storeWords_wf h h4 hd _ _ hm

theorem cdReceive_wf {delta : Int} (hd : delta = 4 ∨ delta = -4) (n : Nat) {a : Nat} {s : State}
    (h : s.cfg.accepts = true) (ha : a < s.cfg.ramSize) (h4 : a % 4 = 0) (hm : Memory.wf s.cfg s.ram = true) :
    Memory.wf s.cfg (cdReceive delta n a s).ram = true := by
  obtain ⟨ws, d, -, -, he⟩ := cdReceive_eq (delta := delta) (n := n) (base := a) h 0 rfl
  rw [wordAddr_zero ha] at he
  rw [he]
  exact storeWords_wf h h4 hd _ _ hm

theorem ramStoreTxn_wf {a : Nat} {d : Byte} {s t : State} (hm : Memory.wf s.cfg s.ram = true)
    (h : ramStoreTxn a d s = .next t) : Memory.wf t.cfg t.ram = true := by
  unfold ramStoreTxn at h
  split at h
  · rename_i ha
    injection h with h
    subst h
    exact memSetByte_wf d hm ha
  · exact nomatch h

/-- RAM at reset is in canonical form: nothing has been written. -/
theorem reset_ram_wf : Memory.wf State.reset.cfg State.reset.ram = true := rfl

/-! ### Completion (rule R430) -/

@[simp] theorem dmaFinish_gpu (n : Fin 7) (s : State) : (dmaFinish n s).gpu = s.gpu := rfl
@[simp] theorem dmaFinish_cd (n : Fin 7) (s : State) : (dmaFinish n s).cd = s.cd := rfl
@[simp] theorem dmaFinish_cfg (n : Fin 7) (s : State) : (dmaFinish n s).cfg = s.cfg := rfl
@[simp] theorem dmaFinish_ram (n : Fin 7) (s : State) : (dmaFinish n s).ram = s.ram := rfl
@[simp] theorem dmaFinish_draws (n : Fin 7) (s : State) : (dmaFinish n s).draws = s.draws := rfl
@[simp] theorem dmaFinish_out (n : Fin 7) (s : State) : (dmaFinish n s).out = s.out := rfl
@[simp] theorem dmaFinish_readBuf (n : Fin 7) (s : State) : (dmaFinish n s).readBuf = s.readBuf := rfl
@[simp] theorem dmaFinish_script (n : Fin 7) (s : State) : (dmaFinish n s).script = s.script := rfl

end Sys2Proof.Machine
end

