-- ==== Sys2Proof/Laws/Ports.lean ====
section
/-! SUPPORT. The ports (rules R104, R105, R513): what the DMA window's addresses decode to under the parameters, a wider
access as the run of its bytes, the word those bytes are, BCD, and the disc's sectors (R515). -/
namespace Sys2Proof

theorem dmaAddr_toNat (n : Fin 7) {r : Nat} (hr : r < 4) (b : Fin 4) :
    (dmaAddr n r b).toNat = 0x10 * n.val + 4 * r + b.val := by
  simp only [dmaAddr, BitVec.toNat_ofNat]
  omega

/-- A register of a channel there is stands at its address. -/
theorem dmaMapped_dmaAddr {c : Config} {n : Fin 7} (hn : n.val < c.dmaChannels) {r : Nat} (hr : r < 4) (b : Fin 4) :
    dmaMapped c (dmaAddr n r b) = true := by
  unfold dmaMapped
  rw [dmaAddr_toNat n hr, if_pos (by omega)]
  simp only [decide_eq_true_eq]
  omega

theorem dmaByteOf_dmaAddr (n : Fin 7) {r : Nat} (hr : r < 4) (b : Fin 4) : dmaByteOf (dmaAddr n r b) = b := by
  apply Fin.ext
  simp only [dmaByteOf, dmaAddr_toNat n hr]
  omega

/-- A byte write to register word `r` of a channel there is. -/
theorem dmaWriteOf_dmaAddr {c : Config} {n : Fin 7} (hn : n.val < c.dmaChannels) {r : Nat} (hr : r < 4) (b : Fin 4)
    (d : Byte) : dmaWriteOf c (dmaAddr n r b) d
      = if r = 0 then .dmaMadrWrite n b d else if r = 1 then .dmaBcrWrite n b d
        else if r = 2 then .dmaChcrWrite n b d else .dmaReservedWrite n b d := by
  unfold dmaWriteOf
  have h7 : (0x10 * n.val + 4 * r + b.val) / 0x10 = n.val := by omega
  have h3 : (0x10 * n.val + 4 * r + b.val) % 0x10 / 4 = r := by omega
  simp only [dmaMapped_dmaAddr hn hr b, dmaAddr_toNat n hr, dmaByteOf_dmaAddr n hr, h7, h3, n.isLt, dif_pos,
    Bool.true_eq_false, if_false]
  match r, hr with
  | 0, _ => rfl
  | 1, _ => rfl
  | 2, _ => rfl
  | 3, _ => rfl

/-- A byte read of a register of a channel there is. -/
theorem dmaReadOf_dmaAddr {c : Config} {n : Fin 7} (hn : n.val < c.dmaChannels) {r : Nat} (hr : r < 4) (b : Fin 4) :
    dmaReadOf c (dmaAddr n r b) = .dmaRead (dmaAddr n r b) := if_pos (dmaMapped_dmaAddr hn hr b)

/-- An access where no register stands is the row DMA.UNMAPPED. -/
theorem dma_unmapped {c : Config} {a : BitVec 7} (h : dmaMapped c a = false) (d : Byte) :
    dmaWriteOf c a d = .dmaUnmapped a (some d) ∧ dmaReadOf c a = .dmaUnmapped a none := by
  unfold dmaWriteOf dmaReadOf
  simp [h]

namespace Machine

/-- A DMA write of several bytes is the run of its byte writes (rule R105). -/
theorem dmaWriteBytes_eq (a n i : Nat) (w : Word) (s : State) : dmaWriteBytes a n i w s
    = runForms ((List.range' i n).map fun j => .dmaWrite (BitVec.ofNat 7 (a + j)) (w.extractLsb' (8 * j) 8)) s := by
  induction n generalizing i s with
  | zero => rfl
  | succ n ih =>
    rw [List.range'_succ, List.map_cons]
    simp only [dmaWriteBytes, runForms, decode, ih]
    rfl

/-- A DMA read of several bytes is the run of its byte reads (rule R105). -/
theorem dmaReadBytes_eq (a n : Nat) (s : State) : dmaReadBytes a n s
    = runForms ((List.range n).map fun j => .dmaRead (BitVec.ofNat 7 (a + j))) s := by
  induction n generalizing a s with
  | zero => rfl
  | succ n ih =>
    rw [List.range_succ_eq_map, List.map_cons, List.map_map]
    simp only [dmaReadBytes, runForms, decode, ih, Function.comp_def, Nat.add_zero, Nat.succ_eq_add_one]
    simp only [Nat.add_assoc, Nat.add_comm 1]

/-- A byte read returns one byte; beside it only draws and events can change (rule R405). -/
theorem dmaReadOf_next (c : Config) (a : BitVec 7) (s : State) : ∃ x k o,
    exec (dmaReadOf c a) s = .next { s with readBuf := s.readBuf ++ [x], draws := k, out := o } := by
  unfold dmaReadOf
  split
  · simp only [exec, execDmaRead]
    split
    · split
      · exact ⟨_, s.draws, s.out, rfl⟩
      · exact ⟨_, _, s.out, rfl⟩
    · exact ⟨_, _, _, rfl⟩
  · exact ⟨_, _, _, rfl⟩

/-- So a read of several bytes returns as many. -/
theorem dmaReadBytes_next (a n : Nat) (s : State) : ∃ bs k o, bs.length = n
    ∧ dmaReadBytes a n s = .next { s with readBuf := s.readBuf ++ bs, draws := k, out := o } := by
  induction n generalizing a s with
  | zero => exact ⟨[], s.draws, s.out, rfl, by simp [dmaReadBytes]⟩
  | succ n ih =>
    obtain ⟨x, k, o, h⟩ := dmaReadOf_next s.cfg (BitVec.ofNat 7 a) s
    obtain ⟨bs, k', o', hl, h'⟩ := ih (a + 1) { s with readBuf := s.readBuf ++ [x], draws := k, out := o }
    refine ⟨x :: bs, k', o', by simp [hl], ?_⟩
    simp only [dmaReadBytes, h, andThen_next, h']
    simp

/-- The bytes of a value assembled little-endian (rule R108). -/
theorem wordOfBytesLE_byte (bs : List Byte) (i : Nat) (hi : i < 4) :
    (wordOfBytesLE bs).extractLsb' (8 * i) 8 = bs.getD i 0#8 := by
  induction bs generalizing i with
  | nil => simp [wordOfBytesLE]
  | cons b bs ih =>
    apply BitVec.eq_of_getLsbD_eq
    intro j hj
    cases i with
    | zero =>
      simp [hj, wordOfBytesLE]
      omega
    | succ i =>
      simp only [List.getD_cons_succ, wordOfBytesLE, ← ih i (by omega)]
      simp [hj, show 8 * (i + 1) + j < 32 by omega, show ¬ 8 * (i + 1) + j < 8 by omega,
        show 8 * (i + 1) + j - 8 = 8 * i + j by omega]
      rw [← BitVec.getLsbD_eq_getElem, BitVec.getLsbD_of_ge b _ (by omega)]
      simp

/-- What the host is sent: the word whose bytes were read. -/
theorem wordOfBytesLE_bytesOfWord (w : Word) : wordOfBytesLE (bytesOfWord w) = w := by
  apply BitVec.eq_of_getLsbD_eq
  intro j hj
  have h := congrArg (·.getLsbD (j % 8)) (wordOfBytesLE_byte (bytesOfWord w) (j / 8) (by omega))
  simp only [BitVec.getLsbD_extractLsb', Nat.div_add_mod, Nat.mod_lt j (by omega : 0 < 8), decide_true, Bool.true_and] at h
  rw [h]
  have hb : (bytesOfWord w).getD (j / 8) 0#8 = wordByte w (j / 8) := by
    have : j / 8 < 4 := by omega
    rcases hq : j / 8 with _ | _ | _ | _ | q <;> first | rfl | omega
  rw [hb]
  simp [wordByte, Nat.div_add_mod, Nat.mod_lt j (by omega : 0 < 8)]

/-- Four bytes stored one by one are the word (rules R105, R108). -/
theorem setWordByte_all (x w : Word) : setWordByte (setWordByte (setWordByte (setWordByte x 0 (wordByte w 0)) 1
    (wordByte w 1)) 2 (wordByte w 2)) 3 (wordByte w 3) = w := by
  apply BitVec.eq_of_getLsbD_eq
  intro i hi
  simp only [getLsbD_setWordByte _ _ _ _ hi, wordByte, BitVec.getLsbD_extractLsb']
  by_cases h0 : i < 8
  · simp [h0, show ¬ 8 ≤ i by omega, show ¬ 16 ≤ i by omega, show ¬ 24 ≤ i by omega]
  by_cases h1 : i < 16
  · simp [h1, show 8 ≤ i by omega, show ¬ 16 ≤ i by omega, show ¬ 24 ≤ i by omega, show i - 8 < 8 by omega,
      show 8 + (i - 8) = i by omega]
  by_cases h2 : i < 24
  · simp [h2, show 16 ≤ i by omega, show ¬ 24 ≤ i by omega, show i - 16 < 8 by omega,
      show 16 + (i - 16) = i by omega]
  · simp [show 24 ≤ i by omega, show i - 24 < 8 by omega, show 24 + (i - 24) = i by omega,
      show i < 32 by omega]

/-! ### BCD -/

/-- `toBcd` as a number (rule R513). -/
theorem toBcd_eq (n : Nat) : toBcd n = BitVec.ofNat 8 (16 * (n % 100 / 10) + n % 10) := by
  apply BitVec.eq_of_toNat_eq
  simp only [toBcd, BitVec.toNat_append, BitVec.toNat_ofNat]
  rw [Nat.shiftLeft_eq, ← Nat.shiftLeft_eq, ← Nat.shiftLeft_add_eq_or_of_lt (by omega), Nat.shiftLeft_eq]
  omega

/-! ### The disc -/

/-- A negative sector is not held (rule R515). -/
@[simp] theorem heldSector_of_neg {d : Disc} {x : Int} (h : x < 0) : heldSector d x = none := if_pos h

@[simp] theorem heldSector_of_nonneg {d : Disc} {x : Int} (h : 0 ≤ x) : heldSector d x = d.sectors.lookup x :=
  if_neg (by omega)

/-- The bytes of a sector that is not held are the read's draws. -/
theorem sectorBytes_of_not_held {s : State} {x : Int} (h : heldSector s.cfg.disc x = none) (lo n : Nat) :
    sectorBytes s x lo n = (List.range n).map fun i => Config.any8 (s.draws + (lo + i)) := by
  simp only [sectorBytes, sectorByte, h]

/-- The bytes of a held sector are its own, as far as it has them. -/
theorem sectorBytes_of_held {s : State} {x : Int} {bs : List Byte} (h : heldSector s.cfg.disc x = some bs) {lo n : Nat}
    (hn : lo + n ≤ bs.length) : sectorBytes s x lo n = (bs.drop lo).take n := by
  refine List.ext_getElem (by simp [sectorBytes]; omega) fun i hi _ => ?_
  have hi : i < n := by simpa [sectorBytes] using hi
  simp [sectorBytes, sectorByte, h, show lo + i < bs.length by omega]

end Machine
end Sys2Proof
end

