-- ==== Sys2Proof/Laws/Vram.lean ====
section
/-! SUPPORT. Rectangles of VRAM (rules R101, R250, R310): what the repeated pixel writes of a fill and of a copy set and
leave alone, the stages a copy goes through, what a rasterized batch depends on, and that all keep the canonical form. -/
namespace Sys2Proof.Machine

/-! ### Fill -/

theorem fillRow_succ (c : Config) (x y w : Nat) (p : Pixel) (v : Vram) :
    fillRow c x y (w + 1) p v = vramWrite c (fillRow c x y w p v) (x + w) y p := rfl

theorem fillPixels_succ (c : Config) (x y w h : Nat) (p : Pixel) (v : Vram) :
    fillPixels c x y w (h + 1) p v = fillRow c x (y + h) w p (fillPixels c x y w h p v) := rfl

/-- A filled row: its pixels, modulo the grid, hold the colour; every other pixel keeps its value. -/
theorem vramRead_fillRow {c : Config} (hw : 0 < c.vramWidth) (x y w : Nat) (p : Pixel) (v : Vram) (x' y' : Nat) :
    ((∃ i, i < w ∧ (x + i) % c.vramWidth = x' % c.vramWidth ∧ y % c.vramHeight = y' % c.vramHeight) →
        vramRead c (fillRow c x y w p v) x' y' = p)
      ∧ (¬ (∃ i, i < w ∧ (x + i) % c.vramWidth = x' % c.vramWidth ∧ y % c.vramHeight = y' % c.vramHeight) →
        vramRead c (fillRow c x y w p v) x' y' = vramRead c v x' y') := by
  induction w with
  | zero => exact ⟨fun ⟨i, hi, _⟩ => absurd hi (by omega), fun _ => rfl⟩
  | succ w ih =>
    rw [fillRow_succ, vramRead_vramWrite hw]
    constructor
    · rintro ⟨i, hi, hx, hy⟩
      split
      · rfl
      · rename_i hn
        refine ih.1 ⟨i, ?_, hx, hy⟩
        by_contra hge
        have : i = w := by omega
        subst this
        exact hn ⟨hx.symm, hy.symm⟩
    · intro h
      rw [if_neg (fun hc => h ⟨w, by omega, hc.1.symm, hc.2.symm⟩)]
      exact ih.2 fun ⟨i, hi, hx, hy⟩ => h ⟨i, by omega, hx, hy⟩

/-- A filled rectangle (rule R250): its pixels hold the colour; every other pixel keeps its value. -/
theorem vramRead_fillPixels {c : Config} (hw : 0 < c.vramWidth) (x y w h : Nat) (p : Pixel) (v : Vram) (x' y' : Nat) :
    (inRect c x y w h x' y' → vramRead c (fillPixels c x y w h p v) x' y' = p)
      ∧ (¬ inRect c x y w h x' y' → vramRead c (fillPixels c x y w h p v) x' y' = vramRead c v x' y') := by
  induction h with
  | zero => exact ⟨fun ⟨_, j, _, hj, _⟩ => absurd hj (by omega), fun _ => rfl⟩
  | succ h ih =>
    rw [fillPixels_succ]
    have hr := vramRead_fillRow hw x (y + h) w p (fillPixels c x y w h p v) x' y'
    constructor
    · rintro ⟨i, j, hi, hj, hx, hy⟩
      by_cases hin : ∃ i, i < w ∧ (x + i) % c.vramWidth = x' % c.vramWidth ∧
          (y + h) % c.vramHeight = y' % c.vramHeight
      · exact hr.1 hin
      · rw [hr.2 hin]
        refine ih.1 ⟨i, j, hi, ?_, hx, hy⟩
        by_contra hge
        have : j = h := by omega
        subst this
        exact hin ⟨i, hi, hx, hy⟩
    · intro hn
      rw [hr.2 fun ⟨i, hi, hx, hy⟩ => hn ⟨i, h, hi, by omega, hx, hy⟩]
      exact ih.2 fun ⟨i, j, hi, hj, hx, hy⟩ => hn ⟨i, j, hi, by omega, hx, hy⟩

theorem fillPixels_wf {c : Config} (hw : 0 < c.vramWidth) (hh : 0 < c.vramHeight) (x y w h : Nat) (p : Pixel) {v : Vram}
    (hv : Vram.wf c v = true) : Vram.wf c (fillPixels c x y w h p v) = true :=
  repeatFor_invariant (P := fun v => Vram.wf c v = true) hv fun _ _ h1 =>
    repeatFor_invariant (P := fun v => Vram.wf c v = true) h1 fun _ _ h2 => vramWrite_wf hw hh _ _ _ h2

/-! ### Copy -/

theorem copyRow_succ (c : Config) (sx sy dx dy w : Nat) (v : Vram) : copyRow c sx sy dx dy (w + 1) v
    = vramWrite c (copyRow c sx sy dx dy w v) (dx + w) dy (vramRead c (copyRow c sx sy dx dy w v) (sx + w) sy) := rfl

theorem copyPixels_succ (c : Config) (sx sy dx dy w h : Nat) (v : Vram) : copyPixels c sx sy dx dy w (h + 1) v
    = copyRow c sx (sy + h) dx (dy + h) w (copyPixels c sx sy dx dy w h v) := rfl

/-- A copied row changes no pixel outside the destination row. -/
theorem vramRead_copyRow_outside {c : Config} (hw : 0 < c.vramWidth) (sx sy dx dy w : Nat) (v : Vram) (x' y' : Nat)
    (h : ¬ (∃ i, i < w ∧ (dx + i) % c.vramWidth = x' % c.vramWidth ∧ dy % c.vramHeight = y' % c.vramHeight)) :
    vramRead c (copyRow c sx sy dx dy w v) x' y' = vramRead c v x' y' := by
  induction w with
  | zero => rfl
  | succ w ih =>
    rw [copyRow_succ, vramRead_vramWrite hw, if_neg (fun hc => h ⟨w, by omega, hc.1.symm, hc.2.symm⟩)]
    exact ih fun ⟨i, hi, hx, hy⟩ => h ⟨i, by omega, hx, hy⟩

/-- A copy changes no pixel outside the destination rectangle (rule R310). -/
theorem vramRead_copyPixels_outside {c : Config} (hw : 0 < c.vramWidth) (sx sy dx dy w h : Nat) (v : Vram)
    (x' y' : Nat) (hn : ¬ inRect c dx dy w h x' y') :
    vramRead c (copyPixels c sx sy dx dy w h v) x' y' = vramRead c v x' y' := by
  induction h with
  | zero => rfl
  | succ h ih =>
    rw [copyPixels_succ, vramRead_copyRow_outside hw _ _ _ _ _ _ _ _
      fun ⟨i, hi, hx, hy⟩ => hn ⟨i, h, hi, by omega, hx, hy⟩]
    exact ih fun ⟨i, j, hi, hj, hx, hy⟩ => hn ⟨i, j, hi, by omega, hx, hy⟩

/-- A row whose source pixels, as `v` holds them, are no pixel of the destination row: every destination pixel becomes
its source pixel. -/
theorem vramRead_copyRow {c : Config} (hw : 0 < c.vramWidth) (sx sy dx dy w : Nat) (v : Vram) (hfit : w ≤ c.vramWidth)
    (hd : ∀ i j, i < w → j < w → (sx + i) % c.vramWidth = (dx + j) % c.vramWidth →
      sy % c.vramHeight ≠ dy % c.vramHeight) (i : Nat) (hi : i < w) :
    vramRead c (copyRow c sx sy dx dy w v) (dx + i) dy = vramRead c v (sx + i) sy := by
  induction w with
  | zero => omega
  | succ w ih =>
    rw [copyRow_succ, vramRead_vramWrite hw]
    by_cases hiw : i = w
    · subst hiw
      rw [if_pos ⟨rfl, rfl⟩]
      exact vramRead_copyRow_outside hw _ _ _ _ _ _ _ _
        fun ⟨j, hj, hx, hy⟩ => hd i j (by omega) (by omega) hx.symm hy.symm
    · rw [if_neg, ih (by omega) (fun a b ha hb => hd a b (by omega) (by omega)) (by omega)]
      rintro ⟨hx, -⟩
      have h1 : (dx + w - (dx + i)) % c.vramWidth = 0 := Nat.sub_mod_eq_zero_of_mod_eq hx.symm
      rw [show dx + w - (dx + i) = w - i by omega, Nat.mod_eq_of_lt (by omega)] at h1
      omega

/-- A copy cut after `k` pixels: the rows before pixel `k`'s, then its row up to it. -/
def copyStage (c : Config) (sx sy dx dy w : Nat) (v : Vram) (k : Nat) : Vram :=
  copyRow c sx (sy + k / w) dx (dy + k / w) (k % w) (copyPixels c sx sy dx dy w (k / w) v)

theorem copyStage_zero (c : Config) (sx sy dx dy w : Nat) (v : Vram) : copyStage c sx sy dx dy w v 0 = v := by
  simp only [copyStage, Nat.zero_div, Nat.zero_mod]; rfl

theorem copyPixels_zero_width (c : Config) (sx sy dx dy h : Nat) (v : Vram) :
    copyPixels c sx sy dx dy 0 h v = v := by
  induction h with
  | zero => rfl
  | succ h ih => rw [copyPixels_succ, ih]; rfl

theorem copyStage_last (c : Config) (sx sy dx dy w h : Nat) (v : Vram) :
    copyStage c sx sy dx dy w v (w * h) = copyPixels c sx sy dx dy w h v := by
  rcases Nat.eq_zero_or_pos w with rfl | hw
  · rw [Nat.zero_mul, copyStage_zero, copyPixels_zero_width]
  · simp only [copyStage, Nat.mul_div_cancel_left h hw, Nat.mul_mod_right]; rfl

/-- The next stage writes one pixel, read from the stage before it (rule R310). -/
theorem copyStage_succ (c : Config) (sx sy dx dy : Nat) {w : Nat} (hw : 0 < w) (v : Vram) (k : Nat) :
    copyStage c sx sy dx dy w v (k + 1) = vramWrite c (copyStage c sx sy dx dy w v k) (dx + k % w) (dy + k / w)
      (vramRead c (copyStage c sx sy dx dy w v k) (sx + k % w) (sy + k / w)) := by
  simp only [copyStage]
  by_cases h : k % w + 1 = w
  · obtain ⟨hd, hm⟩ := (Nat.div_mod_unique (a := k + 1) hw).2
      ⟨show 0 + w * (k / w + 1) = k + 1 by rw [Nat.mul_succ]; have := Nat.mod_add_div k w; omega, hw⟩
    rw [hm, hd, copyPixels_succ, show copyRow c sx (sy + k / w) dx (dy + k / w) w = _ from congrArg _ h.symm]
    rfl
  · have hl := Nat.mod_lt k hw
    obtain ⟨hd, hm⟩ := (Nat.div_mod_unique (a := k + 1) hw).2
      ⟨show k % w + 1 + w * (k / w) = k + 1 by have := Nat.mod_add_div k w; omega, by omega⟩
    rw [hm, hd]
    rfl

theorem copyPixels_wf {c : Config} (hw : 0 < c.vramWidth) (hh : 0 < c.vramHeight) (sx sy dx dy w h : Nat) {v : Vram}
    (hv : Vram.wf c v = true) : Vram.wf c (copyPixels c sx sy dx dy w h v) = true :=
  repeatFor_invariant (P := fun v => Vram.wf c v = true) hv fun _ _ h1 =>
    repeatFor_invariant (P := fun v => Vram.wf c v = true) h1 fun _ _ h2 => vramWrite_wf hw hh _ _ _ h2

/-! ### Rasterized batches -/

/-- How VRAM is stored has no part in a list of pixel writes. -/
theorem vramRead_applyPixels_congr {c : Config} (hw : 0 < c.vramWidth) (ps : List PixelWrite) {u v : Vram}
    (h : ∀ x y, vramRead c u x y = vramRead c v x y) (x y : Nat) :
    vramRead c (applyPixels c ps u) x y = vramRead c (applyPixels c ps v) x y := by
  induction ps generalizing u v with
  | nil => exact h x y
  | cons p ps ih => exact ih fun x y => by simp only [vramRead_vramWrite hw, h]
/-- The last pixel write counts. -/
theorem vramRead_applyPixels_concat {c : Config} (hw : 0 < c.vramWidth) (ps : List PixelWrite) (p : PixelWrite) (v : Vram)
    (x y : Nat) : vramRead c (applyPixels c (ps ++ [p]) v) x y =
      if x % c.vramWidth = p.x % c.vramWidth ∧ y % c.vramHeight = p.y % c.vramHeight then p.p
      else vramRead c (applyPixels c ps v) x y := by
  induction ps generalizing v with
  | nil => exact vramRead_vramWrite hw _ _ _ _ _ _
  | cons q ps ih => exact ih _
/-- Rasterizing is a function of the pixels (rule R252, D12). -/
theorem rasterized_congr {c : Config} (hw : 0 < c.vramWidth) (b : DrawBatch) {u v : Vram}
    (h : ∀ x y, vramRead c u x y = vramRead c v x y) (x y : Nat) :
    vramRead c (rasterized c b u) x y = vramRead c (rasterized c b v) x y := by
  have : vramRead c u = vramRead c v := funext fun x => funext (h x)
  simp only [rasterized, this]
  exact vramRead_applyPixels_congr hw _ h x y
theorem rasterized_wf {c : Config} (hw : 0 < c.vramWidth) (hh : 0 < c.vramHeight) (b : DrawBatch) {v : Vram}
    (h : Vram.wf c v = true) : Vram.wf c (rasterized c b v) = true := applyPixels_wf hw hh _ h

end Sys2Proof.Machine
end

