-- ==== Sys2Proof/Tests/Slice0.lean ====
section
/-! SUPPORT. The tests: well-formedness refuses ill-formed terms, words written out from the spec's encodings decode,
single steps give the results of 95_test_vectors.md (named by their ids), and a witness meets the hypotheses of every
statement that has some. -/
namespace Sys2Proof.Tests
open Sys2Proof Sys2Proof.Machine

/-! ### Small states -/

/-- A disc for the tests: tracks 1 to 12, two listed starts, one listed position, no listed sector. -/
def testDisc : Disc where
  present     := true
  firstTrack  := 1
  lastTrack   := 12
  trackStarts := [(1, 0), (2, 6645)]
  positions   := [(0, ⟨0x01, 0x01, 0x00, 0x00, 0x00, 0x00, 0x02, 0x00⟩)]
  sectors     := []

/-- Power-on with that disc. -/
def base : State := State.powerOn { Config.default with disc := testDisc }

/-- Power-on with no disc. -/
def noDisc : State := State.powerOn { Config.default with disc := { testDisc with present := false } }

/-- One step on the encoded form `r`, seen through `f`; none where the step stops. -/
def see {α : Type} (r : Raw) (s : State) (f : State → α) : Option α :=
  match step (placeRaw r s) with
  | .next t => some (f t)
  | _ => none

/-- One step on the transaction `t`, seen through `f`. -/
def seeTxn {α : Type} (t : Txn) (s : State) (f : State → α) : Option α :=
  match step { s with script := [t] } with
  | .next u => some (f u)
  | _ => none

/-- The fault of one step on the transaction `t`, without the state it leaves. -/
def faultOf (t : Txn) (s : State) : Option (Nat × List Nat) :=
  match step { s with script := [t] } with
  | .fault (.unknownGP1 w _) => some (1, [w.toNat])
  | .fault (.hostAccessWidth off width _) => some (2, [off, width])
  | .fault (.dmaReservedSyncMode n _) => some (3, [n])
  | .fault (.dmaUnsupportedTransfer n dir sync _) => some (4, [n, dir, sync])
  | .fault (.dmaLinkedListBound a _) => some (5, [a])
  | _ => none

/-- A vertex of a batch, without its colour. -/
structure BatchVertex where
  x : Int
  y : Int
  u : Nat
  v : Nat
  deriving DecidableEq, Repr

/-- What a batch says beside its vertices. -/
structure Look where
  gouraud  : Bool
  textured : Bool
  semi     : Bool
  raw      : Bool
  palette  : Half
  page     : Half
  deriving DecidableEq, Repr

/-- The batches sent out: positions and texture coordinates. -/
def shapes (s : State) : List (List BatchVertex) :=
  s.out.filterMap fun
    | .batch b => some (b.vertices.map fun v => ⟨v.x, v.y, v.u, v.v⟩)
    | _ => none

/-- The colours of the batches' vertices. -/
def colours (s : State) : List (List Rgb) :=
  s.out.filterMap fun
    | .batch b => some (b.vertices.map fun v => ⟨v.r, v.g, v.b⟩)
    | _ => none

/-- What the batches say beside their vertices. -/
def looks (s : State) : List Look :=
  s.out.filterMap fun
    | .batch b => some ⟨b.gouraud, b.textured, b.semiTransparent, b.rawTexture, b.palette, b.page⟩
    | _ => none

/-- Power-on with the registers of a channel set. -/
def withChannel (n : Fin 7) (ch : DmaChannel) : State := setChannel base n ch

/-! ### Well-formedness: each check refuses an ill-formed term -/

theorem test_wf_polyline_too_long :
    (Instr.gp0LineFP false ⟨0, 0, 0⟩ (List.replicate 17 ⟨0, 0⟩)).wf Config.default = false := by decide
theorem test_wf_polyline_longest :
    (Instr.gp0LineFP false ⟨0, 0, 0⟩ (List.replicate 16 ⟨0, 0⟩)).wf Config.default = true := by decide
theorem test_wf_polyline_with_the_sentinel :
    (Instr.gp0LineFP false ⟨0, 0, 0⟩ [⟨1, 2⟩]).wf { Config.default with lineSentinel := 0x00020001#32 } = false := by
  decide
theorem test_wf_gouraud_polyline_without_first_vertex :
    (Instr.gp0LineGP false ⟨0, 0, 0⟩ none [⟨⟨1, 2, 3⟩, ⟨0, 0⟩⟩]).wf Config.default = false := by decide
theorem test_wf_gouraud_polyline_too_long :
    (Instr.gp0LineGP false ⟨0, 0, 0⟩ (some ⟨0, 0⟩) (List.replicate 16 ⟨⟨0, 0, 0⟩, ⟨0, 0⟩⟩)).wf Config.default
      = false := by decide
theorem test_wf_gouraud_polyline_longest :
    (Instr.gp0LineGP false ⟨0, 0, 0⟩ (some ⟨0, 0⟩) (List.replicate 15 ⟨⟨0, 0, 0⟩, ⟨0, 0⟩⟩)).wf Config.default
      = true := by decide
theorem test_wf_gouraud_polyline_with_the_sentinel :
    (Instr.gp0LineGP false ⟨0, 0, 0⟩ (some ⟨0, 0⟩) [⟨⟨1, 2, 3⟩, ⟨0, 0⟩⟩]).wf
      { Config.default with lineSentinel := 0x00030201#32 } = false := by decide
theorem test_wf_gp0_recognized : (Instr.gp0Unrecognized 0x02000000#32).wf Config.default = false := by decide
theorem test_wf_gp1_recognized : (Instr.gp1Unrecognized 0x10000000#32).wf Config.default = false := by decide
theorem test_wf_dma_read_unmapped : (Instr.dmaRead 0x78#7).wf Config.default = false := by decide
theorem test_wf_dma_mapped_unmapped : (Instr.dmaUnmapped 0x77#7 none).wf Config.default = false := by decide
theorem test_wf_dma_channel_absent :
    (Instr.dmaMadrWrite 4 0 0x12).wf { Config.default with dmaChannels := 4 } = false
      ∧ (Instr.dmaRead 0x40#7).wf { Config.default with dmaChannels := 4 } = false
      ∧ (Instr.dmaChcrWrite 3 3 0x12).wf { Config.default with dmaChannels := 4 } = true := by decide
theorem test_wf_cd_recognized : (Instr.cdUnrecognized 0x1B#8).wf Config.default = false := by decide
theorem test_wf_others :
    (Instr.gp0Unrecognized 0xE7000000#32).wf Config.default = true
      ∧ (Instr.gp1Unrecognized 0x0F000000#32).wf Config.default = true
      ∧ (Instr.dmaRead 0x77#7).wf Config.default = true ∧ (Instr.cdUnrecognized 0x58#8).wf Config.default = true := by
  decide

/-! ### Decoding: words written out from 30_encoding.md, 44_dma.md, 45_cdrom_ports.md and 46_cdrom_commands.md -/

theorem test_decode_gp0_one_word :
    decode Config.default (.gp0 [0x00ABCDEF#32]) = .instr .gp0Nop
    ∧ decode Config.default (.gp0 [0x01000000#32]) = .instr .gp0ClearCache
    ∧ decode Config.default (.gp0 [0x1F000000#32]) = .instr .gp0Irq
    ∧ decode Config.default (.gp0 [0xE100020A#32]) = .instr (.gp0DrawMode 0x20A)
    ∧ decode Config.default (.gp0 [0xE2000421#32]) = .instr (.gp0TexWindow ⟨1, 1, 1, 0⟩)
    ∧ decode Config.default (.gp0 [0xE3004010#32]) = .instr (.gp0DrawAreaTl ⟨16, 16⟩)
    ∧ decode Config.default (.gp0 [0xE403BD3F#32]) = .instr (.gp0DrawAreaBr ⟨319, 239⟩)
    ∧ decode Config.default (.gp0 [0xE5200400#32]) = .instr (.gp0DrawOffset ⟨0x400, 0x400⟩)
    ∧ decode Config.default (.gp0 [0xE6000002#32]) = .instr (.gp0Mask ⟨false, true⟩)
    ∧ decode Config.default (.gp0 [0xE7000000#32]) = .instr (.gp0Unrecognized 0xE7000000#32)
    ∧ decode Config.default (.gp0 [0x1E123456#32]) = .instr (.gp0Unrecognized 0x1E123456#32) := by decide

theorem test_decode_gp0_copies_and_fill :
    decode Config.default (.gp0 [0x02181008#32, 0x00050004#32, 0x00020001#32])
      = .instr (.gp0Fill ⟨0x08, 0x10, 0x18⟩ ⟨4, 5⟩ ⟨1, 2⟩)
    ∧ decode Config.default (.gp0 [0x9F000000#32, 0x00020001#32, 0x00040003#32, 0x00060005#32])
      = .instr (.gp0CopyVramVram ⟨1, 2⟩ ⟨3, 4⟩ ⟨5, 6⟩)
    ∧ decode Config.default (.gp0 [0xBF000000#32, 0x00020001#32, 0x00040003#32]) = .instr (.gp0CopyCpuVram ⟨1, 2⟩ ⟨3, 4⟩)
    ∧ decode Config.default (.gp0 [0xC0000000#32, 0x00020001#32, 0x00040003#32]) = .instr (.gp0CopyVramCpu ⟨1, 2⟩ ⟨3, 4⟩)
    ∧ decode Config.default (.gp0Data 0x44443333#32) = .instr (.gp0Data 0x3333 0x4444) := by decide

theorem test_decode_flat_polygons :
    decode Config.default (.gp0 [0x22030201#32, 0x00020001#32, 0x00040003#32, 0xF806F805#32])
      = .instr (.gp0PolyF3 true false ⟨1, 2, 3⟩ ⟨1, 2⟩ ⟨3, 4⟩ ⟨5, 6⟩)
    ∧ decode Config.default (.gp0 [0x25030201#32, 0x00020001#32, 0x7FC00201#32, 0x00040003#32, 0x00050403#32,
        0x00060005#32, 0x00000605#32])
      = .instr (.gp0PolyFT3 false true ⟨1, 2, 3⟩ ⟨1, 2⟩ ⟨1, 2⟩ 0x7FC0 ⟨3, 4⟩ ⟨3, 4⟩ 5 ⟨5, 6⟩ ⟨5, 6⟩)
    ∧ decode Config.default (.gp0 [0x28030201#32, 0x00020001#32, 0x00040003#32, 0x00060005#32, 0x00080007#32])
      = .instr (.gp0PolyF4 false false ⟨1, 2, 3⟩ ⟨1, 2⟩ ⟨3, 4⟩ ⟨5, 6⟩ ⟨7, 8⟩)
    ∧ decode Config.default (.gp0 [0x2F030201#32, 0x00020001#32, 0x7FC00201#32, 0x00040003#32, 0x00050403#32,
        0x00060005#32, 0x00000605#32, 0x00080007#32, 0x00000807#32])
      = .instr (.gp0PolyFT4 true true ⟨1, 2, 3⟩ ⟨1, 2⟩ ⟨1, 2⟩ 0x7FC0 ⟨3, 4⟩ ⟨3, 4⟩ 5 ⟨5, 6⟩ ⟨5, 6⟩ ⟨7, 8⟩ ⟨7, 8⟩) := by
  decide

theorem test_decode_gouraud_polygons :
    decode Config.default (.gp0 [0x30030201#32, 0x00020001#32, 0xFF060504#32, 0x00040003#32, 0x00090807#32,
        0x00060005#32])
      = .instr (.gp0PolyG3 false false ⟨1, 2, 3⟩ ⟨1, 2⟩ ⟨4, 5, 6⟩ ⟨3, 4⟩ ⟨7, 8, 9⟩ ⟨5, 6⟩)
    ∧ decode Config.default (.gp0 [0x34030201#32, 0x00020001#32, 0x7FC00201#32, 0x00060504#32, 0x00040003#32,
        0x00050403#32, 0x00090807#32, 0x00060005#32, 0x00000605#32])
      = .instr (.gp0PolyGT3 false false ⟨1, 2, 3⟩ ⟨1, 2⟩ ⟨1, 2⟩ 0x7FC0 ⟨4, 5, 6⟩ ⟨3, 4⟩ ⟨3, 4⟩ 5 ⟨7, 8, 9⟩ ⟨5, 6⟩ ⟨5, 6⟩)
    ∧ decode Config.default (.gp0 [0x38030201#32, 0x00020001#32, 0x00060504#32, 0x00040003#32, 0x00090807#32,
        0x00060005#32, 0x000C0B0A#32, 0x00080007#32])
      = .instr (.gp0PolyG4 false false ⟨1, 2, 3⟩ ⟨1, 2⟩ ⟨4, 5, 6⟩ ⟨3, 4⟩ ⟨7, 8, 9⟩ ⟨5, 6⟩ ⟨10, 11, 12⟩ ⟨7, 8⟩)
    ∧ decode Config.default (.gp0 [0x3C030201#32, 0x00020001#32, 0x7FC00201#32, 0x00060504#32, 0x00040003#32,
        0x00050403#32, 0x00090807#32, 0x00060005#32, 0x00000605#32, 0x000C0B0A#32, 0x00080007#32, 0x00000807#32])
      = .instr (.gp0PolyGT4 false false ⟨1, 2, 3⟩ ⟨1, 2⟩ ⟨1, 2⟩ 0x7FC0 ⟨4, 5, 6⟩ ⟨3, 4⟩ ⟨3, 4⟩ 5 ⟨7, 8, 9⟩ ⟨5, 6⟩ ⟨5, 6⟩
          ⟨10, 11, 12⟩ ⟨7, 8⟩ ⟨7, 8⟩) := by decide

theorem test_decode_lines :
    decode Config.default (.gp0 [0x45030201#32, 0x00020001#32, 0x00040003#32])
      = .instr (.gp0LineF2 false ⟨1, 2, 3⟩ ⟨1, 2⟩ ⟨3, 4⟩)
    ∧ decode Config.default (.gp0 [0x4A030201#32, 0x00020001#32, 0x00040003#32, 0x00060005#32])
      = .instr (.gp0LineFP true ⟨1, 2, 3⟩ [⟨1, 2⟩, ⟨3, 4⟩, ⟨5, 6⟩])
    ∧ decode Config.default (.gp0 [0x50030201#32, 0x00020001#32, 0x00060504#32, 0x00040003#32])
      = .instr (.gp0LineG2 false ⟨1, 2, 3⟩ ⟨1, 2⟩ ⟨4, 5, 6⟩ ⟨3, 4⟩)
    ∧ decode Config.default (.gp0 [0x58030201#32, 0x00020001#32, 0x00060504#32, 0x00040003#32])
      = .instr (.gp0LineGP false ⟨1, 2, 3⟩ (some ⟨1, 2⟩) [⟨⟨4, 5, 6⟩, ⟨3, 4⟩⟩])
    -- D-9: a colour word without its position is dropped
    ∧ decode Config.default (.gp0 [0x58030201#32, 0x00020001#32, 0x00060504#32])
      = .instr (.gp0LineGP false ⟨1, 2, 3⟩ (some ⟨1, 2⟩) [])
    ∧ decode Config.default (.gp0 [0x58030201#32]) = .instr (.gp0LineGP false ⟨1, 2, 3⟩ none []) := by decide

theorem test_decode_rectangles :
    decode Config.default (.gp0 [0x60030201#32, 0x00020001#32, 0x00200040#32])
      = .instr (.gp0RectVar false false ⟨1, 2, 3⟩ ⟨1, 2⟩ ⟨0x40, 0x20⟩)
    ∧ decode Config.default (.gp0 [0x64030201#32, 0x00020001#32, 0x7FC00403#32, 0x00200040#32])
      = .instr (.gp0RectTVar false false ⟨1, 2, 3⟩ ⟨1, 2⟩ ⟨3, 4⟩ 0x7FC0 ⟨0x40, 0x20⟩)
    ∧ decode Config.default (.gp0 [0x68030201#32, 0x000507FF#32]) = .instr (.gp0Rect1 false false ⟨1, 2, 3⟩ ⟨0x7FF, 5⟩)
    ∧ decode Config.default (.gp0 [0x6E030201#32, 0x00020001#32, 0x7FC00403#32])
      = .instr (.gp0RectT1 true false ⟨1, 2, 3⟩ ⟨1, 2⟩ ⟨3, 4⟩ 0x7FC0)
    ∧ decode Config.default (.gp0 [0x71030201#32, 0x00020001#32]) = .instr (.gp0Rect8 false true ⟨1, 2, 3⟩ ⟨1, 2⟩)
    ∧ decode Config.default (.gp0 [0x74030201#32, 0x00020001#32, 0x7FC00403#32])
      = .instr (.gp0RectT8 false false ⟨1, 2, 3⟩ ⟨1, 2⟩ ⟨3, 4⟩ 0x7FC0)
    ∧ decode Config.default (.gp0 [0x78030201#32, 0x00020001#32]) = .instr (.gp0Rect16 false false ⟨1, 2, 3⟩ ⟨1, 2⟩)
    ∧ decode Config.default (.gp0 [0x7C030201#32, 0x00020001#32, 0x7FC00403#32])
      = .instr (.gp0RectT16 false false ⟨1, 2, 3⟩ ⟨1, 2⟩ ⟨3, 4⟩ 0x7FC0) := by decide

theorem test_decode_gp1 :
    decode Config.default (.gp1 0x00FFFFFF#32) = .instr .gp1Reset
    ∧ decode Config.default (.gp1 0x01000000#32) = .instr .gp1ResetCmdBuffer
    ∧ decode Config.default (.gp1 0x02000000#32) = .instr .gp1AckIrq
    ∧ decode Config.default (.gp1 0x03000001#32) = .instr (.gp1DisplayEnable true)
    ∧ decode Config.default (.gp1 0x04000002#32) = .instr (.gp1DmaDirection 2)
    ∧ decode Config.default (.gp1 0x05FFFFFF#32) = .instr (.gp1DisplayArea 1023 511)
    ∧ decode Config.default (.gp1 0x06C60260#32) = .instr (.gp1HRange 0x260 0xC60)
    ∧ decode Config.default (.gp1 0x07040010#32) = .instr (.gp1VRange 0x010 0x100)
    ∧ decode Config.default (.gp1 0x08000024#32) = .instr (.gp1DisplayMode 0x24)
    ∧ decode Config.default (.gp1 0x09000001#32) = .instr (.gp1TexDisableAllow true)
    ∧ decode Config.default (.gp1 0x1F000007#32) = .instr (.gp1GpuInfo 7)
    ∧ decode Config.default (.gp1 0x0A000000#32) = .instr (.gp1Unrecognized 0x0A000000#32)
    ∧ decode Config.default (.gpuRead false) = .instr .gpuGpuread
    ∧ decode Config.default (.gpuRead true) = .instr .gpuGpustat := by decide

theorem test_decode_dma :
    decode Config.default (.dmaWrite 0x63#7 0xAB) = .instr (.dmaMadrWrite 6 3 0xAB)
    ∧ decode Config.default (.dmaWrite 0x25#7 0xAB) = .instr (.dmaBcrWrite 2 1 0xAB)
    ∧ decode Config.default (.dmaWrite 0x2B#7 0x01) = .instr (.dmaChcrWrite 2 3 0x01)
    ∧ decode Config.default (.dmaWrite 0x0C#7 0xFF) = .instr (.dmaReservedWrite 0 0 0xFF)
    ∧ decode Config.default (.dmaWrite 0x73#7 0xAB) = .instr (.dmaDpcrWrite 3 0xAB)
    ∧ decode Config.default (.dmaWrite 0x76#7 0xC0) = .instr (.dmaDicrWriteLow 2 0xC0)
    ∧ decode Config.default (.dmaWrite 0x77#7 0xFF) = .instr (.dmaDicrAck 0xFF)
    ∧ decode Config.default (.dmaWrite 0x78#7 0x12) = .instr (.dmaUnmapped 0x78 (some 0x12))
    ∧ decode Config.default (.dmaRead 0x7F#7) = .instr (.dmaUnmapped 0x7F none)
    ∧ decode Config.default (.dmaRead 0x0C#7) = .instr (.dmaRead 0x0C) := by decide

/-- Rule R8: with four channels, the fifth's addresses hold no register (assumption 3). -/
theorem test_decode_dma_channels :
    let c := { Config.default with dmaChannels := 4 }
    decode c (.dmaWrite 0x3B#7 0x01) = .instr (.dmaChcrWrite 3 3 0x01)
      ∧ decode c (.dmaWrite 0x40#7 0x01) = .instr (.dmaUnmapped 0x40 (some 0x01))
      ∧ decode c (.dmaRead 0x6F#7) = .instr (.dmaUnmapped 0x6F none)
      ∧ decode c (.dmaWrite 0x70#7 0x01) = .instr (.dmaDpcrWrite 0 0x01) := by decide

theorem test_decode_cd_ports :
    decode Config.default (.cdWrite 0 3 0xFF) = .instr (.cdIndexWrite 3)
    ∧ decode Config.default (.cdWrite 1 0 0x01) = .instr (.cdCommand 0x01)
    ∧ decode Config.default (.cdWrite 1 1 0x01) = .instr (.cdSoundmapData 0x01)
    ∧ decode Config.default (.cdWrite 1 2 0x05) = .instr (.cdSoundmapCoding 0x05)
    ∧ decode Config.default (.cdWrite 1 3 0x05) = .instr (.cdVolRr 0x05)
    ∧ decode Config.default (.cdWrite 2 0 0x42) = .instr (.cdParam 0x42)
    ∧ decode Config.default (.cdWrite 2 1 0xFF) = .instr (.cdIntEnable 0x1F)
    ∧ decode Config.default (.cdWrite 2 2 0x05) = .instr (.cdVolLl 0x05)
    ∧ decode Config.default (.cdWrite 2 3 0x05) = .instr (.cdVolRl 0x05)
    ∧ decode Config.default (.cdWrite 3 0 0x80) = .instr (.cdRequest 0x80)
    ∧ decode Config.default (.cdWrite 3 1 0x5F) = .instr (.cdIntAck true 0x1F)
    ∧ decode Config.default (.cdWrite 3 2 0x05) = .instr (.cdVolLr 0x05)
    ∧ decode Config.default (.cdWrite 3 3 0x20) = .instr (.cdVolApply 0x20)
    ∧ decode Config.default (.cdRead 0 2) = .instr .cdStatusRead ∧ decode Config.default (.cdRead 1 2) = .instr .cdResponseRead
    ∧ decode Config.default (.cdRead 2 2) = .instr .cdDataRead ∧ decode Config.default (.cdRead 3 2) = .instr .cdIntRead
    ∧ decode Config.default .shell = .instr .shell := by decide

theorem test_decode_cd_commands :
    [0x01, 0x02, 0x03, 0x06, 0x07, 0x08, 0x09, 0x0A, 0x0B, 0x0C, 0x0D, 0x0E].map (fun d => cdCommandOf d)
      = [.cdGetstat, .cdSetloc, .cdPlay, .cdReadn, .cdMotoron, .cdStop, .cdPause, .cdInit, .cdMute, .cdDemute,
          .cdSetfilter, .cdSetmode]
    ∧ [0x10, 0x11, 0x12, 0x13, 0x14, 0x15, 0x16, 0x19, 0x1A, 0x1B, 0x1E, 0x50, 0x57].map (fun d => cdCommandOf d)
      = [.cdGetlocl, .cdGetlocp, .cdSetsession, .cdGettn, .cdGettd, .cdSeekl, .cdSeekp, .cdTest, .cdGetid, .cdReads,
          .cdReadtoc, .cdUnlock 0, .cdUnlock 7]
    -- Q-33
    ∧ [0x00, 0x04, 0x05, 0x0F, 0x17, 0x18, 0x1C, 0x1D, 0x1F, 0x4F, 0x58, 0xFF].map (fun d => cdCommandOf d)
      = [.cdUnrecognized 0x00, .cdUnrecognized 0x04, .cdUnrecognized 0x05, .cdUnrecognized 0x0F, .cdUnrecognized 0x17,
          .cdUnrecognized 0x18, .cdUnrecognized 0x1C, .cdUnrecognized 0x1D, .cdUnrecognized 0x1F, .cdUnrecognized 0x4F,
          .cdUnrecognized 0x58, .cdUnrecognized 0xFF] := by decide

/-- L2.1: the word counts of rule R205, opcode by opcode. -/
theorem test_word_counts :
    ([0x20, 0x24, 0x28, 0x2C, 0x30, 0x34, 0x38, 0x3C] : List Nat).map
      (fun op => wordCount Config.default .polygon (BitVec.ofNat 32 (op * 0x1000000))) = [4, 7, 5, 9, 6, 9, 8, 12]
    ∧ ([0x40, 0x48, 0x50, 0x55, 0x58] : List Nat).map
      (fun op => wordCount Config.default .line (BitVec.ofNat 32 (op * 0x1000000))) = [3, 17, 4, 4, 32]
    ∧ ([0x60, 0x64, 0x68, 0x6C, 0x70, 0x74, 0x78, 0x7C] : List Nat).map
      (fun op => wordCount Config.default .rectangle (BitVec.ofNat 32 (op * 0x1000000))) = [3, 4, 2, 3, 2, 3, 2, 3] := by
  decide

/-! ### GP0: single steps (ids of 95_test_vectors.md) -/

/-- L1.1: the fill wraps at both edges. -/
theorem test_step_fill_wraps :
    see (.gp0 [0x020000FF#32, 0x01FF03FF#32, 0x00020002#32]) base (fun s => s.gpu.vram)
      = some [(0, 0x1F), (1023, 0x1F), (511 * 1024, 0x1F), (511 * 1024 + 1023, 0x1F)] := by decide
/-- F-2: the colour conversion. -/
theorem test_step_fill_colour :
    see (.gp0 [0x02181008#32, 0x00050005#32, 0x00010001#32]) base (fun s => s.gpu.vram)
      = some [(5 * 1024 + 5, 0x0C41)] := by decide
/-- F-4: a width of 0. -/
theorem test_step_fill_empty :
    see (.gp0 [0x02FFFFFF#32, 0#32, 0x00010000#32]) base (fun s => (s.gpu.vram, s.gpu.cmdState)) = some ([], .idle) := by
  decide
/-- D-3, D-4. -/
theorem test_step_nop_and_clear_cache :
    see (.gp0 [0x00ABCDEF#32]) base (fun s => (s.out, s.gpu.drawMode, s.gpu.cmdState)) = some ([], 0, .idle)
    ∧ see (.gp0 [0x01000000#32]) base (fun s => (s.out, s.gpu.drawMode, s.gpu.cmdState)) = some ([], 0, .idle) := by
  decide
/-- D-22. -/
theorem test_step_irq : see (.gp0 [0x1F000000#32]) base (fun s => gpustat s.gpu) = some 0x15802000#32 := by decide
/-- D-12. -/
theorem test_step_draw_mode :
    see (.gp0 [0xE1003FFF#32]) base (fun s => (s.gpu.drawMode, gpustat s.gpu)) = some (0x3FFF, 0x148027FF#32) := by decide
/-- D-14, D-15, D-16. -/
theorem test_step_window_and_area :
    see (.gp0 [0xE2FFFFFF#32]) base (fun s => s.gpu.texWindow) = some ⟨31, 31, 31, 31⟩
    ∧ see (.gp0 [0xE3004010#32]) base (fun s => s.gpu.drawAreaTL) = some ⟨16, 16⟩
    ∧ see (.gp0 [0xE403BD3F#32]) base (fun s => s.gpu.drawAreaBR) = some ⟨319, 239⟩ := by decide
/-- D-17, D-18. -/
theorem test_step_draw_offset :
    see (.gp0 [0xE50007FF#32]) base (fun s => (s.gpu.drawOffset.x.toInt, s.gpu.drawOffset.y.toInt)) = some (-1, 0)
    ∧ see (.gp0 [0xE5200400#32]) base (fun s => (s.gpu.drawOffset.x.toInt, s.gpu.drawOffset.y.toInt))
      = some (-1024, -1024) := by decide
/-- D-20, D-21. -/
theorem test_step_mask :
    see (.gp0 [0xE6000003#32]) base (fun s => gpustat s.gpu) = some 0x14803800#32
    ∧ see (.gp0 [0xE6FFFFFC#32]) base (fun s => s.gpu.mask) = some ⟨false, false⟩ := by decide
/-- D-1. -/
theorem test_step_gp0_unrecognized :
    see (.gp0 [0x10000000#32]) base (fun s => (s.out, s.gpu.cmdState))
      = some ([.log (.unknownGP0 0x10000000#32)], .idle) := by decide
/-- D-5: an argument is stored, not decoded. -/
theorem test_step_argument_word :
    seeTxn (.write .gpu 0 .w32 0xE1000005#32) (collecting .polygon [0x20000000#32] 4 base)
      (fun s => (argAt s.gpu.args 1, s.gpu.drawMode, s.gpu.cmdState, s.gpu.currArg, s.gpu.argCount))
      = some (0xE1000005#32, 0, .collect .polygon, 2, 4) := by decide

/-- P-8: 11-bit signed positions, ignored bits; P-1: the attributes. -/
theorem test_step_poly_f3 :
    see (.gp0 [0x200000FF#32, 0x07FF07FF#32, 0x04000400#32, 0xF800F800#32]) base (fun s => (shapes s, colours s))
      = some ([[⟨-1, -1, 0, 0⟩, ⟨-1024, -1024, 0, 0⟩, ⟨0, 0, 0, 0⟩]], [[⟨255, 0, 0⟩, ⟨255, 0, 0⟩, ⟨255, 0, 0⟩]])
    ∧ see (.gp0 [0x21FFFFFF#32, 0#32, 0x10#32, 0x100000#32]) base looks
      = some [⟨false, false, false, true, 0, 0⟩] := by decide
/-- P-5. -/
theorem test_step_poly_ft3 :
    see (.gp0 [0x24808080#32, 0#32, 0x7FC00000#32, 0x10#32, 0x00050010#32, 0x00100000#32, 0x1000#32]) base
      (fun s => (shapes s, looks s))
      = some ([[⟨0, 0, 0, 0⟩, ⟨16, 0, 16, 0⟩, ⟨0, 16, 0, 16⟩]], [⟨false, true, false, false, 0x7FC0, 5⟩]) := by decide
/-- P-4. -/
theorem test_step_poly_f4 :
    see (.gp0 [0x28FFFFFF#32, 0#32, 0x10#32, 0x00100000#32, 0x00100010#32]) base shapes
      = some [[⟨0, 0, 0, 0⟩, ⟨16, 0, 0, 0⟩, ⟨0, 16, 0, 0⟩], [⟨16, 0, 0, 0⟩, ⟨0, 16, 0, 0⟩, ⟨16, 16, 0, 0⟩]] := by decide
/-- The words of P-5 with a fourth vertex (rules R257, R280). -/
theorem test_step_poly_ft4 :
    see (.gp0 [0x2C808080#32, 0#32, 0x7FC00000#32, 0x10#32, 0x00050010#32, 0x00100000#32, 0x1000#32, 0x00100010#32,
        0x1010#32]) base (fun s => (shapes s, looks s))
      = some ([[⟨0, 0, 0, 0⟩, ⟨16, 0, 16, 0⟩, ⟨0, 16, 0, 16⟩], [⟨16, 0, 16, 0⟩, ⟨0, 16, 0, 16⟩, ⟨16, 16, 16, 16⟩]],
          [⟨false, true, false, false, 0x7FC0, 5⟩, ⟨false, true, false, false, 0x7FC0, 5⟩]) := by decide
/-- P-6, P-7. -/
theorem test_step_poly_g3 :
    see (.gp0 [0x300000FF#32, 0#32, 0xFF00FF00#32, 0x10#32, 0x00FF0000#32, 0x00100000#32]) base
      (fun s => (colours s, looks s))
      = some ([[⟨255, 0, 0⟩, ⟨0, 255, 0⟩, ⟨0, 0, 255⟩]], [⟨true, false, false, false, 0, 0⟩]) := by decide
/-- Rules R259, R280. -/
theorem test_step_poly_gt3 :
    see (.gp0 [0x34000001#32, 0#32, 0x00070000#32, 0x00000002#32, 0x10#32, 0x00050010#32, 0x00000003#32, 0x00100000#32,
        0x1000#32]) base (fun s => (shapes s, colours s, looks s))
      = some ([[⟨0, 0, 0, 0⟩, ⟨16, 0, 16, 0⟩, ⟨0, 16, 0, 16⟩]], [[⟨1, 0, 0⟩, ⟨2, 0, 0⟩, ⟨3, 0, 0⟩]],
          [⟨true, true, false, false, 7, 5⟩]) := by decide
/-- Rules R260, R280. -/
theorem test_step_poly_g4 :
    see (.gp0 [0x38000001#32, 0#32, 0x00000002#32, 0x10#32, 0x00000003#32, 0x00100000#32, 0x00000004#32, 0x00100010#32])
      base colours = some [[⟨1, 0, 0⟩, ⟨2, 0, 0⟩, ⟨3, 0, 0⟩], [⟨2, 0, 0⟩, ⟨3, 0, 0⟩, ⟨4, 0, 0⟩]] := by decide
/-- Rules R261, R280. -/
theorem test_step_poly_gt4 :
    see (.gp0 [0x3C000001#32, 0#32, 0x00070000#32, 0x00000002#32, 0x10#32, 0x00050010#32, 0x00000003#32, 0x00100000#32,
        0x1000#32, 0x00000004#32, 0x00100010#32, 0x1010#32]) base (fun s => (shapes s, colours s, looks s))
      = some ([[⟨0, 0, 0, 0⟩, ⟨16, 0, 16, 0⟩, ⟨0, 16, 0, 16⟩], [⟨16, 0, 16, 0⟩, ⟨0, 16, 0, 16⟩, ⟨16, 16, 16, 16⟩]],
          [[⟨1, 0, 0⟩, ⟨2, 0, 0⟩, ⟨3, 0, 0⟩], [⟨2, 0, 0⟩, ⟨3, 0, 0⟩, ⟨4, 0, 0⟩]],
          [⟨true, true, false, false, 7, 5⟩, ⟨true, true, false, false, 7, 5⟩]) := by decide

/-- D-6: a single line takes the sentinel as a vertex; N-4: bits 26 and 24 are ignored. -/
theorem test_step_line_f2 :
    see (.gp0 [0x40000000#32, 0x55555555#32, 0#32]) base shapes = some [[⟨-683, -683, 0, 0⟩, ⟨0, 0, 0, 0⟩]]
    ∧ see (.gp0 [0x45FFFFFF#32, 0#32, 0x10#32]) base looks = some [⟨false, false, false, false, 0, 0⟩] := by decide
/-- N-2. -/
theorem test_step_line_g2 :
    see (.gp0 [0x500000FF#32, 0#32, 0x00FF0000#32, 0x20#32]) base (fun s => (shapes s, colours s))
      = some ([[⟨0, 0, 0, 0⟩, ⟨32, 0, 0, 0⟩]], [[⟨255, 0, 0⟩, ⟨0, 0, 255⟩]]) := by decide
/-- L1.8, D-8. -/
theorem test_step_line_fp :
    see (.gp0 [0x48FFFFFF#32, 0#32, 0x10#32, 0x00100010#32]) base (fun s => (shapes s, s.gpu.cmdState))
      = some ([[⟨0, 0, 0, 0⟩, ⟨16, 0, 0, 0⟩], [⟨16, 0, 0, 0⟩, ⟨16, 16, 0, 0⟩]], .idle)
    ∧ see (.gp0 [0x48000000#32, 0#32]) base (fun s => (shapes s, s.gpu.cmdState)) = some ([], .idle) := by decide
/-- N-5, D-9. -/
theorem test_step_line_gp :
    see (.gp0 [0x580000FF#32, 0#32, 0x0000FF00#32, 0x10#32]) base (fun s => (shapes s, colours s))
      = some ([[⟨0, 0, 0, 0⟩, ⟨16, 0, 0, 0⟩]], [[⟨255, 0, 0⟩, ⟨0, 255, 0⟩]])
    ∧ see (.gp0 [0x58000000#32, 0#32, 0x0000FF00#32]) base (fun s => (shapes s, s.gpu.cmdState)) = some ([], .idle) := by
  decide

/-- S-1, S-2. -/
theorem test_step_rect_var_and_1 :
    see (.gp0 [0x6000FF00#32, 0x00100010#32, 0x00200040#32]) base shapes
      = some [[⟨16, 16, 0, 0⟩, ⟨80, 16, 0, 0⟩, ⟨16, 48, 0, 0⟩], [⟨80, 16, 0, 0⟩, ⟨16, 48, 0, 0⟩, ⟨80, 48, 0, 0⟩]]
    ∧ see (.gp0 [0x68FFFFFF#32, 0x000507FF#32]) base shapes
      = some [[⟨-1, 5, 0, 0⟩, ⟨0, 5, 0, 0⟩, ⟨-1, 6, 0, 0⟩], [⟨0, 5, 0, 0⟩, ⟨-1, 6, 0, 0⟩, ⟨0, 6, 0, 0⟩]] := by decide
/-- S-3, S-4. -/
theorem test_step_rect_8_and_16 :
    see (.gp0 [0x70000000#32, 0#32]) base shapes
      = some [[⟨0, 0, 0, 0⟩, ⟨8, 0, 0, 0⟩, ⟨0, 8, 0, 0⟩], [⟨8, 0, 0, 0⟩, ⟨0, 8, 0, 0⟩, ⟨8, 8, 0, 0⟩]]
    ∧ see (.gp0 [0x78000000#32, 0x00100010#32]) base shapes
      = some [[⟨16, 16, 0, 0⟩, ⟨32, 16, 0, 0⟩, ⟨16, 32, 0, 0⟩], [⟨32, 16, 0, 0⟩, ⟨16, 32, 0, 0⟩, ⟨32, 32, 0, 0⟩]] := by
  decide
/-- S-5, S-6. -/
theorem test_step_rect_tvar_and_t1 :
    see (.gp0 [0x64808080#32, 0#32, 0x7FC0F0F0#32, 0x00200020#32]) base (fun s => (shapes s, looks s))
      = some ([[⟨0, 0, 240, 240⟩, ⟨32, 0, 272, 240⟩, ⟨0, 32, 240, 272⟩],
               [⟨32, 0, 272, 240⟩, ⟨0, 32, 240, 272⟩, ⟨32, 32, 272, 272⟩]],
          [⟨false, true, false, false, 0x7FC0, 0⟩, ⟨false, true, false, false, 0x7FC0, 0⟩])
    ∧ see (.gp0 [0x6C808080#32, 0#32, 0x302#32]) base shapes
      = some [[⟨0, 0, 2, 3⟩, ⟨1, 0, 3, 3⟩, ⟨0, 1, 2, 4⟩], [⟨1, 0, 3, 3⟩, ⟨0, 1, 2, 4⟩, ⟨1, 1, 3, 4⟩]] := by decide
/-- S-7, S-8. -/
theorem test_step_rect_t8_and_t16 :
    see (.gp0 [0x74808080#32, 0#32, 0#32]) { base with gpu.drawMode := 5 } looks
      = some [⟨false, true, false, false, 0, 5⟩, ⟨false, true, false, false, 0, 5⟩]
    ∧ see (.gp0 [0x7C808080#32, 0#32, 0x1010#32]) base shapes
      = some [[⟨0, 0, 16, 16⟩, ⟨16, 0, 32, 16⟩, ⟨0, 16, 16, 32⟩], [⟨16, 0, 32, 16⟩, ⟨0, 16, 16, 32⟩, ⟨16, 16, 32, 32⟩]] := by
  decide

/-- L1.7: too wide, too high. -/
theorem test_step_copy_too_large :
    see (.gp0 [0x80000000#32, 0#32, 0#32, 0x00010401#32]) base (fun s => (s.out, s.gpu.vram, s.gpu.cmdState))
      = some ([.log (.copyTooLarge 1025 1)], [], .idle)
    ∧ see (.gp0 [0x80000000#32, 0#32, 0#32, 0x02010001#32]) base (fun s => (s.out, s.gpu.vram, s.gpu.cmdState))
      = some ([.log (.copyTooLarge 1 513)], [], .idle) := by decide
/-- T-11: an overlapping copy sees its own writes. -/
theorem test_step_copy_overlap :
    see (.gp0 [0x80000000#32, 0#32, 1#32, 0x00010002#32]) { base with gpu.vram := [(0, 0xA), (1, 0xB)] }
      (fun s => s.gpu.vram) = some [(0, 0xA), (1, 0xA), (2, 0xA)] := by decide
/-- L1.6, T-2. -/
theorem test_step_copy_cpu_vram :
    see (.gp0 [0xA0000000#32, 0#32, 0x00010002#32]) base (fun s => (s.gpu.cmdState, s.gpu.cursor))
      = some (.cpuToVramData, ⟨0, 0, 2, 1, 0, 0⟩)
    ∧ see (.gp0 [0xA0000000#32, 0#32, 0x00010000#32]) base (fun s => s.gpu.cmdState) = some .idle := by decide
/-- L1.6; T-1's second data word: the high half is discarded. -/
theorem test_step_data :
    see (.gp0Data 0x7FFF001F#32) { base with gpu.cursor := ⟨0, 0, 2, 1, 0, 0⟩ }
      (fun s => (s.gpu.vram, s.gpu.cmdState)) = some ([(0, 0x1F), (1, 0x7FFF)], .idle)
    ∧ see (.gp0Data 0x44443333#32) { base with gpu.cursor := ⟨0, 0, 3, 1, 2, 0⟩ }
      (fun s => (s.gpu.vram, s.gpu.cmdState)) = some ([(2, 0x3333)], .idle) := by decide
/-- T-6, T-8. -/
theorem test_step_copy_vram_cpu :
    see (.gp0 [0xC0000000#32, 0#32, 0x00010003#32]) base (fun s => (s.gpu.readMode, s.gpu.cursor))
      = some (.vramRead, ⟨0, 0, 3, 1, 0, 0⟩)
    ∧ see (.gp0 [0xC0000000#32, 0#32, 0x00010000#32]) base (fun s => s.gpu.readMode) = some .normal := by decide
/-- T-6's first read; T-7: the latch. -/
theorem test_step_gpuread :
    see (.gpuRead false) { base with
        gpu.readMode := .vramRead, gpu.cursor := ⟨0, 0, 3, 1, 0, 0⟩, gpu.vram := [(0, 0x1111), (1, 0x2222)] }
      (fun s => (s.out, s.gpu.readMode)) = some ([.returned .w32 0x22221111#32], .vramRead)
    ∧ see (.gpuRead false) { base with gpu.gpuReadLatch := 2#32 } (fun s => s.out) = some [.returned .w32 2#32] := by
  decide

/-! ### GP1, GPUSTAT, the GPU step -/

/-- G-1, G-7. -/
theorem test_step_gpustat :
    see (.gpuRead true) base (fun s => s.out) = some [.returned .w32 0x14802000#32]
    ∧ see (.gpuRead true) { base with gpu.readMode := .vramRead, gpu.dmaDirection := 3 } (fun s => s.out)
      = some [.returned .w32 0x7E802000#32] := by decide
/-- H-1, H-2. -/
theorem test_step_gp1_reset :
    see (.gp1 0#32) { collecting .polygon [0x28FFFFFF#32] 5 base with gpu.texDisableAllowed := true }
      (fun s => (s.gpu.cmdState, s.gpu.argCount, s.gpu.texDisableAllowed, gpustat s.gpu))
      = some (.idle, 0, true, 0x14802000#32) := by decide
/-- T-4: the data phase is abandoned. -/
theorem test_step_gp1_reset_cmd_buffer :
    see (.gp1 0x01000000#32) { base with gpu.cmdState := .cpuToVramData } (fun s => s.gpu.cmdState) = some .idle := by decide
/-- G-10. -/
theorem test_step_gp1_ack_irq :
    see (.gp1 0x02000000#32) { base with gpu.irq := true, gpu.irqSignalled := true }
      (fun s => (gpustat s.gpu, s.gpu.irqSignalled)) = some (0x14802000#32, false) := by decide
/-- G-2, G-3. -/
theorem test_step_gp1_display_enable :
    see (.gp1 0x03000000#32) base (fun s => gpustat s.gpu) = some 0x14002000#32
    ∧ see (.gp1 0x03000001#32) base (fun s => gpustat s.gpu) = some 0x14802000#32 := by decide
/-- G-4, G-6. -/
theorem test_step_gp1_dma_direction :
    see (.gp1 0x04000001#32) base (fun s => gpustat s.gpu) = some 0x36802000#32
    ∧ see (.gp1 0x04000003#32) base (fun s => gpustat s.gpu) = some 0x74802000#32 := by decide
/-- H-3, H-5, H-6. -/
theorem test_step_gp1_display_ranges :
    see (.gp1 0x05040000#32) base (fun s => (s.gpu.displayAreaX, s.gpu.displayAreaY)) = some (0, 256)
    ∧ see (.gp1 0x06C60260#32) base (fun s => (s.gpu.hRangeX1, s.gpu.hRangeX2)) = some (0x260, 0xC60)
    ∧ see (.gp1 0x07040010#32) base (fun s => (s.gpu.vRangeY1, s.gpu.vRangeY2, s.gpu.hRangeX1))
      = some (0x010, 0x100, 0x200) := by decide
/-- G-11, G-14. -/
theorem test_step_gp1_display_mode :
    see (.gp1 0x08000001#32) base (fun s => gpustat s.gpu) = some 0x14822000#32
    ∧ see (.gp1 0x08000024#32) base (fun s => gpustat s.gpu) = some 0x14C80000#32 := by decide
/-- G-16. -/
theorem test_step_gp1_tex_disable :
    see (.gp1 0x09000001#32) { base with gpu.drawMode := 0x800 } (fun s => gpustat s.gpu) = some 0x1480A000#32 := by decide
/-- H-9, H-11, H-13. -/
theorem test_step_gp1_gpu_info :
    see (.gp1 0x10000004#32) { base with gpu.drawAreaBR := ⟨319, 239⟩ } (fun s => s.gpu.gpuReadLatch)
      = some 0x0003BD3F#32
    ∧ see (.gp1 0x10000005#32) { base with gpu.drawOffset := ⟨0x7FF, 0x7FF⟩ } (fun s => s.gpu.gpuReadLatch)
      = some 0x003FFFFF#32
    ∧ see (.gp1 0x10000000#32) { base with gpu.gpuReadLatch := 2#32 } (fun s => s.gpu.gpuReadLatch) = some 2#32 := by decide
/-- H-15, H-16. -/
theorem test_step_gp1_unrecognized :
    faultOf (.write .gpu 4 .w32 0x0A000000#32) base = some (1, [0x0A000000])
    ∧ faultOf (.write .gpu 4 .w32 0x20000000#32) base = some (1, [0x20000000]) := by decide
/-- K-1, K-7. -/
theorem test_step_gpu_tick :
    seeTxn (.tick .gpu 3413) base (fun s => (s.out, s.gpu.line, gpustat s.gpu)) = some ([.vblank false], 1, 0x94802000#32)
    ∧ seeTxn (.tick .gpu 3413000) base (fun s => (s.out, s.gpu.line, s.gpu.frame)) = some ([.vblank true], 0, 1) := by decide
/-- K-10: one trigger, then none. -/
theorem test_step_gpu_irq :
    seeTxn (.tick .gpu 0) { base with gpu.irq := true } (fun s => s.out) = some [.trigger .gpu, .vblank false]
    ∧ seeTxn (.tick .gpu 0) { base with gpu.irq := true, gpu.irqSignalled := true } (fun s => s.out)
      = some [.vblank false] := by decide

/-! ### DMA -/

/-- M-1, M-3. -/
theorem test_step_dma_words :
    seeTxn (.read .dma 0x70 .w32) base (fun s => s.out) = some [.returned .w32 0x07654321#32]
    ∧ seeTxn (.write .dma 0x74 .w32 0x00FF8000#32) base (fun s => s.dma.dicr) = some 0x00FF8000#32 := by decide
/-- Rules R401, R402, R108, R410: one byte of a register. -/
theorem test_step_dma_bytes :
    see (.dmaWrite 0x61#7 0x01) base (fun s => (channel s 6).madr) = some 0x100#32
    ∧ see (.dmaWrite 0x27#7 0x02) base (fun s => (channel s 2).bcr) = some 0x02000000#32
    ∧ see (.dmaWrite 0x0C#7 0xFF) base (fun s => s.dma) = some base.dma
    ∧ see (.dmaWrite 0x70#7 0x00) base (fun s => s.dma.dpcr) = some 0x07654300#32 := by decide
/-- M-4's last byte: the ordering table. -/
theorem test_step_dma_ordering_table :
    see (.dmaWrite 0x6B#7 0x11) (withChannel 6 ⟨0x100#32, 4#32, 2#32⟩)
      (fun s => (s.ram, channel s 6, s.dma.dicr))
      = some ([(0xF4, 0xFF), (0xF5, 0xFF), (0xF6, 0xFF), (0xF7, 0x00), (0xF8, 0xF4), (0xF9, 0), (0xFA, 0), (0xFB, 0),
          (0xFC, 0xF8), (0xFD, 0), (0xFE, 0), (0xFF, 0), (0x100, 0xFC), (0x101, 0), (0x102, 0), (0x103, 0)],
          ⟨0x100#32, 4#32, 2#32⟩, 0#32) := by decide
/-- M-7, M-8: no start. -/
theorem test_step_dma_no_start :
    see (.dmaWrite 0x6B#7 0x01) (withChannel 6 ⟨0#32, 0#32, 2#32⟩) (fun s => (s.ram, (channel s 6).chcr))
      = some ([], 0x01000002#32)
    ∧ see (.dmaWrite 0x6B#7 0x10) (withChannel 6 ⟨0#32, 0#32, 2#32⟩) (fun s => (s.ram, (channel s 6).chcr))
      = some ([], 0x10000002#32) := by decide
/-- M-9 to M-12. -/
theorem test_step_dma_faults :
    faultOf (.write .dma 0x2B .w8 0x01#32) (withChannel 2 ⟨0#32, 0#32, 0x601#32⟩) = some (3, [2])
    ∧ faultOf (.write .dma 0x2B .w8 0x01#32) (withChannel 2 ⟨0#32, 0#32, 0x400#32⟩) = some (4, [2, 0, 2])
    ∧ faultOf (.write .dma 0x3B .w8 0x11#32) (withChannel 3 ⟨0#32, 0#32, 1#32⟩) = some (4, [3, 1, 0])
    ∧ faultOf (.write .dma 0x6B .w8 0x01#32) (withChannel 6 ⟨0#32, 0#32, 0x202#32⟩) = some (4, [6, 0, 1]) := by decide
/-- M-21 with two headers allowed instead of 65536: the list that names itself. -/
theorem test_step_dma_list_bound :
    faultOf (.write .dma 0x2B .w8 0x01#32)
      { withChannel 2 ⟨0x3000#32, 0#32, 0x401#32⟩ with
        cfg.dmaLlMaxNodes := 2, ram := [(0x3000, 0), (0x3001, 0x30), (0x3002, 0), (0x3003, 0)] } = some (5, [0x3000]) := by
  decide
/-- M-20: a list of one word. -/
theorem test_step_dma_list :
    see (.dmaWrite 0x2B#7 0x01)
      { withChannel 2 ⟨0x2000#32, 0#32, 0x401#32⟩ with
        ram := [(0x2000, 0x10), (0x2001, 0x20), (0x2002, 0), (0x2003, 1), (0x2004, 5), (0x2005, 0), (0x2006, 0),
          (0x2007, 0xE1), (0x2010, 0xFF), (0x2011, 0xFF), (0x2012, 0xFF), (0x2013, 0)] }
      (fun s => (s.gpu.drawMode, (channel s 2).chcr)) = some (5, 0x401#32) := by decide
/-- M-22: GPU to RAM. -/
theorem test_step_dma_receive :
    see (.dmaWrite 0x2B#7 0x11) { withChannel 2 ⟨0x3000#32, 2#32, 0#32⟩ with gpu.gpuReadLatch := 2#32 } (fun s => s.ram)
      = some [(0x3000, 2), (0x3001, 0), (0x3002, 0), (0x3003, 0), (0x3004, 2), (0x3005, 0), (0x3006, 0), (0x3007, 0)] := by
  decide
/-- M-13, and the completion flag where the channel is enabled (M-14). -/
theorem test_step_dma_generic :
    see (.dmaWrite 0x0B#7 0x01) (withChannel 0 ⟨0#32, 0#32, 0x201#32⟩)
      (fun s => (s.ram, (channel s 0).chcr, s.dma.dicr)) = some ([], 0x201#32, 0#32)
    ∧ see (.dmaWrite 0x0B#7 0x01) { withChannel 0 ⟨0#32, 0#32, 0x201#32⟩ with dma.dicr := 0x00810000#32 }
      (fun s => s.dma.dicr) = some 0x01810000#32 := by decide
/-- M-26 with one word: CDROM data to RAM. -/
theorem test_step_dma_cdrom :
    see (.dmaWrite 0x3B#7 0x11) { withChannel 3 ⟨0x4000#32, 1#32, 0#32⟩ with cd.dataFifo := [1, 2, 3, 4, 5] }
      (fun s => (s.ram, s.cd.dataFifo)) = some ([(0x4000, 1), (0x4001, 2), (0x4002, 3), (0x4003, 4)], [5]) := by decide
/-- L1.3. -/
theorem test_step_dicr_ack :
    see (.dmaWrite 0x77#7 0xFF) { base with dma.dicr := 0xC4C40000#32 } (fun s => s.dma.dicr) = some 0x80C40000#32
    ∧ see (.dmaWrite 0x77#7 0x04) { base with dma.dicr := 0xC4C40000#32 } (fun s => s.dma.dicr) = some 0xC0C40000#32 := by
  decide
/-- M-16. -/
theorem test_step_dicr_low : see (.dmaWrite 0x76#7 0xC0) base (fun s => s.dma.dicr) = some 0x00C00000#32 := by decide
/-- M-17; an unmapped read is logged. -/
theorem test_step_dma_unmapped :
    see (.dmaWrite 0x78#7 0x12) base (fun s => s.out) = some [.log (.dmaUnmappedWrite 0x78 0x12)]
    ∧ see (.dmaRead 0x7F#7) base (fun s => (s.out.take 1, s.draws)) = some ([.log (.dmaUnmappedRead 0x7F)], 1) := by decide
/-- Rule R405; M-18: the fourth word returns a draw. -/
theorem test_step_dma_read :
    see (.dmaRead 0x71#7) base (fun s => s.out) = some [.returned .w8 0x43#32]
    ∧ see (.dmaRead 0x0C#7) base (fun s => s.draws) = some 1 := by decide
/-- L1.2: the rising edge triggers, a flag that was set does not. -/
theorem test_step_dma_tick :
    seeTxn (.tick .dma 0) { base with dma.dicr := 0x00008000#32 } (fun s => (s.out, s.dma.dicr))
      = some ([.trigger .dma], 0x80008000#32)
    ∧ seeTxn (.tick .dma 0) { base with dma.dicr := 0x80008000#32 } (fun s => (s.out, s.dma.dicr))
      = some ([], 0x80008000#32) := by decide

/-! ### CDROM ports -/

/-- C-1, C-4. -/
theorem test_step_cd_status :
    see (.cdRead 0 0) base (fun s => s.out) = some [.returned .w8 0x18#32]
    ∧ see (.cdRead 0 0) { base with cd.paramFifo := [0x42] } (fun s => s.out) = some [.returned .w8 0x10#32] := by decide
/-- C-3, C-17 to C-19, and the register ports of rule R460. -/
theorem test_step_cd_registers :
    see (.cdWrite 0 0 0xFF) base (fun s => s.cd.index) = some 3
    ∧ see (.cdWrite 1 1 0x05) base (fun s => (s.out, s.cd.soundMapCoding, s.cd.paramFifo)) = some ([], 0, [])
    ∧ see (.cdWrite 1 2 0x05) base (fun s => s.cd.soundMapCoding) = some 5
    ∧ see (.cdWrite 1 3 0x05) base (fun s => s.cd.volRR) = some 5
    ∧ see (.cdWrite 2 2 0x05) base (fun s => s.cd.volLL) = some 5
    ∧ see (.cdWrite 2 3 0x05) base (fun s => s.cd.volRL) = some 5
    ∧ see (.cdWrite 3 0 0x80) base (fun s => s.cd.request) = some 0x80
    ∧ see (.cdWrite 3 2 0x05) base (fun s => s.cd.volLR) = some 5
    ∧ see (.cdWrite 3 3 0x20) base (fun s => s.cd.volApply) = some 0x20 := by decide
/-- L1.4: the 17th parameter is dropped. -/
theorem test_step_cd_param :
    see (.cdWrite 2 0 0x42) base (fun s => s.cd.paramFifo) = some [0x42]
    ∧ see (.cdWrite 2 0 0x10) { base with cd.paramFifo := List.replicate 16 0 } (fun s => s.cd.paramFifo)
      = some (List.replicate 16 0) := by decide
/-- C-9, C-8. -/
theorem test_step_cd_interrupt_views :
    see (.cdRead 3 0) { base with cd.ie := 0x1F } (fun s => s.out) = some [.returned .w8 0xFF#32]
    ∧ see (.cdRead 3 1) { base with cd.intFifo := [3] } (fun s => s.out) = some [.returned .w8 0xE3#32] := by decide
/-- C-7, C-23: the fronts. -/
theorem test_step_cd_fifo_reads :
    see (.cdRead 1 0) { base with cd.responseFifo := [7, 8] } (fun s => (s.out, s.cd.responseFifo))
      = some ([.returned .w8 7#32], [8])
    ∧ see (.cdRead 2 0) { base with cd.dataFifo := [7, 8] } (fun s => (s.out, s.cd.dataFifo))
      = some ([.returned .w8 7#32], [8])
    ∧ see (.cdRead 1 0) base (fun s => s.draws) = some 1 := by decide
/-- C-12's acknowledgement; C-15. -/
theorem test_step_cd_int_ack :
    see (.cdWrite 3 1 0x1F) { base with cd.intFifo := [3, 2], cd.frontSignalled := true }
      (fun s => (s.cd.intFifo, s.cd.frontSignalled)) = some ([2], false)
    ∧ see (.cdWrite 3 1 0x40) { base with cd.paramFifo := [1, 2], cd.intFifo := [3] }
      (fun s => (s.cd.paramFifo, s.cd.intFifo)) = some ([], [3]) := by decide
theorem test_step_cd_int_enable : see (.cdWrite 2 1 0xFF) base (fun s => s.cd.ie) = some 0x1F := by decide
/-- C-5. -/
theorem test_step_cd_command :
    see (.cdWrite 1 0 0x01) { base with cd.paramFifo := [0xAA, 0xBB] }
      (fun s => (s.cd.responseFifo, s.cd.intFifo, s.cd.paramFifo, s.cd.busy)) = some ([0], [3], [], true) := by decide
/-- L1.5. -/
theorem test_step_shell :
    see .shell { base with cd.stat := 0xC7 } (fun s => s.cd.stat) = some 0x12
    ∧ see .shell { base with cd.stat := 0x13 } (fun s => s.cd.stat) = some 0x03 := by decide
/-- C-10: one trigger at the first step; C-6. -/
theorem test_step_cd_tick :
    seeTxn (.tick .cdrom 0) { base with cd.ie := 0x1F, cd.intFifo := [3], cd.busy := true }
      (fun s => (s.out, s.cd.frontSignalled, s.cd.busy)) = some ([.trigger .cdrom], true, false)
    ∧ seeTxn (.tick .cdrom 0) { base with cd.ie := 0x1F, cd.intFifo := [3], cd.frontSignalled := true }
      (fun s => s.out) = some [] := by decide
/-- C-21's thousandth step, but for the data. -/
theorem test_step_cd_delivery :
    seeTxn (.tick .cdrom 0) { base with cd.stat := 0x22, cd.currentSector := 16, cd.sectorTimer := 999 }
      (fun s => (s.cd.currentSector, s.cd.intFifo, s.cd.responseFifo, s.cd.sectorTimer)) = some (17, [1], [0x22], 0) := by
  decide

/-! ### CDROM commands: the command byte `d` in one step -/

/-- One command byte: what it answers, and the stat byte. -/
def command (d : Byte) (s : State) : Option (List Byte × List Byte × Byte) :=
  see (.cdCommand d) s fun s => (s.cd.responseFifo, s.cd.intFifo, s.cd.stat)

/-- Q-2, Q-3. -/
theorem test_step_setloc :
    see (.cdCommand 0x02) { base with cd.paramFifo := [0x00, 0x02, 0x16] }
      (fun s => (s.cd.seekTarget, s.cd.seekPending, s.cd.currentSector)) = some (16, true, 0)
    ∧ see (.cdCommand 0x02) { base with cd.paramFifo := [0x01, 0x30, 0x45] } (fun s => s.cd.seekTarget) = some 6645 := by
  decide
/-- Q-6, Q-7. -/
theorem test_step_play :
    command 0x03 base = some ([0x82], [3], 0x82)
    ∧ see (.cdCommand 0x03) { base with cd.paramFifo := [0x02] } (fun s => (s.cd.currentSector, s.cd.stat))
      = some (6645, 0x82) := by decide
/-- Q-5, Q-28. -/
theorem test_step_reads :
    see (.cdCommand 0x06) { base with cd.seekTarget := 16, cd.seekPending := true }
      (fun s => (s.cd.currentSector, s.cd.stat, s.cd.responseFifo, s.cd.seekPending)) = some (16, 0x22, [0x22], false)
    ∧ see (.cdCommand 0x1B) { base with cd.seekTarget := 16, cd.seekPending := true }
      (fun s => (s.cd.currentSector, s.cd.stat, s.cd.responseFifo, s.cd.seekPending)) = some (16, 0x22, [0x22], false) := by
  decide
/-- Q-1, Q-8 to Q-11. -/
theorem test_step_motor_commands :
    command 0x01 base = some ([0x00], [3], 0x00)
    ∧ command 0x07 base = some ([0x02, 0x02], [3, 2], 0x02)
    ∧ command 0x08 { base with cd.stat := 0x22 } = some ([0x22, 0x00], [3, 2], 0x00)
    ∧ command 0x09 { base with cd.stat := 0x22 } = some ([0x22, 0x02], [3, 2], 0x02)
    ∧ see (.cdCommand 0x0A) base (fun s => (s.cd.responseFifo, s.cd.intFifo, s.cd.modeReg))
      = some ([0x02, 0x02], [3, 2], 0x20) := by decide
/-- Q-12. -/
theorem test_step_mute :
    see (.cdCommand 0x0B) base (fun s => (s.cd.muted, s.cd.responseFifo)) = some (true, [0])
    ∧ see (.cdCommand 0x0C) { base with cd.muted := true } (fun s => (s.cd.muted, s.cd.responseFifo)) = some (false, [0]) := by
  decide
/-- Q-13, Q-14, Q-17. -/
theorem test_step_parameter_registers :
    see (.cdCommand 0x0D) { base with cd.paramFifo := [1, 2] } (fun s => (s.cd.filterFile, s.cd.filterChannel)) = some (1, 2)
    ∧ see (.cdCommand 0x0E) { base with cd.paramFifo := [0x80] } (fun s => (s.cd.modeReg, s.cd.responseFifo))
      = some (0x80, [0])
    ∧ see (.cdCommand 0x12) { base with cd.paramFifo := [1] } (fun s => (s.cd.session, s.cd.responseFifo, s.cd.intFifo))
      = some (1, [0, 0], [3, 2]) := by decide
/-- Q-15 with a header of the test's own; Q-16. -/
theorem test_step_getloc :
    see (.cdCommand 0x10) { base with cd.lastHeader := #v[1, 2, 3, 4, 5, 6, 7, 8] } (fun s => s.cd.responseFifo)
      = some [1, 2, 3, 4, 5, 6, 7, 8]
    ∧ command 0x11 base = some ([0x01, 0x01, 0x00, 0x00, 0x00, 0x00, 0x02, 0x00], [3], 0x00) := by decide
/-- Q-18 to Q-20. -/
theorem test_step_toc :
    command 0x13 base = some ([0x00, 0x01, 0x12], [3], 0x00)
    ∧ command 0x14 { base with cd.paramFifo := [0x01] } = some ([0x00, 0x00, 0x02], [3], 0x00)
    ∧ command 0x14 { base with cd.paramFifo := [0x02] } = some ([0x00, 0x01, 0x30], [3], 0x00) := by decide
/-- Q-21's last command, Q-22's. -/
theorem test_step_seek :
    see (.cdCommand 0x15) { base with cd.seekTarget := 16, cd.seekPending := true }
      (fun s => (s.cd.responseFifo, s.cd.intFifo, s.cd.currentSector, s.cd.stat)) = some ([0x42, 0x02], [3, 2], 16, 0x02)
    ∧ see (.cdCommand 0x16) { base with cd.seekTarget := 16, cd.seekPending := true }
      (fun s => (s.cd.responseFifo, s.cd.intFifo, s.cd.currentSector, s.cd.stat)) = some ([0x42, 0x02], [3, 2], 16, 0x02) := by
  decide
/-- Q-23, Q-24. -/
theorem test_step_test :
    command 0x19 { base with cd.paramFifo := [0x20] } = some ([0x94, 0x09, 0x19, 0xC0], [3], 0x00)
    ∧ see (.cdCommand 0x19) { base with cd.paramFifo := [0x21] }
      (fun s => (s.out, s.cd.responseFifo, s.cd.intFifo, s.cd.paramFifo))
      = some ([.log (.unknownCdCommand 0x19)], [], [], []) := by decide
/-- Q-25 to Q-27. -/
theorem test_step_getid :
    command 0x1A base = some ([0x00, 0x02, 0x00, 0x20, 0x00, 0x53, 0x43, 0x45, 0x41], [3, 2], 0x00)
    ∧ command 0x1A noDisc = some ([0x00, 0x08, 0x40, 0, 0, 0, 0, 0, 0], [3, 5], 0x00)
    ∧ command 0x1A { base with cd.stat := 0x10 } = some ([0x10, 0x08, 0x40, 0, 0, 0, 0, 0, 0], [3, 5], 0x10) := by decide
/-- Q-29 to Q-31. -/
theorem test_step_readtoc_and_unlock :
    command 0x1E base = some ([0x00, 0x00], [3, 2], 0x00) ∧ command 0x50 base = some ([0x01, 0x40], [5], 0x00)
    ∧ command 0x57 base = some ([0x01, 0x40], [5], 0x00) := by decide
/-- Q-32. -/
theorem test_step_cd_unrecognized :
    see (.cdCommand 0x1C) base (fun s => (s.out, s.cd.responseFifo, s.cd.intFifo, s.cd.busy))
      = some ([.log (.unknownCdCommand 0x1C)], [], [], true) := by decide

/-! ### Host accesses -/

/-- X-1 to X-4, C-20. -/
theorem test_step_wrong_width :
    faultOf (.read .gpu 0 .w8) base = some (2, [0, 8]) ∧ faultOf (.write .gpu 8 .w32 0#32) base = some (2, [8, 32])
    ∧ faultOf (.write .gpu 4 .w16 0#32) base = some (2, [4, 16])
    ∧ faultOf (.write .cdrom 0 .w16 0#32) base = some (2, [0, 16])
    ∧ faultOf (.write .cdrom 0 .w32 0#32) base = some (2, [0, 32]) := by decide
/-- X-5, X-6. -/
theorem test_step_wide_dma :
    seeTxn (.write .dma 0x74 .w16 0x8000#32) base (fun s => s.dma.dicr) = some 0x00008000#32
    ∧ seeTxn (.read .dma 0x74 .w32) { base with dma.dicr := 0xC0C00000#32 } (fun s => s.out)
      = some [.returned .w32 0xC0C00000#32] := by decide
/-- Rule R116: a host store is what the next transfer reads. -/
theorem test_step_ram_store :
    seeTxn (.ramStore 0x1FFFFF 0xAB) base (fun s => memByte s.ram 0x1FFFFF) = some 0xAB := by decide

/-! ### Witnesses: concrete states and operands that meet the hypotheses of the statements -/

/-- `base` meets the invariant. -/
theorem witness_base_inv : base.Inv where
  cfg := by decide
  vram := by decide
  ram := by decide
  args := by decide
  decoder := ⟨rfl, rfl⟩
  cursor := fun h => by rcases h with h | h <;> exact absurd h (by decide)
  irq := by decide
  dots := by decide
  line := by decide
  params := by decide
  responses := by decide
  ints := by decide
  data := by decide
  codes := by intro b hb; exact absurd hb (by simp [base, State.powerOn, Cd.powerOn])
  front := by decide
  mode := .inl rfl

/-- A decoder that collects, with the words `ws` of kind `k`, meets the invariant where its own clause holds. -/
theorem collecting_inv (k : Kind) (ws : List Word) (n : Nat) (h : decoderInv base.cfg (collecting k ws n base).gpu)
    (hl : (collecting k ws n base).gpu.args.length = 32) (ts : List Txn) :
    ({ collecting k ws n base with script := ts } : State).Inv :=
  { witness_base_inv with
    args := hl
    decoder := h
    cursor := fun h => by rcases h with h | h <;> exact absurd h (by simp [collecting, base, State.powerOn, Gpu.powerOn]) }

/-- DecodeOfEncodeIsTheInstruction, at the longest polyline. -/
theorem witness_decode_of_encode :
    Config.default.accepts = true
      ∧ (Instr.gp0LineFP true ⟨1, 2, 3⟩ (List.replicate 16 ⟨0x7FF, 0x400⟩)).wf Config.default = true
      ∧ (Instr.gp0LineGP false ⟨1, 2, 3⟩ none []).wf Config.default = true := by decide

/-- DecoderAnswersWellFormed. -/
theorem witness_decoder_answers :
    Config.default.lineSentinel = 0x55555555#32
      ∧ decode Config.default (.gp0 [0x48000000#32, 0x0000FFFF#32]) = .instr (.gp0LineFP false ⟨0, 0, 0⟩ [⟨0x7FF, 0⟩]) := by
  decide

/-- StepRunsTheDecodedInstruction: a GP1 word, and a read. -/
theorem witness_step_runs :
    ({ base with script := [.write .gpu 4 .w32 0x03000000#32] } : State).script = .write .gpu 4 .w32 0x03000000#32 :: []
      ∧ Txn.raw base (.write .gpu 4 .w32 0x03000000#32) = some (.gp1 0x03000000#32)
      ∧ decode base.cfg (.gp1 0x03000000#32) = .instr (.gp1DisplayEnable false)
      ∧ Txn.raw base (.read .dma 0x7F .w8) = some (.dmaRead 0x7F#7)
      ∧ decode base.cfg (.dmaRead 0x7F#7) = .instr (.dmaUnmapped 0x7F none) := by
  refine ⟨rfl, rfl, by decide, rfl, by decide⟩

/-- CollectionRunsTheDecodedPacket: a command word in `Idle`. -/
theorem witness_collection_idle :
    ({ base with script := [.write .gpu 0 .w32 0x20000000#32] } : State).Inv ∧ base.gpu.cmdState = .idle
      ∧ gp0Class (byte3 0x20000000#32) = .multiword .polygon :=
  ⟨{ witness_base_inv with }, rfl, by decide⟩

/-- CollectionRunsTheDecodedPacket: a polyline's sentinel. -/
theorem witness_collection_sentinel :
    ({ collecting .line [0x48000000#32, 0#32] 17 base with script := [.write .gpu 0 .w32 0x55555555#32] } : State).Inv
      ∧ (collecting .line [0x48000000#32, 0#32] 17 base).gpu.cmdState = .collect .line
      ∧ isPolyline .line (argAt (collecting .line [0x48000000#32, 0#32] 17 base).gpu.args 0) = true
      ∧ 0x55555555#32 = base.cfg.lineSentinel :=
  ⟨collecting_inv _ _ _ ⟨by decide, by decide, by decide, by decide,
      fun _ w hw => by rw [show w = 0#32 by simpa [collecting] using hw]; decide⟩ (by decide) _, rfl, by decide, by decide⟩

/-- CollectionRunsTheDecodedPacket: the last word, and one before it. -/
theorem witness_collection_last :
    (({ collecting .polygon [0x20000000#32, 0#32, 0#32] 4 base with script := [.write .gpu 0 .w32 0#32] } : State).Inv
      ∧ (collecting .polygon [0x20000000#32, 0#32, 0#32] 4 base).gpu.currArg + 1
        = (collecting .polygon [0x20000000#32, 0#32, 0#32] 4 base).gpu.argCount
      ∧ isPolyline .polygon (argAt (collecting .polygon [0x20000000#32, 0#32, 0#32] 4 base).gpu.args 0) = false)
    ∧ (({ collecting .polygon [0x20000000#32, 0#32] 4 base with script := [.write .gpu 0 .w32 0#32] } : State).Inv
      ∧ (collecting .polygon [0x20000000#32, 0#32] 4 base).gpu.currArg + 1
        ≠ (collecting .polygon [0x20000000#32, 0#32] 4 base).gpu.argCount) :=
  ⟨⟨collecting_inv _ _ _ ⟨by decide, by decide, by decide, by decide, by decide⟩ (by decide) _, by decide, by decide⟩,
    collecting_inv _ _ _ ⟨by decide, by decide, by decide, by decide, by decide⟩ (by decide) _, by decide⟩

/-- Gp0StreamRunsTheCommand: a cut-short polyline, and the longest. -/
theorem witness_gp0_stream :
    base.Inv ∧ base.gpu.cmdState = .idle
      ∧ (Instr.gp0LineGP false ⟨1, 2, 3⟩ (some ⟨1, 2⟩) []).wf base.cfg = true
      ∧ gp0Words (.gp0LineGP false ⟨1, 2, 3⟩ (some ⟨1, 2⟩) []) ≠ []
      ∧ (Instr.gp0LineFP false ⟨1, 2, 3⟩ (List.replicate 16 ⟨0, 0⟩)).wf base.cfg = true :=
  ⟨witness_base_inv, rfl, by decide, by decide, by decide⟩

/-- OnlyResetCommandsAbandon: GP1 0x02, and a start of another channel. -/
theorem witness_only_reset :
    (∃ t, exec .gp1AckIrq base = .next t) ∧ gp0Words .gp1AckIrq = []
      ∧ (∃ t, exec (.dmaChcrWrite 0 3 0x11) base = .next t) ∧ gp0Words (.dmaChcrWrite 0 3 0x11) = []
      ∧ (∀ d, Instr.dmaChcrWrite 0 3 0x11 ≠ .dmaChcrWrite 2 3 d) :=
  ⟨⟨_, rfl⟩, rfl, ⟨_, rfl⟩, rfl, fun d h => by injection h with h; exact absurd h (by decide)⟩

/-- To15DropsTheLowThreeBits, at the ends of the fields. -/
theorem witness_to15 : ∀ i ∈ [0, 4, 5, 9, 10, 14, 15], i < 16 := by decide

/-- FillWritesExactlyItsRectangle: the wrapped corner of L1.1 lies in the rectangle, the pixel beyond it does not. -/
theorem witness_fill :
    0 < base.cfg.vramWidth ∧ inRect base.cfg 1020 510 8 4 3 1 ∧ ¬ inRect base.cfg 1020 510 8 4 4 1 := by
  refine ⟨by decide, ⟨7, 3, by decide⟩, ?_⟩
  rintro ⟨i, j, hi, -, h, -⟩
  have : base.cfg.vramWidth = 1024 := rfl
  rw [this] at h
  omega

/-- BatchEffect: two states that differ in what VRAM lists and hold equal pixels; a pixel that wraps onto the one read,
and one that does not. -/
theorem witness_batch :
    0 < base.cfg.vramWidth
      ∧ (let s' : State := { base with gpu.vram := vramWrite base.cfg base.gpu.vram 3 4 (vramRead base.cfg base.gpu.vram 3 4) }
         s'.gpu.vram ≠ base.gpu.vram ∧ s'.cfg = base.cfg
          ∧ ∀ x y, vramRead s'.cfg s'.gpu.vram x y = vramRead base.cfg base.gpu.vram x y)
      ∧ (1 % base.cfg.vramWidth = 1025 % base.cfg.vramWidth ∧ 2 % base.cfg.vramHeight = 514 % base.cfg.vramHeight)
      ∧ ¬ (1 % base.cfg.vramWidth = 2 % base.cfg.vramWidth ∧ 2 % base.cfg.vramHeight = 2 % base.cfg.vramHeight) := by
  refine ⟨by decide, ⟨List.cons_ne_nil _ _, rfl, fun x y => ?_⟩, by decide, by decide⟩
  refine (vramRead_vramWrite (c := base.cfg) (by decide) _ _ _ _ _ _).trans ?_
  split
  · rename_i h
    exact congrArg (pixelAt base.gpu.vram) ((pixelNumber_eq_iff (c := base.cfg) (by decide) 3 4 x y).2 ⟨h.1.symm, h.2.symm⟩)
  · rfl

/-- CopyCommandsSetTheCursor: zero width, zero height, neither. -/
theorem witness_copy_cursor :
    ((⟨0, 1⟩ : Xy).x = 0#16 ∨ (⟨0, 1⟩ : Xy).y = 0#16) ∧ ((⟨1, 0⟩ : Xy).x = 0#16 ∨ (⟨1, 0⟩ : Xy).y = 0#16)
      ∧ (⟨1, 1⟩ : Xy).x ≠ 0#16 ∧ (⟨1, 1⟩ : Xy).y ≠ 0#16 := by decide

/-- DataWordWritesOneOrTwoPixels: the low pixel is the last of three by one, or is not. -/
theorem witness_data_word :
    (cursorNext ⟨0, 0, 3, 1, 2, 0⟩).currY = (cursorNext ⟨0, 0, 3, 1, 2, 0⟩).endY
      ∧ (cursorNext ⟨0, 0, 3, 1, 1, 0⟩).currY ≠ (cursorNext ⟨0, 0, 3, 1, 1, 0⟩).endY
      ∧ ({ base with gpu.cmdState := .cpuToVramData, gpu.cursor := ⟨0, 0, 3, 1, 2, 0⟩ } : State).gpu.cmdState
        = .cpuToVramData := by decide

/-- UploadTakesExactlyItsWords: three by one pixels in two words, and a pixel on either side of the rectangle's edge. -/
theorem witness_upload :
    0 < base.cfg.vramWidth ∧ base.gpu.cmdState = .idle ∧ (⟨3, 1⟩ : Xy).x ≠ 0#16 ∧ (⟨3, 1⟩ : Xy).y ≠ 0#16
      ∧ [0x22221111#32, 0x44443333#32].length = ((⟨3, 1⟩ : Xy).x.toNat * (⟨3, 1⟩ : Xy).y.toNat + 1) / 2
      ∧ (3 ≤ base.cfg.vramWidth ∧ 1 ≤ base.cfg.vramHeight) ∧ ¬ inRect base.cfg 0 0 3 1 3 0 := by
  refine ⟨by decide, rfl, by decide, by decide, by decide, by decide, ?_⟩
  rintro ⟨i, j, hi, -, h, -⟩
  have : base.cfg.vramWidth = 1024 := rfl
  rw [this] at h
  omega

/-- VramCopyMovesItsRectangle: one column too wide, one row too high, the whole grid with its last pixel's stage, and
a disjoint copy. -/
theorem witness_vram_copy :
    0 < base.cfg.vramWidth ∧ base.cfg.vramWidth < (1025#16).toNat ∧ base.cfg.vramHeight < (513#16).toNat
      ∧ ((1024#16).toNat ≤ base.cfg.vramWidth ∧ (512#16).toNat ≤ base.cfg.vramHeight)
      ∧ 524287 < (1024#16).toNat * (512#16).toNat
      ∧ ∀ x y, inRect base.cfg 0 0 1 1 x y → ¬ inRect base.cfg 16 0 1 1 x y := by
  refine ⟨by decide, by decide, by decide, by decide, by decide, ?_⟩
  rintro x y ⟨i, j, hi, -, h, -⟩ ⟨i', j', hi', -, h', -⟩
  have : base.cfg.vramWidth = 1024 := rfl
  rw [this] at h h'
  omega

/-- GpureadReturnsLatchOrPixels: normal mode; a pending read with two pixels left, and with one. -/
theorem witness_gpuread :
    base.gpu.readMode = .normal ∧ base.readBuf = []
      ∧ (cursorNext ⟨0, 0, 3, 1, 0, 0⟩).currY ≠ (cursorNext ⟨0, 0, 3, 1, 0, 0⟩).endY
      ∧ (cursorNext ⟨0, 0, 3, 1, 2, 0⟩).currY = (cursorNext ⟨0, 0, 3, 1, 2, 0⟩).endY
      ∧ ({ base with gpu.readMode := .vramRead, gpu.cursor := ⟨0, 0, 3, 1, 2, 0⟩ } : State).gpu.readMode = .vramRead := by
  decide

/-- DownloadReadsExactlyItsWords: the smallest and the largest size. -/
theorem witness_download :
    (⟨1, 1⟩ : Xy).x ≠ 0#16 ∧ (⟨1, 1⟩ : Xy).y ≠ 0#16 ∧ (⟨0xFFFF, 0xFFFF⟩ : Xy).x ≠ 0#16
      ∧ (⟨0xFFFF, 0xFFFF⟩ : Xy).y ≠ 0#16 := by decide

/-- Gp1CommandsWriteTheirRegisters and UnknownGp1FaultsWithoutEffect: both values of each parameter. -/
theorem witness_gp1_parameters :
    base.cfg.gp107SourceQuirk = false ∧ base.cfg.gp1UnknownDegrades = false
      ∧ ({ base with cfg.gp107SourceQuirk := true, cfg.gp1UnknownDegrades := true } : State).cfg.gp107SourceQuirk = true
      ∧ ({ base with cfg.gp107SourceQuirk := true, cfg.gp1UnknownDegrades := true } : State).cfg.gp1UnknownDegrades
        = true := by decide

/-- UnknownGp1FaultsWithoutEffect: command bytes at the ends of the two ranges, and beside them. -/
theorem witness_gp1_unknown_ranges :
    gp1Unknown 0x0A000000#32 = true ∧ gp1Unknown 0x0F000000#32 = true ∧ gp1Unknown 0x20000000#32 = true
      ∧ gp1Unknown 0xFF000000#32 = true ∧ gp1Unknown 0x09000000#32 = false ∧ gp1Unknown 0x10000000#32 = false
      ∧ gp1Unknown 0x1F000000#32 = false := by decide

/-- GpuInfoLatchesByIndex: every index falls under exactly one clause. -/
theorem witness_gpu_info :
    ∀ k : BitVec 4, (k = 2#4 ∨ k = 3#4 ∨ k = 4#4 ∨ k = 5#4 ∨ k = 7#4 ∨ k = 8#4)
      ↔ ¬ (k = 0#4 ∨ k = 1#4 ∨ k = 6#4 ∨ 9 ≤ k.toNat) := by decide

/-- GpustatBits. -/
theorem witness_gpustat : base.readBuf = [] ∧ base.gpu.odd = false ∧ 10 < 11 := by decide

/-- GpuStepAdvancesTimingAndSignals: no new line, a line that ends the frame, one that does not; due and not due. -/
theorem witness_gpu_step :
    (base.gpu.dotAccum + 3412) / base.cfg.gpuCyclesPerLine = 0
      ∧ (0 < (base.gpu.dotAccum + 3413 * 263) / base.cfg.gpuCyclesPerLine
        ∧ base.cfg.linesPerFrame ≤ base.gpu.line + (base.gpu.dotAccum + 3413 * 263) / base.cfg.gpuCyclesPerLine)
      ∧ (0 < (base.gpu.dotAccum + 3413 * 262) / base.cfg.gpuCyclesPerLine
        ∧ ¬ base.cfg.linesPerFrame ≤ base.gpu.line + (base.gpu.dotAccum + 3413 * 262) / base.cfg.gpuCyclesPerLine)
      ∧ (base.cfg.gpuIrqSignals = true ∧ ({ base with gpu.irq := true } : State).gpu.irq = true
        ∧ base.gpu.irqSignalled = false)
      ∧ ¬ (base.cfg.gpuIrqSignals = true ∧ base.gpu.irq = true ∧ base.gpu.irqSignalled = false) := by decide

/-- DmaByteWritesReplaceOneByte. -/
theorem witness_dma_bytes : (2 : Fin 4) ≠ 3 ∧ (2 : Fin 4).val < 3 ∧ 31 < 32 := by decide

/-- DicrAckClearsWrittenOnes: a flag, and the bits on either side of the flags. -/
theorem witness_dicr_ack : (24 ≤ 30 ∧ 30 < 31) ∧ ¬ (24 ≤ 31 ∧ 31 < 31) ∧ ¬ (24 ≤ 23 ∧ 23 < 31) := by decide

/-- DmaReadsReturnTheirByte: the first unmapped address, and one of a channel the parameters do not give. -/
theorem witness_dma_unmapped :
    0x78 ≤ (0x78#7).toNat ∧ ((0x40#7).toNat < 0x70 ∧ ({ Config.default with dmaChannels := 4 } : Config).dmaChannels
      ≤ (0x40#7).toNat / 0x10) := by decide

/-- ChcrByte3StartRules: no start; a start in sync mode 3; a refused start. -/
theorem witness_chcr_start :
    ¬ ((channel (chcrStored 6 0x10 base) 6).chcr.getLsbD 24 = true)
      ∧ ((channel (chcrStored 0 0x01 (withChannel 0 ⟨0, 0, 0x600⟩)) 0).chcr.getLsbD 24 = true
        ∧ ((channel (chcrStored 0 0x01 (withChannel 0 ⟨0, 0, 0x600⟩)) 0).chcr.extractLsb' 9 2).toNat = 3
        ∧ base.cfg.dmaRequireDpcrEnable = false)
      ∧ ((channel (chcrStored 6 0x01 (withChannel 6 ⟨0, 0, 0x202⟩)) 6).chcr.getLsbD 24 = true
        ∧ ((channel (chcrStored 6 0x01 (withChannel 6 ⟨0, 0, 0x202⟩)) 6).chcr.extractLsb' 9 2).toNat = 1) := by decide

/-- ChcrByte3StartRules and CompletionReportsToDicr: a start that runs, of a channel that moves nothing. -/
theorem witness_completion : transferRuns 0 0x01 (withChannel 0 ⟨0, 0, 0x201⟩) ∧ ((0 : Fin 7) = 0) :=
  ⟨⟨by decide, by decide, by decide⟩, rfl⟩

/-- OrderingTableClearLinksDownward: M-4, which fits RAM, and the largest count, which fits it too. -/
theorem witness_ordering_table :
    base.cfg.accepts = true ∧ transferRuns 6 0x11 (withChannel 6 ⟨0x100#32, 4#32, 2#32⟩)
      ∧ 4 * 4 ≤ base.cfg.ramSize ∧ 4 * 0x10000 ≤ base.cfg.ramSize
      ∧ ¬ inTransfer base.cfg 0x100 (-4) 4 0x104 := by
  refine ⟨by decide, ⟨by decide, by decide, by decide⟩, by decide, by decide, ?_⟩
  rintro ⟨i, hi, -, h⟩
  have : i = 0 ∨ i = 1 ∨ i = 2 ∨ i = 3 := by omega
  rcases this with rfl | rfl | rfl | rfl <;> revert h <;> decide

/-- CdromTransferMovesTheDataFifo: one word, a byte of it present, a byte outside it. -/
theorem witness_cdrom_transfer :
    base.cfg.accepts = true
      ∧ transferRuns 3 0x11 { withChannel 3 ⟨0x4000#32, 1#32, 0#32⟩ with cd.dataFifo := [1, 2, 3, 4, 5] }
      ∧ 4 * 1 ≤ base.cfg.ramSize ∧ ([1, 2, 3, 4, 5] : List Byte)[4 * 0 + 3]? = some 4
      ∧ ¬ inTransfer base.cfg 0x4000 4 1 0x4004 := by
  refine ⟨by decide, ⟨by decide, by decide, by decide⟩, by decide, by decide, ?_⟩
  rintro ⟨i, hi, -, h⟩
  have : i = 0 := by omega
  subst this
  revert h; decide

/-- GpuSendIsAFeedOfRamWords: sync mode 1, from RAM. -/
theorem witness_gpu_send :
    base.cfg.accepts = true ∧ transferRuns 2 0x01 (withChannel 2 ⟨0x1000#32, 0x00010003#32, 0x201#32⟩)
      ∧ (channel (chcrStored 2 0x01 (withChannel 2 ⟨0x1000#32, 0x00010003#32, 0x201#32⟩)) 2).chcr.extractLsb' 9 2 ≠ 2#2
      ∧ (channel (chcrStored 2 0x01 (withChannel 2 ⟨0x1000#32, 0x00010003#32, 0x201#32⟩)) 2).chcr.getLsbD 0 = true :=
  ⟨by decide, ⟨by decide, by decide, by decide⟩, by decide, by decide⟩

/-- GpuReceiveStoresGpureads: M-22. -/
theorem witness_gpu_receive :
    base.cfg.accepts = true ∧ transferRuns 2 0x11 (withChannel 2 ⟨0x3000#32, 2#32, 0#32⟩)
      ∧ (channel (chcrStored 2 0x11 (withChannel 2 ⟨0x3000#32, 2#32, 0#32⟩)) 2).chcr.getLsbD 0 = false
      ∧ 4 * 2 ≤ base.cfg.ramSize ∧ ¬ inTransfer base.cfg 0x3000 4 2 0x2FFF := by
  refine ⟨by decide, ⟨by decide, by decide, by decide⟩, by decide, by decide, ?_⟩
  rintro ⟨i, hi, h, -⟩
  have : i = 0 ∨ i = 1 := by omega
  rcases this with rfl | rfl <;> revert h <;> decide

/-- LinkedListSendsItsNodes: a list that ends (M-20), and one that names itself (M-21, two headers allowed). -/
theorem witness_linked_list :
    transferRuns 2 0x01 (withChannel 2 ⟨0x2000#32, 0#32, 0x401#32⟩)
      ∧ chcrSync (channel (chcrStored 2 0x01 (withChannel 2 ⟨0x2000#32, 0#32, 0x401#32⟩)) 2).chcr = 2#2
      ∧ listWords base.cfg [(0x2000, 0xFF), (0x2001, 0xFF), (0x2002, 0xFF), (0x2003, 0)] 1 0x2000 = some []
      ∧ listWords base.cfg [(0x3000, 0), (0x3001, 0x30), (0x3002, 0), (0x3003, 0)] 2 0x3000 = none :=
  ⟨⟨by decide, by decide, by decide⟩, by decide, by decide, by decide⟩

/-- DmaStepTriggersOnTheRisingEdge: `forceIRQ`, an enabled completed channel, neither; with bit 31 clear and set. -/
theorem witness_dma_step :
    ((0x00008000#32).getLsbD 15 = true ∧ (0x00008000#32).getLsbD 31 = false)
      ∧ ((0x40C00000#32).getLsbD 23 = true ∧ (6 < 7 ∧ (0x40C00000#32).getLsbD (16 + 6) = true
        ∧ (0x40C00000#32).getLsbD (24 + 6) = true))
      ∧ (0x80008000#32).getLsbD 31 = true
      ∧ ¬ ((0x40000000#32).getLsbD 15 = true ∨ (0x40000000#32).getLsbD 23 = true) := by decide

/-- DmaTriggersCountRisingEdges and TriggersOnlyAtSteps: runs that reach a next state. -/
theorem witness_runs :
    (∃ t, runAll [.write .dma 0x75 .w8 0x80#32, .tick .dma 0, .tick .dma 0] base = .next t)
      ∧ (∃ t, transact (.tick .cdrom 0) base = .next t) ∧ ∃ t, transact .shell base = .next t :=
  ⟨⟨_, rfl⟩, ⟨_, rfl⟩, _, rfl⟩

/-- ParamAndAckMoveTheFifos: one entry short of full, full; a code and an entry, no code. -/
theorem witness_param_and_ack :
    (List.replicate 15 (0 : Byte)).length < base.cfg.fifoCap ∧ base.cfg.fifoCap ≤ (List.replicate 16 (0 : Byte)).length
      ∧ (1#5 ≠ 0#5 ∧ ([3] : List Byte) ≠ []) ∧ (0#5 = 0#5 ∨ ([3] : List Byte) = []) := by decide

/-- CdReadsPopTheirFifo: both FIFOs empty or not; every index. -/
theorem witness_cd_reads :
    ({ base with cd.responseFifo := [1] } : State).cd.responseFifo = 1 :: [] ∧ base.cd.responseFifo = []
      ∧ ({ base with cd.dataFifo := [1] } : State).cd.dataFifo = 1 :: [] ∧ base.cd.dataFifo = []
      ∧ (base.cd.index = 0#2 ∨ base.cd.index = 2#2)
      ∧ ∀ i : BitVec 2, (i = 0#2 ∨ i = 2#2) ↔ ¬ (i = 1#2 ∨ i = 3#2) := by decide

/-- RespondAppendsUpToTheCapacity: empty, and full. -/
theorem witness_respond :
    base.cd.responseFifo.length ≤ base.cfg.fifoCap ∧ base.cd.intFifo.length ≤ base.cfg.fifoCap
      ∧ (List.replicate 16 (0 : Byte)).length ≤ base.cfg.fifoCap := by decide

/-- PlainCommandsRespond: a listed position. -/
theorem witness_plain_commands :
    base.cfg.disc.positions.lookup base.cd.currentSector
      = some ⟨0x01, 0x01, 0x00, 0x00, 0x00, 0x00, 0x02, 0x00⟩ := by decide

/-- ParameterCommandsUseTheirBytes: enough bytes for each; a listed track; the sub-function 0x20 and another. -/
theorem witness_parameters :
    ({ base with cd.paramFifo := [0x02, 0x20, 0x16] } : State).cd.paramFifo = 0x02 :: 0x20 :: 0x16 :: []
      ∧ base.cfg.disc.trackStarts.lookup (10 * ((0x02 : Byte).toNat / 16) + (0x02 : Byte).toNat % 16) = some 6645
      ∧ 10 * ((0x02 : Byte).toNat / 16) + (0x02 : Byte).toNat % 16 ≠ 0
      ∧ (0x20 : Byte) = 0x20#8 ∧ (0x21 : Byte) ≠ 0x20#8
      ∧ 10 * ((0x00 : Byte).toNat / 16) + (0x00 : Byte).toNat % 16 = 0 := by decide

/-- R515: a negative sector is answered with draws, listed or not; sector 0 that is listed, with its bytes. -/
theorem test_negative_sector_is_drawn :
    let s : State := { base with cfg.disc.sectors := [(-1, [0xAA, 0xBB]), (0, [0xCC, 0xDD])] }
    sectorByte s (-1) 1 = Config.any8 (s.draws + 1) ∧ sectorByte s 0 1 = 0xDD := ⟨rfl, rfl⟩

/-- ParameterCommandsAlwaysComplete: each number of bytes; no parameter at all. -/
theorem witness_no_parameters :
    (Instr.cdSetloc = .cdSetloc ∧ 3 = 3) ∧ (Instr.cdSetfilter = .cdSetfilter ∧ 2 = 2)
      ∧ (Instr.cdPlay = .cdPlay ∧ 1 = 1) ∧ base.cd.paramFifo = [] := by decide

/-- GetidDependsOnDiscAndShell: a disc behind a closed shell, no disc, an open shell. -/
theorem witness_getid :
    (base.cfg.disc.present = true ∧ base.cd.stat.getLsbD 4 = false) ∧ noDisc.cfg.disc.present = false
      ∧ ({ base with cd.stat := 0x10 } : State).cd.stat.getLsbD 4 = true := by decide

/-- ShellToggleForcesModeNone: closed and open. -/
theorem witness_shell :
    (0xC7 : Byte).getLsbD 4 = false ∧ (0x13 : Byte).getLsbD 4 = true ∧ 7 < 8 := by decide

/-- CdStepDeliversSectors: idle; one step before the interval's end; at its end; a listed sector of 2352 bytes; a
sector that is not listed, and a negative one. -/
theorem witness_cd_step :
    ¬ (base.cd.stat.getLsbD 5 = true ∨ base.cd.stat.getLsbD 7 = true)
      ∧ ((0x22 : Byte).getLsbD 5 = true ∨ (0x22 : Byte).getLsbD 7 = true)
      ∧ 998 + 1 < base.cfg.cdStepsPerSector1x ∧ base.cfg.cdStepsPerSector1x ≤ 999 + 1
      ∧ base.cfg.cdStepsPerSector2x ≤ 499 + 1
      ∧ ([(16, List.replicate 2352 0)] : List (Int × List Byte)).lookup 16 = some (List.replicate 2352 0)
      ∧ (List.replicate 2352 (0 : Byte)).length = 2352
      ∧ (0 : Int) ≤ 16 ∧ (-1 : Int) < 0 ∧ base.cfg.disc.sectors.lookup 0 = none
      ∧ ({ base.cfg with disc := { testDisc with sectors := [(16, List.replicate 2352 0)] } } : Config).accepts = true :=
  ⟨by decide, by decide, by decide, by decide, by decide, rfl, List.length_replicate, by decide, by decide, rfl, by decide⟩

/-- CdStepSignalsTheFrontOnce: due, and not due; a delivery into an empty interrupt FIFO. -/
theorem witness_cd_signal :
    base.cd.stat.getLsbD 5 = false ∧ base.cd.stat.getLsbD 7 = false
      ∧ (base.cd.frontSignalled = false ∧ (0x1F#5 &&& (3#8).extractLsb' 0 5) ≠ 0#5)
      ∧ (0x00#5 &&& (3#8).extractLsb' 0 5) = 0#5
      ∧ (0x22 : Byte).getLsbD 5 = true ∧ base.cfg.cdStepsPerSector1x ≤ 999 + 1 ∧ base.cd.intFifo = []
      ∧ 0 < base.cfg.fifoCap ∧ (0x01#5).getLsbD 0 = true := by decide

/-- WrongWidthFaultsFirst. -/
theorem witness_wrong_width :
    (Width.w8 ≠ .w32 ∨ (0 ≠ 0 ∧ 0 ≠ 4)) ∧ (Width.w32 ≠ .w32 ∨ (8 ≠ 0 ∧ 8 ≠ 4)) ∧ Width.w16 ≠ .w8 := by decide

/-- WideDmaAccessesAreLittleEndian: the last address of each width, the last channel, a word that starts nothing. -/
theorem witness_wide_dma :
    base.readBuf = [] ∧ 0x7C + Width.w32.bytes ≤ 0x80 ∧ 0x7E + Width.w16.bytes ≤ 0x80
      ∧ (6 : Fin 7).val < base.cfg.dmaChannels ∧ (0x10000201#32).getLsbD 24 = false := by decide

/-- StepKeepsTheInvariant and WhoWritesWhat: a step that reaches a next state from a state with the invariant. -/
theorem witness_step_keeps :
    ({ base with script := [.tick .dma 0] } : State).Inv
      ∧ (∃ t, step { base with script := [.tick .dma 0] } = .next t)
      ∧ (∀ n, Txn.tick .dma 0 ≠ .tick .gpu n) ∧ Txn.tick .dma 0 ≠ .shell
      ∧ ∀ n, Txn.shell ≠ .tick .dma n :=
  ⟨{ witness_base_inv with }, ⟨_, rfl⟩, by simp, by decide, by simp⟩

/-- PowerOnMeetsTheInvariant: parameters the model takes, and parameters it refuses. -/
theorem witness_configure :
    (∃ s, State.configure Config.default = some s) ∧ State.configure { Config.default with vramWidth := 0 } = none
      ∧ (∃ s, State.configure { Config.default with dmaChannels := 4 } = some s)
      ∧ State.configure { Config.default with dmaChannels := 8 } = none :=
  ⟨⟨_, rfl⟩, rfl, ⟨_, rfl⟩, rfl⟩

end Sys2Proof.Tests
end

section
/-! PROOFS. The family of the scope: what every transaction keeps (parameters, script, display timing, master flag,
shell bit, invariant), operation by operation and then transaction by transaction (O57, O60); what a response appends
(O45); and the commands that read parameters (O50). -/
namespace Sys2Proof.Machine

/-! ### What every next state of an outcome has -/

/-- Whatever next state `o` answers has `P`; a stop answers none. -/
def Ensures (o : Out) (P : State → Prop) : Prop := ∀ t, o = .next t → P t

theorem ensures_next {t : State} {P : State → Prop} (h : P t) : Ensures (.next t) P := by
  rintro _ ⟨⟩
  exact h

theorem ensures_fault (r : Fault) (P : State → Prop) : Ensures (.fault r) P :=
  fun _ h => by cases h

theorem ensures_refused (r : Refusal) (P : State → Prop) : Ensures (.refused r) P :=
  fun _ h => by cases h

theorem ensures_andThen {o : Out} {f : State → Out} {P Q : State → Prop} (h : Ensures o P)
    (hf : ∀ s, P s → Ensures (f s) Q) : Ensures (andThen o f) Q := by
  intro t ht
  obtain ⟨s, hs, hfs⟩ := andThen_eq_next ht
  exact hf s (h s hs) t hfs

/-! ### The invariant by component -/

/-- The part of the invariant a GP0 word can touch (rules R33, R34, R101, R205). -/
structure PortInv (c : Config) (g : Gpu) : Prop where
  vram : Vram.wf c g.vram = true
  args : g.args.length = c.argBufferWords
  decoder : decoderInv c g
  cursor : cursorInv g

/-- The GPU's part of the invariant. -/
structure GpuInv (c : Config) (g : Gpu) : Prop extends PortInv c g where
  irq : g.irqSignalled = true → g.irq = true
  dots : g.dotAccum < c.gpuCyclesPerLine
  line : g.line < c.linesPerFrame

/-- The CDROM controller's part of the invariant. -/
structure CdInv (c : Config) (d : Cd) : Prop where
  params : d.paramFifo.length ≤ c.fifoCap
  responses : d.responseFifo.length ≤ c.fifoCap
  ints : d.intFifo.length ≤ c.fifoCap
  data : d.dataFifo.length ≤ c.cdSectorRaw
  codes : ∀ b ∈ d.intFifo, cdCode b
  front : d.frontSignalled = true → d.intFifo ≠ []
  mode : modeOneHot d.stat

theorem State.Inv.gpuInv {s : State} (h : s.Inv) : GpuInv s.cfg s.gpu := { h with }

theorem State.Inv.cdInv {s : State} (h : s.Inv) : CdInv s.cfg s.cd := { h with }

/-- The invariant is that of its components, the parameters and main RAM. -/
theorem inv_of_components {s : State} (hc : s.cfg.accepts = true) (hg : GpuInv s.cfg s.gpu)
    (hr : Memory.wf s.cfg s.ram = true) (hd : CdInv s.cfg s.cd) : s.Inv :=
  { hg, hd with cfg := hc, ram := hr }

/-! ### What a transaction keeps unless it is a GPU step, a DMA step or the shell toggle -/

/-- The display timing (rule R48). -/
def displayTiming (g : Gpu) : Nat × Nat × Nat × Bool := (g.dotAccum, g.line, g.frame, g.odd)

/-- From `s` to `t` the parameters, the script, the display timing, the stored master flag, the shell bit and the
invariant are kept (rules R12, R48, R62, R412). -/
structure Keeps (s t : State) : Prop where
  cfg : t.cfg = s.cfg
  script : t.script = s.script
  timing : displayTiming t.gpu = displayTiming s.gpu
  masterFlag : t.dma.dicr.getLsbD 31 = s.dma.dicr.getLsbD 31
  shellBit : t.cd.stat.getLsbD 4 = s.cd.stat.getLsbD 4
  inv : s.Inv → t.Inv

theorem Keeps.refl (s : State) : Keeps s s := ⟨rfl, rfl, rfl, rfl, rfl, id⟩

theorem Keeps.trans {s t u : State} (h : Keeps s t) (h' : Keeps t u) : Keeps s u where
  cfg := h'.cfg.trans h.cfg
  script := h'.script.trans h.script
  timing := h'.timing.trans h.timing
  masterFlag := h'.masterFlag.trans h.masterFlag
  shellBit := h'.shellBit.trans h.shellBit
  inv := h'.inv ∘ h.inv

/-- Draws, events and the bytes of a read have no part in it. -/
theorem keeps_outputs (s : State) (k : Nat) (o : List Event) (b : List Byte) :
    Keeps s { s with draws := k, out := o, readBuf := b } := ⟨rfl, rfl, rfl, rfl, rfl, fun h => { h with }⟩

theorem keeps_emit (e : Event) (s : State) : Keeps s (emit e s) := keeps_outputs s _ _ _

theorem keeps_returnBytes (bs : List Byte) (s : State) : Keeps s (returnBytes bs s) := keeps_outputs s _ _ _

theorem keeps_draw8 (s : State) : Keeps s (draw8 s).2 := keeps_outputs s _ _ _

theorem keeps_gpu {s : State} {g : Gpu} (ht : displayTiming g = displayTiming s.gpu)
    (hg : GpuInv s.cfg s.gpu → GpuInv s.cfg g) : Keeps s { s with gpu := g } :=
  ⟨rfl, rfl, ht, rfl, rfl, fun h => inv_of_components h.cfg (hg h.gpuInv) h.ram h.cdInv⟩

theorem keeps_dma {s : State} {d : Dma} (hm : d.dicr.getLsbD 31 = s.dma.dicr.getLsbD 31) :
    Keeps s { s with dma := d } := ⟨rfl, rfl, rfl, hm, rfl, fun h => { h with }⟩

theorem keeps_ram {s : State} {m : Memory} (hm : s.Inv → Memory.wf s.cfg m = true) : Keeps s { s with ram := m } :=
  ⟨rfl, rfl, rfl, rfl, rfl, fun h => inv_of_components h.cfg h.gpuInv (hm h) h.cdInv⟩

theorem keeps_cd {s : State} {d : Cd} (hb : d.stat.getLsbD 4 = s.cd.stat.getLsbD 4)
    (hd : s.Inv → CdInv s.cfg d) : Keeps s { s with cd := d } :=
  ⟨rfl, rfl, rfl, rfl, hb, fun h => inv_of_components h.cfg h.gpuInv h.ram (hd h)⟩

/-- A GP0 frame, with the part of the invariant that GP0 words can touch. -/
theorem keeps_of_gp0Frame {s t : State} (f : Gp0Frame s t) (hp : s.Inv → PortInv s.cfg t.gpu) : Keeps s t where
  cfg := f.cfg
  script := f.script
  timing := by simp only [displayTiming, f.dotAccum, f.line, f.frame, f.odd]
  masterFlag := by rw [f.dma]
  shellBit := by rw [f.cd]
  inv h := by
    have hg : GpuInv s.cfg t.gpu :=
      { hp h with
        irq := fun hi => f.irq (h.irq (f.irqSignalled ▸ hi))
        dots := f.dotAccum ▸ h.dots
        line := f.line ▸ h.line }
    exact inv_of_components (f.cfg ▸ h.cfg) (f.cfg ▸ hg) (by rw [f.cfg, f.ram]; exact h.ram)
      (by rw [f.cfg, f.cd]; exact h.cdInv)

/-! ### GP0 words: the decoder (rules R200 to R208) -/

/-- No command is being collected. -/
def notCollecting (g : Gpu) : Prop := ∀ k, g.cmdState ≠ .collect k

/-- Outside a collection the decoder's state is its two counters at 0 (rule R32). -/
theorem decoderInv_iff_of_notCollecting {c : Config} {g : Gpu} (h : notCollecting g) :
    decoderInv c g ↔ g.argCount = 0 ∧ g.currArg = 0 := by
  unfold decoderInv
  split
  · rename_i k hk
    exact absurd hk (h k)
  · rfl

/-- Within one it is the command word, the count of its words, how many have come, and no sentinel among a polyline's
(rules R32, R205, R207). -/
theorem decoderInv_iff_of_collecting {c : Config} {g : Gpu} {k : Kind} (h : g.cmdState = .collect k) :
    decoderInv c g ↔ gp0Class (byte3 (argAt g.args 0)) = .multiword k ∧ g.argCount = wordCount c k (argAt g.args 0)
      ∧ 1 ≤ g.currArg ∧ g.currArg < g.argCount
      ∧ (isPolyline k (argAt g.args 0) = true → ∀ w ∈ (g.args.take g.currArg).drop 1, w ≠ c.lineSentinel) := by
  unfold decoderInv
  simp only [h]

/-- Completing a command leaves the decoder idle (rule R208). -/
theorem portInv_endCollect {c : Config} {s : State} (h : PortInv c s.gpu) : PortInv c (endCollect s).gpu where
  vram := h.vram
  args := h.args
  decoder := ⟨rfl, rfl⟩
  cursor hr := h.cursor (.inr (hr.resolve_left nofun))

/-- A command word starts a collection with itself as first argument (rule R201). -/
theorem portInv_gp0Idle {w : Word} {s t : State} (hc : s.cfg.accepts = true) (h : PortInv s.cfg s.gpu)
    (ht : gp0Idle w s = .collected t) : PortInv s.cfg t.gpu := by
  unfold gp0Idle at ht
  split at ht
  · cases ht
  · cases ht
  next k hk =>
    cases ht
    obtain ⟨h2, hroom⟩ := wordCount_bounds hc k w
    obtain ⟨a, as, ha⟩ : ∃ a as, s.gpu.args = a :: as := List.exists_cons_of_length_pos (by rw [h.args]; omega)
    have h0 : argAt (s.gpu.args.set 0 w) 0 = w := by rw [ha]; rfl
    refine ⟨h.vram, by simpa using h.args, (decoderInv_iff_of_collecting rfl).mpr ?_,
      fun hr => h.cursor (.inr (hr.resolve_left nofun))⟩
    rw [show argAt _ 0 = w from h0]
    refine ⟨hk, rfl, Nat.le_refl 1, h2, fun _ x hx => ?_⟩
    rw [ha] at hx
    simp at hx

/-- Storing an argument behind the command word leaves the command word as it is. -/
theorem argAt_zero_set (args : List Word) {n : Nat} (hn : 1 ≤ n) (w : Word) : argAt (args.set n w) 0 = argAt args 0 := by
  cases args with
  | nil => rfl
  | cons a as => obtain ⟨m, rfl⟩ := Nat.exists_eq_add_of_le' hn; rfl

/-- The arguments after one more is stored: those before it, and it. -/
theorem mem_args_set {args : List Word} {n : Nat} {w x : Word}
    (hx : x ∈ ((args.set n w).take (n + 1)).drop 1) : x ∈ (args.take n).drop 1 ∨ x = w := by
  have ht : (args.set n w).take n = args.take n := List.take_set_of_le (Nat.le_refl n)
  rw [List.take_add_one, ht, List.drop_append, List.mem_append] at hx
  refine hx.imp_right fun hx => ?_
  have hw : (args.set n w)[n]? = some x := Option.mem_toList.mp (List.mem_of_mem_drop hx)
  have : n < args.length ∧ w = x := by simpa [List.getElem?_set] using hw
  exact this.2.symm

/-- An argument word is stored, the sentinel of a polyline ends it, and the last word completes the command (rules R206
to R208). -/
theorem portInv_gp0Collect {k : Kind} {w : Word} {s : State} (hk : s.gpu.cmdState = .collect k)
    (h : PortInv s.cfg s.gpu) :
    (∀ t, gp0Collect k w s = .collected t → PortInv s.cfg t.gpu)
      ∧ ∀ i t, gp0Collect k w s = .complete i t → PortInv s.cfg t.gpu ∧ notCollecting t.gpu := by
  obtain ⟨hclass, hcount, hfirst, hroom, hsent⟩ := (decoderInv_iff_of_collecting hk).mp h.decoder
  have harg := argAt_zero_set s.gpu.args hfirst w
  unfold gp0Collect
  split
  · refine ⟨fun _ ht => (by cases ht), fun i t ht => ?_⟩
    cases ht
    exact ⟨portInv_endCollect h, fun _ hc => (by cases hc)⟩
  next hns =>
    dsimp only
    split
    next hlast =>
      refine ⟨fun _ ht => (by cases ht), fun i t ht => ?_⟩
      cases ht
      refine ⟨⟨h.vram, by simpa using h.args, ⟨rfl, rfl⟩, fun hr => h.cursor (.inr (hr.resolve_left nofun))⟩,
        fun _ hc => (by cases hc)⟩
    next hmore =>
      refine ⟨fun t ht => ?_, fun _ _ ht => (by cases ht)⟩
      cases ht
      refine ⟨h.vram, by simpa using h.args, (decoderInv_iff_of_collecting (k := k) ?_).mpr ?_, h.cursor⟩
      · exact hk
      rw [show argAt _ 0 = argAt s.gpu.args 0 from harg]
      refine ⟨hclass, hcount, Nat.le_add_left 1 _, lt_of_le_of_ne hroom hmore, fun hp x hx => ?_⟩
      rcases mem_args_set hx with hx | rfl
      · exact hsent hp x hx
      · exact fun he => hns ⟨hp, he⟩

/-- What a GP0 word leaves of the GPU before its command, if it completes one, runs. -/
theorem portInv_gp0Take {w : Word} {s : State} (hc : s.cfg.accepts = true) (h : PortInv s.cfg s.gpu) :
    (∀ t, gp0Take w s = .collected t → PortInv s.cfg t.gpu)
      ∧ ∀ i t, gp0Take w s = .complete i t → PortInv s.cfg t.gpu ∧ notCollecting t.gpu := by
  unfold gp0Take
  split
  next hs =>
    refine ⟨fun t ht => portInv_gp0Idle hc h ht, fun i t ht => ?_⟩
    have he : t = s := by
      unfold gp0Idle at ht
      split at ht <;> cases ht <;> rfl
    subst he
    exact ⟨h, fun k hk => (by rw [hs] at hk; cases hk)⟩
  next k hk => exact portInv_gp0Collect hk h
  next hs =>
    refine ⟨fun _ ht => (by cases ht), fun i t ht => ?_⟩
    cases ht
    exact ⟨h, fun k hk => (by rw [hs] at hk; cases hk)⟩

/-! ### GP0 words: the commands -/

/-- The bounds of a transfer cursor (rules R34, R300, R305). -/
def Cursor.Bounded (k : Cursor) : Prop :=
  k.startX ≤ k.currX ∧ k.currX < k.endX ∧ k.startX ≤ 0xFFFF ∧ k.startY ≤ 0xFFFF ∧ k.endX ≤ 0x1FFFE
    ∧ k.endY ≤ 0x1FFFE ∧ k.startY ≤ k.currY

theorem cursorInv_iff (g : Gpu) :
    cursorInv g ↔ (g.cmdState = .cpuToVramData ∨ g.readMode = .vramRead → g.cursor.Bounded) := Iff.rfl

/-- A transfer of at least one column starts inside its bounds. -/
theorem cursorAt_bounded (pos : Xy) {size : Xy} (hw : size.x ≠ 0#16) : (cursorAt pos size).Bounded := by
  have h0 : size.x.toNat ≠ 0 := fun h => hw (BitVec.eq_of_toNat_eq h)
  have := pos.x.isLt
  have := pos.y.isLt
  have := size.x.isLt
  have := size.y.isLt
  simp only [Cursor.Bounded, cursorAt]
  omega

theorem cursorNext_bounded {k : Cursor} (h : k.Bounded) : (cursorNext k).Bounded := by
  unfold Cursor.Bounded at h
  unfold Cursor.Bounded cursorNext
  split
  · simp only
    omega
  · simp only
    omega

theorem portInv_vram {c : Config} {g : Gpu} {v : Vram} (h : PortInv c g) (hv : Vram.wf c v = true) :
    PortInv c { g with vram := v } := { h with vram := hv }

/-- Batches change the VRAM and nothing else of the GPU. -/
theorem portInv_drawBatches (bs : List DrawBatch) {s : State} (hc : s.cfg.accepts = true) (h : PortInv s.cfg s.gpu) :
    PortInv s.cfg (drawBatches bs s).gpu := by
  induction bs generalizing s with
  | nil => exact h
  | cons b bs ih =>
    obtain ⟨hw, hh⟩ := accepts_grid hc
    exact ih (s := drawBatch b s) hc (portInv_vram h (rasterized_wf hw hh b h.vram))

theorem notCollecting_dataPixel (p : Pixel) {s : State} (h : notCollecting s.gpu) :
    notCollecting (dataPixel p s).gpu := by
  intro k
  show (if _ then CmdState.idle else s.gpu.cmdState) ≠ _
  split
  · exact fun hk => by cases hk
  · exact h k

theorem portInv_dataPixel (p : Pixel) {s : State} (hc : s.cfg.accepts = true) (h : PortInv s.cfg s.gpu)
    (hn : notCollecting s.gpu) : PortInv s.cfg (dataPixel p s).gpu where
  vram := vramWrite_wf (accepts_grid hc).1 (accepts_grid hc).2 _ _ p h.vram
  args := h.args
  decoder := (decoderInv_iff_of_notCollecting (notCollecting_dataPixel p hn)).mpr
    ((decoderInv_iff_of_notCollecting hn).mp h.decoder)
  cursor := by
    rw [cursorInv_iff]
    intro hr
    refine cursorNext_bounded (h.cursor (hr.imp_left fun hs => ?_))
    replace hs : (if cursorDone (cursorNext s.gpu.cursor) then CmdState.idle else s.gpu.cmdState) = _ := hs
    split at hs
    · cases hs
    · exact hs

/-- Every GP0 command, run outside a collection, keeps that part of the invariant. -/
theorem portInv_gp0Run (i : Instr) {s : State} (hc : s.cfg.accepts = true) (h : PortInv s.cfg s.gpu)
    (hn : notCollecting s.gpu) : Ensures (gp0Run i s) fun t => PortInv s.cfg t.gpu := by
  obtain ⟨hw, hh⟩ := accepts_grid hc
  have hd := (decoderInv_iff_of_notCollecting (c := s.cfg) hn).mp h.decoder
  cases i with
  | gp0PolyF3 | gp0PolyFT3 | gp0PolyF4 | gp0PolyFT4 | gp0PolyG3 | gp0PolyGT3 | gp0PolyG4 | gp0PolyGT4
  | gp0LineF2 | gp0LineFP | gp0LineG2 | gp0LineGP | gp0RectVar | gp0RectTVar | gp0Rect1 | gp0RectT1 | gp0Rect8
  | gp0RectT8 | gp0Rect16 | gp0RectT16 => exact ensures_next (portInv_drawBatches _ hc h)
  | gp0Fill c p z => exact ensures_next (portInv_vram h (fillPixels_wf hw hh _ _ _ _ _ h.vram))
  | gp0CopyVramVram a b z =>
    simp only [gp0Run, execGp0CopyVramVram]
    split
    · exact ensures_next h
    · exact ensures_next (portInv_vram h (copyPixels_wf hw hh _ _ _ _ _ _ h.vram))
  | gp0CopyCpuVram p z =>
    simp only [gp0Run, execGp0CopyCpuVram]
    split
    · exact ensures_next h
    next hz =>
      exact ensures_next ⟨h.vram, h.args, hd, fun _ => cursorAt_bounded p fun hx => hz (.inl hx)⟩
  | gp0CopyVramCpu p z =>
    simp only [gp0Run, execGp0CopyVramCpu]
    split
    · exact ensures_next h
    next hz =>
      exact ensures_next ⟨h.vram, h.args, h.decoder, fun _ => cursorAt_bounded p fun hx => hz (.inl hx)⟩
  | gp0Data p q =>
    have h1 := portInv_dataPixel p hc h hn
    have hn1 := notCollecting_dataPixel p hn
    refine ensures_next ?_
    show PortInv s.cfg (if _ then dataPixel p s else dataPixel q (dataPixel p s)).gpu
    split
    · exact h1
    · exact portInv_dataPixel q (s := dataPixel p s) hc h1 hn1
  | gp0Irq | gp0DrawMode | gp0TexWindow | gp0DrawAreaTl | gp0DrawAreaBr | gp0DrawOffset | gp0Mask =>
    exact ensures_next { h with }
  | _ => exact ensures_next h

/-- A GP0 word, from the host or from the DMA engine (rules R200, R422). -/
theorem keeps_gp0Word (w : Word) (s : State) : Ensures (gp0Word w s) (Keeps s) := by
  intro u hu
  obtain ⟨t, ht, f⟩ := gp0Word_next w s
  cases ht.symm.trans hu
  refine keeps_of_gp0Frame f fun h => ?_
  have hp : PortInv s.cfg s.gpu := h.gpuInv.toPortInv
  obtain ⟨hcollect, hcomplete⟩ := portInv_gp0Take (w := w) h.cfg hp
  unfold gp0Word at ht
  rcases gp0Take_gp0 w s with ⟨t, he, -⟩ | ⟨i, t, he, -, ft⟩
  · rw [he] at ht
    cases ht
    exact hcollect _ he
  · rw [he] at ht
    obtain ⟨hpt, hn⟩ := hcomplete i t he
    rw [← ft.cfg] at hpt ⊢
    exact portInv_gp0Run i (ft.cfg ▸ h.cfg) hpt hn _ ht

/-- An instruction that keeps them from every state it completes from. -/
def Preserving (i : Instr) : Prop := ∀ s, Ensures (exec i s) (Keeps s)

theorem preserving_ite {p : Prop} [Decidable p] {i j : Instr} (hi : Preserving i) (hj : Preserving j) :
    Preserving (if p then i else j) := iteInduction (fun _ => hi) fun _ => hj

/-! ### GP1 words and the GPU's reads -/

theorem keeps_execGp1Reset (s : State) : Ensures (execGp1Reset s) (Keeps s) :=
  ensures_next (keeps_gpu rfl fun h =>
    { h with
      decoder := ⟨rfl, rfl⟩
      cursor := fun hr => hr.elim (fun h => by cases h) fun h => by cases h
      irq := fun h => by cases h })

theorem keeps_execGp1ResetCmdBuffer (s : State) : Ensures (execGp1ResetCmdBuffer s) (Keeps s) :=
  ensures_next (keeps_gpu rfl fun h =>
    { h with
      decoder := ⟨rfl, rfl⟩
      cursor := fun hr => h.cursor (.inr (hr.resolve_left fun h => by cases h)) })

theorem keeps_execGp1AckIrq (s : State) : Ensures (execGp1AckIrq s) (Keeps s) :=
  ensures_next (keeps_gpu rfl fun h => { h with irq := fun h => by cases h })

theorem keeps_execGp1VRange (y1 y2 : BitVec 10) (s : State) : Ensures (execGp1VRange y1 y2 s) (Keeps s) := by
  unfold execGp1VRange
  split
  · exact ensures_next (keeps_gpu rfl fun h => { h with })
  · exact ensures_next (keeps_gpu rfl fun h => { h with })

theorem keeps_execGp1Unrecognized (w : Word) (s : State) : Ensures (execGp1Unrecognized w s) (Keeps s) := by
  unfold execGp1Unrecognized
  split
  · exact ensures_next (keeps_emit _ s)
  · exact ensures_fault _ _

/-- The GP1 commands the decoder names (rules R340 to R352). Most write a register the invariant does not speak of. -/
theorem preserving_gp1Of (w : Word) : Preserving (gp1Of w) := by
  unfold gp1Of
  dsimp only
  refine preserving_ite keeps_execGp1Reset ?_
  refine preserving_ite keeps_execGp1ResetCmdBuffer ?_
  refine preserving_ite keeps_execGp1AckIrq ?_
  refine preserving_ite (fun s => ensures_next (keeps_gpu rfl fun h => { h with })) ?_
  refine preserving_ite (fun s => ensures_next (keeps_gpu rfl fun h => { h with })) ?_
  refine preserving_ite (fun s => ensures_next (keeps_gpu rfl fun h => { h with })) ?_
  refine preserving_ite (fun s => ensures_next (keeps_gpu rfl fun h => { h with })) ?_
  refine preserving_ite (keeps_execGp1VRange _ _) ?_
  refine preserving_ite (fun s => ensures_next (keeps_gpu rfl fun h => { h with })) ?_
  refine preserving_ite (fun s => ensures_next (keeps_gpu rfl fun h => { h with })) ?_
  refine preserving_ite (fun s => ensures_next (keeps_gpu rfl fun h => { h with })) ?_
  exact keeps_execGp1Unrecognized w

/-- A pixel read of a pending VRAM read moves the cursor inside its bounds. -/
theorem keeps_readPixel {s : State} (hm : s.gpu.readMode = .vramRead) : Keeps s (readPixel s).2 :=
  keeps_gpu rfl fun h => { h with cursor := fun _ => cursorNext_bounded (h.cursor (.inr hm)) }

/-- A GPUREAD (rule R320). -/
theorem keeps_gpuReadWord (s : State) : Keeps s (gpuReadWord s).2 := by
  unfold gpuReadWord
  split
  · exact .refl s
  next hm =>
    have h1 := keeps_readPixel hm
    dsimp only
    split
    · exact h1.trans (keeps_outputs _ _ _ _)
    next hm' => exact h1.trans (keeps_readPixel hm')

/-! ### DMA (rules R401 to R430) -/

/-- A word address of main RAM (rules R107, R421). -/
def WordAddress (c : Config) (a : Nat) : Prop := c.accepts = true → a % 4 = 0 ∧ a < c.ramSize

theorem wordAddress_ramAddr (c : Config) (v : Word) : WordAddress c (ramAddr c v) :=
  fun h => ⟨ramAddr_mod c v, ramAddr_lt h v⟩

/-- The next word of a transfer is a word address again. -/
theorem wordAddress_stepAddr {c : Config} {a : Nat} (ha : WordAddress c a) {delta : Int}
    (hd : delta = 4 ∨ delta = -4) : WordAddress c (stepAddr c a delta) := by
  intro h
  obtain ⟨h4, hlt⟩ := ha h
  have hs := stepAddr_wordAddr h a delta 0
  rw [wordAddr_zero hlt] at hs
  have := wordAddr_bounds h h4 hd (0 + 1)
  rw [hs]
  exact ⟨this.1, by omega⟩

/-- A word stored at a word address. -/
theorem keeps_memWrite {s : State} {a : Nat} (ha : WordAddress s.cfg a) (w : Word) :
    Keeps s { s with ram := memWrite s.ram a w } :=
  keeps_ram fun h => by
    obtain ⟨h4, hlt⟩ := ha h.cfg
    have := (accepts_ramSize h.cfg).2
    exact memWrite_wf w h.ram (by omega)

theorem keeps_gpuSend (delta : Int) (n addr : Nat) (s : State) : Ensures (gpuSend delta n addr s) (Keeps s) := by
  induction n generalizing addr s with
  | zero => exact ensures_next (.refl s)
  | succ n ih =>
    exact ensures_andThen (keeps_gp0Word _ s) fun t ht u hu => ht.trans (ih _ t u hu)

theorem keeps_nodeSend (addr n i : Nat) (s : State) : Ensures (nodeSend addr n i s) (Keeps s) := by
  induction n generalizing i s with
  | zero => exact ensures_next (.refl s)
  | succ n ih =>
    exact ensures_andThen (keeps_gp0Word _ s) fun t ht u hu => ht.trans (ih _ t u hu)

theorem keeps_listSend (nodes addr : Nat) (s : State) : Ensures (listSend nodes addr s) (Keeps s) := by
  induction nodes generalizing addr s with
  | zero => exact ensures_fault _ _
  | succ n ih =>
    refine ensures_andThen (keeps_nodeSend _ _ _ s) fun t ht => ?_
    split
    · exact ensures_next ht
    · exact fun u hu => ht.trans (ih _ t u hu)

theorem keeps_gpuReceive {delta : Int} (hd : delta = 4 ∨ delta = -4) (n : Nat) {addr : Nat} {s : State}
    (ha : WordAddress s.cfg addr) : Keeps s (gpuReceive delta n addr s) := by
  induction n generalizing addr s with
  | zero => exact .refl s
  | succ n ih =>
    have hread := keeps_gpuReadWord s
    have hstore := keeps_memWrite (hread.cfg ▸ ha) (gpuReadWord s).1
    exact (hread.trans hstore).trans (ih (wordAddress_stepAddr (hread.cfg ▸ ha) hd))

/-- What is left of a FIFO after its front entry is no longer than the FIFO. -/
theorem length_le_of_cons {f bs : List Byte} {b : Byte} {n : Nat} (hf : f = b :: bs) (h : f.length ≤ n) :
    bs.length ≤ n := by
  rw [hf] at h
  exact Nat.le_of_succ_le h

/-- A pop of the data FIFO, or a draw. -/
theorem keeps_popData (s : State) : Keeps s (popData s).2 := by
  unfold popData
  split
  · exact keeps_draw8 s
  next b bs hb =>
    exact keeps_cd rfl fun h => { h.cdInv with data := length_le_of_cons hb h.data }

theorem keeps_popDataWord (s : State) : Keeps s (popDataWord s).2 :=
  (((keeps_popData s).trans (keeps_popData _)).trans (keeps_popData _)).trans (keeps_popData _)

theorem keeps_cdReceive {delta : Int} (hd : delta = 4 ∨ delta = -4) (n : Nat) {addr : Nat} {s : State}
    (ha : WordAddress s.cfg addr) : Keeps s (cdReceive delta n addr s) := by
  induction n generalizing addr s with
  | zero => exact .refl s
  | succ n ih =>
    have hpop := keeps_popDataWord s
    have hstore := keeps_memWrite (hpop.cfg ▸ ha) (popDataWord s).1
    exact (hpop.trans hstore).trans (ih (wordAddress_stepAddr (hpop.cfg ▸ ha) hd))

theorem keeps_dmaGpu (ch : DmaChannel) (s : State) : Ensures (dmaGpu ch s) (Keeps s) := by
  unfold dmaGpu
  split_ifs
  · exact keeps_listSend _ _ s
  · exact keeps_gpuSend _ _ _ s
  · exact ensures_next (keeps_gpuReceive (dmaDelta_cases _) _ (wordAddress_ramAddr _ _))

theorem keeps_dmaTransfer (n : Fin 7) (s : State) : Ensures (dmaTransfer n s) (Keeps s) := by
  unfold dmaTransfer
  dsimp only
  split
  · exact keeps_dmaGpu _ s
  · exact ensures_next (keeps_cdReceive (dmaDelta_cases _) _ (wordAddress_ramAddr _ _))
  · exact ensures_next (keeps_ram fun h => clearTable_wf h.cfg _ (ramAddr_lt h.cfg _) (ramAddr_mod _ _) h.ram)
  · exact ensures_next (.refl s)

/-- Completion sets a channel's flag, bits 24 to 30, and not the master flag (rule R430). -/
theorem keeps_dmaFinish (n : Fin 7) (s : State) : Keeps s (dmaFinish n s) := by
  refine keeps_dma ?_
  show (dicrComplete s.dma.dicr n.val).getLsbD 31 = _
  unfold dicrComplete
  split
  · fin_cases n <;> simp
  · rfl

theorem keeps_setChannel (n : Fin 7) (ch : DmaChannel) (s : State) : Keeps s (setChannel s n ch) := keeps_dma rfl

theorem keeps_dmaStart (n : Fin 7) (s : State) : Ensures (dmaStart n s) (Keeps s) := by
  unfold dmaStart
  dsimp only
  split_ifs
  · exact ensures_fault _ _
  · exact ensures_fault _ _
  · exact ensures_andThen (keeps_dmaTransfer n s) fun t ht => ensures_next (ht.trans (keeps_dmaFinish n t))
  · exact ensures_next (.refl s)

theorem keeps_execDmaChcrWrite (n : Fin 7) (b : Fin 4) (d : Byte) (s : State) :
    Ensures (execDmaChcrWrite n b d s) (Keeps s) := by
  have hset := keeps_setChannel n { channel s n with chcr := setWordByte (channel s n).chcr b.val d } s
  unfold execDmaChcrWrite
  dsimp only
  split
  · exact fun u hu => hset.trans (keeps_dmaStart n _ u hu)
  · exact ensures_next hset

/-- The lower bytes of DICR do not hold the master flag (rule R411). -/
theorem keeps_execDmaDicrWriteLow (b : Fin 3) (d : Byte) (s : State) :
    Ensures (execDmaDicrWriteLow b d s) (Keeps s) :=
  ensures_next (keeps_dma (by
    show (setWordByte s.dma.dicr b.val d).getLsbD 31 = _
    rw [getLsbD_setWordByte _ _ _ _ (by decide), if_neg (by omega)]))

/-- An acknowledgement leaves the master flag (rule R412). -/
theorem keeps_execDmaDicrAck (d : Byte) (s : State) : Ensures (execDmaDicrAck d s) (Keeps s) :=
  ensures_next (keeps_dma (by
    show (dicrAck s.dma.dicr d).getLsbD 31 = _
    unfold dicrAck
    rw [getLsbD_append_high _ _ _ (by decide)]
    simp))

/-- A byte write in the DMA window (rules R400 to R412). -/
theorem preserving_dmaWriteOf (c : Config) (a : BitVec 7) (d : Byte) : Preserving (dmaWriteOf c a d) := by
  unfold dmaWriteOf
  dsimp only
  split_ifs
  · exact fun s => ensures_next (keeps_emit _ s)
  · split
    · exact fun s => ensures_next (keeps_setChannel _ _ s)
    · exact fun s => ensures_next (keeps_setChannel _ _ s)
    · exact keeps_execDmaChcrWrite _ _ d
    · exact fun s => ensures_next (.refl s)
  · exact fun s => ensures_next (keeps_dma rfl)
  · exact keeps_execDmaDicrWriteLow 0 d
  · exact keeps_execDmaDicrWriteLow 1 d
  · exact keeps_execDmaDicrWriteLow 2 d
  · exact keeps_execDmaDicrAck d

theorem keeps_dmaWriteBytes (a n i : Nat) (w : Word) (s : State) : Ensures (dmaWriteBytes a n i w s) (Keeps s) := by
  induction n generalizing i s with
  | zero => exact ensures_next (.refl s)
  | succ n ih => exact ensures_andThen (preserving_dmaWriteOf _ _ _ s) fun t ht u hu => ht.trans (ih _ t u hu)

theorem keeps_dmaReadBytes (a n : Nat) (s : State) : Ensures (dmaReadBytes a n s) (Keeps s) := by
  obtain ⟨bs, k, o, -, h⟩ := dmaReadBytes_next a n s
  rw [h]
  exact ensures_next (keeps_outputs s _ _ _)

/-! ### The stat byte (rules R62, R480, R513) -/

/-- Only bits 5, 6 and 7 matter to the mode. -/
theorem modeOneHot_congr {a b : Byte} (h : a &&& 0xE0#8 = b &&& 0xE0#8) : modeOneHot a ↔ modeOneHot b := by
  unfold modeOneHot
  rw [h]

theorem modeOneHot_setMode (m : DriveMode) (stat : Byte) : modeOneHot (setMode m stat) := by
  have h (x : Byte) : (stat &&& 0x1F#8 ||| x) &&& 0xE0#8 = x &&& 0xE0#8 := by
    rw [BitVec.and_or_distrib_right, BitVec.and_assoc]
    simp
  refine (modeOneHot_congr (h _)).mpr ?_
  cases m <;> unfold modeOneHot <;> decide

theorem modeOneHot_motorOn (stat : Byte) : modeOneHot (motorOn stat) ↔ modeOneHot stat := by
  refine modeOneHot_congr ?_
  rw [motorOn, BitVec.and_or_distrib_right]
  simp

theorem modeOneHot_motorOff (stat : Byte) : modeOneHot (motorOff stat) ↔ modeOneHot stat := by
  refine modeOneHot_congr ?_
  rw [motorOff, BitVec.and_assoc]
  rfl

/-- Opening the shell ends the mode; closing it leaves the mode (rule R480). -/
theorem modeOneHot_toggleShell {stat : Byte} (h : modeOneHot stat) : modeOneHot (toggleShell stat) := by
  unfold toggleShell
  split
  · refine (modeOneHot_congr ?_).mpr h
    rw [BitVec.and_assoc]
    rfl
  · left
    rw [BitVec.and_or_distrib_right, BitVec.and_assoc]
    simp

theorem shellBit_setMode (m : DriveMode) (stat : Byte) : (setMode m stat).getLsbD 4 = stat.getLsbD 4 := by
  cases m <;> simp [setMode]

theorem shellBit_motorOn (stat : Byte) : (motorOn stat).getLsbD 4 = stat.getLsbD 4 := by simp [motorOn]

theorem shellBit_motorOff (stat : Byte) : (motorOff stat).getLsbD 4 = stat.getLsbD 4 := by simp [motorOff]

/-! ### The CDROM's operations -/

theorem keeps_enterMode (m : DriveMode) (s : State) : Keeps s (enterMode m s) :=
  keeps_cd (shellBit_setMode m _) fun h => { h.cdInv with mode := modeOneHot_setMode m _ }

theorem keeps_startMotor (s : State) : Keeps s (startMotor s) :=
  keeps_cd (shellBit_motorOn _) fun h => { h.cdInv with mode := (modeOneHot_motorOn _).mpr h.mode }

/-! What a command stores in a register the invariant does not speak of. -/

theorem keeps_busy (b : Bool) (s : State) : Keeps s { s with cd.busy := b } :=
  keeps_cd rfl fun h => { h.cdInv with }

theorem keeps_modeReg (m : Byte) (s : State) : Keeps s { s with cd.modeReg := m } :=
  keeps_cd rfl fun h => { h.cdInv with }

theorem keeps_muted (b : Bool) (s : State) : Keeps s { s with cd.muted := b } :=
  keeps_cd rfl fun h => { h.cdInv with }

theorem keeps_session (n : Byte) (s : State) : Keeps s { s with cd.session := n } :=
  keeps_cd rfl fun h => { h.cdInv with }

theorem keeps_filter (file chan : Byte) (s : State) :
    Keeps s { s with cd.filterFile := file, cd.filterChannel := chan } :=
  keeps_cd rfl fun h => { h.cdInv with }

theorem keeps_sectorTimer (n : Nat) (s : State) : Keeps s { s with cd.sectorTimer := n } :=
  keeps_cd rfl fun h => { h.cdInv with }

theorem keeps_seekTarget (x : Int) (s : State) : Keeps s { s with cd.seekTarget := x, cd.seekPending := true } :=
  keeps_cd rfl fun h => { h.cdInv with }

theorem keeps_currentSector (x : Int) (s : State) :
    Keeps s { s with cd.currentSector := x, cd.seekPending := false } :=
  keeps_cd rfl fun h => { h.cdInv with }

theorem keeps_stopMotor (s : State) : Keeps s { s with cd.stat := motorOff s.cd.stat } :=
  keeps_cd (shellBit_motorOff _) fun h => { h.cdInv with mode := (modeOneHot_motorOff _).mpr h.mode }

theorem keeps_applySeek (s : State) : Keeps s (applySeek s) := by
  unfold applySeek
  split
  · exact keeps_currentSector _ s
  · exact .refl s

theorem keeps_readParam (s : State) : Keeps s (readParam s).2 := by
  unfold readParam
  split
  · exact keeps_draw8 s
  next b bs hb =>
    exact keeps_cd rfl fun h => { h.cdInv with params := length_le_of_cons hb h.params }

theorem keeps_popResponse (s : State) : Keeps s (popResponse s).2 := by
  unfold popResponse
  split
  · exact keeps_draw8 s
  next b bs hb =>
    exact keeps_cd rfl fun h => { h.cdInv with responses := length_le_of_cons hb h.responses }

theorem keeps_writeResponse (b : Byte) (s : State) : Keeps s (writeResponse b s) :=
  keeps_cd rfl fun h => { h.cdInv with responses := fifoPush_length b h.responses }

theorem keeps_writeResponses (bs : List Byte) (s : State) : Keeps s (writeResponses bs s) := by
  induction bs generalizing s with
  | nil => exact .refl s
  | cons b bs ih => exact (keeps_writeResponse b s).trans (ih _)

/-- One of the block's interrupt codes is queued (rules R13, R479, R482). -/
theorem keeps_pushCode {code : Byte} (hc : cdCode code) (s : State) :
    Keeps s { s with cd.intFifo := fifoPush s.cfg s.cd.intFifo code } :=
  keeps_cd rfl fun h =>
    { h.cdInv with
      ints := fifoPush_length code h.ints
      codes := fun b hb => (mem_fifoPush hb).elim (h.codes b) fun e => e ▸ hc
      front := fun hf he => h.front hf (List.prefix_nil.mp (he ▸ fifoPush_prefix s.cfg s.cd.intFifo code)) }

theorem keeps_respond {code : Byte} (hc : cdCode code) (bs : List Byte) (s : State) : Keeps s (respond code bs s) :=
  (keeps_writeResponses bs s).trans (keeps_pushCode hc _)

theorem cdCode_int1 : cdCode int1 := .inl rfl
theorem cdCode_int2 : cdCode int2 := .inr (.inl rfl)
theorem cdCode_int3 : cdCode int3 := .inr (.inr (.inl rfl))
theorem cdCode_int5 : cdCode int5 := .inr (.inr (.inr rfl))

theorem keeps_respondStat (s : State) : Keeps s (respondStat s) := keeps_respond cdCode_int3 _ s

theorem keeps_respondStat2 (s : State) : Keeps s (respondStat2 s) := keeps_respond cdCode_int2 _ s

/-! ### CDROM commands (rules R511 to R537) -/

theorem keeps_startRead (s : State) : Keeps s (startRead s) :=
  ((((keeps_applySeek s).trans (keeps_startMotor _)).trans (keeps_enterMode .reading _)).trans
    (keeps_sectorTimer 0 _)).trans (keeps_respondStat _)

theorem keeps_seekNow (s : State) : Keeps s (seekNow s) :=
  (((((keeps_applySeek s).trans (keeps_startMotor _)).trans (keeps_enterMode .seeking _)).trans
    (keeps_respondStat _)).trans (keeps_enterMode .none _)).trans (keeps_respondStat2 _)

theorem keeps_execCdSetloc (s : State) : Ensures (execCdSetloc s) (Keeps s) :=
  ensures_next (((((keeps_readParam s).trans (keeps_readParam _)).trans (keeps_readParam _)).trans
    (keeps_seekTarget _ _)).trans (keeps_respondStat _))

theorem keeps_playTrack (s : State) : Keeps s (playTrack s).2 := by
  unfold playTrack
  split
  · exact .refl s
  · exact keeps_readParam s

theorem keeps_execCdPlay (s : State) : Ensures (execCdPlay s) (Keeps s) := by
  have hseek (t : Nat) (s : State) : Keeps s
      (if t = 0 then applySeek s else { s with cd.currentSector := trackStart s t, cd.seekPending := false }) := by
    split
    · exact keeps_applySeek s
    · exact keeps_currentSector _ s
  exact ensures_next ((((((keeps_playTrack s).trans (hseek _ _)).trans (keeps_startMotor _)).trans
    (keeps_enterMode .playing _)).trans (keeps_sectorTimer 0 _)).trans (keeps_respondStat _))

theorem keeps_execCdStop (s : State) : Ensures (execCdStop s) (Keeps s) :=
  ensures_next ((((keeps_respondStat s).trans (keeps_enterMode .none _)).trans
    (keeps_stopMotor _)).trans (keeps_respondStat2 _))

theorem keeps_execCdInit (s : State) : Ensures (execCdInit s) (Keeps s) :=
  ensures_next (((((keeps_startMotor s).trans (keeps_enterMode .none _)).trans
    (keeps_modeReg _ _)).trans (keeps_respondStat _)).trans (keeps_respondStat2 _))

theorem keeps_execCdSetfilter (s : State) : Ensures (execCdSetfilter s) (Keeps s) :=
  ensures_next ((((keeps_readParam s).trans (keeps_readParam _)).trans (keeps_filter _ _ _)).trans
    (keeps_respondStat _))

theorem keeps_execCdSetmode (s : State) : Ensures (execCdSetmode s) (Keeps s) :=
  ensures_next (((keeps_readParam s).trans (keeps_modeReg _ _)).trans (keeps_respondStat _))

theorem keeps_execCdSetsession (s : State) : Ensures (execCdSetsession s) (Keeps s) :=
  ensures_next ((((keeps_readParam s).trans (keeps_session _ _)).trans
    (keeps_respondStat _)).trans (keeps_respondStat2 _))

theorem keeps_execCdTest (s : State) : Ensures (execCdTest s) (Keeps s) := by
  have hsub (b : Byte) (s : State) : Keeps s
      (if b = 0x20#8 then respond int3 [0x94#8, 0x09#8, 0x19#8, 0xC0#8] s else cdLogUnknown 0x19#8 s) := by
    split
    · exact keeps_respond cdCode_int3 _ s
    · exact keeps_emit _ s
  exact ensures_next ((keeps_readParam s).trans (hsub _ _))

theorem keeps_execCdGetid (s : State) : Ensures (execCdGetid s) (Keeps s) := by
  refine ensures_next ((keeps_respondStat s).trans ?_)
  split
  · exact keeps_respond cdCode_int2 _ _
  · exact keeps_respond cdCode_int5 _ _

/-- Whatever command the dispatch runs (rule R512). -/
theorem keeps_cdRun (i : Instr) (s : State) : Ensures (cdRun i s) (Keeps s) := by
  cases i with
  | cdGetstat => exact ensures_next (keeps_respondStat s)
  | cdSetloc => exact keeps_execCdSetloc s
  | cdPlay => exact keeps_execCdPlay s
  | cdReadn | cdReads => exact ensures_next (keeps_startRead s)
  | cdMotoron =>
    exact ensures_next (((keeps_startMotor s).trans (keeps_respondStat _)).trans (keeps_respondStat2 _))
  | cdStop => exact keeps_execCdStop s
  | cdPause =>
    exact ensures_next (((keeps_respondStat s).trans (keeps_enterMode .none _)).trans (keeps_respondStat2 _))
  | cdInit => exact keeps_execCdInit s
  | cdMute | cdDemute =>
    exact ensures_next ((keeps_muted _ _).trans (keeps_respondStat _))
  | cdSetfilter => exact keeps_execCdSetfilter s
  | cdSetmode => exact keeps_execCdSetmode s
  | cdGetlocl | cdGetlocp | cdGettn => exact ensures_next (keeps_respond cdCode_int3 _ s)
  | cdSetsession => exact keeps_execCdSetsession s
  | cdGettd => exact ensures_next ((keeps_readParam s).trans (keeps_respond cdCode_int3 _ _))
  | cdSeekl | cdSeekp => exact ensures_next (keeps_seekNow s)
  | cdTest => exact keeps_execCdTest s
  | cdGetid => exact keeps_execCdGetid s
  | cdReadtoc => exact ensures_next ((keeps_respondStat s).trans (keeps_respondStat2 _))
  | cdUnlock v => exact ensures_next (keeps_respond cdCode_int5 _ s)
  | cdUnrecognized d => exact ensures_next (keeps_emit _ s)
  | _ => exact ensures_next (.refl s)

theorem keeps_clearParams (s : State) : Keeps s { s with cd.paramFifo := [] } :=
  keeps_cd rfl fun h => { h.cdInv with params := Nat.zero_le _ }

theorem keeps_execCdCommand (d : Byte) (s : State) : Ensures (execCdCommand d s) (Keeps s) :=
  ensures_andThen (keeps_cdRun (cdCommandOf d) _) fun t ht =>
    ensures_next (((keeps_busy true s).trans ht).trans (keeps_clearParams t))

/-! ### CDROM ports (rules R461 to R478) -/

theorem keeps_ackFront (codes : BitVec 5) (s : State) : Keeps s (ackFront codes s) := by
  unfold ackFront
  split
  · exact .refl s
  next code rest hf =>
    split
    · exact .refl s
    · exact keeps_cd rfl fun h =>
        { h.cdInv with
          ints := length_le_of_cons hf h.ints
          codes := fun b hb => h.codes b (hf ▸ List.mem_cons_of_mem _ hb)
          front := fun hs => by cases hs }

theorem keeps_execCdIntAck (clear : Bool) (codes : BitVec 5) (s : State) :
    Ensures (execCdIntAck clear codes s) (Keeps s) := by
  refine ensures_next (.trans ?_ (keeps_ackFront codes _))
  split
  · exact keeps_clearParams s
  · exact .refl s

/-- A byte write to a CDROM port. -/
theorem preserving_cdWriteOf (p i : BitVec 2) (d : Byte) : Preserving (cdWriteOf p i d) := by
  unfold cdWriteOf
  split
  · exact fun s => ensures_next (keeps_cd rfl fun h => { h.cdInv with })
  · exact keeps_execCdCommand d
  · exact fun s => ensures_next (.refl s)
  · exact fun s => ensures_next (keeps_cd rfl fun h => { h.cdInv with })
  · exact fun s => ensures_next (keeps_cd rfl fun h => { h.cdInv with })
  · exact fun s => ensures_next (keeps_cd rfl fun h => { h.cdInv with params := fifoPush_length d h.params })
  · exact fun s => ensures_next (keeps_cd rfl fun h => { h.cdInv with })
  · exact fun s => ensures_next (keeps_cd rfl fun h => { h.cdInv with })
  · exact fun s => ensures_next (keeps_cd rfl fun h => { h.cdInv with })
  · exact fun s => ensures_next (keeps_cd rfl fun h => { h.cdInv with })
  · exact keeps_execCdIntAck _ _
  · exact fun s => ensures_next (keeps_cd rfl fun h => { h.cdInv with })
  · exact fun s => ensures_next (keeps_cd rfl fun h => { h.cdInv with })

/-- A byte read of a CDROM port. -/
theorem preserving_cdReadOf (p : BitVec 2) : Preserving (cdReadOf p) := by
  unfold cdReadOf
  split
  · exact fun s => ensures_next (keeps_returnBytes _ s)
  · exact fun s => ensures_next ((keeps_popResponse s).trans (keeps_returnBytes _ _))
  · exact fun s => ensures_next ((keeps_popData s).trans (keeps_returnBytes _ _))
  · exact fun s => ensures_next (keeps_returnBytes _ s)

/-! ### The steps (rules R370, R371, R440, R476, R481) -/

theorem advanceTiming_ranges {c : Config} (hc : 0 < c.gpuCyclesPerLine) (hl : 0 < c.linesPerFrame) (cycles : Nat)
    {g : Gpu} (h : g.line < c.linesPerFrame) : (advanceTiming c cycles g).2.dotAccum < c.gpuCyclesPerLine
      ∧ (advanceTiming c cycles g).2.line < c.linesPerFrame := by
  have hdots := Nat.mod_lt (g.dotAccum + cycles) hc
  unfold advanceTiming advanceLines
  dsimp only
  split_ifs with h0 hend
  · exact ⟨hdots, h⟩
  · exact ⟨hdots, hl⟩
  · exact ⟨hdots, by simpa using hend⟩

/-- The timing is all a step changes before it signals (rule R370). -/
theorem advanceTiming_frame (c : Config) (cycles : Nat) (g : Gpu) : ∃ d l f o,
    (advanceTiming c cycles g).2 = { g with dotAccum := d, line := l, frame := f, odd := o } := by
  unfold advanceTiming advanceLines
  dsimp only
  split_ifs <;> exact ⟨_, _, _, _, rfl⟩

theorem accepts_timing {c : Config} (h : c.accepts = true) : 0 < c.gpuCyclesPerLine ∧ 0 < c.linesPerFrame := by
  simp [Config.accepts] at h
  omega

theorem accepts_sector {c : Config} (h : c.accepts = true) : c.cdSectorData ≤ c.cdSectorRaw := by
  simp [Config.accepts] at h
  omega

theorem keeps_signalGpu (s : State) : Keeps s (signalGpu s) := by
  unfold signalGpu
  split
  next hs =>
    simp only [Bool.and_eq_true] at hs
    have hset : Keeps s { s with gpu.irqSignalled := true } :=
      keeps_gpu rfl fun h => { h with irq := fun _ => hs.2.1 }
    exact hset.trans (keeps_emit _ _)
  · exact .refl s

theorem inv_gpuStep (cycles : Nat) {s : State} (h : s.Inv) : (gpuStep cycles s).Inv := by
  obtain ⟨d, l, f, o, he⟩ := advanceTiming_frame s.cfg cycles s.gpu
  obtain ⟨hc, hl⟩ := accepts_timing h.cfg
  obtain ⟨hdots, hline⟩ := advanceTiming_ranges hc hl cycles h.line
  have hg : GpuInv s.cfg (advanceTiming s.cfg cycles s.gpu).2 := by
    rw [he] at hdots hline ⊢
    exact { h.gpuInv with dots := hdots, line := hline }
  have ht : State.Inv { s with gpu := (advanceTiming s.cfg cycles s.gpu).2 } :=
    inv_of_components h.cfg hg h.ram h.cdInv
  exact ((keeps_signalGpu _).trans (keeps_emit _ _)).inv ht

theorem inv_dmaStep {s : State} (h : s.Inv) : (dmaStep s).Inv := by
  have ht : State.Inv { s with dma.dicr := setMasterFlag s.dma.dicr (masterCondition s.dma.dicr) } := { h with }
  unfold dmaStep
  dsimp only
  split
  · exact (keeps_emit _ _).inv ht
  · exact ht

theorem keeps_storeSector {fifo : List Byte} (header : Vector Byte 8) (x : Int) {s : State}
    (hf : s.Inv → fifo.length ≤ s.cfg.cdSectorRaw) :
    Keeps s { s with cd.dataFifo := fifo, cd.lastHeader := header, cd.currentSector := x } :=
  keeps_cd rfl fun h => { h.cdInv with data := hf h }

/-- A sector's slice fits the data FIFO (rule R64). -/
theorem keeps_deliverSector (s : State) : Keeps s (deliverSector s) := by
  have hfits (h : s.Inv) : (if s.cd.modeReg.getLsbD 5 then sectorBytes s s.cd.currentSector 12 s.cfg.cdSectorRaw
      else sectorBytes s s.cd.currentSector 24 s.cfg.cdSectorData).length ≤ s.cfg.cdSectorRaw := by
    have := accepts_sector h.cfg
    split
    · simp [sectorBytes]
    · simpa [sectorBytes] using this
  exact (((keeps_storeSector _ _ hfits).trans (keeps_outputs _ _ _ _)).trans (keeps_pushCode cdCode_int1 _)).trans
    (keeps_writeResponse _ _)

theorem keeps_advanceSector (s : State) : Keeps s (advanceSector s) := by
  unfold advanceSector
  dsimp only
  split_ifs
  · exact (keeps_sectorTimer 0 s).trans (keeps_deliverSector _)
  · exact keeps_sectorTimer _ s
  · exact .refl s

/-- Only an entry of the interrupt FIFO signals (rule R476). -/
theorem ne_nil_of_cdSignals {d : Cd} (h : cdSignals d = true) : d.intFifo ≠ [] := by
  intro he
  simp [cdSignals, he] at h

theorem keeps_signalCd (s : State) : Keeps s (signalCd s) := by
  unfold signalCd
  split
  next hs =>
    have hne := ne_nil_of_cdSignals hs
    have hset : Keeps s { s with cd.frontSignalled := true } :=
      keeps_cd rfl fun h => { h.cdInv with front := fun _ => hne }
    exact hset.trans (keeps_emit _ _)
  · exact .refl s

theorem keeps_cdStep (s : State) : Keeps s (cdStep s) :=
  ((keeps_busy false s).trans (keeps_advanceSector _)).trans (keeps_signalCd _)

theorem inv_execShell {s : State} (h : s.Inv) : Ensures (execShell s) State.Inv :=
  ensures_next (inv_of_components h.cfg h.gpuInv h.ram { h.cdInv with mode := modeOneHot_toggleShell h.mode })

/-! ### Transactions (rule R140) -/

theorem keeps_writeTxn (c : Comp) (off : Nat) (width : Width) (w : Word) (s : State) :
    Ensures (writeTxn c off width w s) (Keeps s) := by
  cases c with
  | gpu =>
    show Ensures (gpuWrite off width w s) _
    unfold gpuWrite
    split
    · rw [hostGp0_eq_gp0Word]
      exact keeps_gp0Word w s
    split
    · exact preserving_gp1Of w s
    · exact ensures_fault _ _
  | dma =>
    show Ensures (dmaWriteTxn off width w s) _
    unfold dmaWriteTxn
    split
    · exact keeps_dmaWriteBytes _ _ _ w s
    · exact ensures_refused _ _
  | cdrom =>
    show Ensures (cdWriteTxn off width w s) _
    unfold cdWriteTxn
    split
    · exact ensures_fault _ _
    split
    · exact preserving_cdWriteOf _ _ _ s
    · exact ensures_refused _ _

theorem keeps_readTxn (c : Comp) (off : Nat) (width : Width) (s : State) :
    Ensures (readTxn c off width s) (Keeps s) := by
  cases c with
  | gpu =>
    show Ensures (gpuRead off width s) _
    unfold gpuRead
    split
    · exact ensures_next ((keeps_gpuReadWord s).trans (keeps_returnBytes _ _))
    split
    · exact ensures_next (keeps_returnBytes _ s)
    · exact ensures_fault _ _
  | dma =>
    show Ensures (dmaReadTxn off width s) _
    unfold dmaReadTxn
    split
    · exact keeps_dmaReadBytes _ _ s
    · exact ensures_refused _ _
  | cdrom =>
    show Ensures (cdReadTxn off width s) _
    unfold cdReadTxn
    split
    · exact ensures_fault _ _
    split
    · exact preserving_cdReadOf _ s
    · exact ensures_refused _ _

theorem keeps_ramStoreTxn (addr : Nat) (d : Byte) (s : State) : Ensures (ramStoreTxn addr d s) (Keeps s) := by
  unfold ramStoreTxn
  split
  next ha => exact ensures_next (keeps_ram fun h => memSetByte_wf d h.ram ha)
  · exact ensures_refused _ _

/-- Every transaction keeps them but for the GPU step, the DMA step and the shell toggle. -/
theorem keeps_transact {t : Txn} (hg : ∀ n, t ≠ .tick .gpu n) (hd : ∀ n, t ≠ .tick .dma n) (hs : t ≠ .shell)
    (s : State) : Ensures (transact t s) (Keeps s) := by
  cases t with
  | write c off width w => exact keeps_writeTxn c off width w s
  | read c off width =>
    exact ensures_andThen (keeps_readTxn c off width s) fun t ht => ensures_next (ht.trans (keeps_emit _ t))
  | tick c n =>
    cases c with
    | gpu => exact absurd rfl (hg n)
    | dma => exact absurd rfl (hd n)
    | cdrom => exact ensures_next (keeps_cdStep s)
  | shell => exact absurd rfl hs
  | ramStore addr d => exact keeps_ramStoreTxn addr d s

/-- Every transaction keeps the invariant. -/
theorem inv_transact (t : Txn) {s : State} (h : s.Inv) : Ensures (transact t s) State.Inv := by
  by_cases hg : ∃ n, t = .tick .gpu n
  · obtain ⟨n, rfl⟩ := hg
    exact ensures_next (inv_gpuStep n h)
  by_cases hd : ∃ n, t = .tick .dma n
  · obtain ⟨n, rfl⟩ := hd
    exact ensures_next (inv_dmaStep h)
  by_cases hs : t = .shell
  · subst hs
    exact inv_execShell h
  · exact fun u hu => (keeps_transact (not_exists.mp hg) (not_exists.mp hd) hs s u hu).inv h

/-- Settles O57: taking the transaction off the script does not touch what the invariant speaks of, and every
transaction keeps it. -/
theorem stepKeepsTheInvariant : Obligations.StepKeepsTheInvariant := by
  intro s t h ht
  unfold step at ht
  split at ht
  · cases ht
    exact h
  next x xs _ =>
    have hs : State.Inv { s with script := xs, readBuf := [] } := { h with }
    exact inv_transact x hs t ht

theorem gpuStep_frame (cycles : Nat) (s : State) : (gpuStep cycles s).cfg = s.cfg
    ∧ (gpuStep cycles s).script = s.script ∧ (gpuStep cycles s).dma = s.dma ∧ (gpuStep cycles s).cd = s.cd := by
  unfold gpuStep signalGpu
  dsimp only
  split <;> exact ⟨rfl, rfl, rfl, rfl⟩

theorem dmaStep_frame (s : State) : (dmaStep s).cfg = s.cfg
    ∧ (dmaStep s).script = s.script ∧ (dmaStep s).gpu = s.gpu ∧ (dmaStep s).cd = s.cd := by
  unfold dmaStep
  dsimp only
  split <;> exact ⟨rfl, rfl, rfl, rfl⟩

/-- Settles O60: a transaction that is none of the GPU step, the DMA step and the shell toggle keeps all five, and each
of the three changes its own. -/
theorem whoWritesWhat : Obligations.WhoWritesWhat := by
  intro s s' t ts hscript hstep
  have ht : transact t { s with script := ts, readBuf := [] } = .next s' := by
    unfold step at hstep
    rwa [hscript] at hstep
  by_cases hg : ∃ n, t = .tick .gpu n
  · obtain ⟨n, rfl⟩ := hg
    cases ht
    obtain ⟨hcfg, hscr, hdma, hcd⟩ := gpuStep_frame n { s with script := ts, readBuf := [] }
    exact ⟨hcfg, hscr, fun h => absurd rfl (h n), fun _ => congrArg (·.dicr.getLsbD 31) hdma,
      fun _ => congrArg (·.stat.getLsbD 4) hcd⟩
  by_cases hd : ∃ n, t = .tick .dma n
  · obtain ⟨n, rfl⟩ := hd
    cases ht
    obtain ⟨hcfg, hscr, hgpu, hcd⟩ := dmaStep_frame { s with script := ts, readBuf := [] }
    refine ⟨hcfg, hscr, fun _ => ?_, fun h => absurd rfl (h n), fun _ => congrArg (·.stat.getLsbD 4) hcd⟩
    exact ⟨congrArg Gpu.dotAccum hgpu, congrArg Gpu.line hgpu, congrArg Gpu.frame hgpu, congrArg Gpu.odd hgpu⟩
  by_cases hs : t = .shell
  · subst hs
    cases ht
    exact ⟨rfl, rfl, fun _ => ⟨rfl, rfl, rfl, rfl⟩, fun _ => rfl, fun h => absurd rfl h⟩
  · obtain ⟨hcfg, hscr, htiming, hflag, hshell, -⟩ :=
      keeps_transact (not_exists.mp hg) (not_exists.mp hd) hs _ s' ht
    simp only [displayTiming, Prod.mk.injEq] at htiming
    exact ⟨hcfg, hscr, fun _ => htiming, fun _ => hflag, fun _ => hshell⟩

/-! ### Responses (rules R13, R479) -/

/-- A push keeps the first entries that fit. -/
theorem fifoPush_eq_take {c : Config} {f : List Byte} (b : Byte) (h : f.length ≤ c.fifoCap) :
    fifoPush c f b = (f ++ [b]).take c.fifoCap := by
  unfold fifoPush
  split
  next hlt => exact (List.take_of_length_le (by simpa using hlt)).symm
  next hge =>
    have hlen : c.fifoCap = f.length := by omega
    rw [hlen, List.take_left]

theorem fifoPushes_eq_take {c : Config} {f : List Byte} (bs : List Byte) (h : f.length ≤ c.fifoCap) :
    fifoPushes c f bs = (f ++ bs).take c.fifoCap := by
  induction bs generalizing f with
  | nil => rw [List.append_nil, List.take_of_length_le h]; rfl
  | cons b bs ih =>
    calc fifoPushes c (fifoPush c f b) bs
        = (fifoPush c f b ++ bs).take c.fifoCap := ih (fifoPush_length b h)
      _ = ((f ++ [b]).take c.fifoCap ++ bs).take c.fifoCap := by rw [fifoPush_eq_take b h]
      _ = (f ++ [b] ++ bs).take c.fifoCap := by
        rw [List.take_append, List.take_append (l₁ := f ++ [b]), List.take_take, min_self, List.length_take]
        congr 2
        omega
      _ = (f ++ b :: bs).take c.fifoCap := by rw [List.append_assoc, List.singleton_append]

theorem writeResponses_eq (bs : List Byte) (s : State) :
    writeResponses bs s = { s with cd.responseFifo := fifoPushes s.cfg s.cd.responseFifo bs } := by
  induction bs generalizing s with
  | nil => rfl
  | cons b bs ih => exact (ih _).trans rfl

theorem respond_eq (code : Byte) (bs : List Byte) (s : State) : respond code bs s = { s with
    cd.responseFifo := fifoPushes s.cfg s.cd.responseFifo bs
    cd.intFifo := fifoPush s.cfg s.cd.intFifo code } := by
  rw [respond, writeResponses_eq]

/-- Settles O45: what fits is what a push keeps, byte by byte. -/
theorem respondAppendsUpToTheCapacity : Obligations.RespondAppendsUpToTheCapacity := by
  intro s code bs hr hi
  rw [respond_eq, fifoPushes_eq_take bs hr, fifoPush_eq_take code hi]

/-! ### Parameters (rules R13, R479) -/

/-- From `s` to `t` a command takes `n` bytes off the parameter FIFO, a draw for each that is not there, and leaves the
index, the data FIFO, `busy`, `ie` and everything outside the CDROM but events as they were. -/
structure TakesParams (n : Nat) (s t : State) : Prop where
  paramFifo : t.cd.paramFifo = s.cd.paramFifo.drop n
  draws : t.draws = s.draws + (n - s.cd.paramFifo.length)
  index : t.cd.index = s.cd.index
  dataFifo : t.cd.dataFifo = s.cd.dataFifo
  busy : t.cd.busy = s.cd.busy
  ie : t.cd.ie = s.cd.ie
  gpu : t.gpu = s.gpu
  dma : t.dma = s.dma
  ram : t.ram = s.ram
  cfg : t.cfg = s.cfg
  readBuf : t.readBuf = s.readBuf
  script : t.script = s.script

theorem TakesParams.refl (s : State) : TakesParams 0 s s :=
  ⟨rfl, by rw [Nat.zero_sub, Nat.add_zero], rfl, rfl, rfl, rfl, rfl, rfl, rfl, rfl, rfl, rfl⟩

@[simp] theorem readParam_draws (s : State) : (readParam s).2.draws = s.draws + (1 - s.cd.paramFifo.length) := by
  cases h : s.cd.paramFifo with
  | nil => rw [readParam_nil s h]; rfl
  | cons b bs => rw [readParam_cons s b bs h, List.length_cons, Nat.sub_eq_zero_of_le (by omega)]; rfl

theorem TakesParams.readParam {n : Nat} {s t : State} (h : TakesParams n s t) :
    TakesParams (n + 1) s (readParam t).2 where
  paramFifo := by rw [readParam_cd, h.paramFifo, List.tail_drop]
  draws := by
    rw [readParam_draws, h.draws, h.paramFifo, List.length_drop]
    omega
  index := by rw [readParam_cd, h.index]
  dataFifo := by rw [readParam_cd, h.dataFifo]
  busy := by rw [readParam_cd, h.busy]
  ie := by rw [readParam_cd, h.ie]
  gpu := by rw [readParam_gpu, h.gpu]
  dma := by rw [readParam_dma, h.dma]
  ram := by rw [readParam_ram, h.ram]
  cfg := by rw [readParam_cfg, h.cfg]
  readBuf := by rw [readParam_readBuf, h.readBuf]
  script := by rw [readParam_script, h.script]

theorem TakesParams.respond {n : Nat} {s t : State} (h : TakesParams n s t) (code : Byte) (bs : List Byte) :
    TakesParams n s (respond code bs t) := by
  rw [respond_eq]
  exact { h with }

theorem execCdSetloc_takes (s : State) : ∃ t, execCdSetloc s = .next t ∧ TakesParams 3 s t := by
  have h := (TakesParams.refl s).readParam.readParam.readParam
  refine ⟨respondStat { (readParam (readParam (readParam s).2).2).2 with
    cd.seekTarget := _, cd.seekPending := true }, rfl, .respond ?_ _ _⟩
  exact { h with }

theorem execCdSetfilter_takes (s : State) : ∃ t, execCdSetfilter s = .next t ∧ TakesParams 2 s t := by
  have h := (TakesParams.refl s).readParam.readParam
  refine ⟨respondStat { (readParam (readParam s).2).2 with cd.filterFile := _, cd.filterChannel := _ },
    rfl, .respond ?_ _ _⟩
  exact { h with }

theorem execCdSetmode_takes (s : State) : ∃ t, execCdSetmode s = .next t ∧ TakesParams 1 s t := by
  have h := (TakesParams.refl s).readParam
  refine ⟨respondStat { (readParam s).2 with cd.modeReg := _ }, rfl, .respond ?_ _ _⟩
  exact { h with }

theorem execCdSetsession_takes (s : State) : ∃ t, execCdSetsession s = .next t ∧ TakesParams 1 s t := by
  have h := (TakesParams.refl s).readParam
  refine ⟨respondStat2 (respondStat { (readParam s).2 with cd.session := _ }), rfl, .respond (.respond ?_ _ _) _ _⟩
  exact { h with }

theorem execCdGettd_takes (s : State) : ∃ t, execCdGettd s = .next t ∧ TakesParams 1 s t :=
  ⟨respond _ _ (readParam s).2, rfl, (TakesParams.refl s).readParam.respond _ _⟩

theorem execCdTest_takes (s : State) : ∃ t, execCdTest s = .next t ∧ TakesParams 1 s t := by
  have h := (TakesParams.refl s).readParam
  refine ⟨if (readParam s).1 = 0x20#8 then respond int3 [0x94#8, 0x09#8, 0x19#8, 0xC0#8] (readParam s).2
    else cdLogUnknown 0x19#8 (readParam s).2, rfl, ?_⟩
  split
  · exact h.respond _ _
  · exact { h with }

/-! ### Play (rule R516) -/

theorem applySeek_eq (s : State) : applySeek s = { s with
    cd.currentSector := if s.cd.seekPending then s.cd.seekTarget else s.cd.currentSector
    cd.seekPending := false } := by
  have h : applySeek s = { s with cd := (applySeek s).cd } := by
    unfold applySeek
    split <;> rfl
  rw [h, applySeek_cd]

theorem TakesParams.applySeek {n : Nat} {s t : State} (h : TakesParams n s t) : TakesParams n s (applySeek t) := by
  rw [applySeek_eq]
  exact { h with }

/-- The stat byte, the timer and the response of a Play, from the state its seek leaves. -/
def startPlay (s : State) : State := respondStat { enterMode .playing (startMotor s) with cd.sectorTimer := 0 }

theorem TakesParams.startPlay {n : Nat} {s t : State} (h : TakesParams n s t) : TakesParams n s (startPlay t) := by
  refine .respond ?_ _ _
  exact { h with }

/-- With no parameter Play reads none and takes the pending seek. -/
theorem execCdPlay_nil {s : State} (hp : s.cd.paramFifo = []) : execCdPlay s = .next (startPlay (applySeek s)) := by
  simp only [execCdPlay, playTrack, hp]
  rfl

theorem execCdPlay_cons {s : State} {b : Byte} {bs : List Byte} (hp : s.cd.paramFifo = b :: bs) :
    ∃ t, execCdPlay s = .next t ∧ TakesParams 1 s t := by
  have h := (TakesParams.refl s).readParam
  have he : execCdPlay s = .next (startPlay (if bcd (readParam s).1 = 0 then applySeek (readParam s).2
      else { (readParam s).2 with
        cd.currentSector := trackStart (readParam s).2 (bcd (readParam s).1), cd.seekPending := false })) := by
    simp only [execCdPlay, playTrack, hp]
    rfl
  refine ⟨_, he, .startPlay ?_⟩
  split
  · exact h.applySeek
  · exact { h with }

/-- The commands but Play: each takes its bytes, or draws. -/
theorem parameterCommand_takes {s : State} {i : Instr} {bytes : Nat}
    (hi : (i = .cdSetloc ∧ bytes = 3) ∨ (i = .cdSetfilter ∧ bytes = 2) ∨
      ((i = .cdSetmode ∨ i = .cdSetsession ∨ i = .cdGettd ∨ i = .cdTest) ∧ bytes = 1)) :
    ∃ t, exec i s = .next t ∧ TakesParams bytes s t := by
  rcases hi with ⟨rfl, rfl⟩ | ⟨rfl, rfl⟩ | ⟨rfl | rfl | rfl | rfl, rfl⟩
  · exact execCdSetloc_takes s
  · exact execCdSetfilter_takes s
  · exact execCdSetmode_takes s
  · exact execCdSetsession_takes s
  · exact execCdGettd_takes s
  · exact execCdTest_takes s

/-- Settles O50: every command but Play takes its bytes or draws; Play reads its byte only where it is there. -/
theorem parameterCommandsAlwaysComplete : Obligations.ParameterCommandsAlwaysComplete := by
  intro s i bytes hi
  by_cases hplay : i = .cdPlay
  · subst hplay
    obtain rfl : bytes = 1 := by simpa using hi
    cases hp : s.cd.paramFifo with
    | nil =>
      have h := (TakesParams.refl s).applySeek.startPlay
      refine ⟨_, execCdPlay_nil hp, ?_, by simpa using h.draws, h.index, h.dataFifo, h.busy, h.ie, h.gpu, h.dma,
        h.ram, h.cfg, h.readBuf, h.script, fun _ _ => ?_⟩
      · rw [h.paramFifo, hp]
        rfl
      · rw [applySeek_eq]
        rfl
    | cons b bs =>
      obtain ⟨t, ht, h⟩ := execCdPlay_cons hp
      refine ⟨t, ht, hp ▸ h.paramFifo, ?_, h.index, h.dataFifo, h.busy, h.ie, h.gpu, h.dma, h.ram, h.cfg, h.readBuf,
        h.script, nofun⟩
      simpa [hp] using h.draws
  · obtain ⟨t, ht, h⟩ := parameterCommand_takes (s := s) (i := i) (bytes := bytes) (by simpa [hplay] using hi)
    exact ⟨t, ht, h.paramFifo, by rw [if_neg hplay]; exact h.draws, h.index, h.dataFifo, h.busy, h.ie, h.gpu, h.dma,
      h.ram, h.cfg, h.readBuf, h.script, fun _ hi => absurd hi hplay⟩

end Sys2Proof.Machine
end

section
/-! PROOFS. The family of the memory map and the encoding: decoding gives back what was encoded (O1); accesses of the
wrong width (O55); GPUREAD (O20); the byte accesses of the DMA window (O28, O30), and the wider ones as runs of them
(O56). -/
namespace Sys2Proof.Machine

/-! ### Encoding: GP0 commands (rules R142, R201, R205, R207) -/

theorem gp0Of_of_oneWord {c : Config} {i : Instr} {w : Word} (h : OneWord c i w) : gp0Of c [w] = .instr i := by
  obtain ⟨-, -, ⟨hcls, hi⟩ | ⟨hcls, hi⟩⟩ := h
  · simp only [gp0Of, hcls, List.length_nil, if_true, hi]
  · simp only [gp0Of, hcls, List.length_nil, if_true, hi]

/-- A packet has the count its command word says, or, a polyline's, at most that. -/
theorem gp0Of_of_packet {c : Config} {i : Instr} {k : Kind} {w : Word} {rest : List Word} (h : Packet c i k w rest) :
    gp0Of c (w :: rest) = .instr i := by
  have hcount : (w :: rest).length = wordCount c k w
      ∨ (isPolyline k w = true ∧ (w :: rest).length ≤ wordCount c k w) := by
    cases hp : isPolyline k w with
    | false => exact .inl (h.fixed hp).1
    | true => exact .inr ⟨rfl, (h.poly hp).1⟩
  simp only [gp0Of, h.cls]
  rw [if_pos hcount, h.packet]

theorem gp0Of_gp0Words {c : Config} {i : Instr} (hc : c.accepts = true) (hw : i.wf c = true) (hg : gp0Words i ≠ []) :
    gp0Of c (gp0Words i) = .instr i := by
  have hm : 2 ≤ c.polylineMaxVertices := by
    simp [Config.accepts] at hc
    omega
  obtain ⟨w, h⟩ | ⟨k, w, rest, h⟩ := gp0_command_forms c i hm hw hg
  · rw [h.1]
    exact gp0Of_of_oneWord h
  · rw [h.words]
    exact gp0Of_of_packet h

/-! ### Encoding: GP1 words (rule R151) -/

theorem gp1Of_displayEnable (b : Bool) :
    gp1Of (opParam 0x03#8 (0#23 ++ BitVec.ofBool b : BitVec (23 + 1))) = .gp1DisplayEnable b := by
  cases b <;> decide

theorem gp1Of_texDisableAllow (b : Bool) :
    gp1Of (opParam 0x09#8 (0#23 ++ BitVec.ofBool b : BitVec (23 + 1))) = .gp1TexDisableAllow b := by
  cases b <;> decide

theorem gp1Of_dmaDirection (d : BitVec 2) :
    gp1Of (opParam 0x04#8 (0#22 ++ d : BitVec (22 + 2))) = .gp1DmaDirection d := by
  unfold gp1Of
  rw [byte3_opParam]
  show Instr.gp1DmaDirection _ = _
  rw [extract_opParam _ _ 0 2 (by decide), extract_append_low _ _ _ _ (by decide), extract_all]

theorem gp1Of_displayArea (x : BitVec 10) (y : BitVec 9) :
    gp1Of (opParam 0x05#8 (0#5 ++ (y ++ x) : BitVec (5 + (9 + 10)))) = .gp1DisplayArea x y := by
  unfold gp1Of
  rw [byte3_opParam]
  show Instr.gp1DisplayArea _ _ = _
  rw [extract_opParam _ _ 0 10 (by decide), extract_opParam _ _ 10 9 (by decide),
    extract_append_low 0 10 _ _ (by decide), extract_append_low 0 10 _ _ (by decide),
    extract_append_low 10 9 _ _ (by decide), extract_append_high 10 9 _ _ (by decide), extract_all, extract_all]

theorem gp1Of_hRange (x1 x2 : BitVec 12) :
    gp1Of (opParam 0x06#8 (x2 ++ x1 : BitVec (12 + 12))) = .gp1HRange x1 x2 := by
  unfold gp1Of
  rw [byte3_opParam]
  show Instr.gp1HRange _ _ = _
  rw [extract_opParam _ _ 0 12 (by decide), extract_opParam _ _ 12 12 (by decide),
    extract_append_low _ _ _ _ (by decide), extract_append_high _ _ _ _ (by decide), extract_all, extract_all]

theorem gp1Of_vRange (y1 y2 : BitVec 10) : gp1Of (opParam 0x07#8 (param10 y1 y2)) = .gp1VRange y1 y2 := by
  unfold gp1Of
  rw [byte3_opParam]
  show Instr.gp1VRange _ _ = _
  rw [extract_opParam _ _ 0 10 (by decide), extract_opParam _ _ 10 10 (by decide), param10_low, param10_high]

theorem gp1Of_displayMode (m : Byte) :
    gp1Of (opParam 0x08#8 (0#16 ++ m : BitVec (16 + 8))) = .gp1DisplayMode m := by
  unfold gp1Of
  rw [byte3_opParam]
  show Instr.gp1DisplayMode (BitVec.extractLsb' 0 8 _) = _
  rw [extract_opParam _ _ 0 8 (by decide), extract_append_low _ _ _ _ (by decide), extract_all]

theorem gp1Of_gpuInfo (k : BitVec 4) :
    gp1Of (opParam 0x10#8 (0#20 ++ k : BitVec (20 + 4))) = .gp1GpuInfo k := by
  unfold gp1Of
  rw [byte3_opParam]
  show Instr.gp1GpuInfo _ = _
  rw [extract_opParam _ _ 0 4 (by decide), extract_append_low _ _ _ _ (by decide), extract_all]

/-- A word outside the map of rule R151 (rule R352). -/
theorem gp1Of_of_unknown {w : Word} (h : gp1Unknown w = true) : gp1Of w = .gp1Unrecognized w := by
  have hn : (0x0A ≤ (byte3 w).toNat ∧ (byte3 w).toNat < 0x10) ∨ 0x20 ≤ (byte3 w).toNat := by
    simpa [gp1Unknown] using h
  unfold gp1Of
  dsimp only
  iterate 11 rw [if_neg (by omega)]

/-! ### Encoding: DMA registers (rules R104, R404, R405) -/

theorem dmaWriteOf_dpcr (c : Config) (b : Fin 4) (d : Byte) :
    dmaWriteOf c (BitVec.ofNat 7 (0x70 + b.val)) d = .dmaDpcrWrite b d := by
  fin_cases b <;> rfl

theorem dmaWriteOf_dicrLow (c : Config) (b : Fin 3) (d : Byte) :
    dmaWriteOf c (BitVec.ofNat 7 (0x74 + b.val)) d = .dmaDicrWriteLow b d := by
  fin_cases b <;> rfl

theorem dmaWriteOf_dicrAck (c : Config) (d : Byte) : dmaWriteOf c 0x77#7 d = .dmaDicrAck d := rfl

/-! ### Encoding: CDROM ports and command bytes (rules R460, R510, R511) -/

theorem cdWriteOf_indexWrite (k : BitVec 2) :
    cdWriteOf 0 0 (0#6 ++ k : BitVec (6 + 2)) = .cdIndexWrite k := by
  show Instr.cdIndexWrite _ = _
  rw [extract_append_low _ _ _ _ (by decide), extract_all]

theorem cdWriteOf_intEnable (e : BitVec 5) :
    cdWriteOf 2 1 (0#3 ++ e : BitVec (3 + 5)) = .cdIntEnable e := by
  show Instr.cdIntEnable _ = _
  rw [extract_append_low _ _ _ _ (by decide), extract_all]

theorem cdWriteOf_intAck (b : Bool) (e : BitVec 5) :
    cdWriteOf 3 1 ((0#1 ++ BitVec.ofBool b) ++ (0#1 ++ e) : BitVec ((1 + 1) + (1 + 5))) = .cdIntAck b e := by
  show Instr.cdIntAck _ _ = _
  rw [getLsbD_append_high 6 _ _ (by decide), getLsbD_append_low _ _ _ (by decide),
    extract_append_low _ _ _ _ (by decide), extract_append_low _ _ _ _ (by decide), extract_all]
  cases b <;> rfl

theorem cdCommandOf_unlock (v : BitVec 3) : cdCommandOf (0x0A#5 ++ v : BitVec (5 + 3)) = .cdUnlock v := by
  revert v
  decide

/-- A byte outside the closed set names no command (rule R511). -/
theorem cdCommandOf_of_unknown {d : Byte} (h : cdUnknown d = true) : cdCommandOf d = .cdUnrecognized d := by
  unfold cdCommandOf
  split
  case h_32 => rfl
  all_goals
    next hd => simp [cdUnknown, hd] at h

/-! ### Every instruction (rule R104, R142 to R152, R460, R510) -/

/-- The instructions of the other ports, where the encoding is not what the decoder computes back by itself: fields of
a word, DMA addresses, and the words and bytes outside the maps. -/
theorem decode_encode_of_no_gp0Words {c : Config} {i : Instr} (hg : gp0Words i = []) (h : i.wf c = true) :
    decode c (encode i) = .instr i := by
  cases i
  case gp0Data p0 p1 =>
    show Decoded.instr (.gp0Data _ _) = _
    unfold lowHalf highHalf
    rw [extract_append_low _ _ _ _ (by decide), extract_append_high _ _ _ _ (by decide), extract_all, extract_all]
  case gp1DisplayEnable b => exact congrArg _ (gp1Of_displayEnable b)
  case gp1DmaDirection d => exact congrArg _ (gp1Of_dmaDirection d)
  case gp1DisplayArea x y => exact congrArg _ (gp1Of_displayArea x y)
  case gp1HRange x1 x2 => exact congrArg _ (gp1Of_hRange x1 x2)
  case gp1VRange y1 y2 => exact congrArg _ (gp1Of_vRange y1 y2)
  case gp1DisplayMode m => exact congrArg _ (gp1Of_displayMode m)
  case gp1TexDisableAllow b => exact congrArg _ (gp1Of_texDisableAllow b)
  case gp1GpuInfo k => exact congrArg _ (gp1Of_gpuInfo k)
  case gp1Unrecognized w => exact congrArg _ (gp1Of_of_unknown h)
  case dmaMadrWrite n b d => exact congrArg _ (dmaWriteOf_dmaAddr (of_decide_eq_true h) (by decide) b d)
  case dmaBcrWrite n b d => exact congrArg _ (dmaWriteOf_dmaAddr (of_decide_eq_true h) (by decide) b d)
  case dmaChcrWrite n b d => exact congrArg _ (dmaWriteOf_dmaAddr (of_decide_eq_true h) (by decide) b d)
  case dmaReservedWrite n b d => exact congrArg _ (dmaWriteOf_dmaAddr (of_decide_eq_true h) (by decide) b d)
  case dmaDpcrWrite b d => exact congrArg _ (dmaWriteOf_dpcr c b d)
  case dmaDicrWriteLow b d => exact congrArg _ (dmaWriteOf_dicrLow c b d)
  case dmaUnmapped a data =>
    have ha : dmaMapped c a = false := by simpa [Instr.wf] using h
    cases data with
    | none => exact congrArg _ (dma_unmapped ha 0).2
    | some d => exact congrArg _ (dma_unmapped ha d).1
  case dmaRead a => exact congrArg _ (if_pos h)
  case cdIndexWrite k => exact congrArg _ (cdWriteOf_indexWrite k)
  case cdIntEnable e => exact congrArg _ (cdWriteOf_intEnable e)
  case cdIntAck b e => exact congrArg _ (cdWriteOf_intAck b e)
  case cdUnlock v => exact congrArg _ (cdCommandOf_unlock v)
  case cdUnrecognized d => exact congrArg _ (cdCommandOf_of_unknown h)
  all_goals cases hg
  all_goals rfl

/-- Settles O1: a GP0 command is decoded from its words, every other instruction from its port's form. -/
theorem decodeOfEncodeIsTheInstruction : Obligations.DecodeOfEncodeIsTheInstruction := by
  intro c i hc hw
  by_cases hg : gp0Words i = []
  · exact decode_encode_of_no_gp0Words hg hw
  · rw [encode_gp0 i hg]
    exact gp0Of_gp0Words hc hw hg

/-! ### Accesses of the wrong width (rules R103, R106, R603) -/

theorem gpuAccess_wrong {off : Nat} {width : Width} (h : width ≠ .w32 ∨ (off ≠ 0 ∧ off ≠ 4)) (w : Word) (s : State) :
    gpuWrite off width w s = .fault (.hostAccessWidth off width.bits s)
      ∧ gpuRead off width s = .fault (.hostAccessWidth off width.bits s) := by
  have h0 : ¬ (width = .w32 ∧ off = 0) := by tauto
  have h4 : ¬ (width = .w32 ∧ off = 4) := by tauto
  unfold gpuWrite gpuRead
  exact ⟨by rw [if_neg h0, if_neg h4], by rw [if_neg h0, if_neg h4]⟩

/-- Settles O55: the width is checked before anything else, and a fault of the read part stays one. -/
theorem wrongWidthFaultsFirst : Obligations.WrongWidthFaultsFirst := by
  intro s off width w
  refine ⟨fun h => ?_, fun h => ?_⟩
  · obtain ⟨hw, hr⟩ := gpuAccess_wrong h w s
    exact ⟨hw, congrArg (fun o => andThen o fun s => .next (finishRead width s)) hr⟩
  · have hr : cdReadTxn off width s = .fault (.hostAccessWidth off width.bits s) := if_pos h
    exact ⟨if_pos h, congrArg (fun o => andThen o fun s => .next (finishRead width s)) hr⟩

/-! ### GPUREAD (rules R108, R320) -/

theorem gpuReadWord_normal {s : State} (h : s.gpu.readMode = .normal) : gpuReadWord s = (s.gpu.gpuReadLatch, s) := by
  simp only [gpuReadWord, h]

/-- A pending read whose first pixel is not the last takes two. -/
theorem gpuReadWord_two {s : State} (h : s.gpu.readMode = .vramRead)
    (hk : (cursorNext s.gpu.cursor).currY ≠ (cursorNext s.gpu.cursor).endY) :
    gpuReadWord s = (vramRead s.cfg s.gpu.vram (cursorNext s.gpu.cursor).currX (cursorNext s.gpu.cursor).currY
        ++ vramRead s.cfg s.gpu.vram s.gpu.cursor.currX s.gpu.cursor.currY,
      { s with
        gpu.cursor := cursorNext (cursorNext s.gpu.cursor)
        gpu.readMode := if (cursorNext (cursorNext s.gpu.cursor)).currY = (cursorNext (cursorNext s.gpu.cursor)).endY
          then .normal else .vramRead }) := by
  simp [gpuReadWord, readPixel, cursorDone, h, hk]

/-- One whose first pixel is the last takes it and a draw. -/
theorem gpuReadWord_last {s : State} (h : s.gpu.readMode = .vramRead)
    (hk : (cursorNext s.gpu.cursor).currY = (cursorNext s.gpu.cursor).endY) :
    gpuReadWord s = (Config.any16 s.draws ++ vramRead s.cfg s.gpu.vram s.gpu.cursor.currX s.gpu.cursor.currY,
      { s with gpu.cursor := cursorNext s.gpu.cursor, gpu.readMode := .normal, draws := s.draws + 1 }) := by
  simp [gpuReadWord, readPixel, cursorDone, draw16, h, hk]

/-- The host is sent the word a GPUREAD returns, its bytes held byte 0 first. -/
theorem gpuread_returns {s t : State} {w : Word} (h : gpuReadWord s = (w, t)) :
    exec .gpuGpuread s = .next { t with readBuf := s.readBuf ++ bytesOfWord w }
      ∧ (s.readBuf = [] → transact (.read .gpu 0 .w32) s
          = .next { t with readBuf := bytesOfWord w, out := s.out ++ [.returned .w32 w] }) := by
  obtain ⟨k, m, n, hf⟩ := gpuReadWord_frame s
  rw [h] at hf
  change t = _ at hf
  have hbuf : t.readBuf = s.readBuf := by rw [hf]
  have hout : t.out = s.out := by rw [hf]
  have he : exec .gpuGpuread s = .next { t with readBuf := s.readBuf ++ bytesOfWord w } := by
    simp only [exec, execGpuGpuread, h, returnBytes, hbuf]
  refine ⟨he, fun hb => ?_⟩
  calc transact (.read .gpu 0 .w32) s
      = andThen (exec .gpuGpuread s) fun s => .next (finishRead .w32 s) := rfl
    _ = .next { t with readBuf := bytesOfWord w, out := s.out ++ [.returned .w32 w] } := by
      rw [he, andThen_next, hb, List.nil_append, finishRead, wordOfBytesLE_bytesOfWord, ← hout]
      rfl

/-- Settles O20: what GPUREAD returns in each of the three cases is what the host is sent. -/
theorem gpureadReturnsLatchOrPixels : Obligations.GpureadReturnsLatchOrPixels := by
  intro s
  exact ⟨fun h => gpuread_returns (gpuReadWord_normal h), fun h hk => gpuread_returns (gpuReadWord_two h hk),
    fun h hk => gpuread_returns (gpuReadWord_last h hk)⟩

/-! ### Byte writes of the DMA registers (rules R401 to R411) -/

/-- A write of CHCR below byte 3 starts nothing (rule R403). -/
theorem execDmaChcrWrite_low {b : Fin 4} (hb : b ≠ 3) (n : Fin 7) (d : Byte) (s : State) :
    exec (.dmaChcrWrite n b d) s
      = .next (setChannel s n { channel s n with chcr := setWordByte (channel s n).chcr b.val d }) := if_neg hb

/-- Settles O28: each write stores `setWordByte` of its register. -/
theorem dmaByteWritesReplaceOneByte : Obligations.DmaByteWritesReplaceOneByte := by
  intro s n b d
  have put : ∀ old : Word, ∀ i, i < 32 → (setWordByte old b.val d).getLsbD i
      = if 8 * b.val ≤ i ∧ i < 8 * b.val + 8 then d.getLsbD (i - 8 * b.val) else old.getLsbD i :=
    fun old => getLsbD_setWordByte old b.val d
  exact ⟨⟨_, rfl, put _⟩, ⟨_, rfl, put _⟩, fun hb => ⟨_, execDmaChcrWrite_low hb n d s, put _⟩, rfl, ⟨_, rfl, put _⟩,
    fun _ => ⟨_, rfl, put _⟩⟩

/-! ### Byte reads of the DMA window (rules R104, R404 to R406) -/

theorem dmaWordAt_dmaAddr (s : State) (n : Fin 7) {r : Nat} (hr : r < 4) (b : Fin 4) :
    dmaWordAt s (dmaAddr n r b) = channelWord (channel s n) r := by
  have hn : (0x10 * n.val + 4 * r + b.val) / 0x10 = n.val := by omega
  have hw : (0x10 * n.val + 4 * r + b.val) % 0x10 / 4 = r := by omega
  simp only [dmaWordAt, dmaAddr_toNat n hr, hn, hw, n.isLt, dif_pos]

theorem dmaWordAt_dpcr (s : State) (b : Fin 4) : dmaWordAt s (BitVec.ofNat 7 (0x70 + b.val)) = some s.dma.dpcr := by
  fin_cases b <;> rfl

theorem dmaWordAt_dicr (s : State) (b : Fin 4) : dmaWordAt s (BitVec.ofNat 7 (0x74 + b.val)) = some s.dma.dicr := by
  fin_cases b <;> rfl

/-- A byte of the register that stands at the address (rule R405). -/
theorem execDmaRead_some {s : State} {a : BitVec 7} {w : Word} (ha : a.toNat < 0x78) (hw : dmaWordAt s a = some w) :
    exec (.dmaRead a) s = .next (returnBytes [wordByte w (a.toNat % 4)] s) := by
  simp only [exec, execDmaRead, if_pos ha, hw]

/-- The fourth word of a channel holds none (rule R406). -/
theorem execDmaRead_none {s : State} {a : BitVec 7} (ha : a.toNat < 0x78) (hw : dmaWordAt s a = none) :
    exec (.dmaRead a) s = .next (returnDraw s) := by
  simp only [exec, execDmaRead, if_pos ha, hw]

/-- The register at the word-aligned address `base` is read byte by byte. -/
theorem execDmaRead_byte {s : State} {base : Nat} {w : Word} (hb : base % 4 = 0) (h78 : base < 0x78) (b : Fin 4)
    (hw : dmaWordAt s (BitVec.ofNat 7 (base + b.val)) = some w) :
    exec (.dmaRead (BitVec.ofNat 7 (base + b.val))) s = .next (returnBytes [wordByte w b.val] s) := by
  have ha : (BitVec.ofNat 7 (base + b.val)).toNat = base + b.val := by
    rw [BitVec.toNat_ofNat]
    omega
  have hm : (base + b.val) % 4 = b.val := by omega
  rw [execDmaRead_some (by omega) hw, ha, hm]

/-- Past the registers, and at the channels the parameters do not give, nothing stands (rule R404). -/
theorem dmaMapped_eq_false {c : Config} {a : BitVec 7}
    (h : 0x78 ≤ a.toNat ∨ (a.toNat < 0x70 ∧ c.dmaChannels ≤ a.toNat / 0x10)) : dmaMapped c a = false := by
  unfold dmaMapped
  split
  · exact decide_eq_false (by omega)
  · exact decide_eq_false (by omega)

/-- Settles O30: the word that stands at the address says what a read returns. -/
theorem dmaReadsReturnTheirByte : Obligations.DmaReadsReturnTheirByte := by
  intro s
  refine ⟨fun n b => ⟨?_, ?_, ?_, ?_⟩, fun b => ⟨?_, ?_⟩, fun a => ⟨rfl, fun d => rfl, fun h => ?_⟩⟩
  · exact execDmaRead_byte (by omega) (by omega) b (dmaWordAt_dmaAddr s n (r := 0) (by decide) b)
  · exact execDmaRead_byte (by omega) (by omega) b (dmaWordAt_dmaAddr s n (r := 1) (by decide) b)
  · exact execDmaRead_byte (by omega) (by omega) b (dmaWordAt_dmaAddr s n (r := 2) (by decide) b)
  · exact execDmaRead_none (by rw [dmaAddr_toNat n (by decide)]; omega) (dmaWordAt_dmaAddr s n (r := 3) (by decide) b)
  · exact execDmaRead_byte (by decide) (by decide) b (dmaWordAt_dpcr s b)
  · exact execDmaRead_byte (by decide) (by decide) b (dmaWordAt_dicr s b)
  · have hm := dmaMapped_eq_false h
    exact ⟨congrArg _ (dma_unmapped hm 0).2, fun d => congrArg _ (dma_unmapped hm d).1⟩

/-! ### Wider DMA reads (rules R105, R108) -/

theorem transact_dmaRead {off : Nat} {width : Width} (h : off + width.bytes ≤ 0x80) (s : State) :
    transact (.read .dma off width) s
      = andThen (dmaReadBytes off width.bytes s) fun t => .next (finishRead width t) :=
  congrArg (fun o => andThen o fun t => .next (finishRead width t)) (if_pos h)

/-- The register `r` stands at the four addresses from `base` on (rule R104). -/
structure StandsAt (s : State) (base : Nat) (r : Word) : Prop where
  aligned : base % 4 = 0
  inside : base < 0x78
  mapped : ∀ b : Fin 4, dmaMapped s.cfg (BitVec.ofNat 7 (base + b.val)) = true
  word : ∀ b : Fin 4, dmaWordAt s (BitVec.ofNat 7 (base + b.val)) = some r

theorem standsAt_dpcr (s : State) : StandsAt s 0x70 s.dma.dpcr :=
  ⟨by decide, by decide, fun b => by fin_cases b <;> rfl, dmaWordAt_dpcr s⟩

theorem standsAt_dicr (s : State) : StandsAt s 0x74 s.dma.dicr :=
  ⟨by decide, by decide, fun b => by fin_cases b <;> rfl, dmaWordAt_dicr s⟩

/-- The registers of the channels there are. -/
theorem standsAt_channelWord {s : State} {n : Fin 7} (hn : n.val < s.cfg.dmaChannels) {r : Nat} (hr : r < 4) {w : Word}
    (hw : channelWord (channel s n) r = some w) : StandsAt s (0x10 * n.val + 4 * r) w where
  aligned := by omega
  inside := by omega
  mapped := dmaMapped_dmaAddr hn hr
  word b := (dmaWordAt_dmaAddr s n hr b).trans hw

/-- The bytes returned so far are no part of a register. -/
theorem StandsAt.returnBytes {s : State} {base : Nat} {r : Word} (h : StandsAt s base r) (bs : List Byte) :
    StandsAt (returnBytes bs s) base r := ⟨h.aligned, h.inside, h.mapped, h.word⟩

theorem StandsAt.dmaReadBytes {s : State} {base : Nat} {r : Word} (h : StandsAt s base r) {n i : Nat} (hn : i + n ≤ 4) :
    dmaReadBytes (base + i) n s = .next (Machine.returnBytes ((List.range' i n).map (wordByte r)) s) := by
  induction n generalizing i s with
  | zero => simp [Machine.dmaReadBytes, Machine.returnBytes]
  | succ n ih =>
    have hi : i < 4 := by omega
    have hof : dmaReadOf s.cfg (BitVec.ofNat 7 (base + i)) = .dmaRead (BitVec.ofNat 7 (base + i)) :=
      if_pos (h.mapped ⟨i, hi⟩)
    have hread := execDmaRead_byte h.aligned h.inside ⟨i, hi⟩ (h.word ⟨i, hi⟩)
    rw [Machine.dmaReadBytes, hof, hread, andThen_next, Nat.add_assoc, ih (h.returnBytes _) (by omega),
      List.range'_succ]
    simp [Machine.returnBytes]

/-- A read inside the register returns its bytes. -/
theorem StandsAt.transact_read {s : State} {base : Nat} {r : Word} (h : StandsAt s base r) (hb : s.readBuf = [])
    {width : Width} {i : Nat} {bs : List Byte} (hi : i + width.bytes ≤ 4)
    (hbs : (List.range' i width.bytes).map (wordByte r) = bs) : transact (.read .dma (base + i) width) s
      = .next { s with out := s.out ++ [.returned width (wordOfBytesLE bs)], readBuf := bs } := by
  have hin := h.inside
  have hal := h.aligned
  rw [transact_dmaRead (by omega), h.dmaReadBytes hi, hbs, andThen_next, finishRead, returnBytes_readBuf, hb,
    List.nil_append, emit, Machine.returnBytes, hb, List.nil_append]

/-- The two bytes of a half of a word, assembled. -/
theorem wordOfBytesLE_half (r : Word) (h : Nat) :
    wordOfBytesLE [wordByte r (2 * h), wordByte r (2 * h + 1)] = (r.extractLsb' (16 * h) 16).setWidth 32 := by
  apply BitVec.eq_of_getLsbD_eq
  intro j hj
  simp only [wordOfBytesLE, wordByte, BitVec.getLsbD_or, BitVec.getLsbD_shiftLeft, BitVec.getLsbD_setWidth,
    BitVec.getLsbD_extractLsb', hj]
  by_cases h0 : j < 8
  · simp [h0, show j < 16 by omega, show 8 * (2 * h) + j = 16 * h + j by omega]
  by_cases h1 : j < 16
  · simp [h0, h1, show j - 8 < 8 by omega, show j - 8 < 32 by omega,
      show 8 * (2 * h + 1) + (j - 8) = 16 * h + j by omega]
  · simp [h0, h1, show ¬ j - 8 < 8 by omega]

/-- A 32-bit read returns the register, a 16-bit one its half. -/
theorem StandsAt.returns {s : State} {base : Nat} {r : Word} (h : StandsAt s base r) (hb : s.readBuf = []) :
    (∃ bs, transact (.read .dma base .w32) s = .next { s with out := s.out ++ [.returned .w32 r], readBuf := bs })
      ∧ ∀ k, k < 2 → ∃ bs, transact (.read .dma (base + 2 * k) .w16) s = .next { s with
        out := s.out ++ [.returned .w16 ((r.extractLsb' (16 * k) 16).setWidth 32)], readBuf := bs } := by
  refine ⟨⟨bytesOfWord r, ?_⟩, fun k hk => ⟨[wordByte r (2 * k), wordByte r (2 * k + 1)], ?_⟩⟩
  · have hword := h.transact_read hb (width := .w32) (i := 0) (bs := bytesOfWord r) (by decide) rfl
    rwa [wordOfBytesLE_bytesOfWord] at hword
  · have hhalf := h.transact_read hb (width := .w16) (i := 2 * k) (bs := [wordByte r (2 * k), wordByte r (2 * k + 1)])
      (by simp only [Width.bytes]; omega) rfl
    rwa [wordOfBytesLE_half] at hhalf

/-- A read of any width is the run of its bytes' reads, and the value sent has those bytes. -/
theorem transact_dmaRead_forms {off : Nat} {width : Width} (h : off + width.bytes ≤ 0x80) {s : State}
    (hb : s.readBuf = []) :
    ∃ t v, runForms ((List.range width.bytes).map fun i => .dmaRead (BitVec.ofNat 7 (off + i))) s = .next t
      ∧ transact (.read .dma off width) s = .next { t with out := t.out ++ [.returned width v] }
      ∧ t.readBuf.length = width.bytes ∧ ∀ i, i < 4 → v.extractLsb' (8 * i) 8 = t.readBuf.getD i 0#8 := by
  obtain ⟨bs, k, o, hl, hr⟩ := dmaReadBytes_next off width.bytes s
  refine ⟨_, wordOfBytesLE bs, (dmaReadBytes_eq off width.bytes s).symm.trans hr, ?_, ?_, ?_⟩
  · rw [transact_dmaRead h, hr, andThen_next, finishRead, hb]
    rfl
  · simpa [hb] using hl
  · intro i hi
    rw [hb]
    exact wordOfBytesLE_byte bs i hi

/-! ### Wider DMA writes (rules R105, R108) -/

theorem transact_dmaWrite {off : Nat} {width : Width} (h : off + width.bytes ≤ 0x80) (w : Word) (s : State) :
    transact (.write .dma off width w) s = dmaWriteBytes off width.bytes 0 w s := if_pos h

theorem andThen_assoc (o : Out) (f g : State → Out) :
    andThen (andThen o f) g = andThen o fun s => andThen (f s) g := by
  cases o <;> rfl

theorem andThen_pure (o : Out) : andThen o .next = o := by
  cases o <;> rfl

/-- The last byte of a write, apart. -/
theorem dmaWriteBytes_succ_last (a n i : Nat) (w : Word) (s : State) : dmaWriteBytes a (n + 1) i w s
    = andThen (dmaWriteBytes a n i w s) fun t =>
        exec (dmaWriteOf t.cfg (BitVec.ofNat 7 (a + (i + n))) (wordByte w (i + n))) t := by
  induction n generalizing i s with
  | zero =>
    simp only [dmaWriteBytes, andThen_next, Nat.add_zero]
    exact andThen_pure _
  | succ n ih =>
    rw [dmaWriteBytes, dmaWriteBytes, andThen_assoc]
    congr 1
    funext t
    rw [ih, show i + 1 + n = i + (n + 1) by omega]

/-- The register `r` after the bytes `i`, …, `i + n - 1` of `w` are stored `k` bytes up. -/
def storeBytes (k n i : Nat) (w r : Word) : Word :=
  match n with
  | 0 => r
  | n + 1 => storeBytes k n (i + 1) w (setWordByte r (k + i) (wordByte w i))

theorem getLsbD_storeBytes (k n i : Nat) (w r : Word) (hn : k + i + n ≤ 4) (j : Nat) (hj : j < 32) :
    (storeBytes k n i w r).getLsbD j
      = if 8 * (k + i) ≤ j ∧ j < 8 * (k + i) + 8 * n then w.getLsbD (j - 8 * k) else r.getLsbD j := by
  induction n generalizing i r with
  | zero => rw [storeBytes, if_neg (by omega)]
  | succ n ih =>
    rw [storeBytes, ih (i + 1) _ (by omega), getLsbD_setWordByte _ _ _ _ hj]
    by_cases hbyte : 8 * (k + i) ≤ j ∧ j < 8 * (k + i) + 8
    · rw [if_neg (by omega), if_pos hbyte, if_pos (by omega)]
      simp only [wordByte, BitVec.getLsbD_extractLsb', show j - 8 * (k + i) < 8 by omega, decide_true, Bool.true_and]
      congr 1
      omega
    · rw [if_neg hbyte]
      exact if_congr (by omega) rfl rfl

/-- Four bytes are the whole word. -/
theorem storeBytes_word (w r : Word) : storeBytes 0 4 0 w r = w := by
  apply BitVec.eq_of_getLsbD_eq
  intro j hj
  rw [getLsbD_storeBytes 0 4 0 w r (by decide) j hj, if_pos (by omega), Nat.mul_zero, Nat.sub_zero]

/-- Three bytes leave the top one. -/
theorem storeBytes_low (w r : Word) :
    storeBytes 0 3 0 w r = (r.extractLsb' 24 8 ++ w.extractLsb' 0 24 : BitVec (8 + 24)) := by
  apply BitVec.eq_of_getLsbD_eq
  intro j hj
  rw [getLsbD_storeBytes 0 3 0 w r (by decide) j hj]
  by_cases h : j < 24
  · rw [if_pos (by omega), getLsbD_append_low j _ _ h]
    simp [h]
  · rw [if_neg (by omega), getLsbD_append_high j _ _ (by omega)]
    simp [show j - 24 < 8 by omega, show 24 + (j - 24) = j by omega]

/-- Byte writes at the first `m` addresses from `base` on replace the bytes of the register that `put` sets. -/
def StoresBytes (base m : Nat) (put : Word → State) : Prop :=
  ∀ r b d, b < m →
    exec (dmaWriteOf (put r).cfg (BitVec.ofNat 7 (base + b)) d) (put r) = .next (put (setWordByte r b d))

theorem storesBytes_dpcr (s : State) : StoresBytes 0x70 4 fun r => { s with dma.dpcr := r } := by
  intro r b d hb
  rw [dmaWriteOf_dpcr _ ⟨b, hb⟩ d]
  rfl

theorem storesBytes_dicr (s : State) : StoresBytes 0x74 3 fun r => { s with dma.dicr := r } := by
  intro r b d hb
  rw [dmaWriteOf_dicrLow _ ⟨b, hb⟩ d]
  rfl

theorem storesBytes_madr {s : State} {n : Fin 7} (hn : n.val < s.cfg.dmaChannels) :
    StoresBytes (0x10 * n.val) 4 fun r => setChannel s n { channel s n with madr := r } := by
  intro r b d hb
  show exec (dmaWriteOf s.cfg (dmaAddr n 0 ⟨b, hb⟩) d) _ = _
  rw [dmaWriteOf_dmaAddr hn (by decide)]
  simp [exec, execDmaMadrWrite]

theorem storesBytes_bcr {s : State} {n : Fin 7} (hn : n.val < s.cfg.dmaChannels) :
    StoresBytes (0x10 * n.val + 4) 4 fun r => setChannel s n { channel s n with bcr := r } := by
  intro r b d hb
  show exec (dmaWriteOf s.cfg (dmaAddr n 1 ⟨b, hb⟩) d) _ = _
  rw [dmaWriteOf_dmaAddr hn (by decide)]
  simp [exec, execDmaBcrWrite]

theorem storesBytes_chcr {s : State} {n : Fin 7} (hn : n.val < s.cfg.dmaChannels) :
    StoresBytes (0x10 * n.val + 8) 3 fun r => setChannel s n { channel s n with chcr := r } := by
  intro r b d hb
  have h3 : (⟨b, by omega⟩ : Fin 4) ≠ 3 := Fin.ne_of_val_ne (by simp; omega)
  show exec (dmaWriteOf s.cfg (dmaAddr n 2 ⟨b, by omega⟩) d) _ = _
  rw [dmaWriteOf_dmaAddr hn (by decide)]
  exact (execDmaChcrWrite_low h3 n d _).trans (by simp)

theorem StoresBytes.dmaWriteBytes {base m : Nat} {put : Word → State} (h : StoresBytes base m put) (w : Word)
    {k n i : Nat} (hm : k + i + n ≤ m) (r : Word) :
    dmaWriteBytes (base + k) n i w (put r) = .next (put (storeBytes k n i w r)) := by
  induction n generalizing i r with
  | zero => rfl
  | succ n ih =>
    rw [Machine.dmaWriteBytes, Nat.add_assoc, h r (k + i) _ (by omega), andThen_next]
    exact ih (by omega) _

theorem setChannel_channel (s : State) (n : Fin 7) : setChannel s n (channel s n) = s := by
  simp [setChannel, channel]

/-- A 32-bit write stores the word, a 16-bit one its low half. -/
theorem StoresBytes.stores {base : Nat} {put : Word → State} (h : StoresBytes base 4 put) (hb : base % 4 = 0)
    (h78 : base < 0x78) {s : State} {old : Word} (hs : put old = s) (w : Word) :
    transact (.write .dma base .w32 w) s = .next (put w)
      ∧ ∀ k, k < 2 → ∃ r, transact (.write .dma (base + 2 * k) .w16 w) s = .next (put r) ∧ ∀ i, i < 32 →
        r.getLsbD i = if 16 * k ≤ i ∧ i < 16 * k + 16 then w.getLsbD (i - 16 * k) else old.getLsbD i := by
  subst hs
  refine ⟨?_, fun k hk => ⟨storeBytes (2 * k) 2 0 w old, ?_, fun i hi => ?_⟩⟩
  · have hword := h.dmaWriteBytes w (k := 0) (n := 4) (i := 0) (by decide) old
    rw [storeBytes_word] at hword
    exact (transact_dmaWrite (by simp only [Width.bytes]; omega) w _).trans hword
  · have hhalf := h.dmaWriteBytes w (k := 2 * k) (n := 2) (i := 0) (by omega) old
    exact (transact_dmaWrite (by simp only [Width.bytes]; omega) w _).trans hhalf
  · rw [getLsbD_storeBytes _ _ _ _ _ (by omega) i hi, Nat.add_zero, show 8 * (2 * k) = 16 * k by omega]

/-- A 32-bit write whose first three bytes are stored runs the write of the fourth from there. -/
theorem StoresBytes.transact_word {base : Nat} {put : Word → State} (h : StoresBytes base 3 put) (hb : base % 4 = 0)
    (h78 : base < 0x78) {s : State} {old : Word} (hs : put old = s) (w : Word) :
    transact (.write .dma base .w32 w) s
      = exec (dmaWriteOf (put (storeBytes 0 3 0 w old)).cfg (BitVec.ofNat 7 (base + 3)) (w.extractLsb' 24 8))
        (put (storeBytes 0 3 0 w old)) := by
  subst hs
  have hlow := h.dmaWriteBytes w (k := 0) (n := 3) (i := 0) (by decide) old
  rw [Nat.add_zero] at hlow
  rw [transact_dmaWrite (by simp only [Width.bytes]; omega)]
  show Machine.dmaWriteBytes base (3 + 1) 0 w (put old) = _
  rw [dmaWriteBytes_succ_last, hlow]
  rfl

/-! ### A wide write of DICR (rule R412) -/

theorem getLsbD_dicrAck (r : Word) (d : Byte) {i : Nat} (hi : i < 32) : (dicrAck r d).getLsbD i
    = if 24 ≤ i ∧ i < 31 then r.getLsbD i && !d.getLsbD (i - 24) else r.getLsbD i := by
  unfold dicrAck dicrCompleted
  by_cases h24 : i < 24
  · rw [getLsbD_append_low _ _ _ (by omega), getLsbD_append_low _ _ _ h24, if_neg (by omega)]
    simp [h24]
  by_cases h31 : i < 31
  · rw [getLsbD_append_low _ _ _ (by omega), getLsbD_append_high _ _ _ (by omega), if_pos (by omega)]
    simp [show i - 24 < 7 by omega, show 24 + (i - 24) = i by omega]
  · obtain rfl : i = 31 := by omega
    rw [getLsbD_append_high _ _ _ (by decide), if_neg (by decide)]
    simp

theorem transact_dmaWrite_dicr (w : Word) (s : State) : transact (.write .dma 0x74 .w32 w) s
    = .next { s with dma.dicr := dicrAck (storeBytes 0 3 0 w s.dma.dicr) (w.extractLsb' 24 8) } :=
  (storesBytes_dicr s).transact_word (by decide) (by decide) (old := s.dma.dicr) rfl w

theorem getLsbD_dicr_written (w r : Word) {i : Nat} (hi : i < 32) :
    (dicrAck (storeBytes 0 3 0 w r) (w.extractLsb' 24 8)).getLsbD i
      = if i < 24 then w.getLsbD i else if i < 31 then r.getLsbD i && !w.getLsbD i else r.getLsbD i := by
  have hlow : (storeBytes 0 3 0 w r).getLsbD i = if i < 24 then w.getLsbD i else r.getLsbD i := by
    simp [getLsbD_storeBytes 0 3 0 w r (by decide) i hi]
  rw [getLsbD_dicrAck _ _ hi, hlow]
  by_cases h24 : i < 24
  · simp [h24, show ¬ 24 ≤ i by omega]
  · simp [h24, show 24 ≤ i by omega, show i - 24 < 8 by omega, show 24 + (i - 24) = i by omega]

/-! ### A wide write of CHCR (rules R403, R420) -/

theorem dmaStarts_iff (c : Config) (dpcr : Word) (n : Fin 7) (chcr : Word) : dmaStarts c dpcr n chcr = true ↔
    chcr.getLsbD 24 = true ∧ (chcr.extractLsb' 9 2 ≠ 0#2 ∨ chcr.getLsbD 28 = true)
      ∧ (c.dmaRequireDpcrEnable = false ∨ dpcr.getLsbD (4 * n.val + 3) = true) := by
  simp only [dmaStarts, chcrBusy, chcrSync, chcrTrigger, Bool.and_eq_true, Bool.or_eq_true, bne_iff_ne,
    Bool.not_eq_true', and_assoc]

/-- A write of CHCR byte 3 that starts nothing stores the byte. -/
theorem execDmaChcrWrite_no_start {n : Fin 7} {d : Byte} {s : State} {v : Word}
    (hv : setWordByte (channel s n).chcr 3 d = v) (h : ¬ dmaStarts s.cfg s.dma.dpcr n v = true) :
    exec (.dmaChcrWrite n 3 d) s = .next (setChannel s n { channel s n with chcr := v }) := by
  subst hv
  show dmaStart n (setChannel s n { channel s n with chcr := setWordByte (channel s n).chcr 3 d }) = _
  unfold dmaStart
  simp only [channel_setChannel_same]
  exact if_neg h

theorem transact_dmaWrite_chcr {s : State} {n : Fin 7} (hn : n.val < s.cfg.dmaChannels) (w : Word) :
    transact (.write .dma (0x10 * n.val + 8) .w32 w) s = exec (.dmaChcrWrite n 3 (w.extractLsb' 24 8))
      (setChannel s n { channel s n with chcr := storeBytes 0 3 0 w (channel s n).chcr }) := by
  rw [(storesBytes_chcr hn).transact_word (by omega) (by omega) (setChannel_channel s n) w]
  show exec (dmaWriteOf s.cfg (dmaAddr n 2 3) _) _ = _
  rw [dmaWriteOf_dmaAddr hn (by decide)]
  rfl

theorem transact_dmaWrite_chcr_no_start {s : State} {n : Fin 7} (hn : n.val < s.cfg.dmaChannels) {w : Word}
    (h : ¬ dmaStarts s.cfg s.dma.dpcr n w = true) : transact (.write .dma (0x10 * n.val + 8) .w32 w) s
      = .next (setChannel s n { channel s n with chcr := w }) := by
  rw [transact_dmaWrite_chcr hn, execDmaChcrWrite_no_start (v := w)]
  · simp
  · rw [channel_setChannel_same]
    exact storeBytes_word w _
  · exact h

/-- Settles O56: a register read or written byte by byte is read or written as a whole. -/
theorem wideDmaAccessesAreLittleEndian : Obligations.WideDmaAccessesAreLittleEndian := by
  intro s width w hb
  refine ⟨fun off hoff => ⟨?_, transact_dmaRead_forms hoff hb⟩,
    ⟨(standsAt_dpcr s).returns hb, (standsAt_dicr s).returns hb, fun n hn => ⟨?_, ?_, ?_⟩⟩,
    (storesBytes_dpcr s).stores (by decide) (by decide) (old := s.dma.dpcr) rfl w,
    ⟨_, transact_dmaWrite_dicr w s, fun i hi => getLsbD_dicr_written w s.dma.dicr hi⟩, fun n hn => ⟨?_, ?_, ?_, ?_⟩⟩
  · rw [transact_dmaWrite hoff, dmaWriteBytes_eq, List.range_eq_range']
  · exact (standsAt_channelWord hn (r := 0) (by decide) rfl).returns hb
  · exact (standsAt_channelWord hn (r := 1) (by decide) rfl).returns hb
  · exact (standsAt_channelWord hn (r := 2) (by decide) rfl).returns hb
  · exact (storesBytes_madr hn).stores (by omega) (by omega) (setChannel_channel s n) w
  · exact (storesBytes_bcr hn).stores (by omega) (by omega) (setChannel_channel s n) w
  · rw [transact_dmaWrite_chcr hn, storeBytes_low]
  · exact fun h => transact_dmaWrite_chcr_no_start hn (mt (dmaStarts_iff _ _ n w).mp h)

end Sys2Proof.Machine
end

section
/-! PROOFS. The family of the encoding: a GP0 command's words, sent one by one, run it (O6); what the decoder answers is
well formed (O2); sample words (O3); and a step that brings one encoded form (O4). -/
namespace Sys2Proof.Machine

/-! ### The stream of a GP0 command (rules R201, R206 to R208) -/

/-- A one-word command is run at once. -/
theorem feed_oneWord {s : State} {i : Instr} {w : Word} (hs : s.gpu.cmdState = .idle) (h : OneWord s.cfg i w) :
    feed (gp0Stream s.cfg i) s = exec i s := by
  obtain ⟨-, hstream, hword⟩ := h
  rw [hstream, feed_one]
  obtain ⟨hcls, hi⟩ | ⟨hcls, hi⟩ := hword
  · simp only [hostGp0, gp0Take, hs, gp0Idle, hcls, hi]
  · simp only [hostGp0, gp0Take, hs, gp0Idle, hcls, hi]

/-- The decoder after the command word `w` of a command that needs `n` words (rule R201). -/
def started (k : Kind) (w : Word) (n : Nat) (s : State) : State :=
  { s with gpu.cmdState := .collect k, gpu.args := s.gpu.args.set 0 w, gpu.currArg := 1, gpu.argCount := n }

theorem hostGp0_started {s : State} {w : Word} {k : Kind} (hs : s.gpu.cmdState = .idle)
    (hk : gp0Class (byte3 w) = .multiword k) :
    hostGp0 w s = .next (started k w (wordCount s.cfg k w) s) := hostGp0_first hs hk

theorem receiving_started (k : Kind) (w : Word) {n : Nat} {s : State} (h0 : 0 < n) (hn : n ≤ s.gpu.args.length) :
    Receiving k [w] n (started k w n s) where
  state := rfl
  words := take_set_succ s.gpu.args [] w rfl (Nat.lt_of_lt_of_le h0 hn)
  curr := rfl
  count := rfl
  room := by simpa [started] using hn
  first := by simp

/-- Ending a collection that began in `Idle` gives the state before it back, but for the argument buffer. -/
theorem endCollect_started {s : State} (hs : s.gpu.cmdState = .idle) (hd : decoderInv s.cfg s.gpu) (k : Kind) (w : Word)
    (n : Nat) (a : List Word) : endCollect { started k w n s with gpu.args := a } = { s with gpu.args := a } := by
  obtain ⟨hcount, hcurr⟩ : s.gpu.argCount = 0 ∧ s.gpu.currArg = 0 := by simpa only [decoderInv, hs] using hd
  simp only [endCollect, started, hs, hcount, hcurr]

/-- The words that complete a command run it. -/
theorem feed_last {k : Kind} {w : Word} {n : Nat} {xs : List Word} {s : State} (h : Receiving k [w] n s)
    (hx : isPolyline k w = true → ∀ x ∈ xs, x ≠ s.cfg.lineSentinel) (h2 : 2 ≤ n) (hn : xs.length + 1 = n) :
    ∃ a, a.length = s.gpu.args.length
      ∧ feed xs s = exec (packetOf k (w :: xs)) (endCollect { s with gpu.args := a }) := by
  obtain ⟨ys, y, rfl⟩ := (List.eq_nil_or_concat' xs).resolve_left (List.ne_nil_of_length_pos (by omega))
  obtain ⟨a, ha, hfeed, hrec⟩ := feed_more ys h (fun hp x hm => hx hp x (by simp [hm])) (by simp at hn ⊢; omega)
  obtain ⟨b, hb, hlast⟩ := hostGp0_last y hrec (fun hp => hx hp y (by simp)) (by simp at hn ⊢; omega)
  refine ⟨b, hb.trans ha, ?_⟩
  rw [feed_append, hfeed, andThen_next, feed_one, hlast]
  rfl

/-- A polyline's words and its sentinel run it. -/
theorem feed_sentinel {k : Kind} {w : Word} {n : Nat} {xs : List Word} {s : State} (h : Receiving k [w] n s)
    (hp : isPolyline k w = true) (hx : ∀ x ∈ xs, x ≠ s.cfg.lineSentinel) (hn : xs.length + 1 < n) :
    ∃ a, a.length = s.gpu.args.length ∧ feed (xs ++ [s.cfg.lineSentinel]) s
      = exec (packetOf k (w :: xs)) (endCollect { s with gpu.args := a }) := by
  obtain ⟨a, ha, hfeed, hrec⟩ := feed_more xs h (fun _ => hx) (by simp; omega)
  refine ⟨a, ha, ?_⟩
  rw [feed_append, hfeed, andThen_next, feed_one]
  exact hostGp0_sentinel hrec hp

/-- The stream of a packet is its command word, then what completes it. -/
theorem feed_packet_rest {i : Instr} {k : Kind} {w : Word} {rest : List Word} {s : State} (hc : s.cfg.accepts = true)
    (h : Packet s.cfg i k w rest) (hrec : Receiving k [w] (wordCount s.cfg k w) s) :
    ∃ xs a, gp0Stream s.cfg i = w :: xs ∧ a.length = s.gpu.args.length
      ∧ feed xs s = exec i (endCollect { s with gpu.args := a }) := by
  obtain ⟨htwo, -⟩ := wordCount_bounds hc k w
  cases hp : isPolyline k w with
  | false =>
    obtain ⟨hlen, hstream⟩ := h.fixed hp
    obtain ⟨a, ha, hfeed⟩ := feed_last hrec (by simp [hp]) htwo hlen
    exact ⟨rest, a, hstream, ha, h.packet ▸ hfeed⟩
  | true =>
    obtain ⟨hle, hx, hstream⟩ := h.poly hp
    by_cases hlen : rest.length + 1 = wordCount s.cfg k w
    · obtain ⟨a, ha, hfeed⟩ := feed_last hrec (fun _ => hx) htwo hlen
      exact ⟨rest, a, hstream.trans (if_pos hlen), ha, h.packet ▸ hfeed⟩
    · obtain ⟨a, ha, hfeed⟩ := feed_sentinel hrec hp hx (by omega)
      exact ⟨rest ++ [s.cfg.lineSentinel], a, hstream.trans (if_neg hlen), ha, h.packet ▸ hfeed⟩

theorem feed_packet {s : State} {i : Instr} {k : Kind} {w : Word} {rest : List Word} (hinv : s.Inv)
    (hs : s.gpu.cmdState = .idle) (h : Packet s.cfg i k w rest) :
    ∃ a, a.length = s.gpu.args.length ∧ feed (gp0Stream s.cfg i) s = exec i { s with gpu.args := a } := by
  obtain ⟨htwo, hroom⟩ := wordCount_bounds hinv.cfg k w
  have hrec := receiving_started k w (s := s) (Nat.lt_of_lt_of_le Nat.two_pos htwo) (hinv.args ▸ hroom)
  obtain ⟨xs, a, hstream, ha, hfeed⟩ :=
    feed_packet_rest (s := started k w (wordCount s.cfg k w) s) hinv.cfg h hrec
  refine ⟨a, by simpa [started] using ha, ?_⟩
  calc feed (gp0Stream s.cfg i) s
      = feed (w :: xs) s := congrArg (feed · s) hstream
    _ = feed xs (started k w (wordCount s.cfg k w) s) := by
      rw [feed, transact_gp0, hostGp0_started hs h.cls, andThen_next]
    _ = exec i { s with gpu.args := a } := by rw [hfeed, endCollect_started hs hinv.decoder]

theorem accepts_polyline {c : Config} (h : c.accepts = true) : 2 ≤ c.polylineMaxVertices := by
  simp [Config.accepts] at h
  omega

/-- Settles O6: a command is one word, run at once, or a packet, collected and then run. -/
theorem gp0StreamRunsTheCommand : Obligations.Gp0StreamRunsTheCommand := by
  intro s i hinv hs hwf hne
  obtain ⟨w, h⟩ | ⟨k, w, rest, h⟩ := gp0_command_forms s.cfg i (accepts_polyline hinv.cfg) hwf hne
  · exact ⟨s.gpu.args, rfl, feed_oneWord hs h⟩
  · exact feed_packet hinv hs h

/-! ### The decoder's answers: GP0 commands (rules R142, R147, R207) -/

theorem gp0Class_immediate {op : Byte} (h : gp0Class op = .immediate) :
    op.toNat = 0x00 ∨ op.toNat = 0x01 ∨ op.toNat = 0x1F ∨ (0xE1 ≤ op.toNat ∧ op.toNat ≤ 0xE6) := by
  revert op
  decide

theorem wf_immediateOf (c : Config) {w : Word} (h : gp0Class (byte3 w) = .immediate) :
    (immediateOf w).wf c = true := by
  have hop := gp0Class_immediate h
  unfold immediateOf
  split
  case h_10 =>
    simp only [imp_false] at *
    omega
  all_goals rfl

/-- A vertex word is not the default sentinel: the sentinel has bit 14, which a vertex word ignores. -/
theorem posWord_ne_sentinel (p : Pos) : posWord p ≠ 0x55555555#32 := by
  intro h
  have hbit := congrArg (·.getLsbD 14) h
  simp only [posWord] at hbit
  rw [getLsbD_append_low 14 _ _ (by decide), getLsbD_append_high 14 _ _ (by decide)] at hbit
  exact absurd hbit (by decide)

/-- Nor is a colour word: its top byte is ignored. -/
theorem opRgb_zero_ne_sentinel (k : Rgb) : opRgb 0#8 k ≠ 0x55555555#32 := by
  intro h
  have hop := congrArg byte3 h
  rw [byte3_opRgb] at hop
  exact absurd hop (by decide)

theorem coloredPosWords_ne_sentinel (vs : List ColoredPos) : ∀ x ∈ coloredPosWords vs, x ≠ 0x55555555#32 := by
  induction vs with
  | nil => simp [coloredPosWords]
  | cons v vs ih => simpa [coloredPosWords, posWord_ne_sentinel, opRgb_zero_ne_sentinel] using ih

theorem wf_gp0LineFP {c : Config} (hc : c.lineSentinel = 0x55555555#32) (semi : Bool) (k : Rgb) {vs : List Pos}
    (h : vs.length ≤ c.polylineMaxVertices) : (Instr.gp0LineFP semi k vs).wf c = true := by
  simp [Instr.wf, gp0Words, hc, h, posWord_ne_sentinel]

theorem wf_gp0LineGP {c : Config} (hc : c.lineSentinel = 0x55555555#32) (semi : Bool) (k : Rgb) {v0 : Option Pos}
    {vs : List ColoredPos} (hfirst : v0.isSome = true ∨ vs = [])
    (h : v0.toList.length + vs.length ≤ c.polylineMaxVertices) : (Instr.gp0LineGP semi k v0 vs).wf c = true := by
  have hwords : ∀ x ∈ v0.toList.map posWord ++ coloredPosWords vs, x ≠ 0x55555555#32 := by
    simp only [List.mem_append, List.mem_map]
    rintro x (⟨p, -, rfl⟩ | hx)
    · exact posWord_ne_sentinel p
    · exact coloredPosWords_ne_sentinel vs x hx
  simp only [Instr.wf, gp0Words, List.drop_succ_cons, List.drop_zero, Bool.and_eq_true, Bool.or_eq_true,
    List.isEmpty_iff, decide_eq_true_eq, List.all_eq_true, bne_iff_ne, hc]
  exact ⟨⟨hfirst, h⟩, hwords⟩

/-- Two words a vertex; a trailing colour word is dropped (rule R207). -/
theorem coloredPosOf_length (ws : List Word) : (coloredPosOf ws).length = ws.length / 2 := by
  induction ws using coloredPosOf.induct with
  | case1 k p ws ih =>
    simp only [coloredPosOf, List.length_cons, ih]
    omega
  | case2 ws h =>
    match ws, h with
    | [], _ => rfl
    | [_], _ => simp [coloredPosOf]
    | k :: p :: ws, h => exact absurd rfl (h k p ws)

/-- The nominal count of a polyline (rule R205). -/
theorem wordCount_polyline {c : Config} {w : Word} (h : bitOf w 27 = true) : wordCount c .line w
    = if bitOf w 28 then 2 * c.polylineMaxVertices else 1 + c.polylineMaxVertices := by
  simp only [wordCount, h]
  cases bitOf w 28
  · simp [bitNat]
  · simp [bitNat]
    omega

theorem wf_lineOf {c : Config} (hc : c.lineSentinel = 0x55555555#32) {w : Word} {rest : List Word}
    (h : rest.length + 1 ≤ wordCount c .line w) : (lineOf (w :: rest)).wf c = true := by
  unfold lineOf
  simp only [argAt_cons_zero]
  split
  case h_1 => rfl
  case h_2 h28 h27 =>
    rw [wordCount_polyline h27, h28, if_neg (by decide)] at h
    refine wf_gp0LineFP hc _ _ ?_
    simp only [List.drop_succ_cons, List.drop_zero, List.length_map]
    omega
  case h_3 => rfl
  case h_4 h28 h27 =>
    rw [wordCount_polyline h27, h28, if_pos rfl] at h
    cases rest with
    | nil => exact wf_gp0LineGP hc _ _ (.inr rfl) (Nat.zero_le _)
    | cons p ws =>
      refine wf_gp0LineGP hc _ _ (.inl rfl) ?_
      simp [coloredPosOf_length] at h ⊢
      omega

theorem wf_polygonOf (c : Config) (ws : List Word) : (polygonOf ws).wf c = true := by
  unfold polygonOf
  dsimp only
  split <;> rfl

theorem wf_rectangleOf (c : Config) (ws : List Word) : (rectangleOf ws).wf c = true := by
  unfold rectangleOf
  dsimp only
  split <;> rfl

theorem wf_packetOf {c : Config} (hc : c.lineSentinel = 0x55555555#32) {k : Kind} {w : Word} {rest : List Word}
    (h : rest.length + 1 ≤ wordCount c k w) : (packetOf k (w :: rest)).wf c = true := by
  cases k with
  | polygon => exact wf_polygonOf c _
  | line => exact wf_lineOf hc h
  | rectangle => exact wf_rectangleOf c _
  | fillRectangle => rfl
  | copyCpuToVram => rfl
  | copyVramToCpu => rfl
  | copyVramToVram => rfl

theorem wf_gp0Of {c : Config} (hc : c.lineSentinel = 0x55555555#32) {ws : List Word} {i : Instr}
    (h : gp0Of c ws = .instr i) : i.wf c = true := by
  unfold gp0Of at h
  split at h
  · cases h
  next w rest =>
    split at h
    next hcls =>
      split at h <;> cases h
      exact wf_immediateOf c hcls
    next hcls =>
      split at h <;> cases h
      exact beq_iff_eq.mpr hcls
    next k hcls =>
      split at h <;> cases h
      next hcount => exact wf_packetOf hc (hcount.elim Nat.le_of_eq And.right)

/-! ### The decoder's answers: the other ports (rules R352, R405, R460, R511) -/

theorem wf_ite {c : Config} {p : Prop} [Decidable p] {a b : Instr} (ha : p → a.wf c = true)
    (hb : ¬ p → b.wf c = true) : (if p then a else b).wf c = true := by
  split
  next h => exact ha h
  next h => exact hb h

/-- A word that no row of rule R151's map takes is outside it. -/
theorem wf_gp1Of (c : Config) (w : Word) : (gp1Of w).wf c = true := by
  unfold gp1Of
  dsimp only
  iterate 11 refine wf_ite (fun _ => rfl) fun _ => ?_
  simp only [Instr.wf, gp1Unknown, Bool.or_eq_true, Bool.and_eq_true, decide_eq_true_eq]
  omega

/-- The channel of an address below 0x70 where a register stands is one there is. -/
theorem channel_lt_of_dmaMapped {c : Config} {a : BitVec 7} (h : dmaMapped c a = true) (h7 : a.toNat / 0x10 < 7) :
    a.toNat / 0x10 < c.dmaChannels := by
  rwa [dmaMapped, if_pos (by omega), decide_eq_true_eq] at h

theorem wf_dmaWriteOf (c : Config) (a : BitVec 7) (d : Byte) : (dmaWriteOf c a d).wf c = true := by
  cases hm : dmaMapped c a with
  | false =>
    rw [(dma_unmapped hm d).1]
    exact Bool.not_eq_true' _ |>.mpr hm
  | true =>
    unfold dmaWriteOf
    dsimp only
    rw [if_neg (by simp [hm])]
    split
    next h7 =>
      have hch := decide_eq_true (channel_lt_of_dmaMapped hm h7)
      split <;> exact hch
    next =>
      iterate 4 refine wf_ite (fun _ => rfl) fun _ => ?_
      rfl

theorem wf_dmaReadOf (c : Config) (a : BitVec 7) : (dmaReadOf c a).wf c = true := by
  unfold dmaReadOf
  split
  next hm => exact hm
  next hm => simpa [Instr.wf] using hm

theorem wf_cdWriteOf (c : Config) (p i : BitVec 2) (d : Byte) : (cdWriteOf p i d).wf c = true := by
  unfold cdWriteOf
  split <;> rfl

theorem wf_cdReadOf (c : Config) (p : BitVec 2) : (cdReadOf p).wf c = true := by
  unfold cdReadOf
  split <;> rfl

/-- A byte that names no command is outside the closed set (rule R511). -/
theorem wf_cdCommandOf (c : Config) (d : Byte) : (cdCommandOf d).wf c = true := by
  unfold cdCommandOf
  split
  case h_32 =>
    simp only [Instr.wf, cdUnknown, Bool.or_eq_true, Bool.and_eq_true, beq_iff_eq, decide_eq_true_eq]
    simp only [imp_false] at *
    omega
  all_goals rfl

/-- Settles O2: form by form, what the decoder answers is well formed. -/
theorem decoderAnswersWellFormed : Obligations.DecoderAnswersWellFormed := by
  intro c r i hc h
  cases r with
  | gp0 ws => exact wf_gp0Of hc h
  | gp0Data w => cases h; rfl
  | gp1 w => cases h; exact wf_gp1Of c w
  | gpuRead stat => cases h; cases stat <;> rfl
  | dmaWrite a d => cases h; exact wf_dmaWriteOf c a d
  | dmaRead a => cases h; exact wf_dmaReadOf c a
  | cdWrite p i d => cases h; exact wf_cdWriteOf c p i d
  | cdRead p i => cases h; exact wf_cdReadOf c p
  | cdCommand d => cases h; exact wf_cdCommandOf c d
  | shell => cases h; rfl

/-! ### Words written out from the tables (rules R142 to R152, R400, R460, R510) -/

/-- Settles O3: the decoder computes each answer. -/
theorem sampleWordsDecode : Obligations.SampleWordsDecode := by
  unfold Obligations.SampleWordsDecode
  decide

/-! ### The step of one encoded form (rules R140, R200, R340, R400, R460) -/

/-- A GP0 word that is one instruction by itself runs it. -/
theorem hostGp0_of_gp0Raw {s : State} {w : Word} {r : Raw} {i : Instr} (hr : gp0Raw s.gpu w = some r)
    (hi : decode s.cfg r = .instr i) : hostGp0 w s = exec i s := by
  unfold gp0Raw at hr
  split at hr
  next hs =>
    split at hr <;> cases hr
    next hcls =>
      simp only [decode, gp0Of, hcls, List.length_nil, if_true, Decoded.instr.injEq] at hi
      simp only [hostGp0, gp0Take, hs, gp0Idle, hcls, hi]
    next hcls =>
      simp only [decode, gp0Of, hcls, List.length_nil, if_true, Decoded.instr.injEq] at hi
      simp only [hostGp0, gp0Take, hs, gp0Idle, hcls, hi]
  next hs =>
    cases hr
    cases hi
    simp only [hostGp0, gp0Take, hs]
  next => cases hr

theorem writeTxn_of_writeRaw {s : State} {comp : Comp} {off : Nat} {width : Width} {w : Word} {r : Raw} {i : Instr}
    (hr : writeRaw s comp off width w = some r) (hi : decode s.cfg r = .instr i) :
    writeTxn comp off width w s = exec i s := by
  cases comp with
  | gpu =>
    simp only [writeRaw, writeTxn, gpuWrite] at hr ⊢
    split_ifs at hr ⊢
    · exact hostGp0_of_gp0Raw hr hi
    · cases hr
      cases hi
      rfl
  | dma =>
    obtain ⟨⟨rfl, hoff⟩, ⟨⟩⟩ := Option.ite_none_right_eq_some.mp hr
    cases hi
    exact (if_pos (Nat.succ_le_of_lt hoff)).trans (andThen_pure _)
  | cdrom =>
    obtain ⟨⟨rfl, hoff⟩, ⟨⟩⟩ := Option.ite_none_right_eq_some.mp hr
    cases hi
    rw [writeTxn, cdWriteTxn, if_neg (not_not_intro rfl), if_pos hoff]

theorem readTxn_of_readRaw {s : State} {comp : Comp} {off : Nat} {width : Width} {r : Raw} {i : Instr}
    (hr : readRaw s comp off width = some r) (hi : decode s.cfg r = .instr i) :
    readTxn comp off width s = exec i s := by
  cases comp with
  | gpu =>
    simp only [readRaw, readTxn, gpuRead] at hr ⊢
    split_ifs at hr ⊢
    · cases hr
      cases hi
      rfl
    · cases hr
      cases hi
      rfl
  | dma =>
    obtain ⟨⟨rfl, hoff⟩, ⟨⟩⟩ := Option.ite_none_right_eq_some.mp hr
    cases hi
    exact (if_pos (Nat.succ_le_of_lt hoff)).trans (andThen_pure _)
  | cdrom =>
    obtain ⟨⟨rfl, hoff⟩, ⟨⟩⟩ := Option.ite_none_right_eq_some.mp hr
    cases hi
    rw [readTxn, cdReadTxn, if_neg (not_not_intro rfl), if_pos hoff]

/-- A transaction that brings one encoded form runs its instruction; a read then sends the value out. -/
theorem transact_of_raw {s : State} {t : Txn} {r : Raw} {i : Instr} (hr : Txn.raw s t = some r)
    (hi : decode s.cfg r = .instr i) : transact t s = leave t (exec i s) := by
  cases t with
  | write comp off width w => exact writeTxn_of_writeRaw hr hi
  | read comp off width => exact congrArg (andThen · fun s => .next (finishRead width s)) (readTxn_of_readRaw hr hi)
  | tick comp n => cases hr
  | shell =>
    cases hr
    cases hi
    rfl
  | ramStore a d => cases hr

/-- Settles O4: the form is read off the decoder and the bank index, which taking the transaction off leaves alone. -/
theorem stepRunsTheDecodedInstruction : Obligations.StepRunsTheDecodedInstruction := by
  intro s t ts r i hscript hr hi
  have henter : { s with script := ts, readBuf := [] } = enter s := by simp only [enter, hscript, List.tail_cons]
  have hraw : Txn.raw (enter s) t = some r := hr
  rw [step, hscript]
  show transact t { s with script := ts, readBuf := [] } = _
  rw [henter]
  exact transact_of_raw hraw hi

end Sys2Proof.Machine
end

section
/-! PROOFS. The family of the GP0 decoder: a word in `Idle` or in a collection (O5); what else touches the decoder (O8);
the one-word commands (O9); and the invariant at power-on (O58). -/
namespace Sys2Proof.Machine

/-! ### A GP0 word in a collection (rules R206 to R208) -/

section
variable {k : Kind} {w x : Word} {ws : List Word} {n : Nat} {s : State}

/-- An argument before the last is stored behind the words received (rule R206). -/
theorem hostGp0_more_stored (h : Receiving k (w :: ws) n s) (hx : isPolyline k w = true → x ≠ s.cfg.lineSentinel)
    (hn : s.gpu.currArg + 1 ≠ n) :
    hostGp0 x s = .next { s with
      gpu.args := s.gpu.args.set s.gpu.currArg x, gpu.currArg := s.gpu.currArg + 1 } := by
  simp only [hostGp0, gp0Take, h.state, gp0Collect, h.arg0, h.count]
  rw [if_neg fun hc => hx hc.1 hc.2, if_neg hn]

/-- The last is stored too, and the words received with it are the packet that runs (rule R208). -/
theorem hostGp0_last_stored (h : Receiving k (w :: ws) n s) (hx : isPolyline k w = true → x ≠ s.cfg.lineSentinel)
    (hn : s.gpu.currArg + 1 = n) :
    hostGp0 x s = exec (packetOf k (w :: ws ++ [x]))
      (endCollect { s with gpu.args := s.gpu.args.set s.gpu.currArg x }) := by
  have hstored := take_set_succ s.gpu.args (w :: ws) x h.words (by have := h.room; have := h.curr; omega)
  rw [← h.curr] at hstored
  simp only [hostGp0, gp0Take, h.state, gp0Collect, h.arg0, h.count]
  rw [if_neg fun hc => hx hc.1 hc.2, if_pos hn]
  simp only [hstored]
  rfl

end

/-! ### The words received decode to their packet (rules R201, R205, R207) -/

/-- The decoder reads a packet whose length its command word allows. -/
theorem decode_packet {c : Config} {k : Kind} {w : Word} {rest : List Word}
    (hclass : gp0Class (byte3 w) = .multiword k)
    (hlen : (w :: rest).length = wordCount c k w
      ∨ isPolyline k w = true ∧ (w :: rest).length ≤ wordCount c k w) :
    decode c (.gp0 (w :: rest)) = .instr (packetOf k (w :: rest)) := by
  simp only [decode, gp0Of, hclass]
  exact if_pos hlen

/-- While a command collects, its command word and fewer words than it needs have been received. -/
theorem receiving_of_inv {s : State} {k : Kind} (h : s.Inv) (hs : s.gpu.cmdState = .collect k) :
    ∃ w rest, Receiving k (w :: rest) (wordCount s.cfg k w) s ∧ gp0Class (byte3 w) = .multiword k
      ∧ (w :: rest).length < wordCount s.cfg k w := by
  obtain ⟨hclass, hcount, hfirst, hmore, -⟩ := (decoderInv_iff_of_collecting hs).mp h.decoder
  have hroom : wordCount s.cfg k (argAt s.gpu.args 0) ≤ s.gpu.args.length := by
    rw [h.args]
    exact (wordCount_bounds h.cfg k _).2
  obtain ⟨w, as, ha⟩ : ∃ w as, s.gpu.args = w :: as := List.exists_cons_of_length_pos (by omega)
  obtain ⟨n, hn⟩ := Nat.exists_eq_add_of_le' hfirst
  have h0 : argAt s.gpu.args 0 = w := by rw [ha, argAt_cons_zero]
  rw [h0] at hclass hcount hroom
  have hlen : (w :: as.take n).length = s.gpu.currArg := by
    rw [ha, List.length_cons] at hroom
    rw [List.length_cons, List.length_take]
    omega
  refine ⟨w, as.take n, ⟨hs, ?_, hlen.symm, hcount, hroom, List.cons_ne_nil _ _⟩, hclass, by omega⟩
  rw [hlen, hn, ha, List.take_succ_cons]

/-! ### The step that brings a GP0 word (rules R140, R200) -/

/-- The step takes the next transaction off the script and performs it. -/
theorem step_of_script {s : State} {t : Txn} {ts : List Txn} (h : s.script = t :: ts) :
    step s = transact t (enter s) := by
  rw [step, enter, h]
  rfl

/-- Settles O5: the words the invariant says have been received decode to their packet, and so do they with the last. -/
theorem collectionRunsTheDecodedPacket : Obligations.CollectionRunsTheDecodedPacket := by
  intro s w ts hinv hscript
  have hstep : step s = hostGp0 w (enter s) := (step_of_script hscript).trans (transact_gp0 w _)
  refine ⟨fun k hs hk => hstep.trans (hostGp0_first hs hk), fun k hs => ?_⟩
  obtain ⟨w0, rest, hrec, hclass, hlen⟩ := receiving_of_inv hinv hs
  have henter : Receiving k (w0 :: rest) (wordCount s.cfg k w0) (enter s) := { hrec with }
  have hwords : s.gpu.args.take s.gpu.currArg = w0 :: rest := by rw [hrec.curr, hrec.words]
  rw [hwords, hrec.arg0, hrec.count]
  refine ⟨fun ⟨hp, hw⟩ => ?_, fun hends hlast => ?_, fun hends hmore => ?_⟩
  · exact ⟨_, decode_packet hclass (.inr ⟨hp, hlen.le⟩), by rw [hstep, hw]; exact hostGp0_sentinel henter hp⟩
  · refine ⟨_, decode_packet hclass (.inl ?_),
      hstep.trans (hostGp0_last_stored henter (fun hp hw => hends ⟨hp, hw⟩) hlast)⟩
    rw [← hlast, hrec.curr]
    simp
  · exact hstep.trans (hostGp0_more_stored henter (fun hp hw => hends ⟨hp, hw⟩) hmore)

/-! ### What leaves the whole GPU alone (rules R209, R400, R460) -/

theorem startRead_gpu (s : State) : (startRead s).gpu = s.gpu := by simp [startRead]

theorem seekNow_gpu (s : State) : (seekNow s).gpu = s.gpu := by simp [seekNow]

/-- Whatever next state `o` answers has the GPU of `s`. -/
def KeepsGpu (s : State) (o : Out) : Prop := Ensures o fun t => t.gpu = s.gpu

/-- A command that takes parameters. -/
theorem keepsGpu_of_takes {n : Nat} {s : State} {o : Out} (h : ∃ t, o = .next t ∧ TakesParams n s t) :
    KeepsGpu s o := by
  obtain ⟨t, rfl, ht⟩ := h
  exact ensures_next ht.gpu

theorem keepsGpu_execCdPlay (s : State) : KeepsGpu s (execCdPlay s) := by
  cases hp : s.cd.paramFifo with
  | nil => exact keepsGpu_of_takes ⟨_, execCdPlay_nil hp, (TakesParams.refl s).applySeek.startPlay⟩
  | cons b bs => exact keepsGpu_of_takes (execCdPlay_cons hp)

theorem keepsGpu_execCdGetid (s : State) : KeepsGpu s (execCdGetid s) := by
  refine ensures_next (Eq.trans ?_ (respondStat_gpu s))
  split
  · exact respond_gpu _ _ _
  · exact respond_gpu _ _ _

/-- Whatever command the dispatch runs (rule R512). -/
theorem keepsGpu_cdRun (i : Instr) (s : State) : KeepsGpu s (cdRun i s) := by
  cases i with
  | cdSetloc => exact keepsGpu_of_takes (execCdSetloc_takes s)
  | cdSetfilter => exact keepsGpu_of_takes (execCdSetfilter_takes s)
  | cdSetmode => exact keepsGpu_of_takes (execCdSetmode_takes s)
  | cdSetsession => exact keepsGpu_of_takes (execCdSetsession_takes s)
  | cdGettd => exact keepsGpu_of_takes (execCdGettd_takes s)
  | cdTest => exact keepsGpu_of_takes (execCdTest_takes s)
  | cdPlay => exact keepsGpu_execCdPlay s
  | cdGetid => exact keepsGpu_execCdGetid s
  | cdReadn | cdReads => exact ensures_next (startRead_gpu s)
  | cdSeekl | cdSeekp => exact ensures_next (seekNow_gpu s)
  | cdGetstat | cdMute | cdDemute | cdGetlocl | cdGetlocp | cdGettn | cdUnlock =>
    exact ensures_next (respond_gpu _ _ _)
  | cdMotoron | cdStop | cdPause | cdInit | cdReadtoc =>
    exact ensures_next ((respondStat2_gpu _).trans (respondStat_gpu _))
  | _ => exact ensures_next rfl

theorem keepsGpu_execCdCommand (d : Byte) (s : State) : KeepsGpu s (execCdCommand d s) :=
  ensures_andThen (keepsGpu_cdRun _ { s with cd.busy := true }) fun _ ht => ensures_next ht

theorem keepsGpu_execCdIntAck (clear : Bool) (codes : BitVec 5) (s : State) :
    KeepsGpu s (execCdIntAck clear codes s) := by
  have hack (s : State) : (ackFront codes s).gpu = s.gpu := by
    unfold ackFront
    split
    · rfl
    · split <;> rfl
  refine ensures_next ((hack _).trans ?_)
  split <;> rfl

theorem popDataWord_gpu (s : State) : (popDataWord s).2.gpu = s.gpu := by
  obtain ⟨n, h⟩ := popDataWord_frame s
  rw [h]

theorem cdReceive_gpu (delta : Int) (n addr : Nat) (s : State) : (cdReceive delta n addr s).gpu = s.gpu := by
  induction n generalizing addr s with
  | zero => rfl
  | succ n ih => exact (ih _ _).trans (popDataWord_gpu s)

/-- Of the transfers only channel 2's reaches the GPU (rules R422 to R426). -/
theorem keepsGpu_dmaTransfer {n : Fin 7} (hn : n ≠ 2) (s : State) : KeepsGpu s (dmaTransfer n s) := by
  unfold dmaTransfer
  dsimp only
  split
  next h2 => exact absurd (Fin.ext h2) hn
  · exact ensures_next (cdReceive_gpu _ _ _ s)
  · exact ensures_next rfl
  · exact ensures_next rfl

theorem keepsGpu_dmaStart {n : Fin 7} (hn : n ≠ 2) (s : State) : KeepsGpu s (dmaStart n s) := by
  unfold dmaStart
  dsimp only
  split_ifs
  · exact ensures_fault _ _
  · exact ensures_fault _ _
  · exact ensures_andThen (keepsGpu_dmaTransfer hn s) fun _ ht => ensures_next ht
  · exact ensures_next rfl

/-- A write of CHCR, unless it is the one that can start channel 2 (rules R403, R420). -/
theorem keepsGpu_execDmaChcrWrite {n : Fin 7} {b : Fin 4} (h : n ≠ 2 ∨ b ≠ 3) (d : Byte) (s : State) :
    KeepsGpu s (exec (.dmaChcrWrite n b d) s) := by
  by_cases hb : b = 3
  · subst hb
    exact keepsGpu_dmaStart (h.resolve_right fun hne => hne rfl) _
  · rw [execDmaChcrWrite_low hb]
    exact ensures_next rfl

theorem keepsGpu_execDmaUnmapped (a : BitVec 7) (data : Option Byte) (s : State) :
    KeepsGpu s (execDmaUnmapped a data s) := by
  cases data with
  | none => exact ensures_next rfl
  | some d => exact ensures_next rfl

theorem keepsGpu_execDmaRead (a : BitVec 7) (s : State) : KeepsGpu s (execDmaRead a s) := by
  unfold execDmaRead
  split
  · split
    · exact ensures_next rfl
    · exact ensures_next rfl
  · exact ensures_next rfl

/-! ### What touches the GPU but not the GP0 decoder (rules R209, R320, R340) -/

/-- The registers of the GP0 decoder (rules R32, R33). -/
def decoderState (g : Gpu) : CmdState × List Word × Nat × Nat := (g.cmdState, g.args, g.argCount, g.currArg)

/-- What an outcome's next state keeps of the GPU in `s`: the GP0 decoder. -/
def KeepsDecoder (s : State) (o : Out) : Prop := Ensures o fun t => decoderState t.gpu = decoderState s.gpu

theorem KeepsGpu.keepsDecoder {s : State} {o : Out} (h : KeepsGpu s o) : KeepsDecoder s o :=
  fun t ht => congrArg decoderState (h t ht)

theorem keepsDecoder_execGp1VRange (y1 y2 : BitVec 10) (s : State) : KeepsDecoder s (execGp1VRange y1 y2 s) := by
  unfold execGp1VRange
  split
  · exact ensures_next rfl
  · exact ensures_next rfl

theorem keepsDecoder_execGp1Unrecognized (w : Word) (s : State) : KeepsDecoder s (execGp1Unrecognized w s) := by
  unfold execGp1Unrecognized
  split
  · exact ensures_next rfl
  · exact ensures_fault _ _

theorem keepsDecoder_execGpuGpuread (s : State) : KeepsDecoder s (execGpuGpuread s) := by
  obtain ⟨k, m, n, h⟩ := gpuReadWord_frame s
  exact ensures_next (congrArg (fun t => decoderState t.gpu) h)

/-- A CDROM command byte's instruction is run as the dispatch runs it. -/
theorem keepsDecoder_of_cdRun {i : Instr} {s : State} (h : exec i s = cdRun i s) : KeepsDecoder s (exec i s) :=
  h ▸ (keepsGpu_cdRun i s).keepsDecoder

/-- Port by port: what is no GP0 word, no GP1 reset and no start of channel 2 keeps the GP0 decoder (rule R209). -/
theorem keepsDecoder_exec {i : Instr} (s : State) (hw : gp0Words i = []) (hdata : ∀ p q, i ≠ .gp0Data p q)
    (hreset : i ≠ .gp1Reset) (hbuffer : i ≠ .gp1ResetCmdBuffer) (hstart : ∀ d, i ≠ .dmaChcrWrite 2 3 d) :
    KeepsDecoder s (exec i s) := by
  cases i with
  | gp0Data p q => exact absurd rfl (hdata p q)
  | gp1Reset => exact absurd rfl hreset
  | gp1ResetCmdBuffer => exact absurd rfl hbuffer
  | gp1AckIrq | gp1DisplayEnable | gp1DmaDirection | gp1DisplayArea | gp1HRange | gp1DisplayMode
  | gp1TexDisableAllow | gp1GpuInfo => exact ensures_next rfl
  | gp1VRange y1 y2 => exact keepsDecoder_execGp1VRange y1 y2 s
  | gp1Unrecognized w => exact keepsDecoder_execGp1Unrecognized w s
  | gpuGpuread => exact keepsDecoder_execGpuGpuread s
  | gpuGpustat => exact ensures_next rfl
  | dmaMadrWrite | dmaBcrWrite | dmaReservedWrite | dmaDpcrWrite | dmaDicrWriteLow | dmaDicrAck =>
    exact ensures_next rfl
  | dmaChcrWrite n b d =>
    refine (keepsGpu_execDmaChcrWrite ?_ d s).keepsDecoder
    by_contra! hnb
    obtain ⟨rfl, rfl⟩ := hnb
    exact hstart d rfl
  | dmaUnmapped a data => exact (keepsGpu_execDmaUnmapped a data s).keepsDecoder
  | dmaRead a => exact (keepsGpu_execDmaRead a s).keepsDecoder
  | cdCommand d => exact (keepsGpu_execCdCommand d s).keepsDecoder
  | cdIntAck clear codes => exact (keepsGpu_execCdIntAck clear codes s).keepsDecoder
  | cdResponseRead => exact ensures_next (congrArg decoderState (popResponse_gpu s))
  | cdDataRead => exact ensures_next (congrArg decoderState (popData_gpu s))
  | cdIndexWrite | cdSoundmapData | cdSoundmapCoding | cdVolRr | cdParam | cdIntEnable | cdVolLl | cdVolRl
  | cdRequest | cdVolLr | cdVolApply | cdStatusRead | cdIntRead | shell => exact ensures_next rfl
  | cdGetstat | cdSetloc | cdPlay | cdReadn | cdMotoron | cdStop | cdPause | cdInit | cdMute | cdDemute
  | cdSetfilter | cdSetmode | cdGetlocl | cdGetlocp | cdSetsession | cdGettn | cdGettd | cdSeekl | cdSeekp
  | cdTest | cdGetid | cdReads | cdReadtoc | cdUnlock | cdUnrecognized =>
    exact keepsDecoder_of_cdRun rfl
  | _ => exact absurd hw (List.cons_ne_nil _ _)

/-- Settles O8: the four registers of the decoder, one by one. -/
theorem onlyResetCommandsAbandon : Obligations.OnlyResetCommandsAbandon := by
  intro i s t ht hw hdata hreset hbuffer hstart
  have h := keepsDecoder_exec s hw hdata hreset hbuffer hstart t ht
  simpa only [decoderState, Prod.mk.injEq] using h

/-! ### The one-word commands (rules R220 to R229) -/

/-- Settles O9: each meaning is the one update written out. -/
theorem oneWordCommandsSetTheirRegister : Obligations.OneWordCommandsSetTheirRegister :=
  fun _ => ⟨rfl, rfl, rfl, fun _ => rfl, fun _ => rfl, fun _ => rfl, fun _ => rfl, fun _ => rfl, fun _ => rfl,
    fun _ => rfl⟩

/-! ### Power-on (rules R204, R700 to R703) -/

/-- Parameters the model takes give at most one mode at power-on (rule R62). -/
theorem accepts_mode {c : Config} (h : c.accepts = true) : modeOneHot c.cdPoweronStat := by
  simp only [Config.accepts, Bool.and_eq_true, Bool.or_eq_true, beq_iff_eq, or_assoc] at h
  obtain ⟨⟨-, hmode⟩, -⟩ := h
  exact hmode

/-- No cell written, no command collecting, no transfer pending, every FIFO empty. -/
theorem powerOn_inv {c : Config} (h : c.accepts = true) : (State.powerOn c).Inv where
  cfg := h
  vram := rfl
  ram := rfl
  args := List.length_replicate
  decoder := ⟨rfl, rfl⟩
  cursor hr := hr.elim nofun nofun
  irq := nofun
  dots := (accepts_timing h).1
  line := (accepts_timing h).2
  params := Nat.zero_le _
  responses := Nat.zero_le _
  ints := Nat.zero_le _
  data := Nat.zero_le _
  codes := nofun
  front := nofun
  mode := accepts_mode h

theorem configure_eq_some {c : Config} {s : State} :
    State.configure c = some s ↔ c.accepts = true ∧ State.powerOn c = s := by
  rw [State.configure, Option.ite_none_right_eq_some, Option.some.injEq]

/-- Settles O58: what configuration gives is power-on under accepted parameters, and the defaults are accepted. -/
theorem powerOnMeetsTheInvariant : Obligations.PowerOnMeetsTheInvariant := by
  refine ⟨powerOn_inv (c := Config.default) rfl, fun c s hs => ?_⟩
  obtain ⟨hc, rfl⟩ := configure_eq_some.mp hs
  exact ⟨powerOn_inv hc, rfl, hc⟩

end Sys2Proof.Machine
end

section
/-! PROOFS. The family of the GP0 drawing commands: the fill's rectangle (O11) in the colour of `to15` (O10), the effect
of a batch (O12), and the batches of the polygons (O13), the lines (O14) and the rectangles (O15). -/
namespace Sys2Proof.Machine

/-! ### Fill (rules R250, R251) -/

/-- Settles O10: red, green and blue are the fields of five bits from 0, 5 and 10 on; bit 15 is the 0 above them. -/
theorem to15DropsTheLowThreeBits : Obligations.To15DropsTheLowThreeBits := by
  intro c i hi
  simp only [to15, BitVec.getLsbD_append, BitVec.getLsbD_extractLsb', Nat.add_comm 3]
  obtain hr | ⟨hr, hg⟩ | ⟨hg, hb⟩ | rfl : i < 5 ∨ 5 ≤ i ∧ i < 10 ∨ 10 ≤ i ∧ i < 15 ∨ i = 15 := by omega
  case inr.inr.inr => simp
  all_goals simp (disch := omega) only [if_pos, if_neg, decide_eq_true, Bool.true_and]

/-- Settles O11: the meaning writes the fill's pixels, whose reads `vramRead_fillPixels` gives. -/
theorem fillWritesExactlyItsRectangle : Obligations.FillWritesExactlyItsRectangle :=
  fun _ _ _ _ hw => ⟨_, rfl, vramRead_fillPixels hw _ _ _ _ _ _⟩

/-! ### The effect of a batch (rule R252) -/

/-- Settles O12: rasterizing is a function of the pixels, and the last of several pixel writes counts. -/
theorem batchEffect : Obligations.BatchEffect := by
  intro s b pixels
  refine ⟨rfl, fun s' hw hcfg hpixels x y => ?_, fun ps p x y hw => vramRead_applyPixels_concat hw ps p _ x y⟩
  simp only [pixels, hcfg] at hpixels
  show vramRead s'.cfg (rasterized s'.cfg b s'.gpu.vram) x y = vramRead s.cfg (rasterized s.cfg b s.gpu.vram) x y
  rw [hcfg]
  exact rasterized_congr hw b hpixels x y

/-! ### Polygons (rules R254 to R261, R280) -/

section
variable (gouraud semi raw : Bool) (palette page : Half) (v0 v1 v2 v3 : Vertex) (s : State)

/-- An untextured triangle is one batch. -/
theorem drawPlain_triangle : drawPlain gouraud semi raw [[v0, v1, v2]] s =
    .next (drawBatch (plainBatch .triangle gouraud semi raw s.gpu [v0, v1, v2]) s) := rfl

/-- An untextured quad is two batches with one snapshot, {0,1,2} then {1,2,3} (rule R280). -/
theorem drawPlain_quadTriangles : drawPlain gouraud semi raw (quadTriangles v0 v1 v2 v3) s =
    .next (drawBatch (plainBatch .triangle gouraud semi raw s.gpu [v1, v2, v3])
      (drawBatch (plainBatch .triangle gouraud semi raw s.gpu [v0, v1, v2]) s)) := rfl

/-- A textured triangle is one batch. -/
theorem drawTextured_triangle : drawTextured gouraud semi raw palette page [[v0, v1, v2]] s =
    .next (drawBatch (texBatch gouraud semi raw palette page s.gpu [v0, v1, v2]) s) := rfl

/-- A textured quad is two batches with one snapshot, {0,1,2} then {1,2,3} (rule R280). -/
theorem drawTextured_quadTriangles : drawTextured gouraud semi raw palette page (quadTriangles v0 v1 v2 v3) s =
    .next (drawBatch (texBatch gouraud semi raw palette page s.gpu [v1, v2, v3])
      (drawBatch (texBatch gouraud semi raw palette page s.gpu [v0, v1, v2]) s)) := rfl

end

/-- Settles O13: each command draws one triangle or one quad, plain or textured. -/
theorem polygonCommandsEmitTheirBatches : Obligations.PolygonCommandsEmitTheirBatches := by
  intro s semi raw k0 k1 k2 k3 p0 p1 p2 p3 t0 t1 t2 t3 pal page snap v tv b tb
  exact ⟨drawPlain_triangle .., drawTextured_triangle .., drawPlain_quadTriangles .., drawTextured_quadTriangles ..,
    drawPlain_triangle .., drawTextured_triangle .., drawPlain_quadTriangles .., drawTextured_quadTriangles ..⟩

/-! ### Lines (rules R262 to R265, R281) -/

theorem drawBatches_append (bs bs' : List DrawBatch) (s : State) :
    drawBatches (bs ++ bs') s = drawBatches bs' (drawBatches bs s) := by
  induction bs generalizing s with
  | nil => rfl
  | cons b bs ih => exact ih (drawBatch b s)

/-- One more vertex adds one segment, from the vertex before it (rule R281). -/
theorem segments_concat (vs : List Vertex) (v w : Vertex) :
    segments (vs ++ [v, w]) = segments (vs ++ [v]) ++ [[v, w]] := by
  induction vs with
  | nil => rfl
  | cons u vs ih =>
    cases vs with
    | nil => rfl
    | cons u' vs => exact congrArg ([u, u'] :: ·) ih

/-- One more vertex draws one more batch, after those of the vertices before it (rules R252, R281). -/
theorem drawLine_concat (gouraud semi : Bool) (vs : List Vertex) (v w : Vertex) (s : State) :
    ∃ t, drawLine gouraud semi (vs ++ [v]) s = .next t ∧ drawLine gouraud semi (vs ++ [v, w]) s
      = .next (drawBatch (plainBatch .segment gouraud semi false s.gpu [v, w]) t) := by
  refine ⟨_, rfl, ?_⟩
  simp only [drawLine, segments_concat, List.map_append, drawBatches_append]
  rfl

/-- Settles O14: the base cases by the segments written out, a vertex appended by `drawLine_concat`. -/
theorem lineCommandsEmitTheirSegments : Obligations.LineCommandsEmitTheirSegments := by
  intro s semi k k0 p q snap v seg
  refine ⟨rfl, rfl, rfl, rfl, fun ps => ?_, rfl, rfl, rfl, fun p0 vs k1 => ?_⟩
  · simp only [exec, execGp0LineFP, List.map_append]
    exact drawLine_concat false semi (ps.map (v · k)) (v p k) (v q k) s
  · simp only [exec, execGp0LineGP, List.map_append]
    exact drawLine_concat true semi (v p0 k0 :: vs.map fun u => v u.pos u.color) (v p k1) (v q k) s

/-! ### Rectangles (rules R266 to R273, R282) -/

/-- Settles O15: each command draws the quad of its four corners, plain or textured. -/
theorem rectangleCommandsEmitTheirBatches : Obligations.RectangleCommandsEmitTheirBatches := by
  intro s semi raw k a t pal size snap c page b tb plain u v tex
  exact ⟨drawPlain_quadTriangles .., drawTextured_quadTriangles .., drawPlain_quadTriangles ..,
    drawTextured_quadTriangles .., drawPlain_quadTriangles .., drawTextured_quadTriangles ..,
    drawPlain_quadTriangles .., drawTextured_quadTriangles ..⟩

end Sys2Proof.Machine
end

section
/-! PROOFS. The family of the GP0 transfers: the cursor the CPU-facing copies set (O16), the one or two pixels of a data
word (O17), and the pixels, in row order, of an upload (O18), of a copy inside VRAM (O19) and of a download (O21). -/
namespace Sys2Proof.Machine

/-! ### The copies start (rules R300, R305) -/

theorem execGp0CopyCpuVram_nonzero (p : Xy) {z : Xy} (hx : z.x ≠ 0#16) (hy : z.y ≠ 0#16) (s : State) :
    execGp0CopyCpuVram p z s = .next { s with gpu.cursor := cursorAt p z, gpu.cmdState := .cpuToVramData } :=
  if_neg (not_or.mpr ⟨hx, hy⟩)

theorem execGp0CopyVramCpu_nonzero (p : Xy) {z : Xy} (hx : z.x ≠ 0#16) (hy : z.y ≠ 0#16) (s : State) :
    execGp0CopyVramCpu p z s = .next { s with gpu.cursor := cursorAt p z, gpu.readMode := .vramRead } :=
  if_neg (not_or.mpr ⟨hx, hy⟩)

/-- Settles O16: the test for a zero size comes first, and `cursorAt` is the cursor stated. -/
theorem copyCommandsSetTheCursor : Obligations.CopyCommandsSetTheCursor := by
  intro s p z k
  exact ⟨fun h => ⟨if_pos h, if_pos h⟩,
    fun hx hy => ⟨execGp0CopyCpuVram_nonzero p hx hy s, execGp0CopyVramCpu_nonzero p hx hy s⟩⟩

/-! ### A data word (rules R302, R303) -/

/-- The low pixel completes the rectangle: the high pixel is discarded (rule R303). -/
theorem execGp0Data_one {s : State} (lo hi : Pixel)
    (h : (cursorNext s.gpu.cursor).currY = (cursorNext s.gpu.cursor).endY) :
    execGp0Data lo hi s = .next { s with
      gpu.vram := vramWrite s.cfg s.gpu.vram s.gpu.cursor.currX s.gpu.cursor.currY lo
      gpu.cursor := cursorNext s.gpu.cursor
      gpu.cmdState := .idle } := by
  simp [execGp0Data, dataPixel, cursorDone, h]

/-- It does not: the high pixel follows, and completion is tested again (rule R302). -/
theorem execGp0Data_two {s : State} (lo hi : Pixel) (hs : s.gpu.cmdState = .cpuToVramData)
    (h : (cursorNext s.gpu.cursor).currY ≠ (cursorNext s.gpu.cursor).endY) :
    execGp0Data lo hi s = .next { s with
      gpu.vram := vramWrite s.cfg (vramWrite s.cfg s.gpu.vram s.gpu.cursor.currX s.gpu.cursor.currY lo)
        (cursorNext s.gpu.cursor).currX (cursorNext s.gpu.cursor).currY hi
      gpu.cursor := cursorNext (cursorNext s.gpu.cursor)
      gpu.cmdState := if (cursorNext (cursorNext s.gpu.cursor)).currY = (cursorNext (cursorNext s.gpu.cursor)).endY
        then .idle else .cpuToVramData } := by
  simp [execGp0Data, dataPixel, cursorDone, h, hs]

/-- Settles O17: the cases are those of the test after the low pixel. -/
theorem dataWordWritesOneOrTwoPixels : Obligations.DataWordWritesOneOrTwoPixels := by
  intro s lo hi hs next k0 k1 v1
  exact ⟨execGp0Data_one lo hi, execGp0Data_two lo hi hs⟩

/-! ### The pixels of a rectangle in row order (rule R302) -/

/-- A rectangle with a pixel in it has a column. -/
theorem width_pos_of_lt {w h k : Nat} (hk : k < w * h) : 0 < w := Nat.pos_of_mul_pos_right (Nat.zero_lt_of_lt hk)

/-- The `k`-th pixel of a walk in row order is in the rectangle. -/
theorem inRect_pixel {c : Config} {x0 y0 w h k x y : Nat} (hk : k < w * h)
    (hx : (x0 + k % w) % c.vramWidth = x % c.vramWidth) (hy : (y0 + k / w) % c.vramHeight = y % c.vramHeight) :
    inRect c x0 y0 w h x y :=
  ⟨k % w, k / w, Nat.mod_lt k (width_pos_of_lt hk), Nat.div_lt_of_lt_mul hk, hx, hy⟩

/-- Column `i` of row `j` is pixel `j * w + i` of the walk. -/
theorem pixel_index {w h i j : Nat} (hi : i < w) (hj : j < h) :
    j * w + i < w * h ∧ (j * w + i) % w = i ∧ (j * w + i) / w = j := by
  have hw : 0 < w := Nat.zero_lt_of_lt hi
  refine ⟨?_, by rw [Nat.mul_comm, Nat.mul_add_mod, Nat.mod_eq_of_lt hi],
    by rw [Nat.mul_comm, Nat.mul_add_div hw, Nat.div_eq_of_lt hi, Nat.add_zero]⟩
  calc j * w + i < (j + 1) * w := by rw [Nat.succ_mul]; omega
    _ ≤ w * h := by rw [Nat.mul_comm]; exact Nat.mul_le_mul_left w hj

/-- Fewer steps than the grid has columns (or rows) do not come back to where they started. -/
theorem add_mod_injective {x i j m n : Nat} (hi : i < n) (hj : j < n) (hn : n ≤ m) (h : (x + i) % m = (x + j) % m) :
    i = j :=
  Nat.ModEq.eq_of_lt_of_lt (Nat.ModEq.add_left_cancel' x h) (by omega) (by omega)

/-- Two pixels of a walk over a rectangle that fits the grid are two pixels of VRAM. -/
theorem pixel_injective {c : Config} {x0 y0 w h k l : Nat} (hw : w ≤ c.vramWidth) (hh : h ≤ c.vramHeight)
    (hk : k < w * h) (hl : l < w * h) (hx : (x0 + k % w) % c.vramWidth = (x0 + l % w) % c.vramWidth)
    (hy : (y0 + k / w) % c.vramHeight = (y0 + l / w) % c.vramHeight) : k = l := by
  have hw0 : 0 < w := width_pos_of_lt hk
  have hm := add_mod_injective (Nat.mod_lt k hw0) (Nat.mod_lt l hw0) hw hx
  have hd := add_mod_injective (Nat.div_lt_of_lt_mul hk) (Nat.div_lt_of_lt_mul hl) hh hy
  rw [← Nat.mod_add_div k w, hm, hd, Nat.mod_add_div]

/-- VRAM in stages: stage `k + 1` is stage `k` with the `k`-th pixel of the rectangle, in row order, set to `p k`. -/
def WritesInOrder (c : Config) (x0 y0 w h : Nat) (p : Nat → Pixel) (stage : Nat → Vram) : Prop :=
  ∀ k, k < w * h → stage (k + 1) = vramWrite c (stage k) (x0 + k % w) (y0 + k / w) (p k)

section
variable {c : Config} (hc : 0 < c.vramWidth) {x0 y0 w h : Nat} {p : Nat → Pixel} {stage : Nat → Vram}
  (hs : WritesInOrder c x0 y0 w h p stage)
include hc hs

theorem WritesInOrder.vramRead_succ {k : Nat} (hk : k < w * h) (x y : Nat) : vramRead c (stage (k + 1)) x y
    = if x % c.vramWidth = (x0 + k % w) % c.vramWidth ∧ y % c.vramHeight = (y0 + k / w) % c.vramHeight then p k
      else vramRead c (stage k) x y := by
  rw [hs k hk, vramRead_vramWrite hc]

/-- No stage changes a pixel outside the rectangle. -/
theorem WritesInOrder.vramRead_outside {x y : Nat} (hn : ¬ inRect c x0 y0 w h x y) {k : Nat} (hk : k ≤ w * h) :
    vramRead c (stage k) x y = vramRead c (stage 0) x y := by
  induction k with
  | zero => rfl
  | succ k ih =>
    have hne : ¬ (x % c.vramWidth = (x0 + k % w) % c.vramWidth ∧ y % c.vramHeight = (y0 + k / w) % c.vramHeight) :=
      fun ⟨hx, hy⟩ => hn (inRect_pixel hk hx.symm hy.symm)
    rw [hs.vramRead_succ hc hk, if_neg hne, ih (by omega)]

/-- In a rectangle that fits the grid a pixel, once written, stands. -/
theorem WritesInOrder.vramRead_written (hw : w ≤ c.vramWidth) (hh : h ≤ c.vramHeight) {k m : Nat} (hm : m < k)
    (hk : k ≤ w * h) : vramRead c (stage k) (x0 + m % w) (y0 + m / w) = p m := by
  induction k with
  | zero => omega
  | succ k ih =>
    rw [hs.vramRead_succ hc hk]
    by_cases hmk : m = k
    · subst hmk
      exact if_pos ⟨rfl, rfl⟩
    · rw [if_neg fun ⟨hx, hy⟩ => hmk (pixel_injective hw hh (by omega) (by omega) hx hy)]
      exact ih (by omega) (by omega)

/-- The last stage, pixel by pixel. -/
theorem WritesInOrder.vramRead_last (hw : w ≤ c.vramWidth) (hh : h ≤ c.vramHeight) {i j : Nat} (hi : i < w)
    (hj : j < h) : vramRead c (stage (w * h)) (x0 + i) (y0 + j) = p (j * w + i) := by
  obtain ⟨hlt, hmod, hdiv⟩ := pixel_index hi hj
  have := hs.vramRead_written hc hw hh hlt (Nat.le_refl _)
  rwa [hmod, hdiv] at this

end

/-! ### VRAM to VRAM (rules R310, R311) -/

/-- A copy goes through its stages, each pixel as the stage before it holds the source (rule R310). -/
theorem copyStage_writesInOrder (c : Config) (sx sy dx dy w h : Nat) (v : Vram) :
    WritesInOrder c dx dy w h
      (fun k => vramRead c (copyStage c sx sy dx dy w v k) (sx + k % w) (sy + k / w)) (copyStage c sx sy dx dy w v) :=
  fun k hk => copyStage_succ c sx sy dx dy (width_pos_of_lt hk) v k

/-- Where no source pixel is a destination pixel, each destination pixel becomes its source pixel (rule R310). -/
theorem vramRead_copyPixels {c : Config} (hc : 0 < c.vramWidth) {sx sy dx dy w h : Nat} (v : Vram)
    (hw : w ≤ c.vramWidth) (hh : h ≤ c.vramHeight)
    (hd : ∀ x y, inRect c sx sy w h x y → ¬ inRect c dx dy w h x y) {i j : Nat} (hi : i < w) (hj : j < h) :
    vramRead c (copyPixels c sx sy dx dy w h v) (dx + i) (dy + j) = vramRead c v (sx + i) (sy + j) := by
  have hs := copyStage_writesInOrder c sx sy dx dy w h v
  obtain ⟨hlt, hmod, hdiv⟩ := pixel_index hi hj
  calc vramRead c (copyPixels c sx sy dx dy w h v) (dx + i) (dy + j)
      = vramRead c (copyStage c sx sy dx dy w v (j * w + i)) (sx + i) (sy + j) := by
        rw [← copyStage_last, hs.vramRead_last hc hw hh hi hj, hmod, hdiv]
    _ = vramRead c (copyStage c sx sy dx dy w v 0) (sx + i) (sy + j) :=
        hs.vramRead_outside hc (hd _ _ ⟨i, j, hi, hj, rfl, rfl⟩) hlt.le
    _ = vramRead c v (sx + i) (sy + j) := by rw [copyStage_zero]

/-- Settles O19: the stages are `copyStage`, each one pixel write; the rest is `vramRead_copyPixels_outside` and
`vramRead_copyPixels`. -/
theorem vramCopyMovesItsRectangle : Obligations.VramCopyMovesItsRectangle := by
  intro s a b z hc
  refine ⟨fun hbig => if_pos hbig, fun hw hh => ⟨_, if_neg (by omega), fun x y => ?_, ?_, fun hd i j => ?_⟩⟩
  · exact vramRead_copyPixels_outside hc _ _ _ _ _ _ _ x y
  · have hs := copyStage_writesInOrder s.cfg a.x.toNat a.y.toNat b.x.toNat b.y.toNat z.x.toNat z.y.toNat s.gpu.vram
    exact ⟨_, copyStage_zero .., copyStage_last .., fun k hk x y => hs.vramRead_succ hc hk x y⟩
  · exact vramRead_copyPixels hc _ hw hh hd

/-! ### The cursor over a rectangle (rules R302, R320) -/

/-- The cursor after `k` pixels of a transfer. -/
def cursorAfter (p z : Xy) (k : Nat) : Cursor :=
  { cursorAt p z with currX := p.x.toNat + k % z.x.toNat, currY := p.y.toNat + k / z.x.toNat }

/-- The number of pixels of a transfer. -/
def pixelCount (z : Xy) : Nat := z.x.toNat * z.y.toNat

theorem pixelCount_pos {z : Xy} (hx : z.x ≠ 0#16) (hy : z.y ≠ 0#16) : 0 < pixelCount z :=
  Nat.mul_pos (Nat.pos_of_ne_zero fun h => hx (BitVec.eq_of_toNat_eq h))
    (Nat.pos_of_ne_zero fun h => hy (BitVec.eq_of_toNat_eq h))

theorem cursorAfter_zero (p z : Xy) : cursorAfter p z 0 = cursorAt p z := by
  simp [cursorAfter, cursorAt]

/-- The cursor walks the rectangle in row order. -/
theorem cursorNext_cursorAfter (p : Xy) {z : Xy} (hx : 0 < z.x.toNat) (k : Nat) :
    cursorNext (cursorAfter p z k) = cursorAfter p z (k + 1) := by
  have hlt := Nat.mod_lt k hx
  have hdm := Nat.mod_add_div k z.x.toNat
  unfold cursorNext
  by_cases h : k % z.x.toNat + 1 = z.x.toNat
  · obtain ⟨hd, hm⟩ := (Nat.div_mod_unique (a := k + 1) hx).2
      ⟨show 0 + z.x.toNat * (k / z.x.toNat + 1) = k + 1 by rw [Nat.mul_succ]; omega, hx⟩
    rw [if_pos (by simp only [cursorAfter, cursorAt]; omega)]
    simp only [cursorAfter, cursorAt, hd, hm]; rfl
  · obtain ⟨hd, hm⟩ := (Nat.div_mod_unique (a := k + 1) hx).2
      ⟨show k % z.x.toNat + 1 + z.x.toNat * (k / z.x.toNat) = k + 1 by omega, by omega⟩
    rw [if_neg (by simp only [cursorAfter, cursorAt]; omega)]
    simp only [cursorAfter, cursorAt, hd, hm]; rfl

/-- It is past the last row exactly after the last pixel. -/
theorem cursorAfter_done_iff (p : Xy) {z : Xy} {k : Nat} (hx : 0 < z.x.toNat) (hk : k ≤ pixelCount z) :
    (cursorAfter p z k).currY = (cursorAfter p z k).endY ↔ k = pixelCount z := by
  show p.y.toNat + k / z.x.toNat = p.y.toNat + z.y.toNat ↔ k = z.x.toNat * z.y.toNat
  rw [Nat.add_left_cancel_iff]
  constructor
  · intro h
    exact Nat.le_antisymm hk ((Nat.mul_comm _ _).trans_le ((Nat.le_div_iff_mul_le hx).mp h.ge))
  · rintro rfl
    exact Nat.mul_div_cancel_left _ hx

/-- Completion, as it is tested after pixel `k`. -/
theorem cursorNext_cursorAfter_done_iff (p : Xy) {z : Xy} {k : Nat} (hk : k < pixelCount z) :
    (cursorNext (cursorAfter p z k)).currY = (cursorNext (cursorAfter p z k)).endY ↔ k + 1 = pixelCount z := by
  rw [cursorNext_cursorAfter p (width_pos_of_lt hk)]
  exact cursorAfter_done_iff p (width_pos_of_lt hk) hk

/-! ### CPU to VRAM (rules R300, R302) -/

/-- VRAM after the first `k` pixels of an upload whose pixels are `pix`. -/
def uploadStage (c : Config) (p z : Xy) (pix : Nat → Pixel) (v : Vram) (k : Nat) : Vram :=
  repeatFor k (fun k v => vramWrite c v (p.x.toNat + k % z.x.toNat) (p.y.toNat + k / z.x.toNat) (pix k)) v

theorem uploadStage_writesInOrder (c : Config) (p z : Xy) (pix : Nat → Pixel) (v : Vram) :
    WritesInOrder c p.x.toNat p.y.toNat z.x.toNat z.y.toNat pix (uploadStage c p z pix v) := fun _ _ => rfl

/-- The state after the first `k` pixels of an upload begun in `s`: the data phase lasts until the last one. -/
def uploadAfter (p z : Xy) (pix : Nat → Pixel) (s : State) (k : Nat) : State :=
  { s with
    gpu.vram := uploadStage s.cfg p z pix s.gpu.vram k
    gpu.cursor := cursorAfter p z k
    gpu.cmdState := if k = pixelCount z then .idle else .cpuToVramData }

theorem uploadAfter_cmdState_of_lt {p z : Xy} {pix : Nat → Pixel} {s : State} {k : Nat} (hk : k < pixelCount z) :
    (uploadAfter p z pix s k).gpu.cmdState = .cpuToVramData := if_neg hk.ne

theorem exec_gp0CopyCpuVram_uploadAfter (p : Xy) {z : Xy} (hx : z.x ≠ 0#16) (hy : z.y ≠ 0#16) (pix : Nat → Pixel)
    (s : State) : exec (.gp0CopyCpuVram p z) s = .next (uploadAfter p z pix s 0) := by
  rw [uploadAfter, if_neg (pixelCount_pos hx hy).ne, cursorAfter_zero]
  exact execGp0CopyCpuVram_nonzero p hx hy s

/-- A data word brings the upload two pixels on, or to its end. -/
theorem execGp0Data_uploadAfter (p : Xy) {z : Xy} (pix : Nat → Pixel) (s : State) {k : Nat} (hk : k < pixelCount z) :
    execGp0Data (pix k) (pix (k + 1)) (uploadAfter p z pix s k)
      = .next (uploadAfter p z pix s (min (k + 2) (pixelCount z))) := by
  have hx := width_pos_of_lt hk
  have hnext := cursorNext_cursorAfter p hx
  have hdone := cursorNext_cursorAfter_done_iff p hk
  by_cases hlast : k + 1 = pixelCount z
  · rw [execGp0Data_one _ _ (hdone.mpr hlast), show min (k + 2) (pixelCount z) = k + 1 by omega]
    simp only [uploadAfter, hnext, if_pos hlast]
    rfl
  · rw [execGp0Data_two _ _ (uploadAfter_cmdState_of_lt hk) (hdone.not.mpr hlast),
      show min (k + 2) (pixelCount z) = k + 2 by omega]
    simp only [uploadAfter, hnext, cursorAfter_done_iff p hx (show k + 1 + 1 ≤ pixelCount z by omega)]
    rfl

/-- A word in the data phase is a data word (rule R302). -/
theorem hostGp0_data {s : State} (w : Word) (hs : s.gpu.cmdState = .cpuToVramData) :
    hostGp0 w s = execGp0Data (lowHalf w) (highHalf w) s := by
  simp only [hostGp0, gp0Take, hs]
  rfl

/-- Two pixels come in a word, the first in its low half (rule R108). -/
theorem pixelOfWords_pair (ws : List Word) (n : Nat) :
    pixelOfWords ws (2 * n) = lowHalf (ws.getD n 0#32) ∧ pixelOfWords ws (2 * n + 1) = highHalf (ws.getD n 0#32) := by
  have h1 : (2 * n + 1) / 2 = n := by omega
  have h2 : (2 * n + 1) % 2 = 1 := by omega
  simp [pixelOfWords, h1, h2]

/-- The first `n` words bring an upload `2 n` pixels on, or to its end. -/
theorem feed_take_uploadAfter (p : Xy) {z : Xy} (ws : List Word) (s : State) {n : Nat} (hn : n ≤ ws.length)
    (hc : 2 * n ≤ pixelCount z + 1) : feed (ws.take n) (uploadAfter p z (pixelOfWords ws) s 0)
      = .next (uploadAfter p z (pixelOfWords ws) s (min (2 * n) (pixelCount z))) := by
  induction n with
  | zero => rw [Nat.mul_zero, Nat.zero_min]; rfl
  | succ n ih =>
    have hlt : 2 * n < pixelCount z := by omega
    have hpair := pixelOfWords_pair ws n
    rw [List.getD_eq_getElem ws 0#32 hn] at hpair
    calc feed (ws.take (n + 1)) (uploadAfter p z (pixelOfWords ws) s 0)
        = feed [ws[n]] (uploadAfter p z (pixelOfWords ws) s (2 * n)) := by
          rw [List.take_succ_eq_append_getElem hn, feed_append, ih (by omega) (by omega), andThen_next,
            Nat.min_eq_left hlt.le]
      _ = execGp0Data (pixelOfWords ws (2 * n)) (pixelOfWords ws (2 * n + 1))
            (uploadAfter p z (pixelOfWords ws) s (2 * n)) := by
          rw [feed_one, hostGp0_data _ (uploadAfter_cmdState_of_lt hlt), hpair.1, hpair.2]
      _ = _ := execGp0Data_uploadAfter p _ s hlt

/-- Settles O18: the words are fed by `feed_take_uploadAfter`; the VRAM they leave is the upload's last stage. -/
theorem uploadTakesExactlyItsWords : Obligations.UploadTakesExactlyItsWords := by
  intro s p z ws hc _ hx hy hlen
  rw [show z.x.toNat * z.y.toNat = pixelCount z from rfl] at hlen
  have hs := uploadStage_writesInOrder s.cfg p z (pixelOfWords ws) s.gpu.vram
  refine ⟨uploadAfter p z (pixelOfWords ws) s 0, uploadAfter p z (pixelOfWords ws) s (pixelCount z),
    exec_gp0CopyCpuVram_uploadAfter p hx hy _ s, ?_, if_pos rfl, fun n hn => ?_,
    fun hw hh i j => hs.vramRead_last hc hw hh, fun x y hn => hs.vramRead_outside hc hn (Nat.le_refl _),
    rfl, rfl, rfl, rfl⟩
  · have := feed_take_uploadAfter p (z := z) ws s (Nat.le_refl _) (by omega)
    rwa [List.take_length, Nat.min_eq_right (by omega)] at this
  · exact ⟨_, feed_take_uploadAfter p ws s hn.le (by omega), uploadAfter_cmdState_of_lt (by omega)⟩

/-! ### VRAM to CPU (rules R305, R320) -/

/-- The state after the first `k` pixels of a download begun in `s`, with `d` draws made by then. -/
def downloadAfter (p z : Xy) (s : State) (k d : Nat) : State :=
  { s with
    gpu.cursor := cursorAfter p z k
    gpu.readMode := if k = pixelCount z then .normal else .vramRead
    draws := d }

/-- The `k`-th pixel of a download begun in `s`. -/
def downloadPixel (p z : Xy) (s : State) (k : Nat) : Pixel :=
  vramRead s.cfg s.gpu.vram (p.x.toNat + k % z.x.toNat) (p.y.toNat + k / z.x.toNat)

theorem exec_gp0CopyVramCpu_downloadAfter (p : Xy) {z : Xy} (hx : z.x ≠ 0#16) (hy : z.y ≠ 0#16) (s : State) :
    exec (.gp0CopyVramCpu p z) s = .next (downloadAfter p z s 0 s.draws) := by
  rw [downloadAfter, if_neg (pixelCount_pos hx hy).ne, cursorAfter_zero]
  exact execGp0CopyVramCpu_nonzero p hx hy s

theorem downloadAfter_readMode_of_lt {p z : Xy} {s : State} {k d : Nat} (hk : k < pixelCount z) :
    (downloadAfter p z s k d).gpu.readMode = .vramRead := if_neg hk.ne

/-- A GPUREAD brings the download two pixels on, or to its end; its low half is the first of them, and its
high half the second where there is one (rule R320). -/
theorem gpuReadWord_downloadAfter (p : Xy) {z : Xy} (s : State) {k : Nat} (d : Nat) (hk : k < pixelCount z) :
    ∃ (hi : Pixel) (d' : Nat), gpuReadWord (downloadAfter p z s k d)
        = ((hi ++ downloadPixel p z s k : BitVec (16 + 16)), downloadAfter p z s (min (k + 2) (pixelCount z)) d')
      ∧ (k + 1 < pixelCount z → hi = downloadPixel p z s (k + 1)) := by
  have hx := width_pos_of_lt hk
  have hnext := cursorNext_cursorAfter p hx
  have hdone := cursorNext_cursorAfter_done_iff p hk
  by_cases hlast : k + 1 = pixelCount z
  · refine ⟨Config.any16 d, d + 1, ?_, fun h => absurd hlast h.ne⟩
    rw [gpuReadWord_last (downloadAfter_readMode_of_lt hk) (hdone.mpr hlast),
      show min (k + 2) (pixelCount z) = k + 1 by omega]
    simp only [downloadAfter, hnext, if_pos hlast]
    rfl
  · refine ⟨downloadPixel p z s (k + 1), d, ?_, fun _ => rfl⟩
    rw [gpuReadWord_two (downloadAfter_readMode_of_lt hk) (hdone.not.mpr hlast),
      show min (k + 2) (pixelCount z) = k + 2 by omega]
    simp only [downloadAfter, hnext, cursorAfter_done_iff p hx (show k + 1 + 1 ≤ pixelCount z by omega)]
    rfl

theorem lowHalf_append (hi lo : Pixel) : lowHalf (hi ++ lo : BitVec (16 + 16)) = lo := by
  unfold lowHalf
  rw [extract_append_low _ _ _ _ (by decide), extract_all]

theorem highHalf_append (hi lo : Pixel) : highHalf (hi ++ lo : BitVec (16 + 16)) = hi := by
  unfold highHalf
  rw [extract_append_high _ _ _ _ (by decide), extract_all]

/-- A word in front moves every pixel on by two (rule R108). -/
theorem pixelOfWords_cons_add_two (w : Word) (ws : List Word) (m : Nat) :
    pixelOfWords (w :: ws) (m + 2) = pixelOfWords ws m := by
  simp [pixelOfWords]

/-- `n` GPUREADs from pixel `k` of a download on: the pixels that are left, in order, and the state `2 n` pixels on or
at the end. -/
theorem gpuReads_downloadAfter (p : Xy) {z : Xy} (s : State) (n : Nat) {k : Nat} (d : Nat)
    (hk : k + 2 * n ≤ pixelCount z + 1) (hle : k ≤ pixelCount z) :
    (∃ d', (gpuReads n (downloadAfter p z s k d)).2 = downloadAfter p z s (min (k + 2 * n) (pixelCount z)) d')
      ∧ ∀ m, m < 2 * n → k + m < pixelCount z →
          pixelOfWords (gpuReads n (downloadAfter p z s k d)).1 m = downloadPixel p z s (k + m) := by
  induction n generalizing k d with
  | zero => exact ⟨⟨d, by rw [Nat.mul_zero, Nat.add_zero, Nat.min_eq_left hle]; rfl⟩, fun m hm => absurd hm (by omega)⟩
  | succ n ih =>
    obtain ⟨hi, d', hword, hhi⟩ := gpuReadWord_downloadAfter p s d (show k < pixelCount z by omega)
    obtain ⟨hstate, hpixels⟩ := ih d' (k := min (k + 2) (pixelCount z)) (by omega) (by omega)
    rw [gpuReads_succ, hword]
    refine ⟨?_, fun m hm hkm => ?_⟩
    · rwa [show min (min (k + 2) (pixelCount z) + 2 * n) (pixelCount z) = min (k + 2 * (n + 1)) (pixelCount z) by
        omega] at hstate
    · match m with
      | 0 => exact lowHalf_append _ _
      | 1 => exact (highHalf_append _ _).trans (hhi hkm)
      | m + 2 =>
        rw [pixelOfWords_cons_add_two, hpixels m (by omega) (by omega)]
        exact congrArg _ (by omega)

/-- Settles O21: the words and the state are those of `gpuReads_downloadAfter`, from the first pixel on. -/
theorem downloadReadsExactlyItsWords : Obligations.DownloadReadsExactlyItsWords := by
  intro s p z hx hy n
  have hn : n = (pixelCount z + 1) / 2 := rfl
  have hreads := fun m (hm : m ≤ n) => gpuReads_downloadAfter p (z := z) s m s.draws (k := 0) (by omega) (Nat.zero_le _)
  obtain ⟨⟨d, hstate⟩, hpixels⟩ := hreads n (Nat.le_refl n)
  rw [Nat.min_eq_right (by omega)] at hstate
  refine ⟨downloadAfter p z s 0 s.draws, exec_gp0CopyVramCpu_downloadAfter p hx hy s, ?_, fun m hm => ?_,
    fun i j hi hj => ?_, ?_, gpuReads_length n _⟩
  · rw [hstate]
    exact if_pos rfl
  · obtain ⟨⟨d', hm'⟩, -⟩ := hreads m hm.le
    rw [hm']
    exact downloadAfter_readMode_of_lt (by omega)
  · obtain ⟨hlt, hmod, hdiv⟩ := pixel_index hi hj
    replace hlt : j * z.x.toNat + i < pixelCount z := hlt
    rw [hpixels _ (by omega) (by omega), downloadPixel, Nat.zero_add, hmod, hdiv]
  · rw [hstate]
    rfl

end Sys2Proof.Machine
end

section
/-! PROOFS. The family of GP1, GPUSTAT and the GPU step: what each GP1 command writes (O22, O23), what an info query
latches (O24), which words are unrecognized (O25), the bits of GPUSTAT (O26), and the timing and the trigger of a GPU
step (O27). -/
namespace Sys2Proof.Machine

/-! ### Timing (rule R370) -/

theorem oddOf_eq (g : Gpu) : oddOf g
    = decide ((if g.dispMode.getLsbD 2 ∧ g.dispMode.getLsbD 5 then g.frame else g.line) % 2 = 1) := by
  simp only [oddOf, vres, interlace, Bool.and_eq_true]
  split <;> rfl

/-- New lines either end the frame or add up, and then set the parity from the frame or the line they leave. -/
theorem advanceLines_cases (c : Config) (n : Nat) (g : Gpu) : ∃ line frame odd,
    let ended := c.linesPerFrame ≤ g.line + n
    advanceLines c n g = (decide ended, { g with line := line, frame := frame, odd := odd })
      ∧ (ended → line = 0 ∧ frame = g.frame + 1)
      ∧ (¬ ended → line = g.line + n ∧ frame = g.frame)
      ∧ odd = decide ((if g.dispMode.getLsbD 2 ∧ g.dispMode.getLsbD 5 then frame else line) % 2 = 1) := by
  unfold advanceLines
  dsimp only
  by_cases h : c.linesPerFrame ≤ g.line + n
  · rw [decide_eq_true h]
    exact ⟨_, _, _, rfl, fun _ => ⟨rfl, rfl⟩, fun hn => absurd h hn, oddOf_eq _⟩
  · rw [decide_eq_false h]
    exact ⟨_, _, _, rfl, fun hn => absurd hn h, fun _ => ⟨rfl, rfl⟩, oddOf_eq _⟩

/-- A step moves the dot accumulator on, and the rest of the timing only where that makes a new line. -/
theorem advanceTiming_cases (c : Config) (cycles : Nat) (g : Gpu) : ∃ line frame odd,
    let n := (g.dotAccum + cycles) / c.gpuCyclesPerLine
    let ended := 0 < n ∧ c.linesPerFrame ≤ g.line + n
    advanceTiming c cycles g = (decide ended, { g with
        dotAccum := (g.dotAccum + cycles) % c.gpuCyclesPerLine, line := line, frame := frame, odd := odd })
      ∧ (n = 0 → line = g.line ∧ frame = g.frame ∧ odd = g.odd)
      ∧ (ended → line = 0 ∧ frame = g.frame + 1)
      ∧ (0 < n → ¬ ended → line = g.line + n ∧ frame = g.frame)
      ∧ (0 < n → odd
          = decide ((if g.dispMode.getLsbD 2 ∧ g.dispMode.getLsbD 5 then frame else line) % 2 = 1)) := by
  unfold advanceTiming
  dsimp only
  generalize (g.dotAccum + cycles) / c.gpuCyclesPerLine = n
  split
  next h0 =>
    subst h0
    exact ⟨g.line, g.frame, g.odd, rfl, fun _ => ⟨rfl, rfl, rfl⟩, nofun, nofun, nofun⟩
  next h0 =>
    simp only [h0, Nat.pos_of_ne_zero h0, true_and, false_implies, true_implies]
    exact advanceLines_cases c n { g with dotAccum := (g.dotAccum + cycles) % c.gpuCyclesPerLine }

/-! ### The GPU step (rules R370, R371) -/

/-- One trigger, and the mark set, exactly when a request is due (rule R371). -/
theorem signalGpu_cases (s : State) : ∃ marked es,
    let due := s.cfg.gpuIrqSignals = true ∧ s.gpu.irq = true ∧ s.gpu.irqSignalled = false
    signalGpu s = { s with gpu.irqSignalled := marked, out := s.out ++ es }
      ∧ (due → es = [.trigger .gpu] ∧ marked = true) ∧ (¬ due → es = [] ∧ marked = s.gpu.irqSignalled) := by
  have hguard : (s.cfg.gpuIrqSignals && (s.gpu.irq && !s.gpu.irqSignalled)) = true
      ↔ s.cfg.gpuIrqSignals = true ∧ s.gpu.irq = true ∧ s.gpu.irqSignalled = false := by simp
  unfold signalGpu
  split
  next h => exact ⟨true, [.trigger .gpu], rfl, fun _ => ⟨rfl, rfl⟩, fun hn => absurd (hguard.mp h) hn⟩
  next h => exact ⟨_, [], by simp, fun hd => absurd (hguard.mpr hd) h, fun _ => ⟨rfl, rfl⟩⟩

/-- Settles O27: the timing advances first, which leaves the request and its mark alone, and then the step signals. -/
theorem gpuStepAdvancesTimingAndSignals : Obligations.GpuStepAdvancesTimingAndSignals := by
  intro s cycles total n ended due
  obtain ⟨line, frame, odd, htiming, hsame, hended, hlines, hodd⟩ := advanceTiming_cases s.cfg cycles s.gpu
  obtain ⟨marked, es, hsignal, hdue, hnot⟩ := signalGpu_cases { s with gpu := (advanceTiming s.cfg cycles s.gpu).2 }
  rw [htiming] at hsignal hdue hnot
  have hstep : gpuStep cycles s = { s with
      gpu := { s.gpu with
        dotAccum := total % s.cfg.gpuCyclesPerLine, line := line, frame := frame, odd := odd, irqSignalled := marked }
      out := s.out ++ es ++ [.vblank (decide ended)] } := by
    simp only [gpuStep, htiming, hsignal]
    rfl
  exact ⟨_, es, congrArg _ hstep, hdue, hnot, rfl, hsame, hended, hlines, hodd, rfl⟩

/-! ### The GP1 commands (rules R341 to R350) -/

/-- Settles O22: each meaning is the one update written out; the vertical range's is chosen by the parameter. -/
theorem gp1CommandsWriteTheirRegisters : Obligations.Gp1CommandsWriteTheirRegisters :=
  fun _ => ⟨rfl, rfl, fun _ => rfl, fun _ => rfl, fun _ _ => rfl, fun _ _ => rfl,
    fun _ _ hq => if_neg (Bool.eq_false_iff.mp hq), fun _ _ hq => if_pos hq, fun _ => rfl, fun _ => rfl⟩

/-- Settles O23: the registers the meaning writes are those the statement does not keep, with their power-on values. -/
theorem gp1ResetRestoresTheDefaults : Obligations.Gp1ResetRestoresTheDefaults := fun _ => rfl

/-! ### The info query (rule R351) -/

theorem toNat_append_eq_add {m n : Nat} (hi : BitVec m) (lo : BitVec n) :
    (hi ++ lo).toNat = lo.toNat + hi.toNat * 2 ^ n := by
  rw [BitVec.toNat_append, ← Nat.shiftLeft_add_eq_or_of_lt lo.isLt, Nat.shiftLeft_eq, Nat.add_comm]

/-- Two fields of a latched word, the bits above them 0. -/
theorem toNat_twoFields {k m n : Nat} (hi : BitVec m) (lo : BitVec n) :
    (0#k ++ (hi ++ lo)).toNat = lo.toNat + hi.toNat * 2 ^ n := by
  rw [toNat_append_eq_add, toNat_append_eq_add, BitVec.toNat_ofNat, Nat.zero_mod, Nat.zero_mul, Nat.add_zero]

theorem toNat_texWindowWord (t : TexWindow) :
    (0#12 ++ ((t.offsetY ++ t.offsetX) ++ (t.maskY ++ t.maskX)) : BitVec (12 + ((5 + 5) + (5 + 5)))).toNat
      = t.maskX.toNat + t.maskY.toNat * 2 ^ 5 + t.offsetX.toNat * 2 ^ 10 + t.offsetY.toNat * 2 ^ 15 := by
  rw [toNat_twoFields, toNat_append_eq_add, toNat_append_eq_add]
  omega

/-- The indices that select nothing. -/
theorem gpuInfo_eq_none {k : BitVec 4} (h : k = 0#4 ∨ k = 1#4 ∨ k = 6#4 ∨ 9 ≤ k.toNat) (g : Gpu) :
    gpuInfo g k = none := by
  simp only [BitVec.toNat_eq, BitVec.toNat_ofNat, Nat.reducePow, Nat.reduceMod] at h
  unfold gpuInfo
  split
  case h_7 => rfl
  all_goals omega

/-- Settles O24: the latch takes `gpuInfo`, a packed register in fields; where that is none it stays. -/
theorem gpuInfoLatchesByIndex : Obligations.GpuInfoLatchesByIndex := by
  intro s k
  refine ⟨(gpuInfo s.gpu k).getD s.gpu.gpuReadLatch, rfl, ?_, ?_, ?_, ?_, ?_, ?_, fun h => ?_⟩
  · rintro rfl
    exact toNat_texWindowWord _
  · rintro rfl
    exact toNat_twoFields _ _
  · rintro rfl
    exact toNat_twoFields _ _
  · rintro rfl
    exact toNat_twoFields _ _
  · rintro rfl
    rfl
  · rintro rfl
    rfl
  · rw [gpuInfo_eq_none h, Option.getD_none]

/-! ### The unrecognized command (rules R352, R602) -/

theorem gp1Of_eq_unrecognized_iff (w : Word) : gp1Of w = .gp1Unrecognized w ↔ gp1Unknown w = true := by
  refine ⟨fun h => ?_, gp1Of_of_unknown⟩
  have hwf := wf_gp1Of Config.default w
  rwa [h] at hwf

theorem gp1Unknown_iff (w : Word) : gp1Unknown w = true
    ↔ (0x0A ≤ (byte3 w).toNat ∧ (byte3 w).toNat ≤ 0x0F) ∨ 0x20 ≤ (byte3 w).toNat := by
  simp only [gp1Unknown, Bool.or_eq_true, Bool.and_eq_true, decide_eq_true_eq]
  omega

/-- Settles O25: the decoder names no row for exactly the unknown command bytes, and the parameter decides the rest. -/
theorem unknownGp1FaultsWithoutEffect : Obligations.UnknownGp1FaultsWithoutEffect :=
  fun _ w => ⟨(gp1Of_eq_unrecognized_iff w).trans (gp1Unknown_iff w), fun h => if_neg (Bool.eq_false_iff.mp h),
    fun h => if_pos h⟩

/-! ### GPUSTAT (rule R360) -/

/-- What a GPUSTAT read sends the host. -/
theorem transact_readGpustat {s : State} (hb : s.readBuf = []) : transact (.read .gpu 4 .w32) s
    = .next { s with readBuf := bytesOfWord (gpustat s.gpu), out := s.out ++ [.returned .w32 (gpustat s.gpu)] } := by
  have hret : returnBytes (bytesOfWord (gpustat s.gpu)) s = { s with readBuf := bytesOfWord (gpustat s.gpu) } := by
    rw [returnBytes, hb, List.nil_append]
  have hret : returnBytes (bytesOfWord (gpustat s.gpu)) s = { s with readBuf := bytesOfWord (gpustat s.gpu) } := by
    rw [returnBytes, hb, List.nil_append]
  calc transact (.read .gpu 4 .w32) s
      = .next (finishRead .w32 (returnBytes (bytesOfWord (gpustat s.gpu)) s)) := rfl
    _ = .next { s with
          readBuf := bytesOfWord (gpustat s.gpu), out := s.out ++ [.returned .w32 (gpustat s.gpu)] } := by
      rw [hret, finishRead, wordOfBytesLE_bytesOfWord]
      rfl

/-- Bit 25 by direction: bit 28 is always 1, bit 27 is `vramReadReady`. -/
theorem dataRequest_eq (g : Gpu) : dataRequest g = if g.dmaDirection = 0#2 then false
    else if g.dmaDirection = 1#2 then true else if g.dmaDirection = 2#2 then true else vramReadReady g := by
  have hdir : ∀ d : BitVec 2, d = 0#2 ∨ d = 1#2 ∨ d = 2#2 ∨ d = 3#2 := by decide
  obtain h | h | h | h := hdir g.dmaDirection <;> simp [dataRequest, h]

theorem vramReadReady_eq (g : Gpu) : vramReadReady g = decide (g.readMode = .vramRead) := rfl

theorem getLsbD_ofBool_zero (b : Bool) : (BitVec.ofBool b).getLsbD 0 = b := by cases b <;> rfl

theorem getLsbD_one_zero : (1#1).getLsbD 0 = true := rfl

/-- GPUSTAT after GP1 0x00: only the parity is kept, for `drawMode` masks the texture bit. -/
theorem gpustat_gp1Reset {s : State} (h : s.gpu.odd = false) :
    ∃ t, exec .gp1Reset s = .next t ∧ gpustat t.gpu = 0x14802000#32 := by
  refine ⟨_, gp1ResetRestoresTheDefaults s, ?_⟩
  simp only [gpustat, Gpu.powerOn, h, BitVec.getLsbD_zero, Bool.false_and, dataRequest, vramReadReady, interlace,
    colorDepth, videoMode, vres, hres1, hres2, reverse]
  decide

/-- Settles O26: each bit is that of the part of the concatenation it falls in, and bit 25 goes by the
direction. -/
theorem gpustatBits : Obligations.GpustatBits := by
  intro s w g bytes
  refine ⟨rfl, transact_readGpustat, fun i hi => ?_, ?_⟩
  · simp (disch := omega) only [w, g, gpustat, getLsbD_append_low, BitVec.getLsbD_extractLsb', hi, decide_true,
      Bool.true_and, Nat.zero_add]
  · simp only [← and_assoc]
    refine ⟨?_, gpustat_gp1Reset⟩
    simp (disch := decide) only [w, gpustat, getLsbD_append_low, getLsbD_append_high, Bool.if_true_right,
      Bool.decide_eq_true]
    simp only [g, Nat.reduceAdd, Nat.reduceSub, Nat.reduceLT, getLsbD_ofBool_zero, getLsbD_one_zero, dataRequest_eq,
      vramReadReady_eq, reverse, hres2, hres1, vres, videoMode, colorDepth, interlace, BitVec.getLsbD_extractLsb',
      Bool.if_true_left, Bool.decide_eq_false, decide_true, Bool.true_and, and_self]

end Sys2Proof.Machine
end

section
/-! PROOFS. The family of the DMA engine: a GP0 word from either side (O7), the starts of a transfer (O31) and its
completion (O32), the transfers of channels 6, 3 and 2 (O33 to O37), the acknowledgement of completion flags (O29), the
DMA step (O38) and the triggers of a run (O39). -/
namespace Sys2Proof.Machine

/-! ### A GP0 word (rules R422, R600) -/

/-- Settles O7: the frame of a GP0 word, field by field. -/
theorem gp0WordsCompleteWithinTheGpu : Obligations.Gp0WordsCompleteWithinTheGpu := by
  intro s w
  obtain ⟨t, ht, f⟩ := gp0Word_next w s
  have hhost : gp0Word w s = transact (.write .gpu 0 .w32 w) s := (hostGp0_eq_gp0Word w s).symm
  exact ⟨hhost, t, hhost ▸ ht, f.dma, f.cd, f.cfg, fun a => by rw [f.ram], f.draws, f.readBuf, f.script,
    f.gpuReadLatch, f.irqSignalled, f.displayDisable, f.dmaDirection, f.displayAreaX, f.displayAreaY, f.hRangeX1,
    f.hRangeX2, f.vRangeY1, f.vRangeY2, f.dispMode, f.texDisableAllowed, f.dotAccum, f.line, f.frame, f.odd⟩

/-! ### The start of a transfer (rules R420, R427) -/

theorem channel_chcrStored (n : Fin 7) (d : Byte) (s : State) : channel (chcrStored n d s) n
    = { channel s n with chcr := setWordByte (channel s n).chcr 3 d } := channel_setChannel_same s n _

/-- A write of CHCR byte 3 stores the byte and tests the start condition. -/
theorem exec_dmaChcrWrite_three (n : Fin 7) (d : Byte) (s : State) :
    exec (.dmaChcrWrite n 3 d) s = dmaStart n (chcrStored n d s) := rfl

/-- A start that rules R420 and R427 let run is its transfer and then its completion. -/
theorem exec_dmaChcrWrite_of_transferRuns {n : Fin 7} {d : Byte} {s : State} (h : transferRuns n d s) :
    exec (.dmaChcrWrite n 3 d) s
      = andThen (dmaTransfer n (chcrStored n d s)) fun t => .next (dmaFinish n t) := by
  obtain ⟨hstarts, hsync, hrefused⟩ := h
  rw [exec_dmaChcrWrite_three]
  exact (if_pos hstarts).trans ((if_neg hsync).trans (if_neg (by rw [hrefused]; decide)))

/-- The combinations rule R427 refuses, where the sync mode is not the reserved one. -/
theorem dmaRefused_iff {n : Fin 7} {c : Word} (h3 : chcrSync c ≠ 3#2) : dmaRefused n c = true ↔
    (n = 2 ∧ chcrSync c = 2#2 ∧ chcrFromRam c = false) ∨ (n = 3 ∧ (chcrFromRam c = true ∨ chcrSync c = 2#2))
      ∨ (n = 6 ∧ (chcrFromRam c = true ∨ chcrSync c = 1#2 ∨ chcrSync c = 2#2)) := by
  have hmodes : ∀ m : BitVec 2, m ≠ 3#2 → (m ≠ 0#2 ↔ m = 1#2 ∨ m = 2#2) := by decide
  fin_cases n <;> simp [dmaRefused, ← hmodes _ h3]

/-- Settles O31: the start condition and the refused combinations, in bits of the byte stored. -/
theorem chcrByte3StartRules : Obligations.ChcrByte3StartRules := by
  intro s n d c dir sync starts refused
  have hsync (m : BitVec 2) : sync = m.toNat ↔ chcrSync c = m := BitVec.toNat_inj
  have hsync0 : sync = 0 ↔ chcrSync c = 0#2 := hsync 0#2
  have hsync1 : sync = 1 ↔ chcrSync c = 1#2 := hsync 1#2
  have hsync2 : sync = 2 ↔ chcrSync c = 2#2 := hsync 2#2
  have hsync3 : sync = 3 ↔ chcrSync c = 3#2 := hsync 3#2
  have hdir : dir = bitNat (chcrFromRam c) := rfl
  have hstarts : starts ↔ dmaStarts s.cfg s.dma.dpcr n c = true := by
    rw [dmaStarts_iff]
    exact and_congr_right fun _ => and_congr_left fun _ => or_congr_left hsync0.not
  have hrefused (h3 : sync ≠ 3) : refused ↔ dmaRefused n c = true := by
    rw [dmaRefused_iff (hsync3.not.mp h3), ← hsync1, ← hsync2]
    cases hd : chcrFromRam c <;> simp [refused, hdir, hd, bitNat]
  rw [exec_dmaChcrWrite_three]
  refine ⟨fun h => if_neg (hstarts.not.mp h), fun h h3 => ?_, fun h h3 hr => ?_, fun h h3 hr => ?_⟩
  · exact (if_pos (hstarts.mp h)).trans (if_pos (hsync3.mp h3))
  · exact (if_pos (hstarts.mp h)).trans ((if_neg (hsync3.not.mp h3)).trans (if_pos ((hrefused h3).mp hr)))
  · exact ⟨hstarts.mp h, hsync3.not.mp h3, Bool.eq_false_iff.mpr ((hrefused h3).not.mp hr)⟩

/-! ### Completion (rule R430) -/

/-- Bits 24 and 28 are cleared. -/
theorem getLsbD_chcrDone (c : Word) {i : Nat} (hi : i < 32) :
    (chcrDone c).getLsbD i = if i = 24 ∨ i = 28 then false else c.getLsbD i := by
  have hmask : ∀ i, i < 32 → (0xEEFFFFFF#32).getLsbD i = !decide (i = 24 ∨ i = 28) := by decide
  rw [chcrDone, BitVec.getLsbD_and, hmask i hi]
  by_cases h : i = 24 ∨ i = 28 <;> simp [h]

/-- The flag of an enabled channel is set. -/
theorem getLsbD_dicrComplete (r : Word) (n : Nat) {i : Nat} (hi : i < 32) : (dicrComplete r n).getLsbD i
    = if i = 24 + n ∧ r.getLsbD (16 + n) = true then true else r.getLsbD i := by
  unfold dicrComplete
  split
  next h =>
    rw [BitVec.getLsbD_or, ← BitVec.twoPow_eq, BitVec.getLsbD_twoPow]
    by_cases hn : i = 24 + n
    · simp [h, hn, hn ▸ hi]
    · simp [hn, Ne.symm hn]
  next h => simp [h]

/-- Settles O32: the generic channels move nothing, and completion is two register updates. -/
theorem completionReportsToDicr : Obligations.CompletionReportsToDicr := by
  intro s n
  refine ⟨fun d hn h => ?_, _, _, rfl, fun i hi => getLsbD_chcrDone _ hi, fun i hi => getLsbD_dicrComplete _ _ hi⟩
  rw [exec_dmaChcrWrite_of_transferRuns h]
  rcases hn with rfl | rfl | rfl | rfl <;> rfl

/-! ### Words stored over a transfer (rule R421) -/

/-- What storing the words of a transfer leaves in RAM: each word in its place, where the transfer fits, and no other
byte changed. -/
theorem storeWords_transfer {c : Config} (h : c.accepts = true) (v : Word) {delta : Int} (hd : delta = 4 ∨ delta = -4)
    {ws : List Word} {n : Nat} (hn : ws.length = n) (m : Memory) :
    (4 * n ≤ c.ramSize → ∀ i, i < n →
        memRead (storeWords c (ramAddr c v) delta ws 0 m) (wordAddr c (ramAddr c v) delta i) = ws.getD i 0#32)
      ∧ ∀ a, ¬ inTransfer c (ramAddr c v) delta n a →
        memByte (storeWords c (ramAddr c v) delta ws 0 m) a = memByte m a := by
  subst hn
  refine ⟨fun hfit i hi => ?_, fun a ha => ?_⟩
  · have := memRead_storeWords h (ramAddr_mod c v) hd ws 0 m hfit (by omega) i hi
    rwa [Nat.zero_add] at this
  · exact memByte_storeWords_outside _ _ ws 0 m a fun j _ hj hin => ha ⟨j, by omega, hin⟩

/-! ### Ordering-table clear (rule R425) -/

theorem clearWords_getD (c : Config) (base n i : Nat) {j : Nat} (hj : j < n) : (clearWords c base n i).getD j 0#32
    = if j + 1 = n then 0x00FFFFFF#32 else BitVec.ofNat 32 (wordAddr c base (-4) (i + j + 1)) := by
  induction n generalizing i j with
  | zero => omega
  | succ n ih =>
    cases j with
    | zero => simp [clearWords]
    | succ j =>
      rw [clearWords, List.getD_cons_succ, ih (i + 1) (by omega)]
      simp only [Nat.add_right_cancel_iff, show i + 1 + j + 1 = i + (j + 1) + 1 by omega]

/-- Settles O33: channel 6 starts in sync mode 0 only, and the table's words are stored from its base down. -/
theorem orderingTableClearLinksDownward : Obligations.OrderingTableClearLinksDownward := by
  intro s d hc hruns base count
  have hsync : chcrSync (channel (chcrStored 6 d s) 6).chcr = 0#2 := by
    obtain ⟨-, -, hrefused⟩ := hruns
    exact bne_eq_false_iff_eq.mp (Bool.or_eq_false_iff.mp hrefused).2
  have hcount : dmaCount (channel (chcrStored 6 d s) 6) = count := by
    rw [dmaCount, if_pos hsync, channel_chcrStored]
    rfl
  have hbase : ramAddr s.cfg (channel (chcrStored 6 d s) 6).madr = base := by rw [channel_chcrStored]
  have hstore : clearTable s.cfg count base s.ram
      = storeWords s.cfg base (-4) (clearWords s.cfg base count 0) 0 s.ram := by
    rw [← clearTable_eq hc, wordAddr_zero (ramAddr_lt hc _)]
  obtain ⟨hwords, houtside⟩ :=
    storeWords_transfer hc (channel s 6).madr (.inr rfl) (clearWords_length s.cfg base count 0) s.ram
  refine ⟨_, ?_, fun hfit i hi => ?_, houtside⟩
  · rw [exec_dmaChcrWrite_of_transferRuns hruns]
    show Host.Outcome.next (dmaFinish 6 { chcrStored 6 d s with ram := clearTable s.cfg _ (ramAddr s.cfg _) s.ram }) = _
    rw [hcount, hbase, hstore]
  · rw [hwords hfit i hi, clearWords_getD _ _ _ _ hi, Nat.zero_add]

/-! ### CDROM to RAM (rule R424) -/

/-- Settles O34: the words popped are stored in order, and their bytes are the FIFO's. -/
theorem cdromTransferMovesTheDataFifo : Obligations.CdromTransferMovesTheDataFifo := by
  intro s d hc hruns ch base c nz size count delta
  have hd : delta = 4 ∨ delta = -4 := dmaDelta_cases c
  obtain ⟨ws, draws, hlen, hbytes, hreceive⟩ :=
    cdReceive_eq (s := chcrStored 3 d s) (delta := delta) (n := count) (base := base) hc 0 rfl
  rw [wordAddr_zero (ramAddr_lt hc _)] at hreceive
  obtain ⟨hwords, houtside⟩ := storeWords_transfer hc ch.madr hd hlen s.ram
  refine ⟨_, draws, ?_, fun hfit i b x hi hb hx => ?_, houtside⟩
  · rw [exec_dmaChcrWrite_of_transferRuns hruns]
    exact congrArg (fun t => Host.Outcome.next (dmaFinish 3 t)) hreceive
  · rw [← wordByte_memRead _ _ _ hb, hwords hfit i hi]
    exact hbytes i b x hi hb hx

/-! ### Channel 2: the GPU (rules R422, R423, R428) -/

/-- A transfer that sends words completes where its words do. -/
theorem exec_dmaChcrWrite_gpu_feed {d : Byte} {s t : State} {ws : List Word} (hruns : transferRuns 2 d s)
    (htransfer : dmaGpu (channel (chcrStored 2 d s) 2) (chcrStored 2 d s) = feed ws (chcrStored 2 d s))
    (ht : feed ws (chcrStored 2 d s) = .next t) : exec (.dmaChcrWrite 2 3 d) s = .next (dmaFinish 2 t) := by
  rw [exec_dmaChcrWrite_of_transferRuns hruns]
  show andThen (dmaGpu (channel (chcrStored 2 d s) 2) (chcrStored 2 d s)) _ = _
  rw [htransfer, ht, andThen_next]

/-- Settles O35: the transfer feeds the words of RAM, which GP0 words leave alone. -/
theorem gpuSendIsAFeedOfRamWords : Obligations.GpuSendIsAFeedOfRamWords := by
  intro s d hc hruns ch c nz size count delta hsync hdir ws
  obtain ⟨t, ht, f⟩ := feed_next ws (chcrStored 2 d s)
  have hsend : gpuSend delta count (ramAddr s.cfg ch.madr) (chcrStored 2 d s) = feed ws (chcrStored 2 d s) := by
    have h := gpuSend_eq (s := chcrStored 2 d s) hc (ramAddr s.cfg ch.madr) delta (n := count) 0 rfl
    rwa [wordAddr_zero (ramAddr_lt hc _), ← List.range_eq_range'] at h
  have htransfer : dmaGpu ch (chcrStored 2 d s) = feed ws (chcrStored 2 d s) :=
    (if_neg hsync).trans ((if_pos hdir).trans hsend)
  exact ⟨t, ht, exec_dmaChcrWrite_gpu_feed hruns htransfer ht, f.ram⟩

/-- Settles O36: sync mode 2 is refused in this direction; the words read are stored in order. -/
theorem gpuReceiveStoresGpureads : Obligations.GpuReceiveStoresGpureads := by
  intro s d hc hruns ch c nz size count delta hdir base r
  have hsync : chcrSync c ≠ 2#2 := fun h => by
    have hr : dmaRefused 2 c = true := (dmaRefused_iff hruns.2.1).mpr (.inl ⟨rfl, h, hdir⟩)
    rw [hruns.2.2] at hr
    cases hr
  have hd : delta = 4 ∨ delta = -4 := dmaDelta_cases c
  have hreceive : gpuReceive delta count base (chcrStored 2 d s)
      = { r.2 with ram := storeWords s.cfg base delta r.1 0 s.ram } := by
    have h := gpuReceive_eq (s := chcrStored 2 d s) (delta := delta) (n := count) (base := base) hc 0 rfl
    rwa [wordAddr_zero (ramAddr_lt hc _)] at h
  have htransfer : dmaGpu ch (chcrStored 2 d s) = .next (gpuReceive delta count base (chcrStored 2 d s)) :=
    (if_neg hsync).trans (if_neg (by rw [chcrFromRam, hdir]; decide))
  obtain ⟨hwords, houtside⟩ := storeWords_transfer hc ch.madr hd (gpuReads_length count (chcrStored 2 d s)) s.ram
  refine ⟨_, ?_, hwords, houtside⟩
  rw [exec_dmaChcrWrite_of_transferRuns hruns]
  show andThen (dmaGpu ch (chcrStored 2 d s)) _ = _
  rw [htransfer, hreceive, andThen_next]

theorem listSend_of_ends {nodes addr : Nat} {s : State} {ws : List Word}
    (h : listWords s.cfg s.ram nodes addr = some ws) : listSend nodes addr s = feed ws s := by
  rw [listSend_eq, h]

theorem listSend_of_exceeds {nodes addr : Nat} {s t : State} (h : listWords s.cfg s.ram nodes addr = none)
    (ht : feed (listPrefix s.cfg s.ram nodes addr) s = .next t) :
    listSend nodes addr s = .fault (.dmaLinkedListBound (listHeader s.cfg s.ram nodes addr) t) := by
  rw [listSend_eq, h]
  simp only [ht, andThen_next]

/-- Settles O37: a list that ends is its words fed; one that does not is its first nodes' words fed, and the fault. -/
theorem linkedListSendsItsNodes : Obligations.LinkedListSendsItsNodes := by
  intro s d hruns ch hsync base nodes
  have htransfer : dmaGpu ch (chcrStored 2 d s) = listSend nodes base (chcrStored 2 d s) := if_pos hsync
  cases hlist : listWords s.cfg s.ram nodes base with
  | some ws =>
    obtain ⟨t, ht, f⟩ := feed_next ws (chcrStored 2 d s)
    exact ⟨t, ht, exec_dmaChcrWrite_gpu_feed hruns (htransfer.trans (listSend_of_ends hlist)) ht, f.ram⟩
  | none =>
    obtain ⟨t, ht, f⟩ := feed_next (listPrefix s.cfg s.ram nodes base) (chcrStored 2 d s)
    have hfault := htransfer.trans (listSend_of_exceeds hlist ht)
    refine ⟨t, ht, ?_, f.ram⟩
    rw [exec_dmaChcrWrite_of_transferRuns hruns]
    exact congrArg (fun o => andThen o fun t => .next (dmaFinish 2 t)) hfault

/-! ### The acknowledgement (rule R412) -/

/-- Settles O29: the address decodes to the acknowledgement, which is `dicrAck`. -/
theorem dicrAckClearsWrittenOnes : Obligations.DicrAckClearsWrittenOnes :=
  fun s d => ⟨rfl, dicrAck s.dma.dicr d, rfl, fun _ hi => getLsbD_dicrAck _ d hi⟩

/-! ### The DMA step (rule R440) -/

theorem masterCondition_iff (r : Word) : masterCondition r = true ↔ r.getLsbD 15 = true
    ∨ (r.getLsbD 23 = true ∧ ∃ i, i < 7 ∧ r.getLsbD (16 + i) = true ∧ r.getLsbD (24 + i) = true) := by
  have hany : dicrEnabled r &&& dicrCompleted r ≠ 0#7
      ↔ ∃ i, i < 7 ∧ r.getLsbD (16 + i) = true ∧ r.getLsbD (24 + i) = true := by
    rw [Ne, BitVec.eq_of_getLsbD_eq_iff]
    simp only [dicrEnabled, dicrCompleted, BitVec.getLsbD_and, BitVec.getLsbD_extractLsb', not_forall, exists_prop]
    refine exists_congr fun i => and_congr_right fun hi => ?_
    simp [hi]
  rw [masterCondition, Bool.or_eq_true, Bool.and_eq_true, bne_iff_ne, hany]

theorem getLsbD_setMasterFlag_31 (r : Word) (b : Bool) : (setMasterFlag r b).getLsbD 31 = b := by
  rw [setMasterFlag, getLsbD_append_high _ _ _ (by decide)]
  exact getLsbD_ofBool_zero b

theorem getLsbD_setMasterFlag (r : Word) (b : Bool) {i : Nat} (hi : i < 31) :
    (setMasterFlag r b).getLsbD i = r.getLsbD i := by
  rw [setMasterFlag, getLsbD_append_low _ _ _ hi]
  simp [hi]

/-- The DMA step's two effects: the flag, and one trigger exactly on its rising edge. -/
theorem dmaStep_cases (s : State) : ∃ es,
    let rises := masterCondition s.dma.dicr = true ∧ s.dma.dicr.getLsbD 31 = false
    dmaStep s = { s with dma.dicr := setMasterFlag s.dma.dicr (masterCondition s.dma.dicr), out := s.out ++ es }
      ∧ (rises → es = [.trigger .dma]) ∧ (¬ rises → es = []) := by
  have hguard : (masterCondition s.dma.dicr && !s.dma.dicr.getLsbD 31) = true
      ↔ masterCondition s.dma.dicr = true ∧ s.dma.dicr.getLsbD 31 = false := by simp
  unfold dmaStep
  dsimp only
  split
  next h => exact ⟨[.trigger .dma], rfl, fun _ => rfl, fun hn => absurd (hguard.mp h) hn⟩
  next h => exact ⟨[], by simp, fun hr => absurd (hguard.mpr hr) h, fun _ => rfl⟩

/-- Settles O38: the step's cases, with the master condition in bits. -/
theorem dmaStepTriggersOnTheRisingEdge : Obligations.DmaStepTriggersOnTheRisingEdge := by
  intro s cycles r mf
  have hmf : masterCondition r = true ↔ mf := masterCondition_iff r
  obtain ⟨es, hstep, hrises, hstays⟩ := dmaStep_cases s
  refine ⟨_, es, congrArg _ hstep, ?_, fun i hi => getLsbD_setMasterFlag r _ hi,
    fun h h31 => hrises ⟨hmf.mpr h, h31⟩, fun hn => hstays fun h => hn ⟨hmf.mp h.1, h.2⟩⟩
  rw [getLsbD_setMasterFlag_31]
  exact hmf

/-! ### What sends no trigger (rules R118, R611) -/

theorem triggers_append (c : Comp) (es es' : List Event) : triggers c (es ++ es') = triggers c es + triggers c es' :=
  List.countP_append

/-- From `s` to `t` events are only appended, and no trigger is among them. -/
def AppendsNoTrigger (s t : State) : Prop := ∃ es, t.out = s.out ++ es ∧ ∀ c, triggers c es = 0

theorem appendsNoTrigger_of_out {s t : State} (h : t.out = s.out) : AppendsNoTrigger s t :=
  ⟨[], by rw [h, List.append_nil], fun _ => rfl⟩

theorem appendsNoTrigger_log (l : LogEvent) (s : State) : AppendsNoTrigger s (emit (.log l) s) :=
  ⟨[.log l], rfl, fun _ => rfl⟩

theorem appendsNoTrigger_finishRead (width : Width) (s : State) : AppendsNoTrigger s (finishRead width s) :=
  ⟨[.returned width (wordOfBytesLE s.readBuf)], rfl, fun _ => rfl⟩

theorem AppendsNoTrigger.trans {s t u : State} (h : AppendsNoTrigger s t) (h' : AppendsNoTrigger t u) :
    AppendsNoTrigger s u := by
  obtain ⟨es, ho, hz⟩ := h
  obtain ⟨es', ho', hz'⟩ := h'
  exact ⟨es ++ es', by rw [ho', ho, List.append_assoc], fun c => by rw [triggers_append, hz c, hz' c]⟩

/-- Whatever next state `o` answers has sent no trigger since `s`. -/
def SendsNoTrigger (s : State) (o : Out) : Prop := Ensures o (AppendsNoTrigger s)

theorem sendsNoTrigger_of_out {s t : State} (h : t.out = s.out) : SendsNoTrigger s (.next t) :=
  ensures_next (appendsNoTrigger_of_out h)

theorem sendsNoTrigger_andThen {s : State} {o : Out} {f : State → Out} (h : SendsNoTrigger s o)
    (hf : ∀ t, SendsNoTrigger t (f t)) : SendsNoTrigger s (andThen o f) :=
  ensures_andThen h fun t ht u hu => ht.trans (hf t u hu)

/-- What completes within the frame of a GP0 word. -/
theorem sendsNoTrigger_of_gp0Frame {s : State} {o : Out} (h : ∃ t, o = .next t ∧ Gp0Frame s t) :
    SendsNoTrigger s o := by
  obtain ⟨t, rfl, f⟩ := h
  exact ensures_next f.out

/-! The transfers of the DMA engine. -/

theorem sendsNoTrigger_gpuSend (delta : Int) (n addr : Nat) (s : State) :
    SendsNoTrigger s (gpuSend delta n addr s) := by
  induction n generalizing addr s with
  | zero => exact sendsNoTrigger_of_out rfl
  | succ n ih => exact sendsNoTrigger_andThen (sendsNoTrigger_of_gp0Frame (gp0Word_next _ s)) fun t => ih _ t

theorem sendsNoTrigger_listSend (nodes addr : Nat) (s : State) : SendsNoTrigger s (listSend nodes addr s) := by
  rw [listSend_eq]
  split
  · exact sendsNoTrigger_of_gp0Frame (feed_next _ s)
  · exact sendsNoTrigger_andThen (sendsNoTrigger_of_gp0Frame (feed_next _ s)) fun _ => ensures_fault _ _

theorem gpuReadWord_out (s : State) : (gpuReadWord s).2.out = s.out := by
  obtain ⟨k, m, n, h⟩ := gpuReadWord_frame s
  rw [h]

theorem gpuReceive_out (delta : Int) (n addr : Nat) (s : State) : (gpuReceive delta n addr s).out = s.out := by
  induction n generalizing addr s with
  | zero => rfl
  | succ n ih => exact (ih _ _).trans (gpuReadWord_out s)

theorem popDataWord_out (s : State) : (popDataWord s).2.out = s.out := by
  obtain ⟨n, h⟩ := popDataWord_frame s
  rw [h]

theorem cdReceive_out (delta : Int) (n addr : Nat) (s : State) : (cdReceive delta n addr s).out = s.out := by
  induction n generalizing addr s with
  | zero => rfl
  | succ n ih => exact (ih _ _).trans (popDataWord_out s)

theorem sendsNoTrigger_dmaTransfer (n : Fin 7) (s : State) : SendsNoTrigger s (dmaTransfer n s) := by
  unfold dmaTransfer dmaGpu
  dsimp only
  split
  · split_ifs
    · exact sendsNoTrigger_listSend _ _ s
    · exact sendsNoTrigger_gpuSend _ _ _ s
    · exact sendsNoTrigger_of_out (gpuReceive_out _ _ _ s)
  · exact sendsNoTrigger_of_out (cdReceive_out _ _ _ s)
  · exact sendsNoTrigger_of_out rfl
  · exact sendsNoTrigger_of_out rfl

theorem sendsNoTrigger_dmaStart (n : Fin 7) (s : State) : SendsNoTrigger s (dmaStart n s) := by
  unfold dmaStart
  dsimp only
  split_ifs
  · exact ensures_fault _ _
  · exact ensures_fault _ _
  · exact sendsNoTrigger_andThen (sendsNoTrigger_dmaTransfer n s) fun t => sendsNoTrigger_of_out (dmaFinish_out n t)
  · exact sendsNoTrigger_of_out rfl

theorem sendsNoTrigger_dmaChcrWrite (n : Fin 7) (b : Fin 4) (d : Byte) (s : State) :
    SendsNoTrigger s (exec (.dmaChcrWrite n b d) s) := by
  by_cases hb : b = 3
  · subst hb
    exact sendsNoTrigger_dmaStart n (chcrStored n d s)
  · rw [execDmaChcrWrite_low hb]
    exact sendsNoTrigger_of_out rfl

/-- A draw sends no event, so the log is all. -/
theorem sendsNoTrigger_dmaUnmappedRead (a : Nat) (s : State) : SendsNoTrigger s (.next (dmaUnmappedRead a s)) :=
  ensures_next ((appendsNoTrigger_log (.dmaUnmappedRead a) s).trans (appendsNoTrigger_of_out rfl))

theorem sendsNoTrigger_dmaUnmapped (a : BitVec 7) (data : Option Byte) (s : State) :
    SendsNoTrigger s (execDmaUnmapped a data s) := by
  cases data with
  | none => exact sendsNoTrigger_dmaUnmappedRead _ s
  | some d => exact ensures_next (appendsNoTrigger_log _ s)

theorem sendsNoTrigger_dmaRead (a : BitVec 7) (s : State) : SendsNoTrigger s (execDmaRead a s) := by
  unfold execDmaRead
  split
  · split
    · exact sendsNoTrigger_of_out rfl
    · exact sendsNoTrigger_of_out rfl
  · exact sendsNoTrigger_dmaUnmappedRead _ s

/-! The CDROM commands. -/

theorem startRead_out (s : State) : (startRead s).out = s.out := by simp [startRead]

theorem seekNow_out (s : State) : (seekNow s).out = s.out := by simp [seekNow]

theorem playTrack_out (s : State) : (playTrack s).2.out = s.out := by
  unfold playTrack
  split
  · rfl
  · exact readParam_out s

theorem sendsNoTrigger_execCdPlay (s : State) : SendsNoTrigger s (execCdPlay s) := by
  have hseek (t : Nat) (s : State) : (if t = 0 then applySeek s
      else { s with cd.currentSector := trackStart s t, cd.seekPending := false } : State).out = s.out := by
    split
    · exact applySeek_out s
    · rfl
  exact sendsNoTrigger_of_out ((respondStat_out _).trans ((hseek _ _).trans (playTrack_out s)))

theorem sendsNoTrigger_execCdTest (s : State) : SendsNoTrigger s (execCdTest s) := by
  have hsub (b : Byte) (s : State) : AppendsNoTrigger s
      (if b = 0x20#8 then respond int3 [0x94#8, 0x09#8, 0x19#8, 0xC0#8] s else cdLogUnknown 0x19#8 s) := by
    split
    · exact appendsNoTrigger_of_out (respond_out _ _ s)
    · exact appendsNoTrigger_log _ s
  exact ensures_next ((appendsNoTrigger_of_out (readParam_out s)).trans (hsub _ _))

theorem sendsNoTrigger_execCdGetid (s : State) : SendsNoTrigger s (execCdGetid s) := by
  refine sendsNoTrigger_of_out (Eq.trans ?_ (respondStat_out s))
  split
  · exact respond_out _ _ _
  · exact respond_out _ _ _

/-- Whatever command the dispatch runs: but for the diagnostics no command sends an event (rules R511, R512). -/
theorem sendsNoTrigger_cdRun (i : Instr) (s : State) : SendsNoTrigger s (cdRun i s) := by
  cases i with
  | cdPlay => exact sendsNoTrigger_execCdPlay s
  | cdTest => exact sendsNoTrigger_execCdTest s
  | cdGetid => exact sendsNoTrigger_execCdGetid s
  | cdSetloc =>
    exact sendsNoTrigger_of_out ((respondStat_out _).trans
      ((readParam_out _).trans ((readParam_out _).trans (readParam_out s))))
  | cdSetfilter =>
    exact sendsNoTrigger_of_out ((respondStat_out _).trans ((readParam_out _).trans (readParam_out s)))
  | cdSetmode => exact sendsNoTrigger_of_out ((respondStat_out _).trans (readParam_out s))
  | cdSetsession =>
    exact sendsNoTrigger_of_out ((respondStat2_out _).trans ((respondStat_out _).trans (readParam_out s)))
  | cdGettd => exact sendsNoTrigger_of_out ((respond_out _ _ _).trans (readParam_out s))
  | cdReadn | cdReads => exact sendsNoTrigger_of_out (startRead_out s)
  | cdSeekl | cdSeekp => exact sendsNoTrigger_of_out (seekNow_out s)
  | cdGetstat | cdMute | cdDemute | cdGetlocl | cdGetlocp | cdGettn | cdUnlock =>
    exact sendsNoTrigger_of_out (respond_out _ _ _)
  | cdMotoron | cdStop | cdPause | cdInit | cdReadtoc =>
    exact sendsNoTrigger_of_out ((respondStat2_out _).trans (respondStat_out _))
  | cdUnrecognized d => exact ensures_next (appendsNoTrigger_log _ s)
  | _ => exact sendsNoTrigger_of_out rfl

theorem sendsNoTrigger_execCdCommand (d : Byte) (s : State) : SendsNoTrigger s (execCdCommand d s) :=
  sendsNoTrigger_andThen (sendsNoTrigger_cdRun _ { s with cd.busy := true }) fun _ => sendsNoTrigger_of_out rfl

theorem sendsNoTrigger_execCdIntAck (clear : Bool) (codes : BitVec 5) (s : State) :
    SendsNoTrigger s (execCdIntAck clear codes s) := by
  have hack (s : State) : (ackFront codes s).out = s.out := by
    unfold ackFront
    split
    · rfl
    · split <;> rfl
  refine sendsNoTrigger_of_out ((hack _).trans ?_)
  split <;> rfl

/-! The instructions and the transactions. -/

theorem sendsNoTrigger_execGp1VRange (y1 y2 : BitVec 10) (s : State) : SendsNoTrigger s (execGp1VRange y1 y2 s) := by
  unfold execGp1VRange
  split
  · exact sendsNoTrigger_of_out rfl
  · exact sendsNoTrigger_of_out rfl

theorem sendsNoTrigger_execGp1Unrecognized (w : Word) (s : State) : SendsNoTrigger s (execGp1Unrecognized w s) := by
  unfold execGp1Unrecognized
  split
  · exact ensures_next (appendsNoTrigger_log _ s)
  · exact ensures_fault _ _

/-- A GP0 instruction is run as the GP0 port runs it. -/
theorem sendsNoTrigger_of_gp0Run {i : Instr} {s : State} (h : exec i s = gp0Run i s) : SendsNoTrigger s (exec i s) :=
  h ▸ sendsNoTrigger_of_gp0Frame (gp0Run_next i s)

/-- A CDROM command byte's instruction is run as the dispatch runs it. -/
theorem sendsNoTrigger_of_cdRun {i : Instr} {s : State} (h : exec i s = cdRun i s) : SendsNoTrigger s (exec i s) :=
  h ▸ sendsNoTrigger_cdRun i s

/-- No instruction sends a trigger: only the steps do (rules R118, R611). -/
theorem sendsNoTrigger_exec (i : Instr) (s : State) : SendsNoTrigger s (exec i s) := by
  cases i with
  | gp1Reset | gp1ResetCmdBuffer | gp1AckIrq | gp1DisplayEnable | gp1DmaDirection | gp1DisplayArea | gp1HRange
  | gp1DisplayMode | gp1TexDisableAllow | gp1GpuInfo => exact sendsNoTrigger_of_out rfl
  | gp1VRange y1 y2 => exact sendsNoTrigger_execGp1VRange y1 y2 s
  | gp1Unrecognized w => exact sendsNoTrigger_execGp1Unrecognized w s
  | gpuGpuread => exact sendsNoTrigger_of_out (gpuReadWord_out s)
  | gpuGpustat => exact sendsNoTrigger_of_out rfl
  | dmaMadrWrite | dmaBcrWrite | dmaReservedWrite | dmaDpcrWrite | dmaDicrWriteLow | dmaDicrAck =>
    exact sendsNoTrigger_of_out rfl
  | dmaChcrWrite n b d => exact sendsNoTrigger_dmaChcrWrite n b d s
  | dmaUnmapped a data => exact sendsNoTrigger_dmaUnmapped a data s
  | dmaRead a => exact sendsNoTrigger_dmaRead a s
  | cdCommand d => exact sendsNoTrigger_execCdCommand d s
  | cdIntAck clear codes => exact sendsNoTrigger_execCdIntAck clear codes s
  | cdResponseRead => exact sendsNoTrigger_of_out (popResponse_out s)
  | cdDataRead => exact sendsNoTrigger_of_out (popData_out s)
  | cdIndexWrite | cdSoundmapData | cdSoundmapCoding | cdVolRr | cdParam | cdIntEnable | cdVolLl | cdVolRl
  | cdRequest | cdVolLr | cdVolApply | cdStatusRead | cdIntRead | shell => exact sendsNoTrigger_of_out rfl
  | cdGetstat | cdSetloc | cdPlay | cdReadn | cdMotoron | cdStop | cdPause | cdInit | cdMute | cdDemute
  | cdSetfilter | cdSetmode | cdGetlocl | cdGetlocp | cdSetsession | cdGettn | cdGettd | cdSeekl | cdSeekp
  | cdTest | cdGetid | cdReads | cdReadtoc | cdUnlock | cdUnrecognized => exact sendsNoTrigger_of_cdRun rfl
  | _ => exact sendsNoTrigger_of_gp0Run rfl

theorem sendsNoTrigger_dmaWriteBytes (a n i : Nat) (w : Word) (s : State) :
    SendsNoTrigger s (dmaWriteBytes a n i w s) := by
  induction n generalizing i s with
  | zero => exact sendsNoTrigger_of_out rfl
  | succ n ih => exact sendsNoTrigger_andThen (sendsNoTrigger_exec _ s) fun t => ih _ t

theorem sendsNoTrigger_dmaReadBytes (a n : Nat) (s : State) : SendsNoTrigger s (dmaReadBytes a n s) := by
  induction n generalizing a s with
  | zero => exact sendsNoTrigger_of_out rfl
  | succ n ih => exact sendsNoTrigger_andThen (sendsNoTrigger_exec _ s) fun t => ih _ t

theorem sendsNoTrigger_writeTxn (c : Comp) (off : Nat) (width : Width) (w : Word) (s : State) :
    SendsNoTrigger s (writeTxn c off width w s) := by
  cases c with
  | gpu =>
    show SendsNoTrigger s (gpuWrite off width w s)
    unfold gpuWrite
    split_ifs
    · rw [hostGp0_eq_gp0Word]
      exact sendsNoTrigger_of_gp0Frame (gp0Word_next w s)
    · exact sendsNoTrigger_exec _ s
    · exact ensures_fault _ _
  | dma =>
    show SendsNoTrigger s (dmaWriteTxn off width w s)
    unfold dmaWriteTxn
    split_ifs
    · exact sendsNoTrigger_dmaWriteBytes _ _ _ w s
    · exact ensures_refused _ _
  | cdrom =>
    show SendsNoTrigger s (cdWriteTxn off width w s)
    unfold cdWriteTxn
    split_ifs
    · exact ensures_fault _ _
    · exact sendsNoTrigger_exec _ s
    · exact ensures_refused _ _

theorem sendsNoTrigger_readTxn (c : Comp) (off : Nat) (width : Width) (s : State) :
    SendsNoTrigger s (readTxn c off width s) := by
  cases c with
  | gpu =>
    show SendsNoTrigger s (gpuRead off width s)
    unfold gpuRead
    split_ifs
    · exact sendsNoTrigger_exec _ s
    · exact sendsNoTrigger_exec _ s
    · exact ensures_fault _ _
  | dma =>
    show SendsNoTrigger s (dmaReadTxn off width s)
    unfold dmaReadTxn
    split_ifs
    · exact sendsNoTrigger_dmaReadBytes _ _ s
    · exact ensures_refused _ _
  | cdrom =>
    show SendsNoTrigger s (cdReadTxn off width s)
    unfold cdReadTxn
    split_ifs
    · exact ensures_fault _ _
    · exact sendsNoTrigger_exec _ s
    · exact ensures_refused _ _

/-- Every transaction that is no step (rule R118). -/
theorem sendsNoTrigger_transact {t : Txn} (ht : ∀ c n, t ≠ .tick c n) (s : State) :
    SendsNoTrigger s (transact t s) := by
  cases t with
  | write c off width w => exact sendsNoTrigger_writeTxn c off width w s
  | read c off width =>
    exact sendsNoTrigger_andThen (sendsNoTrigger_readTxn c off width s) fun t =>
      ensures_next (appendsNoTrigger_finishRead width t)
  | tick c n => exact absurd rfl (ht c n)
  | shell => exact sendsNoTrigger_exec .shell s
  | ramStore addr d =>
    show SendsNoTrigger s (ramStoreTxn addr d s)
    unfold ramStoreTxn
    split
    · exact sendsNoTrigger_of_out rfl
    · exact ensures_refused _ _

/-! ### The triggers of the steps and of a run (rules R371, R440, R441, R476) -/

theorem AppendsNoTrigger.triggers_eq {s t : State} (h : AppendsNoTrigger s t) (c : Comp) :
    triggers c t.out = triggers c s.out := by
  obtain ⟨es, ho, hz⟩ := h
  rw [ho, triggers_append, hz c, Nat.add_zero]

/-- An event that is no trigger of `c` does not count. -/
theorem triggers_emit {c : Comp} {e : Event} (he : e ≠ .trigger c) (s : State) :
    triggers c (emit e s).out = triggers c s.out := by
  rw [emit_out, triggers_append]
  simp [triggers, he]

theorem triggers_dma_gpuStep (cycles : Nat) (s : State) :
    triggers .dma (gpuStep cycles s).out = triggers .dma s.out := by
  unfold gpuStep signalGpu
  dsimp only
  rw [triggers_emit (by simp)]
  split
  · rw [triggers_emit (by simp)]
  · rfl

theorem advanceSector_out (s : State) : (advanceSector s).out = s.out := by
  unfold advanceSector
  dsimp only
  split_ifs <;> rfl

theorem triggers_dma_cdStep (s : State) : triggers .dma (cdStep s).out = triggers .dma s.out := by
  have hadvance := congrArg (triggers .dma) (advanceSector_out { s with cd.busy := false })
  unfold cdStep signalCd
  split
  · rw [triggers_emit (by simp)]
    exact hadvance
  · exact hadvance

/-- The rising edge at one transaction: the term of `dmaEdges`. -/
def dmaEdge (t : Txn) (s : State) : Nat :=
  match t with
  | .tick .dma _ => if masterCondition s.dma.dicr && !s.dma.dicr.getLsbD 31 then 1 else 0
  | _ => 0

theorem dmaEdges_cons {t : Txn} {s s' : State} (h : transact t s = .next s') (ts : List Txn) :
    dmaEdges (t :: ts) s = dmaEdge t s + dmaEdges ts s' := by
  have hcons : dmaEdges (t :: ts) s = match transact t s with
    | .next u => dmaEdge t s + dmaEdges ts u
    | _ => dmaEdge t s := rfl
  rw [hcons, h]

theorem triggers_dma_dmaStep (cycles : Nat) (s : State) :
    triggers .dma (dmaStep s).out = triggers .dma s.out + dmaEdge (.tick .dma cycles) s := by
  unfold dmaStep dmaEdge
  dsimp only
  split
  · exact triggers_append .dma s.out [.trigger .dma]
  · rfl

/-- A transaction sends as many DMA triggers as it has rising edges. -/
theorem triggers_dma_transact {t : Txn} {s s' : State} (h : transact t s = .next s') :
    triggers .dma s'.out = triggers .dma s.out + dmaEdge t s := by
  by_cases ht : ∀ c n, t ≠ .tick c n
  · have hedge : dmaEdge t s = 0 := by
      unfold dmaEdge
      split
      next n => exact absurd rfl (ht .dma n)
      · rfl
    rw [hedge]
    exact (sendsNoTrigger_transact ht s s' h).triggers_eq .dma
  · push Not at ht
    obtain ⟨c, n, rfl⟩ := ht
    cases h
    cases c with
    | gpu => exact triggers_dma_gpuStep n s
    | dma => exact triggers_dma_dmaStep n s
    | cdrom => exact triggers_dma_cdStep s

/-- Settles O39, by induction on the run. -/
theorem dmaTriggersCountRisingEdges : Obligations.DmaTriggersCountRisingEdges := by
  intro ts
  induction ts with
  | nil =>
    rintro s _ ⟨⟩
    rfl
  | cons t ts ih =>
    intro s u hu
    obtain ⟨s', hs', hrun⟩ := andThen_eq_next hu
    rw [ih s' u hrun, triggers_dma_transact hs', dmaEdges_cons hs', Nat.add_assoc]

end Sys2Proof.Machine
end

section
/-! PROOFS. The family of the CDROM ports: the port writes (O41), parameters and acknowledgements (O42), the status
register (O43), the reads (O44), the command port (O46), the shell (O52), and the CDROM step's delivery (O53) and
signalling (O54). -/
namespace Sys2Proof.Machine

/-! ### The command port (rules R463, R512) -/

section
variable {n : Nat} {s t : State}

theorem TakesParams.startMotor (h : TakesParams n s t) : TakesParams n s (startMotor t) := { h with }

theorem TakesParams.enterMode (h : TakesParams n s t) (m : DriveMode) : TakesParams n s (enterMode m t) := { h with }

theorem TakesParams.respondStat (h : TakesParams n s t) : TakesParams n s (respondStat t) := h.respond _ _

theorem TakesParams.respondStat2 (h : TakesParams n s t) : TakesParams n s (respondStat2 t) := h.respond _ _

theorem TakesParams.startRead (h : TakesParams n s t) : TakesParams n s (startRead t) :=
  .respondStat (t := { Machine.enterMode .reading (Machine.startMotor (Machine.applySeek t)) with cd.sectorTimer := 0 })
    { h.applySeek with }

theorem TakesParams.seekNow (h : TakesParams n s t) : TakesParams n s (seekNow t) :=
  ((h.applySeek.startMotor.enterMode .seeking).respondStat.enterMode .none).respondStat2

end

/-- Whatever the dispatch runs completes, and takes some number of parameters. -/
theorem cdRun_takes (i : Instr) (s : State) : ∃ n t, cdRun i s = .next t ∧ TakesParams n s t := by
  have h := TakesParams.refl s
  cases i with
  | cdSetloc => exact ⟨3, execCdSetloc_takes s⟩
  | cdSetfilter => exact ⟨2, execCdSetfilter_takes s⟩
  | cdSetmode => exact ⟨1, execCdSetmode_takes s⟩
  | cdSetsession => exact ⟨1, execCdSetsession_takes s⟩
  | cdGettd => exact ⟨1, execCdGettd_takes s⟩
  | cdTest => exact ⟨1, execCdTest_takes s⟩
  | cdPlay =>
    cases hp : s.cd.paramFifo with
    | nil => exact ⟨0, _, execCdPlay_nil hp, h.applySeek.startPlay⟩
    | cons b bs => exact ⟨1, execCdPlay_cons hp⟩
  | cdGetid =>
    refine ⟨0, _, rfl, ?_⟩
    split
    · exact h.respondStat.respond _ _
    · exact h.respondStat.respond _ _
  | cdReadn | cdReads => exact ⟨0, _, rfl, h.startRead⟩
  | cdSeekl | cdSeekp => exact ⟨0, _, rfl, h.seekNow⟩
  | cdPause => exact ⟨0, _, rfl, (h.respondStat.enterMode .none).respondStat2⟩
  | cdMotoron => exact ⟨0, _, rfl, h.startMotor.respondStat.respondStat2⟩
  | cdReadtoc => exact ⟨0, _, rfl, h.respondStat.respondStat2⟩
  | cdStop =>
    refine ⟨0, _, rfl, .respondStat2 ?_⟩
    exact { h.respondStat with }
  | cdInit =>
    refine ⟨0, _, rfl, .respondStat2 (.respondStat ?_)⟩
    exact { h with }
  | cdMute | cdDemute =>
    refine ⟨0, _, rfl, .respondStat ?_⟩
    exact { h with }
  | cdGetstat | cdGetlocl | cdGetlocp | cdGettn | cdUnlock => exact ⟨0, _, rfl, h.respond _ _⟩
  | cdUnrecognized d => exact ⟨0, _, rfl, { h with }⟩
  | _ => exact ⟨0, s, rfl, h⟩

/-- What a command byte decodes to means what the dispatch runs (assumption 21). -/
theorem exec_cdCommandOf (d : Byte) (s : State) : exec (cdCommandOf d) s = cdRun (cdCommandOf d) s := by
  unfold cdCommandOf
  split <;> rfl

/-- Settles O46: the command takes parameters, so it leaves `busy` set and the rest of the block alone. -/
theorem commandPortDispatches : Obligations.CommandPortDispatches := by
  intro s d
  obtain ⟨_, t, hrun, h⟩ := cdRun_takes (cdCommandOf d) { s with cd.busy := true }
  refine ⟨t, (exec_cdCommandOf d _).trans hrun, ?_, h.busy, h.gpu, h.dma, h.ram, h.cfg, h.readBuf⟩
  show andThen (cdRun (cdCommandOf d) _) _ = _
  rw [hrun, andThen_next]

/-! ### Sector delivery (rules R481, R482) -/

/-- The header is the sector's bytes 12 to 19. -/
theorem deliverSector_lastHeader (s : State) :
    (deliverSector s).cd.lastHeader.toList = sectorBytes s s.cd.currentSector 12 8 := by
  show (Vector.ofFn fun i : Fin 8 => sectorByte s s.cd.currentSector (12 + i.val)).toList = _
  rw [Vector.toList_ofFn, List.ofFn_eq_map, sectorBytes, ← List.map_coe_finRange_eq_range, List.map_map]
  rfl

/-- A held sector gives its slice and its header; the parameters keep the slice inside the sector. -/
theorem deliverSector_of_held {s : State} {bs : List Byte} (h : heldSector s.cfg.disc s.cd.currentSector = some bs)
    (hlen : bs.length = 2352) (hc : s.cfg.accepts = true) :
    (deliverSector s).cd.dataFifo = (if s.cd.modeReg.getLsbD 5 then (bs.drop 12).take s.cfg.cdSectorRaw
        else (bs.drop 24).take s.cfg.cdSectorData)
      ∧ (deliverSector s).cd.lastHeader.toList = (bs.drop 12).take 8 := by
  obtain ⟨hdata, hraw⟩ : 24 + s.cfg.cdSectorData ≤ bs.length ∧ 12 + s.cfg.cdSectorRaw ≤ bs.length := by
    simp [Config.accepts] at hc
    omega
  rw [deliverSector_lastHeader, ← sectorBytes_of_held h hdata, ← sectorBytes_of_held h hraw]
  exact ⟨rfl, sectorBytes_of_held h (by omega)⟩

/-- A sector that is not held gives draws (rule R515). -/
theorem deliverSector_of_not_held {s : State} (h : heldSector s.cfg.disc s.cd.currentSector = none) :
    let drawn : Nat → Nat → List Byte := fun lo n => (List.range n).map fun i => Config.any8 (s.draws + (lo + i))
    (deliverSector s).cd.dataFifo = (if s.cd.modeReg.getLsbD 5 then drawn 12 s.cfg.cdSectorRaw
        else drawn 24 s.cfg.cdSectorData)
      ∧ (deliverSector s).cd.lastHeader.toList = drawn 12 8 := by
  intro drawn
  have hdrawn (lo n : Nat) : sectorBytes s s.cd.currentSector lo n = drawn lo n := sectorBytes_of_not_held h lo n
  rw [deliverSector_lastHeader, ← hdrawn, ← hdrawn, ← hdrawn]
  exact ⟨rfl, rfl⟩

/-! ### The sector timer (rule R481) -/

/-- The timer's own registers and what a delivery sets are all that can change before the step signals. -/
theorem advanceSector_frame (s : State) : ∃ timer x fifo header ints responses draws,
    advanceSector s = { s with
      cd.sectorTimer := timer, cd.currentSector := x, cd.dataFifo := fifo, cd.lastHeader := header
      cd.intFifo := ints, cd.responseFifo := responses, draws := draws } := by
  unfold advanceSector
  dsimp only
  split_ifs <;> exact ⟨_, _, _, _, _, _, _, rfl⟩

section
variable (s : State)

theorem advanceSector_of_idle (h : ¬ (s.cd.stat.getLsbD 5 = true ∨ s.cd.stat.getLsbD 7 = true)) :
    advanceSector s = s := if_neg (mt (Bool.or_eq_true _ _).mp h)

theorem advanceSector_of_active (h : s.cd.stat.getLsbD 5 = true ∨ s.cd.stat.getLsbD 7 = true) :
    advanceSector s = if sectorInterval s ≤ s.cd.sectorTimer + 1 then deliverSector { s with cd.sectorTimer := 0 }
      else { s with cd.sectorTimer := s.cd.sectorTimer + 1 } := if_pos ((Bool.or_eq_true _ _).mpr h)

theorem advanceSector_counts (h : s.cd.stat.getLsbD 5 = true ∨ s.cd.stat.getLsbD 7 = true)
    (ht : s.cd.sectorTimer + 1 < sectorInterval s) :
    advanceSector s = { s with cd.sectorTimer := s.cd.sectorTimer + 1 } :=
  (advanceSector_of_active s h).trans (if_neg (Nat.not_le.mpr ht))

theorem advanceSector_delivers (h : s.cd.stat.getLsbD 5 = true ∨ s.cd.stat.getLsbD 7 = true)
    (ht : sectorInterval s ≤ s.cd.sectorTimer + 1) : advanceSector s = deliverSector { s with cd.sectorTimer := 0 } :=
  (advanceSector_of_active s h).trans (if_pos ht)

end

/-! ### Signalling (rule R476) -/

/-- From `s` to `t` a step signals: the front `t` has is enabled, and `s` has not signalled it. -/
def SignalDue (s t : State) : Prop := s.cd.frontSignalled = false ∧ ∃ code rest, t.cd.intFifo = code :: rest ∧
  s.cd.ie &&& code.extractLsb' 0 5 ≠ 0#5

theorem cdSignals_iff (s : State) : cdSignals s.cd = true ↔ SignalDue s s := by
  cases h : s.cd.intFifo with
  | nil => simp [cdSignals, SignalDue, h]
  | cons code rest => simp [cdSignals, SignalDue, h]

/-- One trigger, and the mark set, exactly when the front is enabled and not yet signalled. -/
theorem signalCd_cases (s : State) : ∃ marked es,
    signalCd s = { s with cd.frontSignalled := marked, out := s.out ++ es }
      ∧ (SignalDue s s → marked = true ∧ es = [.trigger .cdrom])
      ∧ (¬ SignalDue s s → marked = s.cd.frontSignalled ∧ es = []) := by
  rw [← cdSignals_iff]
  unfold signalCd
  split
  next h => exact ⟨true, [.trigger .cdrom], rfl, fun _ => ⟨rfl, rfl⟩, fun hn => absurd h hn⟩
  next h => exact ⟨_, [], by simp, fun hd => absurd hd h, fun _ => ⟨rfl, rfl⟩⟩

/-! ### The CDROM step (rules R476, R481, R482) -/

/-- To what the timer leaves, the signalling adds the mark and its event, by the front the interrupt FIFO has then. -/
theorem cdStep_of_advanceSector {s u : State} (hu : advanceSector { s with cd.busy := false } = u) : ∃ marked es,
    cdStep s = { u with cd.frontSignalled := marked, out := s.out ++ es }
      ∧ (SignalDue s (cdStep s) → marked = true ∧ es = [.trigger .cdrom])
      ∧ (¬ SignalDue s (cdStep s) → marked = s.cd.frontSignalled ∧ es = []) := by
  obtain ⟨timer, x, fifo, header, ints, responses, draws, hframe⟩ := advanceSector_frame { s with cd.busy := false }
  obtain ⟨marked, es, hsignal, hdue, hnot⟩ := signalCd_cases u
  refine ⟨marked, es, ?_⟩
  rw [cdStep, hu, hsignal]
  obtain rfl := hu.symm.trans hframe
  exact ⟨rfl, hdue, hnot⟩

/-- Settles O53: the timer advances or a sector is delivered, and the signalling adds the mark and its event. -/
theorem cdStepDeliversSectors : Obligations.CdStepDeliversSectors := by
  intro s cycles active interval
  obtain ⟨timer, x, fifo, header, ints, responses, draws, hframe⟩ := advanceSector_frame { s with cd.busy := false }
  obtain ⟨_, _, hstep, -, -⟩ := cdStep_of_advanceSector hframe
  refine ⟨cdStep s, rfl, by rw [hstep], by rw [hstep], by rw [hstep], by rw [hstep], by rw [hstep], by rw [hstep],
    by rw [hstep], fun ha => ?_, fun ha ht => ?_, fun ha ht => ?_⟩
  · obtain ⟨_, _, hidle, -, -⟩ := cdStep_of_advanceSector (advanceSector_of_idle _ ha)
    rw [hidle]
  · obtain ⟨_, _, hcounts, -, -⟩ := cdStep_of_advanceSector (advanceSector_counts _ ha ht)
    rw [hcounts]
  · obtain ⟨_, _, hdelivers, -, -⟩ := cdStep_of_advanceSector (advanceSector_delivers _ ha ht)
    rw [hdelivers]
    refine ⟨rfl, rfl, rfl, rfl, rfl, fun bs hx hlookup hlen hc => ?_, fun hnone => ?_⟩
    · exact deliverSector_of_held ((heldSector_of_nonneg hx).trans hlookup) hlen hc
    · exact deliverSector_of_not_held (hnone.elim heldSector_of_neg fun h => by simp [heldSector, h])

/-- Settles O54: what advances the timer or delivers leaves the mark, the enables and the events, so the signalling
goes by the front the interrupt FIFO has then. -/
theorem cdStepSignalsTheFrontOnce : Obligations.CdStepSignalsTheFrontOnce := by
  intro s cycles
  obtain ⟨timer, x, fifo, header, ints, responses, draws, hframe⟩ := advanceSector_frame { s with cd.busy := false }
  obtain ⟨_, _, hstep, hdue, hnot⟩ := cdStep_of_advanceSector hframe
  have hmark (hd : SignalDue s (cdStep s)) :
      (cdStep s).cd.frontSignalled = true ∧ (cdStep s).out = s.out ++ [.trigger .cdrom] := by
    obtain ⟨rfl, rfl⟩ := hdue hd
    rw [hstep]
    exact ⟨rfl, rfl⟩
  refine ⟨cdStep s, rfl, by rw [hstep], hmark, fun hn => ?_, fun h5 h7 => ?_, fun ha ht hempty hcap hfresh hie => ?_⟩
  · obtain ⟨rfl, rfl⟩ := hnot hn
    rw [hstep]
    exact ⟨rfl, List.append_nil _⟩
  · have hinactive : ¬ (s.cd.stat.getLsbD 5 = true ∨ s.cd.stat.getLsbD 7 = true) :=
      not_or.mpr ⟨Bool.eq_false_iff.mp h5, Bool.eq_false_iff.mp h7⟩
    obtain ⟨_, _, hidle, -, -⟩ := cdStep_of_advanceSector (advanceSector_of_idle _ hinactive)
    rw [hidle]
  · have hfront : (cdStep s).cd.intFifo = [1#8] := by
      obtain ⟨_, _, hdelivers, -, -⟩ := cdStep_of_advanceSector (advanceSector_delivers _ ha ht)
      rw [hdelivers]
      show fifoPush s.cfg s.cd.intFifo int1 = _
      rw [hempty]
      exact if_pos hcap
    have henabled : s.cd.ie &&& (1#8).extractLsb' 0 5 ≠ 0#5 := fun h0 => by
      have hbit := congrArg (·.getLsbD 0) h0
      simp only [BitVec.getLsbD_and, hie] at hbit
      exact absurd hbit (by decide)
    exact ⟨hfront, hmark ⟨hfresh, 1#8, [], hfront, henabled⟩⟩

/-! ### Port writes (rules R462 to R478) -/

/-- Settles O41: each meaning is the update of its register. -/
theorem cdPortWritesStoreTheirByte : Obligations.CdPortWritesStoreTheirByte := fun _ _ =>
  ⟨fun _ => rfl, fun _ => rfl, rfl, rfl, rfl, rfl, rfl, rfl, rfl, rfl⟩

/-- No code, or no entry: nothing is popped. -/
theorem ackFront_of_none {codes : BitVec 5} {s : State} (h : codes = 0#5 ∨ s.cd.intFifo = []) :
    ackFront codes s = s := by
  unfold ackFront
  split
  · rfl
  next hcons => exact if_pos (h.resolve_right (by simp [hcons]))

/-- A code, and an entry: the front is popped with its mark. -/
theorem ackFront_of_code {codes : BitVec 5} {s : State} (hc : codes ≠ 0#5) (h : s.cd.intFifo ≠ []) :
    ackFront codes s = { s with cd.intFifo := s.cd.intFifo.tail, cd.frontSignalled := false } := by
  obtain ⟨code, rest, hcons⟩ := List.exists_cons_of_ne_nil h
  simp only [ackFront, hcons, if_neg hc, List.tail_cons]

theorem execCdIntAck_eq (clear : Bool) (codes : BitVec 5) (s : State) : execCdIntAck clear codes s
    = .next (ackFront codes { s with cd.paramFifo := if clear then [] else s.cd.paramFifo }) := by
  cases clear <;> rfl

/-- Settles O42: a push by the room there is, a pop by the codes and the entries. -/
theorem paramAndAckMoveTheFifos : Obligations.ParamAndAckMoveTheFifos := by
  intro s d
  have hparam : exec (.cdParam d) s = .next { s with cd.paramFifo := fifoPush s.cfg s.cd.paramFifo d } := rfl
  refine ⟨rfl, rfl, fun hroom => ?_, fun hfull => ?_, fun clear codes => ⟨fun hnone => ?_, fun hc hf => ?_⟩⟩
  · rw [hparam, fifoPush, if_pos hroom]
  · rw [hparam, fifoPush, if_neg (Nat.not_lt.mpr hfull)]
  · exact (execCdIntAck_eq clear codes s).trans (congrArg _ (ackFront_of_none hnone))
  · exact (execCdIntAck_eq clear codes s).trans (congrArg _ (ackFront_of_code hc hf))

/-! ### Port reads (rules R461, R465, R466, R470) -/

/-- Settles O43: each bit is that of the part of the concatenation it falls in. -/
theorem cdStatusBits : Obligations.CdStatusBits := by
  intro s
  refine ⟨cdStatus s.cfg s.cd, rfl, ?_⟩
  simp (disch := decide) only [cdStatus, extract_append_low, extract_all, getLsbD_append_low, getLsbD_append_high]
  simp [List.length_pos_iff]

theorem cdIntEnableView_fields (d : Cd) :
    (cdIntEnableView d).extractLsb' 5 3 = 7#3 ∧ (cdIntEnableView d).extractLsb' 0 5 = d.ie := by
  have henable : ∀ e : BitVec 5, (0xE0#8 ||| e.setWidth 8).extractLsb' 5 3 = 7#3
      ∧ (0xE0#8 ||| e.setWidth 8).extractLsb' 0 5 = e := by decide
  exact henable d.ie

theorem cdIntFlag_fields (d : Cd) : (cdIntFlag d).extractLsb' 5 3 = 7#3
    ∧ (cdIntFlag d).extractLsb' 0 5 = match d.intFifo with
      | [] => 0#5
      | code :: _ => (0#2 ++ code.extractLsb' 0 3 : BitVec (2 + 3)) := by
  have hcode : ∀ c : Byte, (0xE0#8 ||| (c &&& 7#8)).extractLsb' 5 3 = 7#3
      ∧ (0xE0#8 ||| (c &&& 7#8)).extractLsb' 0 5 = (0#2 ++ c.extractLsb' 0 3 : BitVec (2 + 3)) := by decide
  cases h : d.intFifo with
  | nil =>
    rw [cdIntFlag, h]
    decide
  | cons code rest =>
    rw [cdIntFlag, h]
    exact hcode code

/-- Settles O44: a pop or a draw by the FIFO, a view by the index. -/
theorem cdReadsPopTheirFifo : Obligations.CdReadsPopTheirFifo := by
  intro s drawn
  have hresponse : exec .cdResponseRead s = .next (returnBytes [(popResponse s).1] (popResponse s).2) := rfl
  have hdata : exec .cdDataRead s = .next (returnBytes [(popData s).1] (popData s).2) := rfl
  have hodd : ∀ i : BitVec 2, i.getLsbD 0 = true ↔ ¬ (i = 0#2 ∨ i = 2#2) := by decide
  have heven : ∀ i : BitVec 2, ¬ i.getLsbD 0 = true ↔ ¬ (i = 1#2 ∨ i = 3#2) := by decide
  refine ⟨fun b bs h => ?_, fun h => ?_, fun b bs h => ?_, fun h => ?_, _, rfl, ?_⟩
  · rw [hresponse, popResponse_cons s b bs h]
    rfl
  · rw [hresponse, popResponse_nil s h]
    rfl
  · rw [hdata, popData_cons s b bs h]
    rfl
  · rw [hdata, popData_nil s h]
    rfl
  · split
    next hflag =>
      obtain ⟨hhigh, hlow⟩ := cdIntFlag_fields s.cd
      exact ⟨hhigh, fun h => absurd h ((hodd _).mp hflag), fun _ => hlow⟩
    next henable =>
      obtain ⟨hhigh, hlow⟩ := cdIntEnableView_fields s.cd
      exact ⟨hhigh, fun _ => hlow, fun h => absurd h ((heven _).mp henable)⟩

/-! ### The shell (rule R480) -/

/-- Opening, bit by bit. -/
theorem getLsbD_toggleShell_closed {stat : Byte} (h : stat.getLsbD 4 = false) {i : Nat} (hi : i < 8) :
    (toggleShell stat).getLsbD i
      = if i = 4 then true else if i = 1 ∨ i = 3 then stat.getLsbD i else false := by
  have hkept : ∀ i < 8, (0x0A#8).getLsbD i = decide (i = 1 ∨ i = 3) := by decide
  have hset : ∀ i < 8, (0x10#8).getLsbD i = decide (i = 4) := by decide
  rw [toggleShell, if_neg (Bool.eq_false_iff.mp h), BitVec.getLsbD_or, BitVec.getLsbD_and, hkept i hi, hset i hi]
  by_cases h4 : i = 4
  · simp [h4]
  · by_cases h13 : i = 1 ∨ i = 3
    · simp [h4, h13]
    · simp [h4, h13]

/-- Closing, bit by bit. -/
theorem getLsbD_toggleShell_open {stat : Byte} (h : stat.getLsbD 4 = true) {i : Nat} (hi : i < 8) :
    (toggleShell stat).getLsbD i = if i = 4 then false else stat.getLsbD i := by
  have hkept : ∀ i < 8, (0xEF#8).getLsbD i = decide (i ≠ 4) := by decide
  rw [toggleShell, if_pos h, BitVec.getLsbD_and, hkept i hi]
  by_cases h4 : i = 4
  · simp [h4]
  · simp [h4]

/-- Settles O52: the stat byte is all that changes, bit by bit. -/
theorem shellToggleForcesModeNone : Obligations.ShellToggleForcesModeNone := fun s =>
  ⟨toggleShell s.cd.stat, rfl, fun h _ => getLsbD_toggleShell_closed h, fun h _ => getLsbD_toggleShell_open h⟩

end Sys2Proof.Machine
end

section
/-! PROOFS. The family of the CDROM commands: those that read no parameter (O47), those that change the motor or the
mode (O48), those that read parameters (O49), and GetID (O51). -/
namespace Sys2Proof.Machine

/-! ### The disc's answers (assumption 2) -/

theorem discPosition_of_listed {s : State} {x : Int} {p : DiscPosition} (h : s.cfg.disc.positions.lookup x = some p) :
    discPosition s x = p := by
  rw [discPosition, h, Option.getD_some]

theorem trackStart_of_listed {s : State} {t : Nat} {x : Int} (h : s.cfg.disc.trackStarts.lookup t = some x) :
    trackStart s t = x := by
  rw [trackStart, h, Option.getD_some]

/-! ### Commands that read no parameter (rules R511, R514, R522, R523, R526, R527, R529, R536, R537) -/

/-- Settles O47: each meaning is its response; the position is the disc's, and the track numbers are `toBcd`'s. -/
theorem plainCommandsRespond : Obligations.PlainCommandsRespond := by
  intro s st disc digits
  have hdigits (n : Nat) : digits n = toBcd n := (toBcd_eq n).symm
  have hposition :
      exec .cdGetlocp s = .next (respond 3#8 (positionBytes (discPosition s s.cd.currentSector)) s) := rfl
  refine ⟨rfl, rfl, rfl, rfl, fun p hp => ?_, ⟨_, rfl, hposition⟩, ?_, rfl, fun _ => rfl, fun _ => rfl⟩
  · rw [hposition, discPosition_of_listed hp]
    rfl
  · rw [hdigits, hdigits]
    rfl

/-- Settles O51: the first response leaves the disc and the shell bit that choose between the two replies. -/
theorem getidDependsOnDiscAndShell : Obligations.GetidDependsOnDiscAndShell := by
  intro s
  have hreply : exec .cdGetid s = .next (if s.cfg.disc.present && !s.cd.stat.getLsbD 4 then
      respond 2#8 ([0x02#8, 0x00#8, 0x20#8, 0x00#8] ++ s.cfg.cdRegion) (respond 3#8 [s.cd.stat] s)
    else respond 5#8 [0x08#8, 0x40#8, 0#8, 0#8, 0#8, 0#8, 0#8, 0#8] (respond 3#8 [s.cd.stat] s)) := rfl
  refine ⟨rfl, fun hdisc hclosed => ?_, fun hnone => ?_⟩
  · rw [hreply, hdisc, hclosed]
    rfl
  · have hrefused : ¬ (s.cfg.disc.present && !s.cd.stat.getLsbD 4) = true := by
      rcases hnone with habsent | hopen
      · rw [habsent, Bool.false_and]
        exact Bool.false_ne_true
      · rw [hopen, Bool.not_true, Bool.and_false]
        exact Bool.false_ne_true
    rw [hreply, if_neg hrefused]

/-! ### Commands that change the motor or the mode (rules R513, R517 to R521, R531, R532, R535) -/

theorem setMode_none (stat : Byte) : setMode .none stat = stat &&& 0x1F#8 := BitVec.or_zero

/-- No mode after any other keeps what is not the mode. -/
theorem setMode_none_setMode (m : DriveMode) (stat : Byte) : setMode .none (setMode m stat) = stat &&& 0x1F#8 := by
  have hbits (x : Byte) (hx : x &&& 0x1F#8 = 0#8) : (stat &&& 0x1F#8 ||| x) &&& 0x1F#8 = stat &&& 0x1F#8 := by
    rw [BitVec.and_or_distrib_right, BitVec.and_assoc, BitVec.and_self, hx, BitVec.or_zero]
  rw [setMode_none]
  cases m <;> exact hbits _ rfl

theorem motorOff_setMode_none (stat : Byte) : motorOff (setMode .none stat) = stat &&& 0x1D#8 := by
  rw [motorOff, setMode_none, BitVec.and_assoc]
  rfl

theorem startRead_eq (s : State) : startRead s = respondStat { s with
    cd.currentSector := if s.cd.seekPending then s.cd.seekTarget else s.cd.currentSector
    cd.seekPending := false
    cd.stat := setMode .reading (motorOn s.cd.stat)
    cd.sectorTimer := 0 } := by
  rw [startRead, applySeek_eq]
  rfl

theorem seekNow_eq (s : State) : seekNow s = respondStat2 { respondStat { s with
      cd.currentSector := if s.cd.seekPending then s.cd.seekTarget else s.cd.currentSector
      cd.seekPending := false
      cd.stat := setMode .seeking (motorOn s.cd.stat) } with
    cd.stat := motorOn s.cd.stat &&& 0x1F#8 } := by
  rw [seekNow, applySeek_eq, ← setMode_none_setMode .seeking]
  rfl

/-- Settles O48: the stat byte goes through `motorOn`, `motorOff` and `setMode`, which are masks of it. -/
theorem motorAndModeCommands : Obligations.MotorAndModeCommands := by
  intro s st on sought reading seeking
  have hstop : exec .cdStop s
      = .next (respondStat2 { respondStat s with cd.stat := motorOff (setMode .none st) }) := rfl
  have hpause : exec .cdPause s = .next (respondStat2 { respondStat s with cd.stat := setMode .none st }) := rfl
  have hinit : exec .cdInit s
      = .next (respondStat2 (respondStat { s with cd.stat := setMode .none on, cd.modeReg := 0x20#8 })) := rfl
  refine ⟨rfl, ?_, ?_, ?_, fun i hread => ?_, fun i hseek => ?_⟩
  · rw [hstop, motorOff_setMode_none]
    rfl
  · rw [hpause, setMode_none]
    rfl
  · rw [hinit, setMode_none]
    rfl
  · have hexec : exec i s = .next (startRead s) := by rcases hread with rfl | rfl <;> rfl
    rw [hexec, startRead_eq]
    rfl
  · have hexec : exec i s = .next (seekNow s) := by rcases hseek with rfl | rfl <;> rfl
    rw [hexec, seekNow_eq]
    rfl

/-! ### Commands that read parameters (rules R513, R515, R516, R524, R525, R528, R530, R533) -/

theorem bcd_eq (b : Byte) : bcd b = 10 * (b.toNat / 16) + b.toNat % 16 := by
  have hb := b.isLt
  simp only [bcd, BitVec.extractLsb'_toNat, Nat.shiftRight_eq_div_pow]
  omega

section
variable {s : State} {a b c : Byte} {ps : List Byte}

theorem execCdSetloc_of_cons (h : s.cd.paramFifo = a :: b :: c :: ps) : execCdSetloc s = .next (respondStat { s with
    cd.paramFifo := ps, cd.seekTarget := msfToSector (bcd a) (bcd b) (bcd c), cd.seekPending := true }) := by
  rw [execCdSetloc, readParam_cons s a _ h]
  rfl

theorem execCdSetfilter_of_cons (h : s.cd.paramFifo = a :: b :: ps) : execCdSetfilter s = .next (respondStat { s with
    cd.paramFifo := ps, cd.filterFile := a, cd.filterChannel := b }) := by
  rw [execCdSetfilter, readParam_cons s a _ h]
  rfl

theorem execCdSetmode_of_cons (h : s.cd.paramFifo = a :: ps) :
    execCdSetmode s = .next (respondStat { s with cd.paramFifo := ps, cd.modeReg := a }) := by
  rw [execCdSetmode, readParam_cons s a _ h]

theorem execCdSetsession_of_cons (h : s.cd.paramFifo = a :: ps) :
    execCdSetsession s = .next (respondStat2 (respondStat { s with cd.paramFifo := ps, cd.session := a })) := by
  rw [execCdSetsession, readParam_cons s a _ h]

theorem execCdTest_of_cons (h : s.cd.paramFifo = a :: ps) : execCdTest s = .next (if a = 0x20#8
    then respond int3 [0x94#8, 0x09#8, 0x19#8, 0xC0#8] { s with cd.paramFifo := ps }
    else cdLogUnknown 0x19#8 { s with cd.paramFifo := ps }) := by
  rw [execCdTest, readParam_cons s a _ h]

theorem execCdGettd_of_cons (h : s.cd.paramFifo = a :: ps) : execCdGettd s = .next (respond int3
    [s.cd.stat, toBcd (sectorToMsf (trackStart s (bcd a))).1, toBcd (sectorToMsf (trackStart s (bcd a))).2.1]
    { s with cd.paramFifo := ps }) := by
  rw [execCdGettd, readParam_cons s a _ h]
  rfl

/-- A parameter names the track; track 0 takes the pending seek. -/
theorem execCdPlay_of_cons (h : s.cd.paramFifo = a :: ps) : execCdPlay s = .next (startPlay (if bcd a = 0
    then applySeek { s with cd.paramFifo := ps }
    else { s with cd.paramFifo := ps, cd.currentSector := trackStart s (bcd a), cd.seekPending := false })) := by
  simp only [execCdPlay, playTrack, h, readParam_cons s a ps h]
  rfl

end

/-- Settles O49: each command takes its bytes off the front; the track's start is the disc's, or free. -/
theorem parameterCommandsUseTheirBytes : Obligations.ParameterCommandsUseTheirBytes := by
  intro s a b c ps st dec digits playing
  have hdec (x : Byte) : dec x = bcd x := (bcd_eq x).symm
  have hdigits (n : Nat) : digits n = toBcd n := (toBcd_eq n).symm
  refine ⟨fun h => ?_, fun h => execCdSetfilter_of_cons h, fun h => ⟨execCdSetmode_of_cons h,
    execCdSetsession_of_cons h, fun hversion => ?_, fun hother => ?_,
    ⟨trackStart s (bcd a), fun y hy => ?_, ?_, fun htrack => ?_⟩, fun hzero => ?_⟩⟩
  · rw [hdec, hdec, hdec]
    exact execCdSetloc_of_cons h
  · exact (execCdTest_of_cons h).trans (congrArg _ (if_pos hversion))
  · exact (execCdTest_of_cons h).trans (congrArg _ (if_neg hother))
  · exact trackStart_of_listed (hdec a ▸ hy)
  · rw [hdigits, hdigits]
    exact execCdGettd_of_cons h
  · refine (execCdPlay_of_cons h).trans ?_
    rw [if_neg (hdec a ▸ htrack)]
    rfl
  · refine (execCdPlay_of_cons h).trans ?_
    rw [if_pos (hdec a ▸ hzero), applySeek_eq]
    rfl

end Sys2Proof.Machine
end

section
/-! PROOFS. The family of the exceptions: only a component's own step sends its trigger, and at most one (O40). -/
namespace Sys2Proof.Machine

/-! ### The triggers of a step (rule R611) -/

/-- Among the events a step of `c` sends: at most one trigger of `c`, and none of another component. -/
def AtMostOwnTrigger (c : Comp) (es : List Event) : Prop := ∀ c', triggers c' es ≤ if c = c' then 1 else 0

/-- An interrupt edge sends its component's trigger when it is due, and nothing otherwise. -/
theorem atMostOwnTrigger_of_edge {c : Comp} {es : List Event} {due : Prop} (hdue : due → es = [.trigger c])
    (hnot : ¬ due → es = []) : AtMostOwnTrigger c es := by
  intro c'
  by_cases h : due
  · rw [hdue h]
    simp [triggers, List.countP_cons]
  · rw [hnot h]
    exact Nat.zero_le _

theorem tickTxn_out (c : Comp) (cycles : Nat) (s : State) :
    ∃ es, (tickTxn c cycles s).out = s.out ++ es ∧ AtMostOwnTrigger c es := by
  cases c with
  | gpu =>
    let timing := advanceTiming s.cfg cycles s.gpu
    obtain ⟨_, es, hsignal, hdue, hnot⟩ := signalGpu_cases { s with gpu := timing.2 }
    have hown : AtMostOwnTrigger .gpu es := atMostOwnTrigger_of_edge (fun h => (hdue h).1) fun h => (hnot h).1
    refine ⟨es ++ [.vblank timing.1], ?_, fun c' => ?_⟩
    · show (emit (.vblank timing.1) (signalGpu { s with gpu := timing.2 })).out = _
      rw [emit_out, hsignal, List.append_assoc]
    · rw [triggers_append]
      exact hown c'
  | dma =>
    obtain ⟨es, hstep, hrises, hstays⟩ := dmaStep_cases s
    exact ⟨es, congrArg State.out hstep, atMostOwnTrigger_of_edge hrises hstays⟩
  | cdrom =>
    obtain ⟨_, es, hstep, hdue, hnot⟩ := cdStep_of_advanceSector (s := s) rfl
    exact ⟨es, congrArg State.out hstep, atMostOwnTrigger_of_edge (fun h => (hdue h).2) fun h => (hnot h).2⟩

/-- Settles O40: a step sends what its interrupt edge does, and every other transaction sends no trigger. -/
theorem triggersOnlyAtSteps : Obligations.TriggersOnlyAtSteps := by
  intro t s s' h
  by_cases ht : ∀ c n, t ≠ .tick c n
  · obtain ⟨es, hout, hnone⟩ := sendsNoTrigger_transact ht s s' h
    exact ⟨es, hout, fun c => (hnone c).le.trans (Nat.zero_le _)⟩
  · push Not at ht
    obtain ⟨c, n, rfl⟩ := ht
    cases h
    exact tickTxn_out c n s

end Sys2Proof.Machine
end

section
/-! PROOFS. The family of reset: the register values the rules give for power-on (O59). -/
namespace Sys2Proof.Machine

/-! ### The registers at power-on (rules R701 to R703) -/

/-- Every register GP1 0x00 writes stands at its power-on value already. -/
theorem exec_gp1Reset_powerOn (c : Config) : exec .gp1Reset (State.powerOn c) = .next (State.powerOn c) :=
  gp1ResetRestoresTheDefaults _

/-- The value GP1 0x00 leaves: at power-on the parity is even and GP1 0x00 changes nothing. -/
theorem gpustat_powerOn (c : Config) : gpustat (Gpu.powerOn c) = 0x14802000#32 := by
  obtain ⟨t, hreset, hstat⟩ := gpustat_gp1Reset (s := State.powerOn c) rfl
  rw [exec_gp1Reset_powerOn] at hreset
  cases hreset
  exact hstat

theorem channel_powerOn (c : Config) (n : Fin 7) : channel (State.powerOn c) n = ⟨0#32, 0#32, 0#32⟩ :=
  Vector.getElem_replicate n.isLt

/-- The two parameter bits are set: the FIFO is empty, and with a capacity above 0 it is not full. -/
theorem cdStatus_powerOn {c : Config} (hcap : 0 < c.fifoCap) : cdStatus c (Cd.powerOn c) = 0x18#8 := by
  simp only [cdStatus, Cd.powerOn, List.length_nil, Nat.lt_irrefl, hcap, decide_true, decide_false]
  decide

/-! ### The step without a transaction (rule R704) -/

theorem step_of_script_nil {s : State} (h : s.script = []) : step s = .next s := by
  rw [step, h]

/-- Settles O59: power-on writes the values of the registers out; GPUSTAT, the channels, the CDROM status register and
the step have their lemmas. -/
theorem resetValues : Obligations.ResetValues := by
  refine ⟨?gpu, ⟨rfl, rfl, channel_powerOn Config.default⟩, ?cd, fun _ => rfl, step_of_script_nil rfl⟩
  case gpu =>
    have hstat : gpustat State.reset.gpu = 0x14802000#32 := gpustat_powerOn Config.default
    simp only [hstat, and_true]
    simp only [State.reset, State.powerOn, Gpu.powerOn, and_self]
  case cd =>
    have hstatus : cdStatus State.reset.cfg State.reset.cd = 0x18#8 := cdStatus_powerOn (by decide)
    simp only [hstatus, and_true]
    simp only [State.reset, State.powerOn, Cd.powerOn, Config.default, and_self]

end Sys2Proof.Machine
end
